-- ==== Sys2Proof/Word.lean ====
section
/-! DEFINITION. The words of the TPE-2: bytes, 32-bit words, slot sets (12 R188). -/

namespace Sys2Proof

/-- A byte of memory, of a record or of the configuration image. -/
abbrev Byte := BitVec 8

/-- A 32-bit word: an access, a record word, a node id, a shared-risk id (R166, R188). -/
abbrev Word := BitVec 32

/-- The four byte enables of an access, or the valid bytes of a staged word (R166, R168). -/
abbrev ByteMask := BitVec 4

/-- A set of grid slots or maker channels 0..79, one bit each, as R188 lays it out. -/
abbrev SlotSet := BitVec 80

/-- A 32-bit node id (R1). -/
abbrev NodeId := Word

end Sys2Proof
end

