-- ==== Sys2Proof/Syntax.lean ====
section
/-! DEFINITION. The commands: one constructor per row of spec/opcode_table.json. -/

namespace Sys2Proof

/-- One of the two ends of a link, and the direction whose light arrives at that end (R17). -/
inductive Dir where
  | zero
  | one
deriving DecidableEq, Repr

/-- One of the two Path Engines (R76). -/
inductive EngineId where
  | e0
  | e1
deriving DecidableEq, Repr

/-- The blocks that raise hop-lost events (R19). -/
inductive LostSource where
  | topologyStore
  | spanConditioner
  | reportIntake
deriving DecidableEq, Repr

/-- How the downstream memory answers an access (R166). -/
inductive Response where
  | ok
  | error
deriving DecidableEq, Repr

/-- A host read as the upstream bus presents it: its address and its four byte enables (R166). -/
structure ReadAccess where
  addr : Word
  enables : ByteMask
deriving DecidableEq, Repr

/-- The commands of the block. An operand says what the event brings with it: an access, the bytes
that the configuration memory answered, or the timer, engine or block concerned. -/
inductive Instr where
  /-- POWER_ON -/
  | powerOn
  /-- LOAD_ATTEMPT_START -/
  | loadAttemptStart
  /-- LOAD_READ_END, with the bytes that were answered: 512, or fewer when one was not. -/
  | loadReadEnd (answered : List Byte)
  /-- BUS_RESET_ASSERT -/
  | busResetAssert
  /-- BUS_RESET_DEASSERT -/
  | busResetDeassert
  /-- HOST_WRITE -/
  | hostWrite (addr data : Word) (enables : ByteMask) (resp : Response)
  /-- HOST_READ -/
  | hostRead (access : ReadAccess) (resp : Response)
  /-- HOST_WRITE_REPORT_SLOT -/
  | hostWriteReportSlot (addr data : Word) (enables : ByteMask) (resp : Response)
  /-- HOST_WRITE_QUERY_SLOT -/
  | hostWriteQuerySlot (addr data : Word) (enables : ByteMask) (resp : Response)
  /-- CONSUMER_INDEX_WRITE -/
  | consumerIndexWrite (addr data : Word) (enables : ByteMask) (resp : Response)
  /-- INTAKE_TAKE_RECORD -/
  | intakeTakeRecord
  /-- OBSERVATION_UP -/
  | observationUp
  /-- OBSERVATION_DOWN -/
  | observationDown
  /-- NODE_HOLD_EXPIRY of the node at a node index. -/
  | nodeHoldExpiry (node : Nat)
  /-- CLAIM_HOLD_EXPIRY of the claim of a node index at a local port. -/
  | claimHoldExpiry (claimant port : Nat)
  /-- HOLDOFF_EXPIRY of a direction of the link at a link index. -/
  | holdoffExpiry (link : Nat) (dir : Dir)
  /-- DISPATCH_QUERY -/
  | dispatchQuery
  /-- SAVE_END, with the bytes read back: 512, or fewer when a byte was not answered. -/
  | saveEnd (readBack : List Byte)
  /-- RELOAD_READ_END, with the bytes that were answered. -/
  | reloadReadEnd (answered : List Byte)
  /-- SETTLE_TIMER_EXPIRY -/
  | settleTimerExpiry
  /-- SEARCH_STEP of one Path Engine. -/
  | searchStep (engine : EngineId)
  /-- COMMIT: the table takes the request of one Path Engine. -/
  | commit (engine : EngineId)
  /-- ACTIVATE -/
  | activate
  /-- RELEASE -/
  | release
  /-- ADOPT -/
  | adopt
  /-- LIT_CHECK -/
  | litCheck
  /-- HOP_LOST_EVENT: the table takes the oldest event of one block. -/
  | hopLostEvent (source : LostSource)
  /-- RESERVATION_EXPIRY of the record at an index. -/
  | reservationExpiry (record : Nat)
  /-- SWEEP_RESULT -/
  | sweepResult
  /-- START_SINGLE -/
  | startSingle
  /-- START_CYCLIC -/
  | startCyclic
  /-- STOP -/
  | stop
  /-- SWEEP_STEP -/
  | sweepStep
  /-- SWEEP_TIMER_EXPIRY -/
  | sweepTimerExpiry
  /-- ALARM_RISING_EDGE -/
  | alarmRisingEdge
  /-- ALARM_INPUT_FALL -/
  | alarmInputFall
  /-- RESULT_WRITER_TAKE -/
  | resultWriterTake
  /-- RESULT_WORD_HANDOFF -/
  | resultWordHandoff
  /-- NOTICE_TAKE -/
  | noticeTake
  /-- NOTICE_WORD_HANDOFF -/
  | noticeWordHandoff
  /-- WRITE_BUFFER_DRAIN, with the memory's response to the drained write. -/
  | writeBufferDrain (resp : Response)
deriving DecidableEq, Repr

end Sys2Proof
end

