-- ==== Sys2Proof/Decode.lean ====
section
/-! DEFINITION. The decoder over the opcode table's bits. The table gives no row of this block any bits
(spec/98_reader.md: no row has fixed bits or fields), so no word spells a command. The records and images
that software lays out in memory are read in Machine/Operands.lean and Machine/Image.lean. -/

namespace Sys2Proof

/-- The command that a word spells by the table's bits: none, since no row has bits (assumption log 30). -/
def decodeTableWord (_nbits _w : Nat) : Option Instr := none

end Sys2Proof
end

