-- ==== Sys2Proof/Machine/Bits.lean ====
section
/-! DEFINITION. Bit fields of words and images, byte lanes of a word, and slot sets (12 R188). -/

namespace Sys2Proof.Machine

/-- Bits lo..lo+len-1 of a word, as a number. -/
def bits (w : Word) (lo len : Nat) : Nat := (w.toNat >>> lo) % 2 ^ len

/-- One bit of a word. -/
def bit (w : Word) (i : Nat) : Bool := w.getLsbD i

/-- Word k of a record; a word the record does not have reads as 0. -/
def wordAt (ws : List Word) (k : Nat) : Word := ws.getD k 0

/-- A word from a number. -/
def word (n : Nat) : Word := BitVec.ofNat 32 n

/-- A field of a word that the part writes: the number n, of len bits, at bit lo. -/
def field (n lo len : Nat) : Nat := (n % 2 ^ len) <<< lo

/-- A flag of a word that the part writes. -/
def flag (b : Bool) (lo : Nat) : Nat := if b then 1 <<< lo else 0

/-- A signed number as a word, in two's complement (R188). -/
def signedWord (i : Int) : Word := BitVec.ofInt 32 i

/-- The bits of a word that a byte mask covers (byte 0 holds bits 0..7, R188). -/
def maskBits (m : ByteMask) : Word :=
  (if m.getLsbD 0 then 0x000000FF#32 else 0#32) ||| (if m.getLsbD 1 then 0x0000FF00#32 else 0#32) |||
  (if m.getLsbD 2 then 0x00FF0000#32 else 0#32) ||| (if m.getLsbD 3 then 0xFF000000#32 else 0#32)

/-- The old word with the bytes of the new one where the mask is set (R168, R172, R174). -/
def mergeWord (old new : Word) (m : ByteMask) : Word :=
  (old &&& ~~~ maskBits m) ||| (new &&& maskBits m)

/-- Byte i (0..3) of a word (R188). -/
def byteOf (w : Word) (i : Nat) : Byte := BitVec.ofNat 8 (w.toNat >>> (8 * i))

/-- The word made of four bytes, the first at the lowest address (R188). -/
def wordOfBytes (b0 b1 b2 b3 : Byte) : Word :=
  word (b0.toNat + 256 * b1.toNat + 65536 * b2.toNat + 16777216 * b3.toNat)

/-- The bytes of a list of words in ascending address order. -/
def bytesOfWords (ws : List Word) : List Byte :=
  ws.flatMap fun w => [byteOf w 0, byteOf w 1, byteOf w 2, byteOf w 3]

/-- All four bytes. -/
def allBytes : ByteMask := 0xF#4

/-- The address of the word that holds a byte address. -/
def wordBase (a : Nat) : Nat := a - a % 4

/-! ### Slot sets -/

/-- The set of one slot; a slot outside 0..79 gives the empty set. -/
def slotBit (g : Nat) : SlotSet := BitVec.ofNat 80 (1 <<< g)

/-- A slot is in a set. -/
def hasSlot (x : SlotSet) (g : Nat) : Bool := x.getLsbD g

/-- The slots lo..hi. -/
def slotRange (lo hi : Nat) : SlotSet := BitVec.ofNat 80 ((1 <<< (hi + 1)) - (1 <<< lo))

/-- Every slot of x is in y. -/
def slotSubset (x y : SlotSet) : Bool := (x &&& y) == x

/-- The slots 0..79 in ascending order. -/
def allSlots : List Nat := List.range 80

/-- The lowest slot of a set; 0 for the empty set, which no route carries (R91). -/
def lowestSlot (x : SlotSet) : Nat := (allSlots.find? fun g => hasSlot x g).getD 0

/-- The highest slot of a set; 0 for the empty set, which no route carries (R91). -/
def highestSlot (x : SlotSet) : Nat := (allSlots.reverse.find? fun g => hasSlot x g).getD 0

/-- Word i (0..2) of the bit map of a slot set (R188). -/
def slotWord (x : SlotSet) (i : Nat) : Word := word (x.toNat >>> (32 * i))

end Sys2Proof.Machine
end

