-- ==== Sys2Proof/Machine/Image.lean ====
section
/-! DEFINITION. The 512-byte configuration image (12 section 12.7): its windows, profiles, filters, routing
and global parameters, the tests of R181, the CRC, the built-in default image (R182) and the changes that a
CONFIG_SET makes (R143). -/

namespace Sys2Proof.Machine

/-- Byte at an offset, as a number. -/
def imageByte (img : List Byte) (o : Nat) : Nat := (img.getD o 0#8).toNat

/-- Two bytes at an offset, the least significant first (R188). -/
def imageHalf (img : List Byte) (o : Nat) : Nat := imageByte img o + 256 * imageByte img (o + 1)

/-- Four bytes at an offset (R188). -/
def imageWord (img : List Byte) (o : Nat) : Word :=
  word (imageHalf img o + 65536 * imageHalf img (o + 2))

/-! ### Windows -/

/-- Window kinds (R167). -/
inductive WindowKind where
  | report
  | query
  | result
  | notice
deriving DecidableEq, Repr

/-- A used window: its kind, its base address and its size in bytes (R167). -/
structure Window where
  kind : WindowKind
  base : Nat
  size : Nat
deriving DecidableEq, Repr

/-- The kind that a code names; 0 and unknown codes name none. -/
def windowKind (code : Nat) : Option WindowKind :=
  if code = 1 then some .report else if code = 2 then some .query
  else if code = 3 then some .result else if code = 4 then some .notice else none

/-- Window entry i, none when it is unused. -/
def windowEntry (img : List Byte) (i : Nat) : Option Window :=
  (windowKind (imageByte img (8 * i + 4))).map fun k =>
    { kind := k, base := (imageWord img (8 * i)).toNat, size := 2 ^ imageByte img (8 * i + 5) }

/-- The eight entries (R167). -/
def windowEntries (img : List Byte) : List (Option Window) := (List.range 8).map (windowEntry img)

/-- The used windows. -/
def windows (img : List Byte) : List Window := (windowEntries img).filterMap id

/-- An address falls in a window (R167). -/
def Window.covers (w : Window) (a : Nat) : Bool := decide (w.base ≤ a) && decide (a < w.base + w.size)

/-- The window an address falls in (R167). -/
def windowAt (img : List Byte) (a : Nat) : Option Window := (windows img).find? fun w => w.covers a

/-- The window of a kind of which there is exactly one. -/
def windowOf (img : List Byte) (k : WindowKind) : Option Window :=
  (windows img).find? fun w => w.kind == k

/-- The base of the window of a kind; 0 when there is none, which no image in force lacks (R181). -/
def windowBase (img : List Byte) (k : WindowKind) : Nat := ((windowOf img k).map (·.base)).getD 0

/-- Ring capacity: the notice window's size divided by 16, less 1 (R159). -/
def ringCapacity (img : List Byte) : Nat :=
  ((windowOf img .notice).map fun w => w.size / 16 - 1).getD 0

/-- Two windows share an address. -/
def Window.overlaps (w v : Window) : Bool :=
  decide (w.base < v.base + v.size) && decide (v.base < w.base + w.size)

/-- No two windows of a list overlap. -/
def noOverlap : List Window → Bool
  | [] => true
  | w :: t => t.all (fun v => !w.overlaps v) && noOverlap t

/-- The size of a window fits its kind (R181 test 3). -/
def Window.sizeFits (w : Window) : Bool :=
  match w.kind with
  | .report => (List.range 9).any fun i => w.size == 2 ^ (12 + i)
  | .query => w.size == 8192
  | .result => w.size == 16384
  | .notice => (List.range 5).any fun i => w.size == 2 ^ (12 + i)

/-- R181 test 3: the window table is sound. -/
def windowsSound (img : List Byte) : Bool :=
  (List.range 8).all (fun i => imageByte img (8 * i + 4) ≤ 4) &&
  (windows img).all (fun w => w.sizeFits && w.base % w.size == 0) &&
  (((windows img).filter fun w => w.kind == .query).length == 1) &&
  (((windows img).filter fun w => w.kind == .result).length == 1) &&
  (((windows img).filter fun w => w.kind == .notice).length == 1) &&
  noOverlap (windows img)

/-! ### Profiles -/

/-- Channel direction (R68). -/
inductive ChannelDir where
  | ascending
  | descending
deriving DecidableEq, Repr

/-- Noise form (R62, R63). -/
inductive NoiseForm where
  | osnrTenths
  | linear
deriving DecidableEq, Repr

/-- A maker profile (R143, 12 section 12.7). -/
structure Profile where
  base : Nat
  channelDir : ChannelDir
  form : NoiseForm
  latch : Bool
  calibration : Int
  multiplier : Nat
  upPersistence : Nat
  downPersistence : Nat
  holdoff : Nat
  suppress : Nat
  reuse : Nat
  faultThreshold : Nat
deriving DecidableEq, Repr

/-- Profile n of an image. -/
def profileAt (img : List Byte) (n : Nat) : Profile :=
  let o := 64 + 16 * n
  let flags := imageByte img (o + 1)
  { base := imageByte img o
    channelDir := if flags % 2 = 1 then .descending else .ascending
    form := if flags / 2 % 2 = 1 then .linear else .osnrTenths
    latch := flags / 4 % 2 == 1
    calibration := (img.getD (o + 2) 0#8).toInt
    multiplier := imageByte img (o + 3)
    upPersistence := imageByte img (o + 4)
    downPersistence := imageByte img (o + 5)
    holdoff := imageByte img (o + 6)
    suppress := imageByte img (o + 7)
    reuse := imageByte img (o + 8)
    faultThreshold := imageByte img (o + 9) }

/-- The ranges of R143 for a profile. -/
def Profile.inRange (p : Profile) : Bool :=
  decide (p.base ≤ 79) && decide (-50 ≤ p.calibration) && decide (p.calibration ≤ 50) &&
  decide (1 ≤ p.multiplier) && decide (p.multiplier ≤ 16) &&
  decide (1 ≤ p.upPersistence) && decide (p.upPersistence ≤ 8) &&
  decide (1 ≤ p.downPersistence) && decide (p.downPersistence ≤ 8) &&
  decide (p.holdoff ≤ 60) && decide (16 ≤ p.suppress) && decide (p.suppress ≤ 255) &&
  decide (p.reuse < p.suppress) && decide (1 ≤ p.faultThreshold) && decide (p.faultThreshold ≤ 63)

/-! ### Acceptance filter -/

/-- A filter entry (R52); the kind set has bit k − 1 for report kind k. -/
structure Filter where
  value : Word
  mask : Word
  enabled : Bool
  kinds : Nat
deriving DecidableEq, Repr

/-- Filter entry n of an image; bits of its flag byte and kind set that the layout does not list are
ignored (assumption log 18). -/
def filterAt (img : List Byte) (n : Nat) : Filter :=
  let o := 320 + 16 * n
  { value := imageWord img o
    mask := imageWord img (o + 4)
    enabled := imageByte img (o + 8) % 2 == 1
    kinds := imageByte img (o + 9) % 32 }

/-! ### Routing -/

/-- Line choice of a class (R164). -/
inductive LineChoice where
  | none
  | a
  | b
deriving DecidableEq, Repr

/-- Routing of a class: its ring enable and its line choice (R164). -/
structure ClassRouting where
  ring : Bool
  line : LineChoice
deriving DecidableEq, Repr

/-- Routing of the class with a class code 1..7. -/
def routingAt (img : List Byte) (cls : Nat) : ClassRouting :=
  let x := imageByte img (447 + cls)
  { ring := x % 2 == 1
    line := if x / 2 % 4 = 1 then .a else if x / 2 % 4 = 2 then .b else .none }

/-- The routing table: the seven classes in code order. -/
def routingTable (img : List Byte) : List ClassRouting := (List.range 7).map fun i => routingAt img (i + 1)

/-- Every line choice of the routing bytes names NONE, A or B (R143). -/
def routingInRange (img : List Byte) : Bool :=
  (List.range 7).all fun i => imageByte img (448 + i) / 2 % 4 ≤ 2

/-! ### Global parameters -/

/-- Global parameters (R183, 12 section 12.7). The codes of the two choices stand as they are written. -/
structure Globals where
  settle : Nat
  startMode : Nat
  defaultHold : Nat
  unknownFormat : Nat
  sweepInterval : Nat
  recover : Nat
  linkChange : Nat
  marginDrift : Nat
deriving DecidableEq, Repr

/-- The global parameters of an image. -/
def globalsOf (img : List Byte) : Globals :=
  { settle := imageByte img 456
    startMode := imageByte img 457
    defaultHold := imageByte img 458
    unknownFormat := imageByte img 459
    sweepInterval := imageHalf img 460
    recover := imageHalf img 462
    linkChange := imageHalf img 464
    marginDrift := imageHalf img 466 }

/-- The ranges of R183. -/
def Globals.inRange (g : Globals) : Bool :=
  decide (g.settle ≤ 255) && (g.startMode == 0 || g.startMode == 2) &&
  decide (1 ≤ g.defaultHold) && decide (g.defaultHold ≤ 255) && decide (g.unknownFormat ≤ 1) &&
  decide (1 ≤ g.sweepInterval) && decide (g.sweepInterval ≤ 65535) &&
  decide (g.recover ≤ 65535) && decide (g.linkChange ≤ 65535) && decide (g.marginDrift ≤ 65535)

/-! ### The CRC and the tests of R181 -/

/-- One bit of the CRC register: shift out the top bit, and add the polynomial x^16 + x^12 + x^5 + 1 when it
was set. -/
def crcShift (c : Nat) : Nat :=
  if 32768 ≤ c then ((c * 2) % 65536) ^^^ 0x1021 else c * 2

/-- One byte of the CRC, most significant bit first (R181). -/
def crcByte (c : Nat) (b : Byte) : Nat :=
  crcShift (crcShift (crcShift (crcShift (crcShift (crcShift (crcShift (crcShift
    (c ^^^ (b.toNat * 256)))))))))

/-- A function of a number, applied once the number has been brought to a numeral, so that the kernel can evaluate a
whole image byte by byte; it is the application (Laws/Image.lean). -/
def atNumeral (f : Nat → Nat) : Nat → Nat
  | 0 => f 0
  | n + 1 => f (n + 1)

/-- The CRC register after a list of bytes: the left fold of crcByte (Laws/Image.lean). -/
def crcBytes : List Byte → Nat → Nat
  | [], c => c
  | b :: t, c => atNumeral (crcBytes t) (crcByte c b)

/-- The CRC of R181: initial value of all ones, bytes in ascending order, no inversion. -/
def crc16 (bs : List Byte) : Nat := crcBytes bs 65535

/-- The image with its CRC computed over bytes 0..509 and placed in the CRC field (R186, 12 section 12.7). -/
def placeCrc (img : List Byte) : List Byte :=
  let c := crc16 (img.take 510)
  img.take 510 ++ [BitVec.ofNat 8 (c % 256), BitVec.ofNat 8 (c / 256)]

/-- Why an image is invalid (R181), or what a SAVE found different (R186). -/
inductive PortReason where
  | noAnswer
  | crc
  | windows
  | range
  | verify
deriving DecidableEq, Repr

/-- The reason codes of R181 and R186. -/
def PortReason.code : PortReason → Nat
  | .noAnswer => 1
  | .crc => 2
  | .windows => 3
  | .range => 4
  | .verify => 5

/-- R181 test 4: every profile, filter and routing value lies within R143, every global value within R183. -/
def valuesInRange (img : List Byte) : Bool :=
  (List.range 16).all (fun n => (profileAt img n).inRange) && routingInRange img &&
  (globalsOf img).inRange

/-- An image of 512 bytes whose windows and values pass the tests 3 and 4 of R181. -/
def imageSound (img : List Byte) : Bool :=
  img.length == 512 && windowsSound img && valuesInRange img

/-- The judgement of R181 on the bytes that the configuration memory answered: the reason of the first test that
fails, or none for a valid image. Fewer or more than 512 bytes are a transfer that was not answered whole
(assumption log 6). -/
def judgeImage (answered : List Byte) : Option PortReason :=
  if answered.length ≠ 512 then some .noAnswer
  else if crc16 (answered.take 510) ≠ imageHalf answered 510 then some .crc
  else if windowsSound answered = false then some .windows
  else if valuesInRange answered = false then some .range
  else none

/-! ### The built-in default image (R182) -/

/-- The bytes of a window entry. -/
def windowBytes (base kind size : Nat) : List Byte :=
  bytesOfWords [word base] ++ [BitVec.ofNat 8 kind, BitVec.ofNat 8 size, 0#8, 0#8]

/-- The bytes of a default profile. -/
def defaultProfileBytes : List Byte :=
  [0#8, 0#8, 0#8, 1#8, 2#8, 2#8, 5#8, 64#8, 32#8, 24#8, 0#8, 0#8, 0#8, 0#8, 0#8, 0#8]

/-- The default routing, classes INGEST, NODE, LINK, LIGHTPATH, QUERY, SWEEP, CONFIG, and the reserved byte. -/
def defaultRoutingBytes : List Byte := [1#8, 1#8, 3#8, 3#8, 5#8, 1#8, 3#8, 0#8]

/-- The default global parameters. -/
def defaultGlobalBytes : List Byte :=
  [20#8, 2#8, 30#8, 0#8, 60#8, 0#8, 0#8, 1#8, 0#8, 4#8, 0#8, 2#8, 0#8, 0#8, 0#8, 0#8]

/-- Bytes 0..509 of the default image. -/
def defaultImageBody : List Byte :=
  (windowBytes 0x0F800000 1 16 ++ windowBytes 0x0F900000 2 13 ++ windowBytes 0x0F904000 3 14 ++
    windowBytes 0x0F910000 4 12 ++ List.replicate 32 0#8) ++
  (List.replicate 16 defaultProfileBytes).flatten ++ List.replicate 128 0#8 ++
  defaultRoutingBytes ++ defaultGlobalBytes ++ List.replicate 38 0#8

/-- The built-in default image, which passes R181. -/
def defaultImage : List Byte := placeCrc defaultImageBody

/-! ### CONFIG_SET (R143) -/


/-- An image with a byte run replaced by the values of a CONFIG_SET; the target's reserved bytes keep what they
hold (R143). -/
def spliceImage (img : List Byte) (o len : Nat) (values : List Byte) : List Byte :=
  img.take o ++ (values ++ List.replicate len 0#8).take len ++ img.drop (o + len)

end Sys2Proof.Machine
end

