-- ==== Sys2Proof/Machine/Arith.lean ====
section
/-! DEFINITION. Impairment and cost arithmetic (04 R60 to R75): the decibel table, the conversions under a maker
profile, channel mapping, saturating sums, budget. -/

namespace Sys2Proof.Machine

/-! ### The decibel table (R61) -/

/-- Entries C(0)..C(60). -/
def decibels0 : List Nat := [
   1048576, 1024707, 1001382, 978588, 956313, 934544, 913272, 892483, 872168, 852315,
   832914, 813954, 795426, 777320, 759626, 742335, 725437, 708924, 692787, 677018,
   661607, 646547, 631830, 617447, 603393, 589658, 576235, 563119, 550301, 537774,
   525533, 513570, 501880, 490456, 479292, 468382, 457720, 447301, 437119, 427169,
   417446, 407943, 398657, 389583, 380715, 372049, 363580, 355304, 347216, 339313,
   331589, 324041, 316665, 309457, 302413, 295529, 288802, 282228, 275804, 269526,
   263390]

/-- Entries C(61)..C(121). -/
def decibels1 : List Nat := [
   257395, 251536, 245810, 240215, 234747, 229403, 224182, 219079, 214092, 209218,
   204456, 199802, 195254, 190809, 186466, 182222, 178074, 174020, 170059, 166188,
   162405, 158708, 155096, 151565, 148115, 144744, 141449, 138229, 135083, 132008,
   129003, 126067, 123197, 120393, 117652, 114974, 112357, 109799, 107300, 104858,
   102471, 100138, 97859, 95631, 93454, 91327, 89248, 87217, 85231, 83291,
   81395, 79543, 77732, 75963, 74233, 72544, 70892, 69279, 67702, 66161,
   64655]

/-- Entries C(122)..C(182). -/
def decibels2 : List Nat := [
   63183, 61745, 60339, 58966, 57624, 56312, 55030, 53777, 52553, 51357,
   50188, 49046, 47929, 46838, 45772, 44730, 43712, 42717, 41745, 40794,
   39866, 38958, 38071, 37205, 36358, 35530, 34722, 33931, 33159, 32404,
   31666, 30946, 30241, 29553, 28880, 28223, 27580, 26953, 26339, 25739,
   25154, 24581, 24021, 23475, 22940, 22418, 21908, 21409, 20922, 20446,
   19980, 19525, 19081, 18647, 18222, 17807, 17402, 17006, 16619, 16241,
   15871]

/-- Entries C(183)..C(243). -/
def decibels3 : List Nat := [
   15510, 15157, 14812, 14474, 14145, 13823, 13508, 13201, 12900, 12607,
   12320, 12039, 11765, 11497, 11236, 10980, 10730, 10486, 10247, 10014,
   9786, 9563, 9345, 9133, 8925, 8722, 8523, 8329, 8140, 7954,
   7773, 7596, 7423, 7254, 7089, 6928, 6770, 6616, 6465, 6318,
   6174, 6034, 5897, 5762, 5631, 5503, 5378, 5255, 5136, 5019,
   4905, 4793, 4684, 4577, 4473, 4371, 4272, 4174, 4079, 3987,
   3896]

/-- Entries C(244)..C(304). -/
def decibels4 : List Nat := [
   3807, 3720, 3636, 3553, 3472, 3393, 3316, 3240, 3167, 3095,
   3024, 2955, 2888, 2822, 2758, 2695, 2634, 2574, 2515, 2458,
   2402, 2347, 2294, 2242, 2191, 2141, 2092, 2045, 1998, 1953,
   1908, 1865, 1822, 1781, 1740, 1701, 1662, 1624, 1587, 1551,
   1516, 1481, 1447, 1414, 1382, 1351, 1320, 1290, 1261, 1232,
   1204, 1177, 1150, 1124, 1098, 1073, 1049, 1025, 1001, 979,
   956]

/-- Entries C(305)..C(365). -/
def decibels5 : List Nat := [
   935, 913, 892, 872, 852, 833, 814, 795, 777, 760,
   742, 725, 709, 693, 677, 662, 647, 632, 617, 603,
   590, 576, 563, 550, 538, 526, 514, 502, 490, 479,
   468, 458, 447, 437, 427, 417, 408, 399, 390, 381,
   372, 364, 355, 347, 339, 332, 324, 317, 309, 302,
   296, 289, 282, 276, 270, 263, 257, 252, 246, 240,
   235]

/-- Entries C(366)..C(426). -/
def decibels6 : List Nat := [
   229, 224, 219, 214, 209, 204, 200, 195, 191, 186,
   182, 178, 174, 170, 166, 162, 159, 155, 152, 148,
   145, 141, 138, 135, 132, 129, 126, 123, 120, 118,
   115, 112, 110, 107, 105, 102, 100, 98, 96, 93,
   91, 89, 87, 85, 83, 81, 80, 78, 76, 74,
   73, 71, 69, 68, 66, 65, 63, 62, 60, 59,
   58]

/-- Entries C(427)..C(487). -/
def decibels7 : List Nat := [
   56, 55, 54, 53, 51, 50, 49, 48, 47, 46,
   45, 44, 43, 42, 41, 40, 39, 38, 37, 36,
   36, 35, 34, 33, 32, 32, 31, 30, 30, 29,
   28, 28, 27, 26, 26, 25, 25, 24, 23, 23,
   22, 22, 21, 21, 20, 20, 20, 19, 19, 18,
   18, 17, 17, 17, 16, 16, 16, 15, 15, 14,
   14]

/-- Entries C(488)..C(548). -/
def decibels8 : List Nat := [
   14, 14, 13, 13, 13, 12, 12, 12, 11, 11,
   11, 11, 10, 10, 10, 10, 10, 9, 9, 9,
   9, 9, 8, 8, 8, 8, 8, 7, 7, 7,
   7, 7, 7, 6, 6, 6, 6, 6, 6, 6,
   6, 5, 5, 5, 5, 5, 5, 5, 5, 4,
   4, 4, 4, 4, 4, 4, 4, 4, 4, 4,
   3]

/-- Entries C(549)..C(600). -/
def decibels9 : List Nat := [
   3, 3, 3, 3, 3, 3, 3, 3, 3, 3,
   3, 3, 3, 3, 2, 2, 2, 2, 2, 2,
   2, 2, 2, 2, 2, 2, 2, 2, 2, 2,
   2, 2, 2, 2, 2, 2, 1, 1, 1, 1,
   1, 1, 1, 1, 1, 1, 1, 1, 1, 1,
   1, 1]

/-- The decibel table C (R61): entry d is the integer nearest to 1048576 · 10^(−d/100). -/
def decibelTable : List Nat :=
  decibels0 ++ decibels1 ++ decibels2 ++ decibels3 ++ decibels4 ++ decibels5 ++ decibels6 ++ decibels7 ++ decibels8 ++ decibels9

/-- C(d), its index clamped to 0..600 (R61). -/
def decibel (d : Nat) : Nat := decibelTable.getD (min d 600) 1

/-! ### Limits -/

/-- The worst noise a report can leave in a record, and the noise of a new direction (R60). -/
def noiseLimit : Nat := 1048576

/-- The saturation limit of cost and noise sums (R67, R72). -/
def sumLimit : Nat := 16777215

/-- A sum that saturates (R67, R72). -/
def satAdd (a b : Nat) : Nat := min (a + b) sumLimit

/-! ### Conversions (R62 to R66) -/

/-- The low half of a noise word, read as a signed number (R62). -/
def signedHalf (w : Word) : Int := (BitVec.ofNat 16 w.toNat).toInt

/-- Noise conversion under a profile: the value stored, and whether it was clamped (R62, R63). -/
def convertNoise (p : Profile) (w : Word) : Nat × Bool :=
  match p.form with
  | .osnrTenths =>
    let d := signedHalf w + p.calibration
    if d < 0 then (decibel 0, true)
    else if 600 < d then (decibel 600, true)
    else (decibel d.toNat, false)
  | .linear =>
    if noiseLimit < w.toNat then (noiseLimit, true) else (w.toNat, false)

/-- The cost of a direction: a reported 0 taken as 1, times the multiplier, capped (R65). -/
def directionCost (p : Profile) (reported : Nat) : Nat :=
  min ((if reported = 0 then 1 else reported) * p.multiplier) 65535

/-- The regeneration cost of a node: times the multiplier, capped (R66). -/
def regenerationCost (p : Profile) (reported : Nat) : Nat := min (reported * p.multiplier) 65535

/-! ### Channels and slots (R68, R69) -/

/-- The grid slot of a maker channel, none when it is off the grid (R68). -/
def slotOfChannel (p : Profile) (v : Nat) : Option Nat :=
  match p.channelDir with
  | .ascending => if p.base + v ≤ 79 then some (p.base + v) else none
  | .descending => if v ≤ p.base then some (p.base - v) else none

/-- The set of one maker channel's slot: empty when the channel is not lit or is off the grid. -/
def litSlot (p : Profile) (lit : SlotSet) (v : Nat) : SlotSet :=
  if hasSlot lit v then ((slotOfChannel p v).map slotBit).getD 0#80 else 0#80

/-- The grid slots of a lit map of maker channels, off-grid channels dropped (R23, R68). -/
def mapLit (p : Profile) (lit : SlotSet) : SlotSet :=
  allSlots.foldl (fun x v => x ||| litSlot p lit v) 0#80

/-- A grid slot is addressable under a profile (R69). -/
def slotAddressable (p : Profile) (g : Nat) : Bool :=
  match p.channelDir with
  | .ascending => decide (p.base ≤ g) && decide (g ≤ 79)
  | .descending => decide (g ≤ p.base) && decide (g ≤ 79)

/-- The slots addressable under a profile (R69). -/
def addressableSlots (p : Profile) : SlotSet :=
  match p.channelDir with
  | .ascending => slotRange p.base 79
  | .descending => slotRange 0 (min p.base 79)

/-! ### Budget (R73) -/

/-- B from the required OSNR q and the margin m, both in tenths of a decibel and already clamped (R73). -/
def budgetOf (q m : Nat) : Nat := decibel (min 600 (q + m))

end Sys2Proof.Machine
end

