-- ==== Sys2Proof/Config.lean ====
section
/-! DEFINITION. The free values: values that the spec leaves open and that the model does not choose.
Each is a constant without a body, so no proof can see what it is. -/

namespace Sys2Proof.Config

/-- FREE VALUE (assumption log 4): what a byte of the downstream memory holds that nothing has
written yet, by its address. -/
opaque unwrittenByte : Nat → Byte

/-- FREE VALUE (assumption log 5): what a byte of the downstream memory holds after a write to it that
the memory answered with an error, by the count of such events and the address. -/
opaque erroredByte : Nat → Nat → Byte

/-- FREE VALUE (assumption log 5): the data that comes with an error response to a read (R166), by the
count of such events. -/
opaque erroredData : Nat → Word

/-- FREE VALUE (assumption log 34): what the memory's answer to a read holds in the bytes that the read did not enable
(R166), by the count of such events. -/
opaque disabledData : Nat → Word

end Sys2Proof.Config
end

