-- ==== Sys2Proof/Machine/Tables.lean ====
section
/-! DEFINITION. Sparse tables: lists of (index, entry) with strictly rising indexes. The node table, the port
tables, the link table, the query slots and stagings, the shadow classes and the memory are such tables. -/

namespace Sys2Proof.Machine

/-- The entry at an index. -/
def tableGet {α : Type} : List (Nat × α) → Nat → Option α
  | [], _ => none
  | (i, x) :: t, k => if i = k then some x else tableGet t k

/-- The table with an entry placed at an index, its order kept. -/
def tableSet {α : Type} : List (Nat × α) → Nat → α → List (Nat × α)
  | [], k, y => [(k, y)]
  | (i, x) :: t, k, y =>
    if k < i then (k, y) :: (i, x) :: t
    else if k = i then (k, y) :: t
    else (i, x) :: tableSet t k y

/-- The table without the entry at an index. -/
def tableErase {α : Type} (t : List (Nat × α)) (k : Nat) : List (Nat × α) :=
  t.filter fun e => e.1 != k

/-- The table with the entry at an index, if there is one, changed. -/
def tableUpdate {α : Type} (t : List (Nat × α)) (k : Nat) (f : α → α) : List (Nat × α) :=
  t.map fun e => if e.1 = k then (e.1, f e.2) else e

/-- The lowest index at or above n that a rising table does not use. -/
def lowestFreeFrom {α : Type} : List (Nat × α) → Nat → Nat
  | [], n => n
  | (i, _) :: t, n => if i = n then lowestFreeFrom t (n + 1) else n

/-- The lowest index not in use (R1, R17). -/
def lowestFree {α : Type} (t : List (Nat × α)) : Nat := lowestFreeFrom t 0

/-- The canonical form of a table: strictly rising indexes. -/
def risingTable {α : Type} : List (Nat × α) → Bool
  | [] => true
  | [_] => true
  | e :: e' :: t => decide (e.1 < e'.1) && risingTable (e' :: t)

/-- A number put into a list of ascending numbers; one already there leaves the list as it was (R149). -/
def insertAscending : List Nat → Nat → List Nat
  | [], n => [n]
  | m :: t, n => if n < m then n :: m :: t else if n = m then m :: t else m :: insertAscending t n

/-- Position i of a list replaced. -/
def setAt {α : Type} : List α → Nat → α → List α
  | [], _, _ => []
  | _ :: t, 0, y => y :: t
  | x :: t, n + 1, y => x :: setAt t n y

end Sys2Proof.Machine
end

