-- ==== Sys2Proof/Machine/Memory.lean ====
section
/-! DEFINITION. The downstream memory (10 R166, R173): a list of (address, byte) with rising addresses. An
unlisted address has no known value, so no listed byte can equal what an unlisted address reads as, and a
write never removes an entry (assumption log 4). -/

namespace Sys2Proof.Machine

/-- The canonical form: addresses strictly rising. -/
def memoryWf (m : List Host.Cell) : Bool := risingTable m

/-- The byte at an address, if something has written it. -/
def memoryByte (m : List Host.Cell) (a : Nat) : Option Byte := tableGet m a

/-- What a read finds at an address: the byte written there, or a free value (assumption log 4). -/
def readByte (m : List Host.Cell) (a : Nat) : Byte := (memoryByte m a).getD (Config.unwrittenByte a)

/-- The word at a word address, byte 0 at the lowest address (R188). -/
def readWord (m : List Host.Cell) (a : Nat) : Word :=
  wordOfBytes (readByte m a) (readByte m (a + 1)) (readByte m (a + 2)) (readByte m (a + 3))

/-- One byte lane of a word write: written when its enable is set (R166). -/
def writeLane (m : List Host.Cell) (a i : Nat) (b : Byte) (enables : ByteMask) : List Host.Cell :=
  if enables.getLsbD i then tableSet m (a + i) b else m

/-- A word written to memory with byte enables (R166, R173). -/
def writeWord (m : List Host.Cell) (a : Nat) (w : Word) (enables : ByteMask) : List Host.Cell :=
  writeLane (writeLane (writeLane (writeLane m a 0 (byteOf w 0) enables) a 1 (byteOf w 1) enables)
    a 2 (byteOf w 2) enables) a 3 (byteOf w 3) enables

/-- A word write that the memory answered with an error: the bytes enabled hold free values
afterwards (assumption log 5). n is the count of such events. -/
def spoilWord (m : List Host.Cell) (n a : Nat) (enables : ByteMask) : List Host.Cell :=
  writeLane (writeLane (writeLane (writeLane m a 0 (Config.erroredByte n a) enables)
    a 1 (Config.erroredByte n (a + 1)) enables) a 2 (Config.erroredByte n (a + 2)) enables)
    a 3 (Config.erroredByte n (a + 3)) enables

end Sys2Proof.Machine
end

