-- ==== Sys2Proof/Machine/State.lean ====
section
/-! DEFINITION. The state of the part: every register, table, queue, timer, buffer and pin the spec names,
as plain data, and its value right after power-on (State.reset). Tables that are sparse are lists of
(index, entry) with rising indexes. -/

namespace Sys2Proof.Machine

/-! ### Topology Store (01) and the condition fields of the Span Conditioner (02) -/

/-- Liveness of a node (R5 to R7). -/
inductive Liveness where
  | live
  | stale
deriving DecidableEq, Repr

/-- Confirmed condition of a direction (R26). -/
inductive CondState where
  | unknown
  | rising
  | up
  | falling
  | holdoff
  | down
deriving DecidableEq, Repr

/-- A direction record: the condition fields of R26 and the fields of R17. -/
structure Direction where
  cond : CondState
  count : Nat
  holdoff : Option Nat
  flap : Nat
  suppressed : Bool
  latched : Bool
  noise : Nat
  cost : Nat
  clamped : Bool
  lit : SlotSet
deriving DecidableEq, Repr

/-- One end of a link: a node index and a maker port (R17). -/
structure LinkEnd where
  node : Nat
  port : Nat
deriving DecidableEq, Repr

/-- A link (R17): its two ends, its shared-risk list and its two direction records. -/
structure Link where
  end0 : LinkEnd
  end1 : LinkEnd
  risks : List Word
  dir0 : Direction
  dir1 : Direction
deriving DecidableEq, Repr

/-- What a port entry refers to (R9): the stored claim of this port, or one end of a link. -/
inductive PortRef where
  | claim
  | linkEnd (link : Nat) (side : Dir)
deriving DecidableEq, Repr

/-- A node record (R1). Its port table lists (maker port, reference) in ascending port order (R9). -/
structure Node where
  id : NodeId
  profile : Nat
  liveness : Liveness
  quarantined : Bool
  faultScore : Nat
  refresh : Nat
  hold : Nat
  regenTotal : Nat
  regenInUse : Nat
  regenCost : Nat
  addNoise : Nat
  dropNoise : Nat
  expressNoise : Nat
  clamped : Bool
  ports : List (Nat × PortRef)
deriving DecidableEq, Repr

/-- A stored adjacency claim with the count of its hold timer (R10). -/
structure Claim where
  claimant : Nat
  port : Nat
  heardId : NodeId
  heardPort : Nat
  timer : Nat
deriving DecidableEq, Repr

/-- The Topology Store: node table by node index, claims oldest first, link table by link index. -/
structure Store where
  nodes : List (Nat × Node)
  claims : List Claim
  links : List (Nat × Link)
deriving DecidableEq, Repr

/-! ### Hand-offs between blocks -/

/-- An observation handed to the Span Conditioner (R21, R28). While one waits Report Intake takes no record (assumption
log 9), so no other link can take its index. -/
structure Observation where
  link : Nat
  dir : Dir
  up : Bool
deriving DecidableEq, Repr

/-- The causes of R122, the last of them for the records that a sweep finds lost. -/
inductive Cause where
  | confirmedDown
  | suppressed
  | linkRemoved
  | nodeStale
  | nodeRemoved
  | quarantined
  | foundBySweep
deriving DecidableEq, Repr

/-- The subject of a hop-lost event (R19). -/
inductive LostSubject where
  | direction (link : Nat) (dir : Dir) (sender : NodeId) (port : Nat)
  | node (id : NodeId)
deriving DecidableEq, Repr

/-- A hop-lost event (R19). -/
structure HopLost where
  subject : LostSubject
  cause : Cause
deriving DecidableEq, Repr

/-- An end of a link as one block names it to another: by node id and port (R1, R17). -/
structure EndName where
  node : NodeId
  port : Nat
deriving DecidableEq, Repr

/-- What the Topology Store hands to the Lightpath Table (R19, R23). A lit check names its direction by link index,
direction and the sending and receiving ends of the link, which alone says that the link at the index is still the same
(R17, assumption log 36). -/
inductive StoreEvent where
  | hopLost (event : HopLost)
  | litCheck (link : Nat) (dir : Dir) (sender receiver : EndName)
deriving DecidableEq, Repr

/-! ### Queries (07) -/

/-- Slot policy of a search (R91). -/
inductive Policy where
  | first
  | last
  | preferred
deriving DecidableEq, Repr

/-- The fields of a FIND or FIND_PAIR after the clamps of R130. -/
structure FindReq where
  source : NodeId
  dest : NodeId
  reserve : Bool
  nodeDisjoint : Bool
  policy : Policy
  preferred : Nat
  hold : Nat
  lo : Nat
  hi : Nat
  hopLimit : Nat
  regenMax : Nat
  q : Nat
  m : Nat
  exNodes : List NodeId
  exRisks : List Word
deriving DecidableEq, Repr

/-- One hop list entry of an ADOPT (R120). -/
structure AdoptEntry where
  node : NodeId
  port : Nat
  slot : Nat
  regen : Bool
deriving DecidableEq, Repr

/-- The action of a SWEEP (R142). -/
inductive SweepAction where
  | startSingle
  | startCyclic
  | stop
deriving DecidableEq, Repr

/-- The target of a CONFIG_SET (R143). -/
inductive ConfigTarget where
  | profile (n : Nat)
  | filter (n : Nat)
  | routing
  | globals
deriving DecidableEq, Repr

/-- The fields of a query, by its kind (12 section 12.3). -/
inductive QueryBody where
  | find (r : FindReq)
  | findPair (r : FindReq)
  | activate (tag : Nat)
  | release (tag : Nat)
  | adopt (q m hopCount : Nat) (entries : List AdoptEntry)
  | lookupNode (id : NodeId)
  | lookupLink (id : NodeId) (port : Nat)
  | status (clear : Bool)
  | sweep (action : SweepAction)
  | configSet (target : ConfigTarget) (values : List Byte)
  | save
  | reload
  | flush
  | nodeClear (id : NodeId)
deriving DecidableEq, Repr

/-- A held query (R128): its closing word's fields, its CLAMPED mark (R130), its PROVISIONAL mark once it
has been taken from its queue (R135), and its fields. -/
structure Query where
  tag : Nat
  kind : Nat
  high : Bool
  notify : Bool
  clamped : Bool
  provisional : Bool
  body : QueryBody
deriving DecidableEq, Repr

/-- A completed record as the Bus Tap hands it on (R169): its word images and its incomplete mark. -/
structure Record where
  words : List Word
  incomplete : Bool
deriving DecidableEq, Repr

/-- A completed query not yet judged, with whether the dispatcher was SETTLING at its completion (R132, R135). -/
structure RawQuery where
  record : Record
  settling : Bool
deriving DecidableEq, Repr

/-- Where the query of an IN_SERVICE slot is served (R132): in an engine, handed to the Lightpath Table or the
Sweep Unit and not yet taken, in the Configuration Port (its waiting answer included), or answered by the
dispatcher or the table. -/
inductive Serving where
  | engine (e : EngineId)
  | table
  | sweep
  | port
  | answered
deriving DecidableEq, Repr

/-- A query slot that is QUEUED or IN_SERVICE (R128); a slot not listed is IDLE, or STAGING when the Bus Tap
holds an open staging for it. The query of an IN_SERVICE slot stands where it is served. -/
inductive SlotQuery where
  | queued (q : Query)
  | inService (serving : Serving) (successor : Option RawQuery)
deriving DecidableEq, Repr

/-- The Query Dispatcher: the slots, the two queues and the settle timer (R128, R129, R135). -/
structure Dispatcher where
  slots : List (Nat × SlotQuery)
  high : List Nat
  low : List Nat
  settle : Option Nat
deriving DecidableEq, Repr

/-- A query handed to the Lightpath Table or the Sweep Unit, with the slot to answer: none once a rewrite
has withdrawn its answer (R132). -/
structure Handed where
  slot : Option Nat
  query : Query
deriving DecidableEq, Repr

/-- Everything that one block has handed to another and that the other has not yet taken, oldest first. -/
structure Handoffs where
  observations : List Observation
  storeToTable : List StoreEvent
  conditionerToTable : List HopLost
  intakeToTable : List HopLost
  toTable : List Handed
  toSweep : List Handed
deriving DecidableEq, Repr

/-! ### Routes and Path Engines (05) -/

/-- A hop entry (R106): a direction with its slot and its sending end. -/
structure Hop where
  link : Nat
  dir : Dir
  slot : Nat
  sender : NodeId
  port : Nat
deriving DecidableEq, Repr

/-- A route (R71, R106). -/
structure Route where
  source : NodeId
  dest : NodeId
  hops : List Hop
  regens : List NodeId
deriving DecidableEq, Repr

/-- The arrival of a label (R79). -/
structure Arrival where
  link : Nat
  dir : Dir
  sender : NodeId
  port : Nat
deriving DecidableEq, Repr

/-- A label (R79); its index is its place in the label store. -/
structure Label where
  node : NodeId
  mask : SlotSet
  cost : Nat
  noise : Nat
  hops : Nat
  regens : Nat
  parent : Option Nat
  arrival : Option Arrival
  regenHere : Bool
  closed : Bool
deriving DecidableEq, Repr

/-- What a FIND_PAIR keeps of its primary in the SECONDARY phase (R98, R99): the route, the labels its phase
used, and the derived exclusions besides the route's own links. -/
structure Primary where
  route : Route
  labels : Nat
  exRisks : List Word
  exNodes : List NodeId
deriving DecidableEq, Repr

/-- The phase of a search (R76). -/
inductive Phase where
  | primary
  | secondary (p : Primary)
deriving DecidableEq, Repr

/-- The query context of a busy engine (R76). labelsUsed is the label count of the phase that ended last,
for the answers that report it (R93). -/
structure Context where
  slot : Nat
  query : Query
  req : FindReq
  pair : Bool
  budget : Nat
  restarts : Nat
  phase : Phase
  labelsUsed : Nat
deriving DecidableEq, Repr

/-- A commit request (R94). -/
structure CommitRequest where
  first : Route
  second : Option Route
  budget : Nat
  hold : Nat
  tag : Nat
  slot : Nat
deriving DecidableEq, Repr

/-- A Path Engine (R76). -/
inductive Engine where
  | idle
  | searching (ctx : Context) (labels : List Label)
  | committing (ctx : Context) (labels : List Label) (req : CommitRequest)
  | answering (ctx : Context)
deriving DecidableEq, Repr

/-! ### Answers and the Result Writer (07, 12) -/

/-- Result statuses (12 section 12.4). -/
inductive Status where
  | done
  | noPath
  | labelsExhausted
  | contended
  | unstable
  | tableFull
  | pairPrimaryOnly
  | notFound
  | conflict
  | unknownNode
  | sameEndpoints
  | badQuery
  | flushed
  | busy
  | loadFailed
  | saveFailed
deriving DecidableEq, Repr

/-- A path summary (R93). -/
structure Summary where
  hopCount : Nat
  segments : Nat
  cost : Nat
  worst : Nat
  budget : Nat
  margin : Int
  tag : Nat
  labels : Nat
  restarts : Nat
deriving DecidableEq, Repr

/-- The body of an answer: nothing, the words of a lookup, or path summaries with their routes (R189). -/
inductive AnswerBody where
  | none
  | words (ws : List Word)
  | path (s : Summary) (r : Option Route)
  | pair (s1 : Summary) (r1 : Option Route) (s2 : Summary) (r2 : Option Route)
deriving DecidableEq, Repr

/-- Who offered an answer (R145). -/
inductive AnswerSource where
  | dispatcher
  | engine (e : EngineId)
  | port
deriving DecidableEq, Repr

/-- An answer in the answer queue (R145). named is the lightpath tag the answer is offered with (R136). -/
structure Answer where
  slot : Nat
  source : AnswerSource
  tag : Nat
  kind : Nat
  status : Status
  provisional : Bool
  clamped : Bool
  notify : Bool
  detail : Word
  named : Nat
  body : AnswerBody
deriving DecidableEq, Repr

/-- The answer being written (R146): the address of its result slot, fixed when it was taken, and the words not
yet handed on, once the body has been composed. -/
structure Writing where
  base : Nat
  answer : Answer
  todo : Option (List (Nat × Word))
deriving DecidableEq, Repr

/-- The Result Writer (R145, R146). -/
structure Writer where
  answers : List Answer
  writing : Option Writing
deriving DecidableEq, Repr

/-! ### Lightpath Table (06) -/

/-- The states of a record that is not FREE (R112). -/
inductive LpState where
  | reserved
  | active
  | degraded
  | broken
deriving DecidableEq, Repr

/-- How a record came to be filled (R106). -/
inductive Origin where
  | computed
  | adopted
deriving DecidableEq, Repr

/-- The fields of a record that is not FREE (R106). -/
structure Lightpath where
  state : LpState
  origin : Origin
  route : Route
  budget : Nat
  lastMargin : Int
  noticeMargin : Int
  timer : Option Nat
  partner : Option Nat
deriving DecidableEq, Repr

/-- A lightpath record: its generation, and its fields unless it is FREE (R106). -/
structure LpRecord where
  gen : Nat
  path : Option Lightpath
deriving DecidableEq, Repr

/-! ### Sweep Unit (08) -/

/-- Sweep mode (R148). -/
inductive SweepMode where
  | stopped
  | single
  | cyclic
deriving DecidableEq, Repr

/-- A finding (R150). -/
inductive Finding where
  | lost
  | whole (margin : Int)
deriving DecidableEq, Repr

/-- A sweep result (R123). -/
structure SweepResult where
  tag : Nat
  finding : Finding
deriving DecidableEq, Repr

/-- The Sweep Unit (R148). -/
structure Sweep where
  mode : SweepMode
  pass : Option Nat
  walkCount : Nat
  rerun : Bool
  pendingSet : List Nat
  timer : Option Nat
  alarmRef : Bool
  outstanding : Option SweepResult
deriving DecidableEq, Repr

/-! ### Notice Unit (09) -/

/-- Notice classes (R164, 12 section 12.6). -/
inductive NoticeClass where
  | ingest
  | node
  | link
  | lightpath
  | query
  | sweep
  | config
deriving DecidableEq, Repr

/-- The events that notices report, class by class in code order (R164). -/
inductive NoticeEvent where
  | malformedRecord | overrun | stagingAbandoned
  | newNode | stale | liveAgain | agedOut | withdrawn | quarantined | nodeTableFull | portTableFull
  | formed | removed | confirmedDown | up | suppressed | unsuppressed | significantChange
  | linkTableFull | claimEvicted
  | activated | degraded | broken | restored | expired | marginDrift
  | queryDone
  | passComplete | passAbandoned
  | loaded | defaulted | reloaded | loadFailed | saved | saveFailed
deriving DecidableEq, Repr

/-- A notice as it is handed to the Notice Unit (R160): its event (class and code), its subject with the port of
a LINK subject, and its detail word. -/
structure Notice where
  event : NoticeEvent
  subject : Word
  port : Nat
  detail : Word
deriving DecidableEq, Repr

/-- A word the Notice Unit has still to hand to the write buffer (R161). publishes is the published producer that
a producer word of the ring in force brings with it (R161, R165). -/
structure NoticeWord where
  addr : Nat
  value : Word
  publishes : Option Nat
deriving DecidableEq, Repr

/-- The Notice Unit (R159 to R161). -/
structure NoticeUnit where
  producer : Nat
  published : Nat
  consumer : Nat
  shadow : List (Nat × NoticeClass)
  sequence : Nat
  lost : Nat
  lostTotal : Nat
  inbox : List Notice
  out : List NoticeWord
deriving DecidableEq, Repr

/-! ### Bus Tap (10) -/

/-- A word of a staging: its image and its byte-valid mask (R168). -/
structure StagedWord where
  image : Word
  valid : ByteMask
deriving DecidableEq, Repr

/-- An open report staging, named by its slot's address (R167, R168). -/
structure ReportStaging where
  slot : Nat
  words : List StagedWord
deriving DecidableEq, Repr

/-- An entry of the write buffer (R172). -/
structure WriteEntry where
  addr : Nat
  value : Word
  mask : ByteMask
deriving DecidableEq, Repr

/-- Whose turn the downstream arbiter gives next while the buffer is full (R173). -/
inductive Turn where
  | host
  | buffered
deriving DecidableEq, Repr

/-- The two blocks that hand words to the write buffer (R172). -/
inductive Producer where
  | resultWriter
  | noticeUnit
deriving DecidableEq, Repr

/-- The Bus Tap (R168 to R173). The window table in force is read off the image in force (R167). -/
structure Tap where
  reportStagings : List ReportStaging
  queryStagings : List (Nat × List StagedWord)
  abandoned : Nat
  buffer : List WriteEntry
  waiting : List Producer
  turn : Turn
deriving DecidableEq, Repr

/-- What the upstream port last answered to a host access (R166). -/
inductive UpstreamAnswer where
  | none
  | read (data : Word) (error : Bool)
  | write (error : Bool)
deriving DecidableEq, Repr

/-- The access that the downstream port last carried (R166, R173): its address and byte enables, and a write's data. -/
inductive DownstreamAccess where
  | none
  | read (addr : Nat) (enables : ByteMask)
  | write (addr : Nat) (data : Word) (enables : ByteMask)
deriving DecidableEq, Repr

/-! ### Report Intake (03) and Configuration Port (11) -/

/-- The eight intake counters (R59). -/
structure Counters where
  accepted : Nat
  overruns : Nat
  unknownFormat : Nat
  malformed : Nat
  filtered : Nat
  unattributed : Nat
  quarantineDrops : Nat
  noLink : Nat
deriving DecidableEq, Repr

/-- Report Intake: the ingest queue and the counters (R43, R59). -/
structure Intake where
  queue : List Record
  counters : Counters
deriving DecidableEq, Repr

/-- Where the image in force came from (R180). -/
inductive ImageSource where
  | loaded
  | defaulted
  | reloaded
deriving DecidableEq, Repr

/-- Where the power-on load stands (R182): begun with its first attempt still to add its 1 to the attempt count
(assumption log 7), an attempt reading, after a failed one waiting for the next one-second event, or with the next
attempt due since that event. -/
inductive LoadPhase where
  | begun
  | reading
  | waiting
  | due
deriving DecidableEq, Repr

/-- The operation in flight of the Configuration Port (R180). A LOAD is in one of its phases (R182). A SAVE holds its
captured copy with the CRC placed, and whether a CONFIG_SET has changed a value since the capture (R186). -/
inductive PortOp where
  | idle
  | load (phase : LoadPhase)
  | save (slot : Nat) (query : Query) (copy : List Byte) (altered : Bool)
  | reload (slot : Nat) (query : Query)
deriving DecidableEq, Repr

/-- The Configuration Port (R180). -/
structure ConfigPort where
  image : Option (List Byte)
  source : Option ImageSource
  changed : Bool
  op : PortOp
  attempts : Nat
deriving DecidableEq, Repr

/-- The state of the block: the queue of waiting commands, the pins and surroundings, and its twelve blocks. -/
structure State where
  pending : List Instr
  freeCount : Nat
  memory : List Host.Cell
  upstream : UpstreamAnswer
  downstream : DownstreamAccess
  alarmInput : Bool
  busReset : Bool
  port : ConfigPort
  tap : Tap
  intake : Intake
  store : Store
  handoffs : Handoffs
  dispatcher : Dispatcher
  engine0 : Engine
  engine1 : Engine
  records : List LpRecord
  sweep : Sweep
  writer : Writer
  notices : NoticeUnit
deriving DecidableEq, Repr

/-- Why a command stops. -/
inductive Fault where
  /-- Raised by a host access whose address is not word-aligned: the upstream bus carries none such
  (R166). Safe: no hardware run contains it. -/
  | unalignedAccess
deriving DecidableEq, Repr

/-- Why a command is refused. -/
inductive Refusal where
  /-- Raised by exec for a command that has no meaning yet. Safe: nothing is claimed of it. -/
  | notModelled (mnemonic : String)
deriving DecidableEq, Repr

/-! ### Values after power-on -/

/-- No hand-off is in flight. -/
def Handoffs.empty : Handoffs :=
  { observations := [], storeToTable := [], conditionerToTable := [], intakeToTable := [],
    toTable := [], toSweep := [] }

/-- The intake counters at 0 (R59). -/
def Counters.zero : Counters :=
  { accepted := 0, overruns := 0, unknownFormat := 0, malformed := 0, filtered := 0,
    unattributed := 0, quarantineDrops := 0, noLink := 0 }

/-- The Topology Store emptied (R25). -/
def Store.empty : Store := { nodes := [], claims := [], links := [] }

/-- The Bus Tap without stagings and buffered writes (R176, R177). -/
def Tap.empty : Tap :=
  { reportStagings := [], queryStagings := [], abandoned := 0, buffer := [], waiting := [],
    turn := .host }

/-- Report Intake with an empty queue and counters at 0 (R43, R59). -/
def Intake.empty : Intake := { queue := [], counters := Counters.zero }

/-- The dispatcher with every slot IDLE, both queues empty and no settle timer (R128, R135). -/
def Dispatcher.empty : Dispatcher := { slots := [], high := [], low := [], settle := none }

/-- The Result Writer with nothing to write (R147). -/
def Writer.empty : Writer := { answers := [], writing := none }

/-- The Notice Unit with an empty ring (R165). -/
def NoticeUnit.empty : NoticeUnit :=
  { producer := 0, published := 0, consumer := 0, shadow := [], sequence := 0, lost := 0,
    lostTotal := 0, inbox := [], out := [] }

/-- The Sweep Unit at power-on (R158), its mode and reference level not yet taken (assumption log 3). -/
def Sweep.empty : Sweep :=
  { mode := .stopped, pass := none, walkCount := 0, rerun := false, pendingSet := [],
    timer := none, alarmRef := false, outstanding := none }

/-- A record that is FREE with generation 0 (R127). -/
def LpRecord.fresh : LpRecord := { gen := 0, path := none }

/-- The 128 records at power-on (R106, R127). -/
def freshRecords : List LpRecord := List.replicate 128 LpRecord.fresh

/-- The Configuration Port at power-on: no image in force, the load begun with the attempt count at 0, to which the
first attempt adds its 1 as it begins (R180, R182, assumption log 7). -/
def ConfigPort.powerOn : ConfigPort :=
  { image := none, source := none, changed := false, op := .load .begun, attempts := 0 }

/-- The part right after power-on (R182): the load runs, every table and queue is empty. The pins, the upstream
answer, the downstream access and the memory are the surroundings' (assumption log 3 and 4). -/
def State.reset : State :=
  { pending := [], freeCount := 0, memory := [], upstream := .none, downstream := .none,
    alarmInput := false, busReset := false, port := ConfigPort.powerOn, tap := Tap.empty, intake := Intake.empty,
    store := Store.empty, handoffs := Handoffs.empty, dispatcher := Dispatcher.empty,
    engine0 := .idle, engine1 := .idle, records := freshRecords, sweep := Sweep.empty,
    writer := Writer.empty, notices := NoticeUnit.empty }

end Sys2Proof.Machine
end

