-- ==== Sys2Proof/Machine/Ops.lean ====
section
/-! DEFINITION. The named operations that the meanings share: reading the tables of the part, the in-service test
(R27), holds and usable sets (R70, R109), and handing notices, hop-lost events, evaluations and answers to the
blocks that take them. -/

namespace Sys2Proof.Machine

/-! ### Capacities -/

/-- Nodes in the node table (R2). -/
def nodeCapacity : Nat := 256
/-- Port entries of a node (R9). -/
def portCapacity : Nat := 16
/-- Claims in the claim table (R10). -/
def claimCapacity : Nat := 256
/-- Links in the link table (R17). -/
def linkCapacity : Nat := 1024
/-- Records in the ingest queue (R43). -/
def ingestCapacity : Nat := 16
/-- Open report stagings (R170). -/
def stagingCapacity : Nat := 8
/-- Entries of the write buffer (R172). -/
def bufferCapacity : Nat := 32
/-- Labels in a label store (R79). -/
def labelCapacity : Nat := 2048
/-- Saturation of the 16-bit counters (R59, R159, R170). -/
def counterLimit : Nat := 65535

/-- A counter raised by n, saturating at 65535. -/
def countUp (c n : Nat) : Nat := min (c + n) counterLimit

/-! ### Directions and links (R17) -/

/-- The other end, or the other direction. -/
def opposite : Dir → Dir
  | .zero => .one
  | .one => .zero

/-- 0 or 1 (R17). -/
def dirNumber : Dir → Nat
  | .zero => 0
  | .one => 1

/-- The end at which a direction arrives. -/
def Link.endAt (l : Link) : Dir → LinkEnd
  | .zero => l.end0
  | .one => l.end1

/-- The direction record of a direction. -/
def Link.direction (l : Link) : Dir → Direction
  | .zero => l.dir0
  | .one => l.dir1

/-- A link with one direction record replaced. -/
def Link.withDirection (l : Link) (d : Dir) (x : Direction) : Link :=
  match d with
  | .zero => { l with dir0 := x }
  | .one => { l with dir1 := x }

/-- A direction record as it is formed (R17). -/
def freshDirection : Direction :=
  { cond := .unknown, count := 0, holdoff := none, flap := 0, suppressed := false, latched := false,
    noise := noiseLimit, cost := 65535, clamped := false, lit := 0#80 }

/-! ### Reading the state -/

/-- The image in force; no byte when there is none, and then no window, node or query exists (R176). -/
def State.image (s : State) : List Byte := s.port.image.getD []

/-- The part runs: an image is in force and the bus reset input is not asserted (R176, R178). -/
def State.running (s : State) : Bool := s.port.image.isSome && !s.busReset

/-- The global parameters in force. -/
def State.globals (s : State) : Globals := globalsOf s.image

/-- The node record at a node index. -/
def State.nodeAt (s : State) (i : Nat) : Option Node := tableGet s.store.nodes i

/-- The node map: the entry of a node id (R1). -/
def State.nodeEntry (s : State) (id : NodeId) : Option (Nat × Node) :=
  s.store.nodes.find? fun e => e.2.id == id

/-- The index of a node id (R1). -/
def State.indexOf (s : State) (id : NodeId) : Option Nat := (s.nodeEntry id).map (·.1)

/-- The node record of a node id. -/
def State.nodeOf (s : State) (id : NodeId) : Option Node := (s.nodeEntry id).map (·.2)

/-- The id of the node at an index; 0, which is no node id, when the index is free. -/
def State.idAt (s : State) (i : Nat) : NodeId := ((s.nodeAt i).map (·.id)).getD 0#32

/-- The profile in force for a node (R26, R69). -/
def State.profileOf (s : State) (n : Node) : Profile := profileAt s.image n.profile

/-- The link at a link index. -/
def State.linkAt (s : State) (k : Nat) : Option Link := tableGet s.store.links k

/-- The name of a link's end (R1, R17). -/
def State.endName (s : State) (e : LinkEnd) : EndName := { node := s.idAt e.node, port := e.port }

/-- A reference to direction d of link k still refers to a link: the one at the index has the ends that the reference
carries (R17, assumption log 36). -/
def State.stillNames (s : State) (k : Nat) (d : Dir) (sender receiver : EndName) : Bool :=
  match s.linkAt k with
  | none => false
  | some l => s.endName (l.endAt (opposite d)) == sender && s.endName (l.endAt d) == receiver

/-- The direction record of direction d of link k. -/
def State.directionAt (s : State) (k : Nat) (d : Dir) : Option Direction :=
  (s.linkAt k).map fun l => l.direction d

/-- The record at an index; past the table, a FREE one. -/
def State.recordAt (s : State) (i : Nat) : LpRecord := s.records.getD i LpRecord.fresh

/-- The fields of the record at an index, unless it is FREE. -/
def State.lightpathAt (s : State) (i : Nat) : Option Lightpath := (s.recordAt i).path

/-- The non-FREE records in ascending index order. -/
def State.lightpaths (s : State) : List (Nat × Lightpath) :=
  s.records.zipIdx.filterMap fun (r, i) => r.path.map fun p => (i, p)

/-- A Path Engine. -/
def State.engine (s : State) : EngineId → Engine
  | .e0 => s.engine0
  | .e1 => s.engine1

/-! ### In service (R27) -/

/-- A node lets its directions be in service: LIVE and not quarantined. -/
def Node.fit (n : Node) : Bool := n.liveness == .live && !n.quarantined

/-- The node at an index is in the table and fit. -/
def State.fitAt (s : State) (i : Nat) : Bool := ((s.nodeAt i).map Node.fit).getD false

/-- The condition part of R27: UP or FALLING, and not suppressed. -/
def Direction.carries (x : Direction) : Bool :=
  (x.cond == .up || x.cond == .falling) && !x.suppressed

/-- Direction d of link k is in service (R27). -/
def State.inService (s : State) (k : Nat) (d : Dir) : Bool :=
  match s.linkAt k with
  | none => false
  | some l => (l.direction d).carries && s.fitAt l.end0.node && s.fitAt l.end1.node

/-! ### Hops, holds and usable sets (R70, R109) -/

/-- The hops of a route, each with the id of its receiving node: the next hop's sending node, or the destination
(R106). -/
def withReceivers : List Hop → NodeId → List (Hop × NodeId)
  | [], _ => []
  | [h], dest => [(h, dest)]
  | h :: h' :: t, dest => (h, h'.sender) :: withReceivers (h' :: t) dest

/-- The hops of a route with their receiving nodes. -/
def Route.received (r : Route) : List (Hop × NodeId) := withReceivers r.hops r.dest

/-- A hop names its link (R109): the link at its index departs from the hop's sending node and port and arrives at
its receiving node. -/
def State.namesLink (s : State) (h : Hop) (receiver : NodeId) : Bool :=
  match s.linkAt h.link with
  | none => false
  | some l =>
    s.idAt (l.endAt (opposite h.dir)).node == h.sender && (l.endAt (opposite h.dir)).port == h.port &&
    s.idAt (l.endAt h.dir).node == receiver &&
    (s.nodeAt (l.endAt h.dir).node).isSome && (s.nodeAt (l.endAt (opposite h.dir)).node).isSome

/-- A route has a hop on direction d of link k (R17: a hop that no longer names its link is on no link that
stands). -/
def State.routeOn (s : State) (r : Route) (k : Nat) (d : Dir) : Bool :=
  r.received.any fun (h, n) => h.link == k && h.dir == d && s.namesLink h n

/-- The slots that one route holds on direction d of link k (R109). -/
def State.routeHolds (s : State) (r : Route) (k : Nat) (d : Dir) : SlotSet :=
  r.received.foldl (fun x (h, n) =>
    if h.link == k && h.dir == d && s.namesLink h n then x ||| slotBit h.slot else x) 0#80

/-- The slots held on direction d of link k by holds in force (R109). -/
def State.heldOn (s : State) (k : Nat) (d : Dir) : SlotSet :=
  s.lightpaths.foldl (fun x (_, p) => x ||| s.routeHolds p.route k d) 0#80

/-- The slots addressable at the node at an index under the profile in force (R69); none when the index is free. -/
def State.addressableAt (s : State) (i : Nat) : SlotSet :=
  ((s.nodeAt i).map fun n => addressableSlots (s.profileOf n)).getD 0#80

/-- The slots of direction d of link k that are addressable at both ends and not lit: R70 without the holds. -/
def State.unlitAddressable (s : State) (k : Nat) (d : Dir) : SlotSet :=
  match s.linkAt k with
  | none => 0#80
  | some l => s.addressableAt l.end0.node &&& s.addressableAt l.end1.node &&& ~~~ (l.direction d).lit

/-- The usable set of direction d of link k (R70). -/
def State.usable (s : State) (k : Nat) (d : Dir) : SlotSet :=
  s.unlitAddressable k d &&& ~~~ s.heldOn k d

/-! ### Updating the store -/

/-- The state with its store replaced. -/
def State.setStore (s : State) (x : Store) : State := { s with store := x }

/-- The state with the node table replaced. -/
def State.setNodes (s : State) (x : List (Nat × Node)) : State :=
  s.setStore { s.store with nodes := x }

/-- The state with the claim table replaced. -/
def State.setClaims (s : State) (x : List Claim) : State :=
  s.setStore { s.store with claims := x }

/-- The state with the link table replaced. -/
def State.setLinks (s : State) (x : List (Nat × Link)) : State :=
  s.setStore { s.store with links := x }

/-- The node record at an index, if there is one, changed. -/
def State.updateNode (s : State) (i : Nat) (f : Node → Node) : State :=
  s.setNodes (tableUpdate s.store.nodes i f)

/-- The node record of a node id, if there is one, changed. -/
def State.updateNodeOf (s : State) (id : NodeId) (f : Node → Node) : State :=
  match s.indexOf id with
  | none => s
  | some i => s.updateNode i f

/-- The link at an index, if there is one, changed. -/
def State.updateLink (s : State) (k : Nat) (f : Link → Link) : State :=
  s.setLinks (tableUpdate s.store.links k f)

/-- The direction record of direction d of link k, if there is one, replaced. -/
def State.setDirection (s : State) (k : Nat) (d : Dir) (x : Direction) : State :=
  s.updateLink k fun l => l.withDirection d x

/-- The record at an index replaced. -/
def State.setRecord (s : State) (i : Nat) (r : LpRecord) : State :=
  { s with records := setAt s.records i r }

/-- The fields of the record at an index replaced, its generation kept. -/
def State.setLightpath (s : State) (i : Nat) (p : Lightpath) : State :=
  s.setRecord i { s.recordAt i with path := some p }

/-- One Path Engine replaced. -/
def State.setEngine (s : State) (e : EngineId) (x : Engine) : State :=
  match e with
  | .e0 => { s with engine0 := x }
  | .e1 => { s with engine1 := x }

/-- The sweep unit's fields replaced. -/
def State.setSweep (s : State) (x : Sweep) : State := { s with sweep := x }

/-- The tap's fields replaced. -/
def State.setTap (s : State) (x : Tap) : State := { s with tap := x }

/-- The dispatcher's fields replaced. -/
def State.setDispatcher (s : State) (x : Dispatcher) : State := { s with dispatcher := x }

/-- The hand-offs replaced. -/
def State.setHandoffs (s : State) (x : Handoffs) : State := { s with handoffs := x }

/-- The Notice Unit's fields replaced. -/
def State.setNotices (s : State) (x : NoticeUnit) : State := { s with notices := x }

/-- The writer's fields replaced. -/
def State.setWriter (s : State) (x : Writer) : State := { s with writer := x }

/-- The intake's fields replaced. -/
def State.setIntake (s : State) (x : Intake) : State := { s with intake := x }

/-- The Configuration Port's fields replaced. -/
def State.setPort (s : State) (x : ConfigPort) : State := { s with port := x }

/-! ### Notices (R160, R164) -/

/-- The class of an event (R164). -/
def NoticeEvent.cls : NoticeEvent → NoticeClass
  | .malformedRecord | .overrun | .stagingAbandoned => .ingest
  | .newNode | .stale | .liveAgain | .agedOut | .withdrawn | .quarantined | .nodeTableFull
  | .portTableFull => .node
  | .formed | .removed | .confirmedDown | .up | .suppressed | .unsuppressed | .significantChange
  | .linkTableFull | .claimEvicted => .link
  | .activated | .degraded | .broken | .restored | .expired | .marginDrift => .lightpath
  | .queryDone => .query
  | .passComplete | .passAbandoned => .sweep
  | .loaded | .defaulted | .reloaded | .loadFailed | .saved | .saveFailed => .config

/-- The event code within the class (R164). -/
def NoticeEvent.code : NoticeEvent → Nat
  | .malformedRecord => 1 | .overrun => 2 | .stagingAbandoned => 3
  | .newNode => 1 | .stale => 2 | .liveAgain => 3 | .agedOut => 4 | .withdrawn => 5
  | .quarantined => 6 | .nodeTableFull => 7 | .portTableFull => 8
  | .formed => 1 | .removed => 2 | .confirmedDown => 3 | .up => 4 | .suppressed => 5
  | .unsuppressed => 6 | .significantChange => 7 | .linkTableFull => 8 | .claimEvicted => 9
  | .activated => 1 | .degraded => 2 | .broken => 3 | .restored => 4 | .expired => 5
  | .marginDrift => 6
  | .queryDone => 1
  | .passComplete => 1 | .passAbandoned => 2
  | .loaded => 1 | .defaulted => 2 | .reloaded => 3 | .loadFailed => 4 | .saved => 5
  | .saveFailed => 6

/-- The class code (12 section 12.6). -/
def NoticeClass.code : NoticeClass → Nat
  | .ingest => 1 | .node => 2 | .link => 3 | .lightpath => 4 | .query => 5 | .sweep => 6
  | .config => 7

/-- A notice whose subject has no port. -/
def notice (e : NoticeEvent) (subject detail : Word) : Notice :=
  { event := e, subject := subject, port := 0, detail := detail }

/-- A LINK notice: its subject is a node id and port. -/
def linkNotice (e : NoticeEvent) (id : NodeId) (port : Nat) (detail : Word) : Notice :=
  { event := e, subject := id, port := port, detail := detail }

/-- A notice handed to the Notice Unit (R160). -/
def State.hand (s : State) (n : Notice) : State :=
  s.setNotices { s.notices with inbox := s.notices.inbox ++ [n] }

/-! ### Hop-lost events and lit checks (R19, R23, R40, R57) -/

/-- An event of the Topology Store handed to the Lightpath Table. -/
def State.raiseStore (s : State) (x : StoreEvent) : State :=
  s.setHandoffs { s.handoffs with storeToTable := s.handoffs.storeToTable ++ [x] }

/-- A hop-lost event of the Span Conditioner. -/
def State.raiseConditioner (s : State) (x : HopLost) : State :=
  s.setHandoffs { s.handoffs with conditionerToTable := s.handoffs.conditionerToTable ++ [x] }

/-- A hop-lost event of Report Intake. -/
def State.raiseIntake (s : State) (x : HopLost) : State :=
  s.setHandoffs { s.handoffs with intakeToTable := s.handoffs.intakeToTable ++ [x] }

/-- The subject that names direction d of link k: its index, the direction and its sending end (R19). -/
def State.directionSubject (s : State) (l : Link) (k : Nat) (d : Dir) : LostSubject :=
  .direction k d (s.idAt (l.endAt (opposite d)).node) (l.endAt (opposite d)).port

/-! ### The pending-evaluation set (R149) -/

/-- An index added to the pending-evaluation set. -/
def State.addEvaluation (s : State) (i : Nat) : State :=
  s.setSweep { s.sweep with pendingSet := insertAscending s.sweep.pendingSet i }

/-- The indexes of the non-FREE records that pass a test, added to the pending-evaluation set. -/
def State.addEvaluations (s : State) (test : Lightpath → Bool) : State :=
  s.setSweep { s.sweep with
    pendingSet := (s.lightpaths.filter fun e => test e.2).foldl
      (fun x e => insertAscending x e.1) s.sweep.pendingSet }

/-- The records with a hop on direction d of link k, added to the pending-evaluation set (R22, R39). -/
def State.evaluateDirection (s : State) (k : Nat) (d : Dir) : State :=
  s.addEvaluations fun p => s.routeOn p.route k d

/-- A route names a node: source, destination, a hop's sending node or a regeneration point (R122, R150). -/
def Route.names (r : Route) (id : NodeId) : Bool :=
  r.source == id || r.dest == id || r.hops.any (fun h => h.sender == id) || r.regens.any (· == id)

/-! ### Answers (R145) -/

/-- An answer offered to the Result Writer: it joins the tail of the answer queue. -/
def State.offer (s : State) (a : Answer) : State :=
  s.setWriter { s.writer with answers := s.writer.answers ++ [a] }

/-- A query slot's entry replaced. -/
def State.setSlot (s : State) (slot : Nat) (x : SlotQuery) : State :=
  s.setDispatcher { s.dispatcher with slots := tableSet s.dispatcher.slots slot x }

/-- The dispatcher is SETTLING (R135). -/
def State.settling (s : State) : Bool := s.dispatcher.settle.isSome

/-- A timer started at n; an interval of 0 starts none (R135). -/
def startTimer (n : Nat) : Option Nat := if n = 0 then none else some n

/-! ### Expiries (R187) -/

/-- A running timer has come to its last one-second event: no event is left to count, so its expiry can be taken until
the timer is stopped or started again (R187, assumption log 2). -/
def countExpired (n : Nat) : Bool := n == 0

/-- A timer that may be stopped runs and has come to its last one-second event. -/
def timerExpired (t : Option Nat) : Bool := (t.map countExpired).getD false

end Sys2Proof.Machine
end

