-- ==== Sys2Proof/Machine/Conditioning.lean ====
section
/-! DEFINITION. The Span Conditioner (02): observations, flap score, suppression, NODE_CLEAR and profile changes,
and the commands OBSERVATION_UP, OBSERVATION_DOWN and HOLDOFF_EXPIRY. -/

namespace Sys2Proof.Machine

/-! ### The receiving end of a direction -/

/-- The profile in force for the receiving node of direction d of a link (R26). -/
def State.receiverProfile (s : State) (l : Link) (d : Dir) : Profile :=
  profileAt s.image (((s.nodeAt (l.endAt d).node).map (·.profile)).getD 0)

/-- A LINK notice about direction d of a link: the receiving node's id and port (R31, R33, R35, R36). -/
def State.directionNotice (s : State) (l : Link) (d : Dir) (e : NoticeEvent) (detail : Nat) : Notice :=
  linkNotice e (s.idAt (l.endAt d).node) (l.endAt d).port (word detail)

/-! ### Suppression (R35 to R37) and returns to service (R39) -/

/-- A direction that was not in service and now is has its lightpaths evaluated (R39). -/
def State.returned (s : State) (k : Nat) (d : Dir) (before : Bool) : State :=
  if !before && s.inService k d then s.evaluateDirection k d else s

/-- Suppression set on direction d of link k, its score already stored in x (R35). -/
def State.suppress (s : State) (k : Nat) (d : Dir) (l : Link) (x : Direction) (p : Profile) : State :=
  let marked := s.setDirection k d { x with suppressed := true, latched := p.latch }
  let raised :=
    if x.cond = .up ∨ x.cond = .falling then
      marked.raiseConditioner { subject := s.directionSubject l k d, cause := .suppressed }
    else marked
  raised.hand (s.directionNotice l d .suppressed x.flap)

/-- Suppression lifted from direction d of link k (R36). -/
def State.unsuppress (s : State) (k : Nat) (d : Dir) (l : Link) (x : Direction) : State :=
  let cleared := s.setDirection k d { x with suppressed := false }
  let told := cleared.hand (s.directionNotice l d .unsuppressed x.flap)
  told.returned k d (s.inService k d)

/-! ### Observations (R28 to R33) -/

/-- The direction enters UP (R33). -/
def State.enterUp (s : State) (k : Nat) (d : Dir) (l : Link) (x : Direction) : State :=
  let raised := s.setDirection k d { x with cond := .up, count := 0 }
  let told := raised.hand (s.directionNotice l d .up x.flap)
  told.returned k d (s.inService k d)

/-- A clean refresh: the flap score falls by 1, which may lift the suppression (R34, R36). -/
def State.cleanRefresh (s : State) (k : Nat) (d : Dir) (l : Link) (x : Direction) (p : Profile) : State :=
  let y := { x with flap := x.flap - 1 }
  let fallen := s.setDirection k d y
  if y.suppressed ∧ ¬ y.latched ∧ y.flap ≤ p.reuse then fallen.unsuppress k d l y else fallen

/-- A failure is confirmed (R31). -/
def State.confirmFailure (s : State) (k : Nat) (d : Dir) (l : Link) (x : Direction) (p : Profile) : State :=
  let y := { x with
    flap := min (x.flap + 16) 255
    cond := if 0 < p.holdoff then .holdoff else .down
    holdoff := if 0 < p.holdoff then some p.holdoff else none
    count := 0 }
  let failed := s.setDirection k d y
  let lost := failed.raiseConditioner { subject := s.directionSubject l k d, cause := .confirmedDown }
  let told := lost.hand (s.directionNotice l d .confirmedDown y.flap)
  if ¬ y.suppressed ∧ p.suppress ≤ y.flap then told.suppress k d l y p else told

/-- An UP observation of direction d of link k (R29). An observation that was handed on before its link was removed
finds no direction and is dropped (R42), and the no-link counter, which counts as the record is taken, does not rise
(assumption log 33). -/
def State.observeUp (s : State) (k : Nat) (d : Dir) : State :=
  match s.linkAt k with
  | none => s
  | some l =>
    let x := l.direction d
    let p := s.receiverProfile l d
    match x.cond with
    | .unknown | .down =>
      if p.upPersistence ≤ 1 then s.enterUp k d l x
      else s.setDirection k d { x with cond := .rising, count := 1 }
    | .rising =>
      if p.upPersistence ≤ x.count + 1 then s.enterUp k d l x
      else s.setDirection k d { x with count := x.count + 1 }
    | .up => s.cleanRefresh k d l x p
    | .falling => s.setDirection k d { x with cond := .up, count := 0 }
    | .holdoff => s

/-- A DOWN observation of direction d of link k (R30). An observation that was handed on before its link was removed
finds no direction and is dropped (R42), and the no-link counter does not rise (assumption log 33). -/
def State.observeDown (s : State) (k : Nat) (d : Dir) : State :=
  match s.linkAt k with
  | none => s
  | some l =>
    let x := l.direction d
    let p := s.receiverProfile l d
    match x.cond with
    | .unknown | .rising => s.setDirection k d { x with cond := .down, count := 0 }
    | .up =>
      if p.downPersistence ≤ 1 then s.confirmFailure k d l x p
      else s.setDirection k d { x with cond := .falling, count := 1 }
    | .falling =>
      if p.downPersistence ≤ x.count + 1 then s.confirmFailure k d l x p
      else s.setDirection k d { x with count := x.count + 1 }
    | .holdoff | .down => s

/-- The first observation leaves the conditioner's inbox. -/
def State.popObservation (s : State) : State :=
  s.setHandoffs { s.handoffs with observations := s.handoffs.observations.tail }

/-! ### Profile changes (R41) -/

/-- R41 for one direction whose receiving node's profile in force is now p. -/
def State.reprofileDirection (s : State) (k : Nat) (d : Dir) : State :=
  match s.linkAt k with
  | none => s
  | some l =>
    let p := s.receiverProfile l d
    let x := { l.direction d with
      latched := (l.direction d).latched || ((l.direction d).suppressed && p.latch) }
    let latchedState := s.setDirection k d x
    if x.suppressed ∧ ¬ x.latched ∧ x.flap ≤ p.reuse then latchedState.unsuppress k d l x
    else if ¬ x.suppressed ∧ p.suppress ≤ x.flap then latchedState.suppress k d l x p
    else latchedState

/-- The directions of all links, link by link in ascending index, direction 0 first (assumption log 14). -/
def State.directions (s : State) : List (Nat × Dir) :=
  s.store.links.flatMap fun (k, _) => [(k, .zero), (k, .one)]

/-- The index of the receiving node of direction d of link k. -/
def State.receiverIndex (s : State) (k : Nat) (d : Dir) : Option Nat :=
  (s.linkAt k).map fun l => (l.endAt d).node

/-- R41 for every direction whose receiving node passes a test. -/
def State.reprofile (s : State) (test : Node → Bool) : State :=
  (s.directions.filter fun (k, d) =>
      match (s.receiverIndex k d).bind s.nodeAt with
      | some n => test n
      | none => false).foldl
    (fun x (k, d) => x.reprofileDirection k d) s

/-! ### NODE_CLEAR (R38) -/

/-- R38 for one direction: score 0, suppression and latch cleared, a notice if it was suppressed. -/
def State.clearFlap (s : State) (k : Nat) (d : Dir) : State :=
  match s.linkAt k with
  | none => s
  | some l =>
    let x := l.direction d
    let cleared := s.setDirection k d { x with flap := 0, suppressed := false, latched := false }
    if x.suppressed then cleared.hand (s.directionNotice l d .unsuppressed 0) else cleared

/-- The directions of every link with an end at the node at an index (R38). -/
def State.directionsAt (s : State) (i : Nat) : List (Nat × Dir) :=
  s.directions.filter fun (k, _) =>
    match s.linkAt k with
    | some l => l.end0.node == i || l.end1.node == i
    | none => false

/-- The number of suppressed directions among a list. -/
def State.suppressedAmong (s : State) (ds : List (Nat × Dir)) : Nat :=
  (ds.filter fun (k, d) => ((s.directionAt k d).map (·.suppressed)).getD false).length

/-! ### The commands -/

/-- OBSERVATION_UP: the conditioner takes the observation at the head of its inbox when it is an UP (R28, R29). -/
def execObservationUp (s : State) : Host.Outcome State Fault Refusal :=
  if s.running then
    match s.handoffs.observations with
    | [] => .next s
    | o :: _ => if o.up then .next (s.popObservation.observeUp o.link o.dir) else .next s
  else .next s

/-- OBSERVATION_DOWN: the conditioner takes the observation at the head of its inbox when it is a DOWN (R28, R30). -/
def execObservationDown (s : State) : Host.Outcome State Fault Refusal :=
  if s.running then
    match s.handoffs.observations with
    | [] => .next s
    | o :: _ => if o.up then .next s else .next (s.popObservation.observeDown o.link o.dir)
  else .next s

/-- HOLDOFF_EXPIRY: the hold-off timer of a direction in HOLDOFF, come to its last one-second event, expires (R32, R187,
assumption log 2). -/
def execHoldoffExpiry (link : Nat) (dir : Dir) (s : State) : Host.Outcome State Fault Refusal :=
  match s.directionAt link dir with
  | none => .next s
  | some x =>
    if s.running ∧ x.cond = .holdoff ∧ timerExpired x.holdoff then
      .next (s.setDirection link dir { x with cond := .down, holdoff := none })
    else .next s

end Sys2Proof.Machine
end

