-- ==== Sys2Proof/Machine/Operands.lean ====
section
/-! DEFINITION. Reading the records that software writes: report records (12 section 12.2, R47 to R49) and query
records (12 section 12.3, R129, R130). -/

namespace Sys2Proof.Machine

/-! ### Report records -/

/-- The report kinds (R47). -/
inductive ReportKind where
  | nodeAnnounce
  | nodeWithdraw
  | adjacencyClaim
  | spanCondition
  | channelState
deriving DecidableEq, Repr

/-- The kind that a code names (12 section 12.2). -/
def reportKind (code : Nat) : Option ReportKind :=
  if code = 1 then some .nodeAnnounce else if code = 2 then some .nodeWithdraw
  else if code = 3 then some .adjacencyClaim else if code = 4 then some .spanCondition
  else if code = 5 then some .channelState else none

/-- The kind's bit in a filter's kind set (12 section 12.7). -/
def ReportKind.filterBit : ReportKind → Nat
  | .nodeAnnounce => 0 | .nodeWithdraw => 1 | .adjacencyClaim => 2 | .spanCondition => 3
  | .channelState => 4

/-- Word k of a record. -/
def Record.word (r : Record) (k : Nat) : Word := wordAt r.words k

/-- The reporter id, word 0. -/
def Record.reporter (r : Record) : NodeId := r.word 0

/-- The length field of a report's closing word. -/
def Record.reportLength (r : Record) : Nat := bits (r.word 15) 16 8

/-- The kind field of a report's closing word. -/
def Record.reportKindCode (r : Record) : Nat := bits (r.word 15) 24 4

/-- The format field of a report's closing word. -/
def Record.reportFormat (r : Record) : Nat := bits (r.word 15) 29 3

/-- The shared-risk count of a SPAN_CONDITION. -/
def Record.riskCount (r : Record) : Nat := bits (r.word 1) 24 4

/-- The shared-risk ids of a SPAN_CONDITION, as many as its count. -/
def Record.riskIds (r : Record) : List Word := (r.words.drop 4).take r.riskCount

/-- The local port that a claim, condition or channel report is about. -/
def Record.localPort (r : Record) : Nat := bits (r.word 1) 0 16

/-- The length a kind needs (R47). -/
def reportNeed (k : ReportKind) (r : Record) : Nat :=
  match k with
  | .nodeAnnounce => 7
  | .nodeWithdraw => 2
  | .adjacencyClaim => 5
  | .spanCondition => 5 + r.riskCount
  | .channelState => 6

/-- Why a record is malformed (R51). -/
inductive MalformReason where
  | kind
  | length
  | incomplete
  | range
  | format
deriving DecidableEq, Repr

/-- The reason codes of R51. -/
def MalformReason.code : MalformReason → Nat
  | .kind => 1
  | .length => 2
  | .incomplete => 3
  | .range => 4
  | .format => 5

/-- A field of a record lies outside its range (R49). -/
def outOfRange (k : ReportKind) (r : Record) : Bool :=
  r.reporter == 0#32 ||
  match k with
  | .nodeAnnounce => decide (16 ≤ bits (r.word 1) 0 8)
  | .nodeWithdraw => false
  | .adjacencyClaim => !bit (r.word 1) 16 && (r.word 2 == 0#32 || r.word 2 == r.reporter)
  | .spanCondition =>
    !(bits (r.word 1) 16 8 == 1 || bits (r.word 1) 16 8 == 2) || r.riskIds.any (· == 0#32)
  | .channelState => false

/-- The tests of R47 to R49 on a record of format 1, in their order: the first that fails, or none for a well-formed
record. A shared-risk count above 4 is tested before the length (R47). -/
def malformed (r : Record) : Option MalformReason :=
  match reportKind r.reportKindCode with
  | none => some .kind
  | some k =>
    if k = .spanCondition ∧ 4 < r.riskCount then some .range
    else if r.reportLength < 2 ∨ 16 < r.reportLength ∨ r.reportLength < reportNeed k r then some .length
    else if r.incomplete then some .incomplete
    else if outOfRange k r then some .range
    else none

/-! ### Query records -/

/-- Why a query is bad (R129). -/
inductive QueryReason where
  | format
  | kind
  | length
  | incomplete
  | range
deriving DecidableEq, Repr

/-- The reason codes of R129. -/
def QueryReason.code : QueryReason → Nat
  | .format => 256
  | .kind => 257
  | .length => 258
  | .incomplete => 259
  | .range => 260

/-- The tag in a query's closing word. -/
def Record.queryTag (r : Record) : Nat := bits (r.word 63) 0 16
/-- The length in a query's closing word. -/
def Record.queryLength (r : Record) : Nat := bits (r.word 63) 16 7
/-- The priority in a query's closing word: high when set. -/
def Record.queryHigh (r : Record) : Bool := bit (r.word 63) 23
/-- The kind in a query's closing word. -/
def Record.queryKind (r : Record) : Nat := bits (r.word 63) 24 4
/-- The notify flag in a query's closing word. -/
def Record.queryNotify (r : Record) : Bool := bit (r.word 63) 28
/-- The format in a query's closing word. -/
def Record.queryFormat (r : Record) : Nat := bits (r.word 63) 29 3

/-- The length each query kind needs (12 section 12.3). -/
def queryNeed (kind : Nat) (r : Record) : Nat :=
  if kind = 1 ∨ kind = 2 then 14
  else if kind = 5 then
    (if 1 ≤ bits (r.word 1) 0 8 ∧ bits (r.word 1) 0 8 ≤ 24 then 3 + 2 * bits (r.word 1) 0 8 else 3)
  else if kind = 7 then 3
  else if kind = 10 then (if bits (r.word 0) 0 8 = 3 then 4 else 6)
  else 2

/-- What R130 makes of the fields of a query: the fields after the clamps, whether one was clamped, and whether
the RANGE tests pass. -/
structure Fields where
  body : QueryBody
  clamped : Bool
  inRange : Bool
deriving DecidableEq, Repr

/-- Fields that no clamp and no RANGE test concerns. -/
def plainFields (b : QueryBody) : Fields := { body := b, clamped := false, inRange := true }

/-- The policy that a code names (12 section 12.3). -/
def policyOf (code : Nat) : Option Policy :=
  if code = 1 then some .first else if code = 2 then some .last
  else if code = 3 then some .preferred else none

/-- A value clamped into a range (00 section 5.3). -/
def clampTo (lo hi x : Nat) : Nat := max lo (min hi x)

/-- The request fields of a FIND or FIND_PAIR after the clamps of R130. -/
def findRequest (r : Record) : FindReq :=
  let policy := (policyOf (bits (r.word 2) 8 8)).getD .first
  let preferred := bits (r.word 2) 16 8
  { source := r.word 0
    dest := r.word 1
    reserve := bit (r.word 2) 0
    nodeDisjoint := bit (r.word 2) 1
    policy := if policy = .preferred ∧ 79 < preferred then .first else policy
    preferred := preferred
    hold := bits (r.word 2) 24 8
    lo := bits (r.word 3) 0 8
    hi := min 79 (bits (r.word 3) 8 8)
    hopLimit := clampTo 1 24 (bits (r.word 3) 16 8)
    regenMax := min 3 (bits (r.word 3) 24 8)
    q := min 600 (bits (r.word 4) 0 16)
    m := min 100 (bits (r.word 4) 16 16)
    exNodes := (r.words.drop 5).take 4
    exRisks := (r.words.drop 9).take 4 }

/-- A clamp of R130 has replaced a field of a FIND or FIND_PAIR. -/
def findClamped (r : Record) : Bool :=
  bits (r.word 3) 16 8 == 0 || decide (24 < bits (r.word 3) 16 8) ||
  decide (3 < bits (r.word 3) 24 8) || decide (600 < bits (r.word 4) 0 16) ||
  decide (100 < bits (r.word 4) 16 16) || decide (79 < bits (r.word 3) 8 8) ||
  (bits (r.word 2) 8 8 == 3 && decide (79 < bits (r.word 2) 16 8))

/-- The RANGE tests of R130 on a FIND or FIND_PAIR, after its clamps. -/
def findInRange (r : Record) : Bool :=
  decide ((findRequest r).lo ≤ (findRequest r).hi) && (policyOf (bits (r.word 2) 8 8)).isSome

/-- Hop list entry i of an ADOPT. -/
def adoptEntry (r : Record) (i : Nat) : AdoptEntry :=
  let w := r.word (3 + 2 * i)
  { node := r.word (2 + 2 * i), port := bits w 0 16, slot := bits w 16 8, regen := bit w 24 }

/-- The fields of an ADOPT: q and m clamped; a hop count outside 1..24 carries no entries and is judged by the
Lightpath Table (R120, R130). -/
def adoptFields (r : Record) : Fields :=
  let q := bits (r.word 0) 0 16
  let m := bits (r.word 0) 16 16
  let n := bits (r.word 1) 0 8
  { body := .adopt (min 600 q) (min 100 m) n
      (if n ≤ 24 then (List.range n).map (adoptEntry r) else [])
    clamped := decide (600 < q) || decide (100 < m)
    inRange := true }

/-- The action that a code names (12 section 12.3). -/
def sweepAction (code : Nat) : Option SweepAction :=
  if code = 1 then some .startSingle else if code = 2 then some .startCyclic
  else if code = 3 then some .stop else none

/-- The fields of a SWEEP (R130). -/
def sweepFields (r : Record) : Fields :=
  match sweepAction (bits (r.word 0) 0 8) with
  | some a => plainFields (.sweep a)
  | none => { body := .sweep .stop, clamped := false, inRange := false }

/-- The target that a code and an index name (R143). -/
def configTarget (code n : Nat) : Option ConfigTarget :=
  if code = 1 then (if n < 16 then some (.profile n) else none)
  else if code = 2 then (if n < 8 then some (.filter n) else none)
  else if code = 3 then some .routing
  else if code = 4 then some .globals
  else none

/-- The offset of a target in the image (12 section 12.7). -/
def ConfigTarget.offset : ConfigTarget → Nat
  | .profile n => 64 + 16 * n
  | .filter n => 320 + 16 * n
  | .routing => 448
  | .globals => 456

/-- The bytes of a target that are not reserved (12 section 12.7). -/
def ConfigTarget.span : ConfigTarget → Nat
  | .profile _ => 10
  | .filter _ => 10
  | .routing => 7
  | .globals => 12

/-- An image with a target's values replaced (R143). -/
def ConfigTarget.place (t : ConfigTarget) (img values : List Byte) : List Byte :=
  spliceImage img t.offset t.span values

/-- The values of a target as an image holds them. -/
inductive TargetValues where
  | profile (p : Profile)
  | filter (f : Filter)
  | routing (rs : List ClassRouting)
  | globals (g : Globals)
deriving DecidableEq, Repr

/-- The values of a target in an image. -/
def ConfigTarget.read (t : ConfigTarget) (img : List Byte) : TargetValues :=
  match t with
  | .profile n => .profile (profileAt img n)
  | .filter n => .filter (filterAt img n)
  | .routing => .routing (routingTable img)
  | .globals => .globals (globalsOf img)

/-- The values that a CONFIG_SET carries lie within their ranges (R143, R183). -/
def ConfigTarget.accepts (t : ConfigTarget) (values : List Byte) : Bool :=
  let img := t.place (List.replicate 512 0#8) values
  match t with
  | .profile n => (profileAt img n).inRange
  | .filter _ => true
  | .routing => routingInRange img
  | .globals => (globalsOf img).inRange

/-- The bytes that a CONFIG_SET carries, from word 1 (12 section 12.3). -/
def configValues (r : Record) : List Byte := bytesOfWords ((r.words.drop 1).take 4)

/-- The fields of a CONFIG_SET (R130, R143). -/
def configFields (r : Record) : Fields :=
  match configTarget (bits (r.word 0) 0 8) (bits (r.word 0) 8 8) with
  | none => { body := .configSet .routing [], clamped := false, inRange := false }
  | some t =>
    let values := (configValues r).take t.span
    { body := .configSet t values, clamped := false, inRange := t.accepts values }

/-- The fields of a query of a kind code; none when the code names no kind (12 section 12.3). -/
def queryFields (kind : Nat) (r : Record) : Option Fields :=
  if kind = 1 then some { body := .find (findRequest r), clamped := findClamped r, inRange := findInRange r }
  else if kind = 2 then
    some { body := .findPair (findRequest r), clamped := findClamped r, inRange := findInRange r }
  else if kind = 3 then some (plainFields (.activate (bits (r.word 0) 0 16)))
  else if kind = 4 then some (plainFields (.release (bits (r.word 0) 0 16)))
  else if kind = 5 then some (adoptFields r)
  else if kind = 6 then some (plainFields (.lookupNode (r.word 0)))
  else if kind = 7 then some (plainFields (.lookupLink (r.word 0) (bits (r.word 1) 0 16)))
  else if kind = 8 then some (plainFields (.status (bit (r.word 0) 0)))
  else if kind = 9 then some (sweepFields r)
  else if kind = 10 then some (configFields r)
  else if kind = 11 then some (plainFields .save)
  else if kind = 12 then some (plainFields .reload)
  else if kind = 13 then some (plainFields .flush)
  else if kind = 14 then some (plainFields (.nodeClear (r.word 0)))
  else none

/-- What R129 makes of a completed query record. -/
inductive Judged where
  | bad (reason : QueryReason) (clamped : Bool)
  | good (q : Query)
deriving DecidableEq, Repr

/-- The five tests of R129, in their order. -/
def judgeQuery (r : Record) : Judged :=
  if r.queryFormat ≠ 1 then .bad .format false
  else
    match queryFields r.queryKind r with
    | none => .bad .kind false
    | some f =>
      if r.queryLength < 2 ∨ 64 < r.queryLength ∨ r.queryLength < queryNeed r.queryKind r then
        .bad .length false
      else if r.incomplete then .bad .incomplete false
      else if f.inRange = false then .bad .range f.clamped
      else .good { tag := r.queryTag, kind := r.queryKind, high := r.queryHigh, notify := r.queryNotify,
                   clamped := f.clamped, provisional := false, body := f.body }

end Sys2Proof.Machine
end

