-- ==== Sys2Proof/Machine/Routes.lean ====
section
/-! DEFINITION. Routes against the live network: segments and their noise (R71, R72), cost (R67), the tests of the
completion validation and the hold test (R92, R95), and the path summary (R93). -/

namespace Sys2Proof.Machine

/-! ### Live values -/

/-- The add noise of a node; 0 when it is not in the table (R80). -/
def State.addNoise (s : State) (id : NodeId) : Nat := ((s.nodeOf id).map (·.addNoise)).getD 0

/-- The drop noise of a node; 0 when it is not in the table (R82). -/
def State.dropNoise (s : State) (id : NodeId) : Nat := ((s.nodeOf id).map (·.dropNoise)).getD 0

/-- The express noise of a node; 0 when it is not in the table. -/
def State.expressNoise (s : State) (id : NodeId) : Nat := ((s.nodeOf id).map (·.expressNoise)).getD 0

/-- The regeneration cost of a node; 0 when it is not in the table. -/
def State.regenCost (s : State) (id : NodeId) : Nat := ((s.nodeOf id).map (·.regenCost)).getD 0

/-- The noise of a direction; 0 when there is no such link. -/
def State.noiseOf (s : State) (k : Nat) (d : Dir) : Nat := ((s.directionAt k d).map (·.noise)).getD 0

/-- The cost of a direction; 0 when there is no such link. -/
def State.costOf (s : State) (k : Nat) (d : Dir) : Nat := ((s.directionAt k d).map (·.cost)).getD 0

/-! ### Segments (R71, R72) -/

/-- The noises of the segments of a route, in route order. acc is the noise of the current segment so far: the add
noise of its start node, its directions and its interior nodes. A segment ends where the receiving node is a
regeneration point, or at the destination. -/
def segmentNoises (s : State) (regens : List NodeId) : Nat → List (Hop × NodeId) → List Nat
  | _, [] => []
  | acc, [(h, n)] => [satAdd (satAdd acc (s.noiseOf h.link h.dir)) (s.dropNoise n)]
  | acc, (h, n) :: e :: t =>
    let here := satAdd acc (s.noiseOf h.link h.dir)
    if regens.contains n then
      satAdd here (s.dropNoise n) :: segmentNoises s regens (s.addNoise n) (e :: t)
    else segmentNoises s regens (satAdd here (s.expressNoise n)) (e :: t)

/-- The segment noises of a route from live values (R72). -/
def State.routeNoises (s : State) (r : Route) : List Nat :=
  segmentNoises s r.regens (s.addNoise r.source) r.received

/-- The greatest of a list of numbers. -/
def greatest (ns : List Nat) : Nat := ns.foldl max 0

/-- The worst segment noise of a route (R72). -/
def State.worstNoise (s : State) (r : Route) : Nat := greatest (s.routeNoises r)

/-- The cost of a route: its directions and the regeneration costs at its regeneration points (R67). -/
def State.routeCost (s : State) (r : Route) : Nat :=
  r.regens.foldl (fun c n => satAdd c (s.regenCost n))
    (r.hops.foldl (fun c h => satAdd c (s.costOf h.link h.dir)) 0)

/-- The margin of a route against a budget: exact and signed (R74). -/
def marginOf (budget worst : Nat) : Int := (budget : Int) - (worst : Int)

/-! ### Validation and holds (R92, R95) -/

/-- Test 1 of R92: every hop names its link, as R109 says it, and is in service. The ends of R92 do not take in the
receiving port, which no hop keeps (assumption log 13). -/
def State.routeWhole (s : State) (r : Route) : Bool :=
  r.received.all fun (h, n) => s.namesLink h n && s.inService h.link h.dir

/-- Test 2 of R92 without the holds: every hop's slot is addressable at both ends and not lit. -/
def State.routeUnlit (s : State) (r : Route) : Bool :=
  r.hops.all fun h => hasSlot (s.unlitAddressable h.link h.dir) h.slot

/-- The hold condition of test 2: no hop's slot is held by a hold in force. -/
def State.routeUnheld (s : State) (r : Route) : Bool :=
  r.hops.all fun h => !hasSlot (s.heldOn h.link h.dir) h.slot

/-- Test 3 of R92: the regenerators suffice for all the regeneration points listed. -/
def State.regensSuffice (s : State) (points : List NodeId) : Bool :=
  points.all fun id =>
    match s.nodeOf id with
    | none => false
    | some n => decide (n.regenInUse + points.count id ≤ n.regenTotal)

/-- Test 4 of R92: every segment's noise is no greater than B. -/
def State.routeFeasible (s : State) (budget : Nat) (r : Route) : Bool :=
  (s.routeNoises r).all fun x => decide (x ≤ budget)

/-- The validation part of R95 for one route: tests 1 and 4, and test 2 without the holds. -/
def State.routeValid (s : State) (budget : Nat) (r : Route) : Bool :=
  s.routeWhole r && s.routeUnlit r && s.routeFeasible budget r

/-- The validation part of R95 for the routes of a request. -/
def State.validRoutes (s : State) (budget : Nat) (rs : List Route) : Bool :=
  rs.all fun r => s.routeValid budget r

/-- The hold part of R95 for the routes of a request. -/
def State.holdableRoutes (s : State) (rs : List Route) : Bool :=
  rs.all (fun r => s.routeUnheld r) && s.regensSuffice (rs.flatMap (·.regens))

/-! ### Path summaries (R93) -/

/-- A summary of all zeros (R189). -/
def Summary.zero : Summary :=
  { hopCount := 0, segments := 0, cost := 0, worst := 0, budget := 0, margin := 0, tag := 0,
    labels := 0, restarts := 0 }

/-- The tag that names no record (R107). -/
def noTag : Nat := 0xFFFF

/-- The summary of a route from live values (R93). -/
def State.summarize (s : State) (r : Route) (budget tag labels restarts : Nat) : Summary :=
  { hopCount := r.hops.length
    segments := r.regens.length + 1
    cost := s.routeCost r
    worst := s.worstNoise r
    budget := budget
    margin := marginOf budget (s.worstNoise r)
    tag := tag
    labels := labels
    restarts := restarts }

/-- The summary of a query that ends without a route (R93). -/
def noRouteSummary (budget labels restarts : Nat) : Summary :=
  { Summary.zero with budget := budget, labels := labels, restarts := restarts }

end Sys2Proof.Machine
end

