-- ==== Sys2Proof/Machine/Topology.lean ====
section
/-! DEFINITION. The Topology Store (01): nodes, ports, claims, links and the reports about one direction, and the
commands NODE_HOLD_EXPIRY and CLAIM_HOLD_EXPIRY. -/

namespace Sys2Proof.Machine

/-- A NODE notice: the node id as subject (R2 to R9). -/
def nodeNotice (e : NoticeEvent) (id : NodeId) (detail : Nat) : Notice := notice e id (word detail)

/-! ### Ports and claims (R9 to R11, R14) -/

/-- What a port of the node at an index refers to. -/
def State.portAt (s : State) (i port : Nat) : Option PortRef :=
  (s.nodeAt i).bind fun n => tableGet n.ports port

/-- The number of port entries of the node at an index. -/
def State.portCount (s : State) (i : Nat) : Nat := ((s.nodeAt i).map fun n => n.ports.length).getD 0

/-- A port entry of the node at an index placed. -/
def State.setPortRef (s : State) (i port : Nat) (r : PortRef) : State :=
  s.updateNode i fun n => { n with ports := tableSet n.ports port r }

/-- A port entry of the node at an index removed. -/
def State.erasePort (s : State) (i port : Nat) : State :=
  s.updateNode i fun n => { n with ports := tableErase n.ports port }

/-- A claim is the one stored at a port. -/
def Claim.isAt (c : Claim) (i port : Nat) : Bool := c.claimant == i && c.port == port

/-- The stored claim of a port. -/
def State.claimAt (s : State) (i port : Nat) : Option Claim := s.store.claims.find? fun c => c.isAt i port

/-- The claim of a port leaves the claim table. -/
def State.dropClaim (s : State) (i port : Nat) : State :=
  s.setClaims (s.store.claims.filter fun c => !c.isAt i port)

/-- The claim of a port and its port entry are removed (R8, R11, R14, R16). -/
def State.removeClaim (s : State) (i port : Nat) : State := (s.dropClaim i port).erasePort i port

/-! ### Links (R17, R18) -/

/-- Link k is removed (R18): hop-lost events for both directions, the LINK notice, both port entries, the link. That the
event of direction 0 comes first is the model's choice (assumption log 14). -/
def State.removeLink (s : State) (k : Nat) : State :=
  match s.linkAt k with
  | none => s
  | some l =>
    let lost0 := s.raiseStore (.hopLost { subject := s.directionSubject l k .zero, cause := .linkRemoved })
    let lost1 := lost0.raiseStore (.hopLost { subject := s.directionSubject l k .one, cause := .linkRemoved })
    let told := lost1.hand (linkNotice .removed (s.idAt l.end0.node) l.end0.port (word k))
    let unported := (told.erasePort l.end0.node l.end0.port).erasePort l.end1.node l.end1.port
    unported.setLinks (tableErase unported.store.links k)

/-- A link is formed at the lowest free index, end 0 at the stored claim's port, end 1 at the claimant just taken
(R13, R17). Both claims have left the claim table. -/
def State.formLink (s : State) (b pb a pa : Nat) : State :=
  let k := lowestFree s.store.links
  let l : Link := { end0 := { node := b, port := pb }, end1 := { node := a, port := pa }, risks := [],
                    dir0 := freshDirection, dir1 := freshDirection }
  let linked := s.setLinks (tableSet s.store.links k l)
  let ported := (linked.setPortRef b pb (.linkEnd k .zero)).setPortRef a pa (.linkEnd k .one)
  ported.hand (linkNotice .formed (s.idAt a) pa (word k))

/-! ### Removal of a node (R8) -/

/-- The link indexes in a node's port table, in ascending port order. -/
def Node.linkIndexes (n : Node) : List Nat :=
  n.ports.filterMap fun (_, r) =>
    match r with
    | .linkEnd k _ => some k
    | .claim => none

/-- The node at an index is removed (R8): its links, its claims, the claims that hear it with their port entries,
one hop-lost event, its record. -/
def State.removeNode (s : State) (i : Nat) (n : Node) : State :=
  let unlinked := n.linkIndexes.foldl (fun x k => x.removeLink k) s
  let unclaimed := unlinked.setClaims (unlinked.store.claims.filter fun c => c.claimant != i)
  let unheard := (unclaimed.store.claims.filter fun c => c.heardId == n.id).foldl
    (fun x c => x.removeClaim c.claimant c.port) unclaimed
  let lost := unheard.raiseStore (.hopLost { subject := .node n.id, cause := .nodeRemoved })
  lost.setNodes (tableErase lost.store.nodes i)

/-! ### Announcements (R2, R3) -/

/-- The number of regeneration points that name a node among the non-FREE records (R2, R110). -/
def State.regenPoints (s : State) (id : NodeId) : Nat :=
  s.lightpaths.foldl (fun n (_, p) => n + p.route.regens.count id) 0

/-- A node record with the fields that a NODE_ANNOUNCE fills or replaces, converted under the profile named in the
record (R2, R3, R50); the hold timer is started at three times the refresh interval. -/
def announced (img : List Byte) (r : Record) (n : Node) : Node :=
  let index := bits (r.word 1) 0 8
  let p := profileAt img index
  let refresh := clampTo 1 60 (bits (r.word 1) 8 8)
  let addN := convertNoise p (r.word 3)
  let dropN := convertNoise p (r.word 4)
  let expressN := convertNoise p (r.word 5)
  { n with
    profile := index
    refresh := refresh
    hold := 3 * refresh
    regenTotal := min 15 (bits (r.word 1) 16 8)
    regenCost := regenerationCost p (bits (r.word 2) 0 16)
    addNoise := addN.1
    dropNoise := dropN.1
    expressNoise := expressN.1
    clamped := addN.2 || dropN.2 || expressN.2 }

/-- A node record before its announcement fills it (R2). -/
def newNode (id : NodeId) (regenInUse : Nat) : Node :=
  { id := id, profile := 0, liveness := .live, quarantined := false, faultScore := 0, refresh := 1, hold := 3,
    regenTotal := 0, regenInUse := regenInUse, regenCost := 0, addNoise := 0, dropNoise := 0,
    expressNoise := 0, clamped := false, ports := [] }

/-- A NODE_ANNOUNCE from an unknown reporter (R2). -/
def State.createNode (s : State) (r : Record) : State :=
  if nodeCapacity ≤ s.store.nodes.length then s.hand (nodeNotice .nodeTableFull r.reporter 0)
  else
    let i := lowestFree s.store.nodes
    let n := announced s.image r (newNode r.reporter (s.regenPoints r.reporter))
    (s.setNodes (tableSet s.store.nodes i n)).hand (nodeNotice .newNode r.reporter i)

/-- A NODE_ANNOUNCE from the known node at index i (R3); another profile index acts on the directions that arrive
at the node (R41). -/
def State.refreshNode (s : State) (r : Record) (i : Nat) (n : Node) : State :=
  let refreshed := s.updateNode i (announced s.image r)
  if bits (r.word 1) 0 8 = n.profile then refreshed
  else refreshed.reprofile fun m => m.id == n.id

/-! ### Claims (R12 to R15) -/

/-- The claim with a withdraw flag (R11). -/
def State.withdrawClaim (s : State) (i port : Nat) : State :=
  match s.portAt i port with
  | none => s
  | some (.linkEnd k _) => s.removeLink k
  | some .claim => s.removeClaim i port

/-- The oldest claim, other than one that must stay, is evicted when the claim table is full (R14, R15). -/
def State.evictClaim (s : State) (keep : Claim → Bool) : State :=
  if s.store.claims.length < claimCapacity then s
  else
    match s.store.claims.find? fun c => !keep c with
    | none => s
    | some c =>
      (s.removeClaim c.claimant c.port).hand
        (linkNotice .claimEvicted (s.idAt c.claimant) c.port c.heardId)

/-- A claim of node i is stored at its port (R14), the youngest, its hold timer started at three times the
claimant's refresh interval (R10). -/
def State.placeClaim (s : State) (i port : Nat) (heardId : NodeId) (heardPort : Nat) : State :=
  let refresh := ((s.nodeAt i).map (·.refresh)).getD 1
  let c : Claim := { claimant := i, port := port, heardId := heardId, heardPort := heardPort, timer := 3 * refresh }
  let cleared := s.dropClaim i port
  (cleared.setClaims (cleared.store.claims ++ [c])).setPortRef i port .claim

/-- R14: an unmatched claim, or one that R15 keeps, is stored at port of node i. -/
def State.storeClaim (s : State) (i port : Nat) (heardId : NodeId) (heardPort : Nat)
    (keep : Claim → Bool) : State :=
  if (s.claimAt i port).isSome then s.placeClaim i port heardId heardPort
  else (s.evictClaim keep).placeClaim i port heardId heardPort

/-- A port of node i can take an entry: it has one, or the port table has room (R9). -/
def State.portRoom (s : State) (i port : Nat) : Bool :=
  (s.portAt i port).isSome || decide (s.portCount i < portCapacity)

/-- The stored claim that matches a claim of port of the node with an id hearing heardId:heardPort (R13). -/
def State.matchFor (s : State) (id : NodeId) (port : Nat) (heardId : NodeId) (heardPort : Nat) : Option Claim :=
  (s.indexOf heardId).bind fun b =>
    s.store.claims.find? fun c => c.isAt b heardPort && c.heardId == id && c.heardPort == port

/-- R13, R14 and R15: a claim of port of node i hearing heardId:heardPort, at a port that is no link end. -/
def State.meetClaim (s : State) (i : Nat) (id : NodeId) (port : Nat) (heardId : NodeId)
    (heardPort : Nat) : State :=
  if !s.portRoom i port then s.hand (nodeNotice .portTableFull id port)
  else
    match s.matchFor id port heardId heardPort with
    | none => s.storeClaim i port heardId heardPort fun _ => false
    | some c =>
      if linkCapacity ≤ s.store.links.length then
        (s.storeClaim i port heardId heardPort fun x => x.isAt c.claimant c.port).hand
          (linkNotice .linkTableFull id port heardId)
      else ((s.dropClaim c.claimant c.port).dropClaim i port).formLink c.claimant c.port i port

/-- The other end of link k, seen from one side, is a port of the node with an id. -/
def State.farEndIs (s : State) (k : Nat) (side : Dir) (id : NodeId) (port : Nat) : Bool :=
  match s.linkAt k with
  | none => false
  | some l => s.idAt (l.endAt (opposite side)).node == id && (l.endAt (opposite side)).port == port

/-- R12: a claim without the withdraw flag from node i. -/
def State.takeClaim (s : State) (i : Nat) (id : NodeId) (port : Nat) (heardId : NodeId)
    (heardPort : Nat) : State :=
  match s.portAt i port with
  | some (.linkEnd k side) =>
    if s.farEndIs k side heardId heardPort then s
    else (s.removeLink k).meetClaim i id port heardId heardPort
  | _ => s.meetClaim i id port heardId heardPort

/-- An accepted ADJACENCY_CLAIM from node i (R11, R12). -/
def State.applyClaim (s : State) (r : Record) (i : Nat) : State :=
  if bit (r.word 1) 16 then s.withdrawClaim i r.localPort
  else s.takeClaim i r.reporter r.localPort (r.word 2) (bits (r.word 3) 0 16)

/-! ### Reports about one direction (R20 to R23) -/

/-- The direction that a SPAN_CONDITION or CHANNEL_STATE of node i describes: the one arriving at its port
(R20). -/
def State.describedDirection (s : State) (i port : Nat) : Option (Nat × Dir) :=
  match s.portAt i port with
  | some (.linkEnd k side) => some (k, side)
  | _ => none

/-- A list of ids with repeats kept once, in the order given (R21). -/
def keepOnce (ids : List Word) : List Word :=
  ids.foldl (fun kept id => if kept.contains id then kept else kept ++ [id]) []

/-- The difference of two numbers, in either direction. -/
def distance (a b : Nat) : Nat := (a - b) + (b - a)

/-- A noise change is significant (R22): the direction was in service as the record was taken, the value changed,
and by at least the threshold. -/
def significant (wasIn : Bool) (old new threshold : Nat) : Bool :=
  wasIn && old != new && decide (threshold ≤ distance old new)

/-- An accepted SPAN_CONDITION about direction d of link k (R21, R22): noise, cost and shared-risk list stored, the
change tested, the observation handed on. wasIn says whether the direction was in service as the record was
taken. -/
def State.applySpan (s : State) (r : Record) (n : Node) (k : Nat) (d : Dir) (wasIn : Bool) : State :=
  match s.linkAt k with
  | none => s
  | some l =>
    let p := s.profileOf n
    let x := l.direction d
    let noise := convertNoise p (r.word 2)
    let stored := s.updateLink k fun l =>
      { l.withDirection d { x with noise := noise.1, clamped := noise.2,
                                   cost := directionCost p (bits (r.word 3) 0 16) } with
        risks := keepOnce r.riskIds }
    let told :=
      if significant wasIn x.noise noise.1 s.globals.linkChange then
        (stored.hand (linkNotice .significantChange n.id r.localPort (word noise.1))).evaluateDirection k d
      else stored
    told.setHandoffs { told.handoffs with
      observations := told.handoffs.observations ++
        [{ link := k, dir := d, up := bits (r.word 1) 16 8 == 1 }] }

/-- The lit map of a CHANNEL_STATE: maker channels 0..79. -/
def Record.litMap (r : Record) : SlotSet :=
  BitVec.ofNat 80 ((r.word 2).toNat + (r.word 3).toNat <<< 32 + ((r.word 4).toNat % 65536) <<< 64)

/-- An accepted CHANNEL_STATE about direction d of link k (R23): the lit set replaced, a lit check handed on. -/
def State.applyChannels (s : State) (r : Record) (n : Node) (k : Nat) (d : Dir) : State :=
  match s.linkAt k with
  | none => s
  | some l =>
    (s.setDirection k d { l.direction d with lit := mapLit (s.profileOf n) r.litMap }).raiseStore
      (.litCheck k d (s.endName (l.endAt (opposite d))) (s.endName (l.endAt d)))

/-! ### Liveness (R5 to R7) -/

/-- The hold timer of the node at an index is restarted at three times its refresh interval (R5). -/
def State.restartHold (s : State) (i : Nat) : State :=
  s.updateNode i fun n => { n with hold := 3 * n.refresh }

/-- An accepted record from the known node at index i restarts its hold timer; a STALE node becomes LIVE, and the
lightpaths whose route names it are to be evaluated (R5). -/
def State.proveAlive (s : State) (i : Nat) (n : Node) : State :=
  let restarted := s.restartHold i
  match n.liveness with
  | .live => restarted
  | .stale =>
    let alive := restarted.updateNode i fun m => { m with liveness := .live }
    (alive.hand (nodeNotice .liveAgain n.id i)).addEvaluations fun p => p.route.names n.id

/-- A LIVE node's hold timer expires (R6). -/
def State.goStale (s : State) (i : Nat) (n : Node) : State :=
  let stale := s.updateNode i fun m => { m with liveness := .stale, hold := 3 * m.refresh }
  (stale.raiseStore (.hopLost { subject := .node n.id, cause := .nodeStale })).hand
    (nodeNotice .stale n.id i)

/-! ### The commands -/

/-- The hold timer of the node at an index expires: a LIVE node becomes STALE, a STALE node is aged out (R6, R7). -/
def State.expireNode (s : State) (i : Nat) (n : Node) : State :=
  match n.liveness with
  | .live => s.goStale i n
  | .stale => (s.removeNode i n).hand (nodeNotice .agedOut n.id i)

/-- NODE_HOLD_EXPIRY: a hold timer that has come to its last one-second event expires (R6, R7). A record taken before
has restarted the timer, and the expiry does not happen (R7, R187, assumption log 2). -/
def execNodeHoldExpiry (node : Nat) (s : State) : Host.Outcome State Fault Refusal :=
  if s.running then
    match s.nodeAt node with
    | none => .next s
    | some n => if countExpired n.hold then .next (s.expireNode node n) else .next s
  else .next s

/-- CLAIM_HOLD_EXPIRY: the stored claim whose hold timer has come to its last one-second event is removed with its port
entry, with no notice. A claim of the same port taken before has restarted the timer, and the expiry does not happen
(R16, R187, assumption log 2). -/
def execClaimHoldExpiry (claimant port : Nat) (s : State) : Host.Outcome State Fault Refusal :=
  if s.running then
    match s.claimAt claimant port with
    | none => .next s
    | some c => if countExpired c.timer then .next (s.removeClaim claimant port) else .next s
  else .next s

end Sys2Proof.Machine
end

