-- ==== Sys2Proof/Machine/Intake.lean ====
section
/-! DEFINITION. Report Intake (03): arrivals at the ingest queue, the five checks, fault scores and quarantine, and the
command INTAKE_TAKE_RECORD. -/

namespace Sys2Proof.Machine

/-- The intake counters changed. -/
def State.count (s : State) (f : Counters → Counters) : State :=
  s.setIntake { s.intake with counters := f s.intake.counters }

/-! ### Arrivals (R44) -/

/-- A completed report record of the slot at an address arrives at the ingest queue; a full queue loses it (R44). -/
def State.arriveReport (s : State) (slot : Nat) (r : Record) : State :=
  if s.intake.queue.length < ingestCapacity then
    s.setIntake { s.intake with queue := s.intake.queue ++ [r] }
  else
    (s.count fun c => { c with overruns := countUp c.overruns 1 }).hand
      (notice .overrun r.reporter (word slot))

/-! ### Faults and quarantine (R56, R57) -/

/-- Quarantine is set on the node at an index (R57). score is its fault score. -/
def State.quarantine (s : State) (i : Nat) (id : NodeId) (score : Nat) : State :=
  let marked := s.updateNode i fun n => { n with quarantined := true }
  (marked.raiseIntake { subject := .node id, cause := .quarantined }).hand
    (nodeNotice .quarantined id score)

/-- A fault against the reporter, if it is known (R56): a quarantined node's score stays; a score that reaches the
threshold of the profile in force sets quarantine. -/
def State.scoreFault (s : State) (id : NodeId) : State :=
  match s.nodeEntry id with
  | none => s
  | some (i, n) =>
    if n.quarantined then s
    else
      let score := min (n.faultScore + 1) 63
      let scored := s.updateNode i fun m => { m with faultScore := score }
      if (s.profileOf n).faultThreshold ≤ score then scored.quarantine i id score else scored

/-- A good record of the node at an index lowers its score; a quarantined node's score stays (R56). -/
def State.scoreGood (s : State) (i : Nat) : State :=
  s.updateNode i fun n => if n.quarantined then n else { n with faultScore := n.faultScore - 1 }

/-! ### The acceptance filter (R52) -/

/-- A filter entry passes a record. -/
def Filter.passes (f : Filter) (k : ReportKind) (id : NodeId) : Bool :=
  f.enabled && (id &&& f.mask) == (f.value &&& f.mask) && (f.kinds >>> k.filterBit) % 2 == 1

/-- The filter in force passes a record: no entry is enabled, or an enabled entry agrees (R52). -/
def filterPasses (img : List Byte) (k : ReportKind) (id : NodeId) : Bool :=
  let fs := (List.range 8).map (filterAt img)
  fs.all (fun f => !f.enabled) || fs.any fun f => f.passes k id

/-! ### Accepted records (R55) -/

/-- A SPAN_CONDITION or CHANNEL_STATE that names no link counts as no-link (R20, R55). -/
def State.noLink (s : State) : State := s.count fun c => { c with noLink := countUp c.noLink 1 }

/-- The direction that the report describes was in service in this state (R22). -/
def State.describedInService (s : State) (i port : Nat) : Bool :=
  match s.describedDirection i port with
  | none => false
  | some (k, d) => s.inService k d

/-- The Topology Store applies an accepted record of the known node at index i (R55). wasIn says whether the
direction that the record describes was in service as the record was taken (R22, assumption log 12). -/
def State.applyRecord (s : State) (k : ReportKind) (r : Record) (i : Nat) (n : Node) (wasIn : Bool) : State :=
  match k with
  | .nodeAnnounce => s.refreshNode r i n
  | .nodeWithdraw => (s.removeNode i n).hand (nodeNotice .withdrawn n.id i)
  | .adjacencyClaim => s.applyClaim r i
  | .spanCondition =>
    match s.describedDirection i r.localPort with
    | none => s.noLink
    | some (link, d) => s.applySpan r n link d wasIn
  | .channelState =>
    match s.describedDirection i r.localPort with
    | none => s.noLink
    | some (link, d) => s.applyChannels r n link d

/-- The record is accepted (R55): counted, a good record scored, the hold timer restarted, the record applied to the
store. A NODE_ANNOUNCE from an unknown reporter creates its node (R2). -/
def State.acceptRecord (s : State) (k : ReportKind) (r : Record) : State :=
  let counted := s.count fun c => { c with accepted := countUp c.accepted 1 }
  match s.nodeEntry r.reporter with
  | none => counted.createNode r
  | some (i, n) =>
    let alive := (counted.scoreGood i).proveAlive i n
    alive.applyRecord k r i ((alive.nodeAt i).getD n) (s.describedInService i r.localPort)

/-! ### The five checks (R45) -/

/-- A record of unknown format (R46). -/
def State.dropFormat (s : State) (r : Record) : State :=
  let counted := s.count fun c => { c with unknownFormat := countUp c.unknownFormat 1 }
  if s.globals.unknownFormat = 1 then
    (counted.hand (notice .malformedRecord r.reporter (word MalformReason.format.code))).scoreFault r.reporter
  else counted

/-- A malformed record (R51). -/
def State.dropMalformed (s : State) (r : Record) (reason : MalformReason) : State :=
  let counted := s.count fun c => { c with malformed := countUp c.malformed 1 }
  (counted.hand (notice .malformedRecord r.reporter (word reason.code))).scoreFault r.reporter

/-- Attribution and quarantine (R53, R54), and acceptance. -/
def State.attribute (s : State) (k : ReportKind) (r : Record) : State :=
  match s.nodeOf r.reporter with
  | none =>
    if k = .nodeAnnounce then s.acceptRecord k r
    else s.count fun c => { c with unattributed := countUp c.unattributed 1 }
  | some n =>
    if n.quarantined ∧ k ≠ .nodeWithdraw then
      s.count fun c => { c with quarantineDrops := countUp c.quarantineDrops 1 }
    else s.acceptRecord k r

/-- The judgement of a record taken from the ingest queue, in the order of R45. -/
def State.judgeRecord (s : State) (r : Record) : State :=
  if r.reportFormat ≠ 1 then s.dropFormat r
  else
    match malformed r, reportKind r.reportKindCode with
    | some reason, _ => s.dropMalformed r reason
    | none, none => s.dropMalformed r .kind
    | none, some k =>
      if filterPasses s.image k r.reporter then s.attribute k r
      else s.count fun c => { c with filtered := countUp c.filtered 1 }

/-! ### The command -/

/-- Intake is not still handling the previous record: the Span Conditioner has taken its observation (R45, assumption
log 9). -/
def State.intakeFree (s : State) : Bool := s.handoffs.observations.isEmpty

/-- INTAKE_TAKE_RECORD: intake takes the record at the head of the ingest queue (R45). -/
def execIntakeTakeRecord (s : State) : Host.Outcome State Fault Refusal :=
  if s.running && s.intakeFree then
    match s.intake.queue with
    | [] => .next s
    | r :: rest => .next ((s.setIntake { s.intake with queue := rest }).judgeRecord r)
  else .next s

end Sys2Proof.Machine
end

