-- ==== Sys2Proof/Machine/Notices.lean ====
section
/-! DEFINITION. The Notice Unit (09): taking a notice, the ring, the notice lines, the consumer index, and the command
NOTICE_TAKE. NOTICE_WORD_HANDOFF stands in Machine/Bus.lean, beside the write buffer. -/

namespace Sys2Proof.Machine

/-! ### The ring (R159) -/

/-- The capacity of the ring in force; 0 while there is no notice window. -/
def State.capacity (s : State) : Nat := ringCapacity s.image

/-- The base of the notice window in force. -/
def State.noticeBase (s : State) : Nat := windowBase s.image .notice

/-- A position advanced by one, modulo the capacity. -/
def ringNext (pos capacity : Nat) : Nat := (pos + 1) % capacity

/-- The ring is full: advancing the producer index by one position would make it the consumer index (R159, R160). R162
says that a consumer index between the published producer and the producer leaves the ring full or nearly full; the test
is taken as it stands there too (assumption log 39). -/
def State.ringFull (s : State) : Bool := ringNext s.notices.producer s.capacity == s.notices.consumer

/-- The size of the unconsumed range: the published producer minus the consumer index, modulo the capacity. -/
def State.unconsumedSize (s : State) : Nat :=
  (s.notices.published + s.capacity - s.notices.consumer) % s.capacity

/-- The positions of the unconsumed range, from the consumer index upward. -/
def State.unconsumed (s : State) : List Nat :=
  (List.range s.unconsumedSize).map fun i => (s.notices.consumer + i) % s.capacity

/-! ### Notice lines (R163) -/

/-- The routing of a class in the table in force (R164). -/
def State.routing (s : State) (c : NoticeClass) : ClassRouting := routingAt s.image c.code

/-- A notice line is asserted: a position of the unconsumed range has a shadow class whose line choice is that line
(R163). The level follows the range, the shadow classes and the table at every moment. It thus changes at NOTICE_TAKE
too where the producer position lies in the unconsumed range, which R163's list of events leaves out: the model's choice
(assumption log 41). -/
def State.lineAsserted (s : State) (line : LineChoice) : Bool :=
  s.unconsumed.any fun i =>
    match tableGet s.notices.shadow i with
    | none => false
    | some c => (s.routing c).line == line

/-- Notice line A (R163). -/
def State.lineA (s : State) : Bool := s.lineAsserted .a

/-- Notice line B (R163). -/
def State.lineB (s : State) : Bool := s.lineAsserted .b

/-! ### Taking a notice (R160, R161) -/

/-- Word 3 of a notice, its closing word (12 section 12.6). -/
def noticeClosing (n : Notice) (sequence lost : Nat) : Word :=
  word (field sequence 0 16 + field n.event.cls.code 16 4 + field n.event.code 20 4 + field lost 24 8)

/-- The address of a ring position in the notice window at a base (09 section 9.1). -/
def positionAddr (base pos : Nat) : Nat := base + 16 + 16 * pos

/-- The producer word of the window at a base, which publishes its value when it belongs to the ring in force. -/
def producerWord (base value : Nat) (publishes : Option Nat) : NoticeWord :=
  { addr := base + 4, value := word value, publishes := publishes }

/-- A word of a notice, which publishes nothing. -/
def noticeWord (addr : Nat) (w : Word) : NoticeWord := { addr := addr, value := w, publishes := none }

/-- The five words of a written notice, in the order of R161. next is the new producer index. -/
def noticeWords (base pos next : Nat) (n : Notice) (sequence lost : Nat) : List NoticeWord :=
  let a := positionAddr base pos
  [ noticeWord a n.subject, noticeWord (a + 4) (word (field n.port 0 16)), noticeWord (a + 8) n.detail,
    noticeWord (a + 12) (noticeClosing n sequence lost), producerWord base next (some next) ]

/-- A notice is dropped for a full ring (R160). -/
def NoticeUnit.drop (u : NoticeUnit) : NoticeUnit :=
  { u with lost := min (u.lost + 1) 255, lostTotal := countUp u.lostTotal 1 }

/-- A notice is written at the producer position (R160, R161). Its words wait for NOTICE_WORD_HANDOFF even where the
buffer has room (assumption log 37). The shadow class changes here, and with it a notice line where the unconsumed range
holds the position (assumption log 41). -/
def NoticeUnit.write (u : NoticeUnit) (n : Notice) (base capacity : Nat) : NoticeUnit :=
  let next := ringNext u.producer capacity
  { u with
    producer := next
    shadow := tableSet u.shadow u.producer n.event.cls
    sequence := (u.sequence + 1) % 65536
    lost := 0
    out := u.out ++ noticeWords base u.producer next n u.sequence u.lost }

/-- The Notice Unit takes a notice: discarded for a disabled class, dropped for a full ring, else written (R160). -/
def State.takeNotice (s : State) (n : Notice) : State :=
  if (s.routing n.event.cls).ring = false then s
  else if s.ringFull then s.setNotices s.notices.drop
  else s.setNotices (s.notices.write n s.noticeBase s.capacity)

/-- NOTICE_TAKE: the Notice Unit takes the notice that was handed to it first (R160). -/
def execNoticeTake (s : State) : Host.Outcome State Fault Refusal :=
  if s.running then
    match s.notices.inbox with
    | [] => .next s
    | n :: rest => .next ((s.setNotices { s.notices with inbox := rest }).takeNotice n)
  else .next s

/-! ### The consumer index (R162) -/

/-- A host write to offset 0 of the notice window: a full word below the capacity is taken (R162). -/
def State.takeConsumer (s : State) (data : Word) (enables : ByteMask) : State :=
  if enables = allBytes ∧ data.toNat < s.capacity then
    s.setNotices { s.notices with consumer := data.toNat }
  else s

end Sys2Proof.Machine
end

