-- ==== Sys2Proof/Machine/Flags.lean ====
section
/-! DEFINITION. Result records as words (12 sections 12.4 and 12.5, R146, R189): statuses, flags, header and closing
word, path bodies, and the answers that blocks other than the engines give. -/

namespace Sys2Proof.Machine

/-- The status codes (12 section 12.4). -/
def Status.code : Status → Nat
  | .done => 1 | .noPath => 2 | .labelsExhausted => 3 | .contended => 4 | .unstable => 5
  | .tableFull => 6 | .pairPrimaryOnly => 7 | .notFound => 8 | .conflict => 9 | .unknownNode => 10
  | .sameEndpoints => 11 | .badQuery => 12 | .flushed => 13 | .busy => 14 | .loadFailed => 15
  | .saveFailed => 16

/-- The record state codes (R189); 0 stands for FREE. -/
def LpState.code : LpState → Nat
  | .reserved => 1 | .active => 2 | .degraded => 3 | .broken => 4

/-! ### Path bodies -/

/-- The eight words of a path summary (12 section 12.4). -/
def summaryWords (x : Summary) : List Word :=
  [ word (field x.hopCount 0 8 + field x.segments 8 8 + field x.restarts 16 8 + flag (decide (x.margin < 0)) 24),
    word x.cost, word x.worst, word x.budget, signedWord x.margin,
    word (field x.tag 0 16 + field x.labels 16 16), 0#32, 0#32 ]

/-- A slot is addressable at a node of the table under the profile in force (R69). -/
def State.addressableAtId (s : State) (id : NodeId) (g : Nat) : Bool :=
  match s.nodeOf id with
  | none => false
  | some n => slotAddressable (s.profileOf n) g

/-- The two words of a hop entry (12 section 12.4): regeneration at the receiving node, and the flag of R69 as the
state stands when the body is composed. -/
def State.hopWords (s : State) (regens : List NodeId) (h : Hop) (receiver : NodeId) : List Word :=
  [ h.sender,
    word (field h.port 0 16 + field h.slot 16 8 + flag (regens.contains receiver) 24 +
      flag (!(s.addressableAtId h.sender h.slot && s.addressableAtId receiver h.slot)) 25) ]

/-- The 24 hop entries of a path, those past the hop count zero (R146, R189). -/
def State.routeWords (s : State) (r : Option Route) : List Word :=
  match r with
  | none => List.replicate 48 0#32
  | some r =>
    (r.received.flatMap (fun (h, n) => s.hopWords r.regens h n) ++ List.replicate 48 0#32).take 48

/-- The body of an answer, from word 4 (R189). -/
def State.bodyWords (s : State) (b : AnswerBody) : List Word :=
  match b with
  | .none => []
  | .words ws => ws
  | .path x r => summaryWords x ++ s.routeWords r
  | .pair x1 r1 x2 r2 => summaryWords x1 ++ summaryWords x2 ++ s.routeWords r1 ++ s.routeWords r2

/-! ### Flags, header and closing word (R146) -/

/-- MARGIN_NEGATIVE: a path summary of the answer has a margin below 0 (R146). R74 sets it in a result that reports a
margin below 0; the last margin in an ACTIVATE or RELEASE result is no path summary and does not set it (assumption log
38). -/
def AnswerBody.marginNegative (b : AnswerBody) : Bool :=
  match b with
  | .none => false
  | .words _ => false
  | .path x _ => decide (x.margin < 0)
  | .pair x1 _ x2 _ => decide (x1.margin < 0) || decide (x2.margin < 0)

/-- The flags of an answer: PROVISIONAL, CLAMPED, MARGIN_NEGATIVE from bit 0 (12 section 12.4). -/
def Answer.flags (a : Answer) : Nat :=
  flag a.provisional 0 + flag a.clamped 1 + flag a.body.marginNegative 2

/-- The four header words (12 section 12.4). -/
def headerWords (a : Answer) (bodyLength : Nat) : List Word :=
  [ word (field a.tag 0 16 + field a.kind 16 8 + field a.slot 24 8),
    word (field a.status.code 0 8 + field a.flags 8 3), a.detail, word bodyLength ]

/-- The closing word of a result (12 section 12.4). -/
def closingWord (a : Answer) : Word :=
  word (field a.tag 0 16 + field a.kind 16 4 + field a.flags 20 3 + field a.status.code 24 8)

/-- The words of a result record with their addresses in its slot: header and body in ascending order, then the
closing word, word 127 (R146). -/
def State.resultWords (s : State) (base : Nat) (a : Answer) : List (Nat × Word) :=
  let body := s.bodyWords a.body
  (headerWords a body.length ++ body).zipIdx.map (fun (w, i) => (base + 4 * i, w)) ++
    [(base + 4 * 127, closingWord a)]

/-! ### Answers -/

/-- An answer to a held query. -/
def answerTo (slot : Nat) (source : AnswerSource) (q : Query) (st : Status) (detail : Word) (named : Nat)
    (body : AnswerBody) : Answer :=
  { slot := slot, source := source, tag := q.tag, kind := q.kind, status := st, provisional := q.provisional,
    clamped := q.clamped, notify := q.notify, detail := detail, named := named, body := body }

/-- The answer to a query handed on by the dispatcher, offered unless a rewrite has withdrawn it (R132, R136). -/
def State.reply (s : State) (h : Handed) (st : Status) (detail named : Nat) (body : AnswerBody) : State :=
  match h.slot with
  | none => s
  | some slot =>
    (s.setSlot slot (.inService .answered none)).offer
      (answerTo slot .dispatcher h.query st (word detail) named body)

/-- The body of an ACTIVATE or RELEASE answer: state, origin, partner tag, last margin (R189). -/
def recordBody (st : LpState) (o : Origin) (partner : Option Nat) (margin : Int) : AnswerBody :=
  .words [ word (field st.code 0 8 + flag (o == .adopted) 8 + field (partner.getD 0xFFFF) 16 16),
           signedWord margin ]

end Sys2Proof.Machine
end

