-- ==== Sys2Proof/Machine/Lightpaths.lean ====
section
/-! DEFINITION. The Lightpath Table (06): tags, freeing, holds and regenerator counts, and the commands ACTIVATE,
RELEASE, ADOPT, LIT_CHECK, HOP_LOST_EVENT, RESERVATION_EXPIRY and SWEEP_RESULT. The command COMMIT stands in
Machine/Search.lean, beside the engine it answers. -/

namespace Sys2Proof.Machine

/-! ### Tags (R107) -/

/-- The tag of the record at an index with a generation (R107). -/
def tagOf (gen i : Nat) : Nat := gen * 128 + i

/-- The tag of the record at an index as it stands. -/
def State.recordTag (s : State) (i : Nat) : Nat := tagOf (s.recordAt i).gen i

/-- The record that a tag names: the one at its index, while it is not FREE and has its generation (R107). -/
def State.named (s : State) (tag : Nat) : Option (Nat × Lightpath) :=
  if (s.recordAt (tag % 128)).gen = tag / 128 then
    (s.lightpathAt (tag % 128)).map fun p => (tag % 128, p)
  else none

/-- The generation after a freeing: record 127 passes over 511 (R107). -/
def nextGeneration (i gen : Nat) : Nat :=
  if i = 127 ∧ gen = 510 then 0 else (gen + 1) % 512

/-- The generation of every record advanced and every record FREE (R127). -/
def clearRecords (rs : List LpRecord) : List LpRecord :=
  rs.zipIdx.map fun (r, i) => { gen := nextGeneration i r.gen, path := none }

/-- The lowest index of a FREE record. -/
def State.lowestFreeRecord (s : State) : Option Nat :=
  (s.records.zipIdx.find? fun (r, _) => r.path.isNone).map (·.2)

/-- The number of FREE records. -/
def State.freeRecords (s : State) : Nat := (s.records.filter fun r => r.path.isNone).length

/-! ### Regenerator counts (R110) -/

/-- The in-use count of each node named rises by 1, once for each naming, where the node is in the table (R110). -/
def State.takeRegens (s : State) (ids : List NodeId) : State :=
  ids.foldl (fun x id => x.updateNodeOf id fun n => { n with regenInUse := n.regenInUse + 1 }) s

/-- The in-use count of each node named falls by 1 (R110, R111). -/
def State.returnRegens (s : State) (ids : List NodeId) : State :=
  ids.foldl (fun x id => x.updateNodeOf id fun n => { n with regenInUse := n.regenInUse - 1 }) s

/-! ### Filling and freeing -/

/-- A FREE record is filled: its holds come into force and its regenerators are counted (R110, R113, R121). -/
def State.fillRecord (s : State) (i : Nat) (p : Lightpath) : State :=
  (s.setLightpath i p).takeRegens p.route.regens

/-- The partner tag of the record that a tag names becomes absent (R111). -/
def State.dropPartner (s : State) (partner : Option Nat) : State :=
  match partner.bind s.named with
  | none => s
  | some (j, q) => s.setLightpath j { q with partner := none }

/-- The record at an index is freed (R111). -/
def State.freeRecord (s : State) (i : Nat) (p : Lightpath) : State :=
  let returned := (s.returnRegens p.route.regens).dropPartner p.partner
  returned.setRecord i { gen := nextGeneration i (s.recordAt i).gen, path := none }

/-- A LIGHTPATH notice about the record at an index: its tag as subject (R112). -/
def State.lightpathNotice (s : State) (i : Nat) (e : NoticeEvent) (detail : Word) : Notice :=
  notice e (word (s.recordTag i)) detail

/-- The record at an index becomes ACTIVE, its timer stopped, with a notice and an evaluation (R115, R116). -/
def State.activateRecord (s : State) (i : Nat) (p : Lightpath) (detail : Nat) : State :=
  ((s.setLightpath i { p with state := .active, timer := none }).hand
    (s.lightpathNotice i .activated (word detail))).addEvaluation i

/-! ### Activation (R115, R116) -/

/-- The next query handed on by the dispatcher leaves the table's inbox. -/
def State.popToTable (s : State) : State :=
  s.setHandoffs { s.handoffs with toTable := s.handoffs.toTable.tail }

/-- The table takes an ACTIVATE (R115). -/
def State.activate (s : State) (h : Handed) (tag : Nat) : State :=
  match s.named tag with
  | none => s.reply h .notFound 0 tag .none
  | some (i, p) =>
    if p.state = .reserved then
      let t := s.activateRecord i p 1
      t.reply h .done 0 tag (recordBody .active p.origin p.partner p.lastMargin)
    else s.reply h .done 0 tag (recordBody p.state p.origin p.partner p.lastMargin)

/-- A hop names its link and its slot is lit on its direction (R116). -/
def State.hopLit (s : State) (h : Hop) (receiver : NodeId) : Bool :=
  s.namesLink h receiver &&
  match s.directionAt h.link h.dir with
  | none => false
  | some x => hasSlot x.lit h.slot

/-- Every hop of a route is lit (R116). -/
def State.routeLit (s : State) (r : Route) : Bool := r.received.all fun (h, n) => s.hopLit h n

/-- The lit check of direction d of link k activates the record at an index when it is RESERVED, has a hop on the
direction whose hold is in force, and every hop is lit (R116). -/
def State.litCheckRecord (s : State) (k : Nat) (d : Dir) (i : Nat) (p : Lightpath) : State :=
  if p.state = .reserved ∧ s.routeOn p.route k d ∧ s.routeLit p.route then s.activateRecord i p 2 else s

/-- The table takes a lit check (R116): the records in ascending index order. One whose link has been removed meanwhile
examines none, whatever link stands at its index now: no hold on a removed link is in force (R17, R109). -/
def State.checkLit (s : State) (k : Nat) (d : Dir) (sender receiver : EndName) : State :=
  if s.stillNames k d sender receiver then s.lightpaths.foldl (fun x (i, p) => x.litCheckRecord k d i p) s else s

/-! ### Release and expiry (R117, R119) -/

/-- The table takes a RELEASE (R119): the answer reports the record as it was before. -/
def State.release (s : State) (h : Handed) (tag : Nat) : State :=
  match s.named tag with
  | none => s.reply h .notFound 0 tag .none
  | some (i, p) =>
    (s.freeRecord i p).reply h .done 0 tag (recordBody p.state p.origin p.partner p.lastMargin)

/-- A reservation timer expires (R117): the old tag as subject, detail 1 for RESERVED and 2 for BROKEN. -/
def State.expireRecord (s : State) (i : Nat) (p : Lightpath) : State :=
  (s.freeRecord i p).hand
    (s.lightpathNotice i .expired (word (if p.state = .reserved then 1 else 2)))

/-! ### Adoption (R120, R121) -/

/-- The index of the first faulty entry of a hop list (R120). seen lists the node ids of earlier entries, prev is
the slot of the entry before, flagged the number of regeneration flags so far. A repeated node id faults the
later entry, and the fourth flag its own entry (assumption log 17). -/
def entryFault : List AdoptEntry → Nat → List NodeId → Option Nat → Nat → Option Nat
  | [], _, _, _, _ => none
  | e :: t, i, seen, prev, flagged =>
    if e.node = 0#32 ∨ seen.contains e.node ∨ 79 < e.slot ∨ (i = 0 ∧ e.regen) ∨
        (e.regen ∧ 3 ≤ flagged) ∨ (¬ e.regen ∧ prev.isSome ∧ prev ≠ some e.slot) then some i
    else entryFault t (i + 1) (e.node :: seen) (some e.slot) (if e.regen then flagged + 1 else flagged)

/-- The judgement of R120 on the form of a hop list: the index of the first faulty entry, 0 for a bad hop count. -/
def adoptFormFault (hopCount : Nat) (es : List AdoptEntry) : Option Nat :=
  if hopCount = 0 ∨ 24 < hopCount then some 0 else entryFault es 0 [] none 0

/-- The hop that an entry names, with the node at the link's other end (R121 test 1). -/
def State.adoptHop (s : State) (e : AdoptEntry) : Option (Hop × NodeId) :=
  match (s.indexOf e.node).bind fun i => s.portAt i e.port with
  | some (.linkEnd k side) =>
    (s.linkAt k).map fun l =>
      ({ link := k, dir := opposite side, slot := e.slot, sender := e.node, port := e.port },
        s.idAt (l.endAt (opposite side)).node)
  | _ => none

/-- The index of the first entry that fails R121 test 1. ids are the node ids of all entries. -/
def State.adoptLinkFault (s : State) (ids : List NodeId) : List AdoptEntry → Nat → Option Nat
  | [], _ => none
  | [e], i =>
    match s.adoptHop e with
    | none => some i
    | some (_, far) => if ids.contains far then some i else none
  | e :: e' :: t, i =>
    match s.adoptHop e with
    | none => some i
    | some (_, far) => if far = e'.node then s.adoptLinkFault ids (e' :: t) (i + 1) else some i

/-- The route that a hop list passing test 1 gives (R121). -/
def State.adoptRoute (s : State) (es : List AdoptEntry) : Route :=
  let found := es.filterMap s.adoptHop
  { source := (es.head?.map (·.node)).getD 0#32
    dest := (found.getLast?.map (·.2)).getD 0#32
    hops := found.map (·.1)
    regens := (es.filter (·.regen)).map (·.node) }

/-- The index of the first hop whose slot is held (R121 test 2). -/
def State.adoptHeldFault (s : State) (hops : List Hop) : Option Nat :=
  hops.findIdx? fun h => hasSlot (s.heldOn h.link h.dir) h.slot

/-- The number of regeneration points at whose nodes the in-use count exceeds the total (R121). -/
def State.overCommitted (s : State) (points : List NodeId) : Nat :=
  (points.filter fun id =>
    match s.nodeOf id with
    | none => false
    | some n => decide (n.regenTotal < n.regenInUse)).length

/-- A successful ADOPT in the FREE record at an index (R121). -/
def State.adoptInto (s : State) (h : Handed) (i : Nat) (r : Route) (budget : Nat) : State :=
  let margin := marginOf budget (s.worstNoise r)
  let p : Lightpath := { state := .active, origin := .adopted, route := r, budget := budget, lastMargin := margin,
                         noticeMargin := margin, timer := none, partner := none }
  let tag := s.recordTag i
  let filled := s.fillRecord i p
  let told := (filled.hand (notice .activated (word tag) (word 3))).addEvaluation i
  told.reply h .done (filled.overCommitted r.regens) tag
    (.path (s.summarize r budget tag 0 0) (some r))

/-- The table takes an ADOPT (R120, R121). -/
def State.adopt (s : State) (h : Handed) (q m hopCount : Nat) (es : List AdoptEntry) : State :=
  match adoptFormFault hopCount es with
  | some i => s.reply h .badQuery i noTag .none
  | none =>
    match s.adoptLinkFault (es.map (·.node)) es 0 with
    | some i => s.reply h .conflict i noTag .none
    | none =>
      let r := s.adoptRoute es
      match s.adoptHeldFault r.hops with
      | some i => s.reply h .conflict i noTag .none
      | none =>
        match s.lowestFreeRecord with
        | none =>
          s.reply h .tableFull 0 noTag (.path (s.summarize r (budgetOf q m) noTag 0 0) (some r))
        | some i => s.adoptInto h i r (budgetOf q m)

/-! ### Hop-lost events (R122) -/

/-- The details of R122. -/
def Cause.code : Cause → Nat
  | .confirmedDown => 1 | .suppressed => 2 | .linkRemoved => 3 | .nodeStale => 4
  | .nodeRemoved => 5 | .quarantined => 6 | .foundBySweep => 7

/-- The subject of a hop-lost event selects a record (R122). -/
def LostSubject.selects (x : LostSubject) (p : Lightpath) : Bool :=
  match x with
  | .direction k d sender port =>
    p.route.hops.any fun h => h.link == k && h.dir == d && h.sender == sender && h.port == port
  | .node id => p.route.names id

/-- A record becomes BROKEN with a notice; its timer, holds, partner and margin stay (R122). -/
def State.breakRecord (s : State) (i : Nat) (p : Lightpath) (c : Cause) : State :=
  (s.setLightpath i { p with state := .broken }).hand (s.lightpathNotice i .broken (word c.code))

/-- One record under a hop-lost event (R122). -/
def State.loseRecord (s : State) (x : HopLost) (i : Nat) (p : Lightpath) : State :=
  if x.subject.selects p ∧ p.state ≠ .broken then s.breakRecord i p x.cause else s

/-- The table takes a hop-lost event (R122): the records in ascending index order. -/
def State.takeHopLost (s : State) (x : HopLost) : State :=
  s.lightpaths.foldl (fun y (i, p) => y.loseRecord x i p) s

/-! ### Sweep results (R123 to R125) -/

/-- A node is in the table, LIVE and not quarantined. -/
def State.fitNode (s : State) (id : NodeId) : Bool := ((s.nodeOf id).map Node.fit).getD false

/-- Every node of a route is fit: source, destination, sending nodes, regeneration points (R124, R150). -/
def State.nodesFit (s : State) (r : Route) : Bool :=
  s.fitNode r.source && s.fitNode r.dest && r.hops.all (fun h => s.fitNode h.sender) &&
  r.regens.all fun id => s.fitNode id

/-- A route stands: every hop names its link and is in service, every node is fit (R124, R150). -/
def State.routeStands (s : State) (r : Route) : Bool := s.routeWhole r && s.nodesFit r

/-- The state that a WHOLE finding gives a record, and the notice it writes, if any (R124). -/
def wholeOutcome (p : Lightpath) (margin : Int) (recover : Nat) : LpState × Option NoticeEvent :=
  match p.state with
  | .active => if margin < 0 then (.degraded, some .degraded) else (.active, none)
  | .degraded => if (recover : Int) ≤ margin then (.active, some .restored) else (.degraded, none)
  | .broken =>
    if margin < 0 then (.broken, none)
    else if p.timer.isSome then (.reserved, some .restored)
    else if (recover : Int) ≤ margin then (.active, some .restored)
    else (.degraded, some .degraded)
  | .reserved => (.reserved, none)

/-- The margin has drifted from the one last noticed by the threshold or more (R125). -/
def drifted (old new : Int) (threshold : Nat) : Bool :=
  old != new && decide (threshold ≤ (new - old).natAbs)

/-- A WHOLE finding applied (R124, R125): the margin stored, the state judged, then the drift. -/
def State.applyWhole (s : State) (i : Nat) (p : Lightpath) (margin : Int) : State :=
  let out := wholeOutcome p margin s.globals.recover
  match out.2 with
  | some e =>
    (s.setLightpath i { p with state := out.1, lastMargin := margin, noticeMargin := margin }).hand
      (s.lightpathNotice i e (signedWord margin))
  | none =>
    if drifted p.noticeMargin margin s.globals.marginDrift then
      (s.setLightpath i { p with state := out.1, lastMargin := margin, noticeMargin := margin }).hand
        (s.lightpathNotice i .marginDrift (signedWord margin))
    else s.setLightpath i { p with state := out.1, lastMargin := margin }

/-- A LOST finding applied (R124). -/
def State.applyLost (s : State) (i : Nat) (p : Lightpath) : State :=
  if p.state = .broken then s else s.breakRecord i p .foundBySweep

/-- The table takes a sweep result (R123, R124): a stale tag or a RESERVED record discards it; a WHOLE finding that
would take a record out of BROKEN is applied as LOST when its route does not stand. -/
def State.applyResult (s : State) (x : SweepResult) : State :=
  match s.named x.tag with
  | none => s
  | some (i, p) =>
    if p.state = .reserved then s
    else
      match x.finding with
      | .lost => s.applyLost i p
      | .whole margin =>
        if p.state = .broken ∧ 0 ≤ margin ∧ ¬ s.routeStands p.route then s.applyLost i p
        else s.applyWhole i p margin

/-! ### The commands -/

/-- ACTIVATE: the table takes the query at the head of the dispatcher's hand-offs when it is an ACTIVATE (R115, R136).
-/
def execActivate (s : State) : Host.Outcome State Fault Refusal :=
  if s.running then
    match s.handoffs.toTable with
    | [] => .next s
    | h :: _ =>
      match h.query.body with
      | .activate tag => .next (s.popToTable.activate h tag)
      | _ => .next s
  else .next s

/-- RELEASE: the table takes the query at the head of the dispatcher's hand-offs when it is a RELEASE (R119, R136). -/
def execRelease (s : State) : Host.Outcome State Fault Refusal :=
  if s.running then
    match s.handoffs.toTable with
    | [] => .next s
    | h :: _ =>
      match h.query.body with
      | .release tag => .next (s.popToTable.release h tag)
      | _ => .next s
  else .next s

/-- ADOPT: the table takes the query at the head of the dispatcher's hand-offs when it is an ADOPT (R120, R121). -/
def execAdopt (s : State) : Host.Outcome State Fault Refusal :=
  if s.running then
    match s.handoffs.toTable with
    | [] => .next s
    | h :: _ =>
      match h.query.body with
      | .adopt q m n es => .next (s.popToTable.adopt h q m n es)
      | _ => .next s
  else .next s

/-- The first event of the Topology Store leaves the table's inbox. -/
def State.popStoreEvent (s : State) : State :=
  s.setHandoffs { s.handoffs with storeToTable := s.handoffs.storeToTable.tail }

/-- The first hop-lost event of the Span Conditioner leaves the table's inbox. -/
def State.popConditionerEvent (s : State) : State :=
  s.setHandoffs { s.handoffs with conditionerToTable := s.handoffs.conditionerToTable.tail }

/-- The first hop-lost event of Report Intake leaves the table's inbox. -/
def State.popIntakeEvent (s : State) : State :=
  s.setHandoffs { s.handoffs with intakeToTable := s.handoffs.intakeToTable.tail }

/-- LIT_CHECK: the table takes the event at the head of the Topology Store's hand-offs when it is a lit check (R116). -/
def execLitCheck (s : State) : Host.Outcome State Fault Refusal :=
  if s.running then
    match s.handoffs.storeToTable with
    | [] => .next s
    | .hopLost _ :: _ => .next s
    | .litCheck k d a b :: _ => .next (s.popStoreEvent.checkLit k d a b)
  else .next s

/-- HOP_LOST_EVENT: the table takes the oldest hand-off of one block when it is a hop-lost event (R108, R122). -/
def execHopLostEvent (source : LostSource) (s : State) : Host.Outcome State Fault Refusal :=
  if s.running then
    match source with
    | .topologyStore =>
      match s.handoffs.storeToTable with
      | .hopLost x :: _ => .next (s.popStoreEvent.takeHopLost x)
      | _ => .next s
    | .spanConditioner =>
      match s.handoffs.conditionerToTable with
      | x :: _ => .next (s.popConditionerEvent.takeHopLost x)
      | [] => .next s
    | .reportIntake =>
      match s.handoffs.intakeToTable with
      | x :: _ => .next (s.popIntakeEvent.takeHopLost x)
      | [] => .next s
  else .next s

/-- RESERVATION_EXPIRY: a running reservation timer that has come to its last one-second event expires and frees its
record (R117, R118, R187, assumption log 2). -/
def execReservationExpiry (record : Nat) (s : State) : Host.Outcome State Fault Refusal :=
  if s.running then
    match s.lightpathAt record with
    | none => .next s
    | some p => if timerExpired p.timer then .next (s.expireRecord record p) else .next s
  else .next s

/-- SWEEP_RESULT: the table takes the outstanding sweep result, and the Sweep Unit's flag clears (R123, R150). -/
def execSweepResult (s : State) : Host.Outcome State Fault Refusal :=
  if s.running then
    match s.sweep.outstanding with
    | none => .next s
    | some x => .next ((s.setSweep { s.sweep with outstanding := none }).applyResult x)
  else .next s

end Sys2Proof.Machine
end

