-- ==== Sys2Proof/Machine/Search.lean ====
section
/-! DEFINITION. The Path Engines (05): labels, extension, dominance, regeneration, the route found, completion
validation, commit requests, pairs and restarts, and the commands SEARCH_STEP and COMMIT. -/

namespace Sys2Proof.Machine

/-! ### Attempts (R77, R80) -/

/-- The start label of an attempt (R80). -/
def State.startLabel (s : State) (req : FindReq) : Label :=
  { node := req.source, mask := slotRange req.lo req.hi, cost := 0, noise := s.addNoise req.source, hops := 0,
    regens := 0, parent := none, arrival := none, regenHere := false, closed := false }

/-- An attempt begins in a phase with one label in the store (R80, R100). -/
def State.attempt (s : State) (ctx : Context) (phase : Phase) : Engine :=
  .searching { ctx with phase := phase } [s.startLabel ctx.req]

/-! ### Choosing the label to close (R81) -/

/-- Label a comes before label b in the order of R81; of equal labels the one of lower index comes first. -/
def Label.before (a b : Label) : Bool :=
  decide (a.cost < b.cost) ||
  (a.cost == b.cost && (decide (a.noise < b.noise) ||
    (a.noise == b.noise && decide (a.hops < b.hops))))

/-- The OPEN label that comes first among labels numbered from i on, against the best found so far. -/
def firstOpenFrom : List Label → Nat → Option (Nat × Label) → Option (Nat × Label)
  | [], _, best => best
  | l :: t, i, best =>
    firstOpenFrom t (i + 1)
      (if l.closed then best
       else match best with
         | none => some (i, l)
         | some (j, b) => if l.before b then some (i, l) else some (j, b))

/-- The OPEN label that a search step closes (R81). -/
def firstOpen (ls : List Label) : Option (Nat × Label) := firstOpenFrom ls 0 none

/-! ### Paths (R79) -/

/-- The chain of labels from the label at an index back through its parents, which have lower indexes; fuel is one
more than the index. -/
def chainFrom (ls : List Label) : Nat → Nat → List Label
  | 0, _ => []
  | fuel + 1, i =>
    match ls[i]? with
    | none => []
    | some l =>
      l :: (match l.parent with
        | none => []
        | some p => chainFrom ls fuel p)

/-- The chain of the label at an index, that label first (R79). -/
def chainOf (ls : List Label) (i : Nat) : List Label := chainFrom ls (i + 1) i

/-! ### Dominance and the store (R85, R87) -/

/-- A stored label dominates a candidate (R85). -/
def Label.dominates (a c : Label) : Bool :=
  a.node == c.node && decide (a.cost ≤ c.cost) && decide (a.noise ≤ c.noise) && decide (a.hops ≤ c.hops) &&
  decide (a.regens ≤ c.regens) && slotSubset c.mask a.mask

/-- A label store during a search step, with the mark that a candidate found it full (R87). -/
structure Growth where
  labels : List Label
  exhausted : Bool
deriving DecidableEq, Repr

/-- A candidate tested for dominance and placed (R85, R87); after exhaustion the rest of the step is not carried
out. -/
def Growth.place (g : Growth) (c : Label) : Growth :=
  if g.exhausted then g
  else if g.labels.any (fun a => a.dominates c) then g
  else if labelCapacity ≤ g.labels.length then { g with exhausted := true }
  else { g with labels := g.labels ++ [c] }

/-! ### Extension (R83, R84) -/

/-- An id is among the entries of an exclusion list; an entry of 0 stands for no entry (R78). -/
def excludedBy (ids : List Word) (id : Word) : Bool := id != 0#32 && ids.contains id

/-- The excluded node ids in force in a phase (R83, R99). -/
def Context.excludedNodes (ctx : Context) : List NodeId :=
  match ctx.phase with
  | .primary => ctx.req.exNodes
  | .secondary p => ctx.req.exNodes ++ p.exNodes

/-- The excluded shared-risk ids in force in a phase (R83, R99). -/
def Context.excludedRisks (ctx : Context) : List Word :=
  match ctx.phase with
  | .primary => ctx.req.exRisks
  | .secondary p => ctx.req.exRisks ++ p.exRisks

/-- Link k, as it stands, has the ends of a hop that was on the link at that index: by node id, and by port at the
sending end (R99). -/
def State.hopLink (s : State) (l : Link) (k : Nat) (h : Hop) (receiver : NodeId) : Bool :=
  h.link == k &&
  ((s.idAt l.end0.node == h.sender && l.end0.port == h.port && s.idAt l.end1.node == receiver) ||
   (s.idAt l.end1.node == h.sender && l.end1.port == h.port && s.idAt l.end0.node == receiver))

/-- Link k is one of a route's links, named by index and ends (R99, assumption log 26). -/
def State.routeHasLink (s : State) (r : Route) (k : Nat) : Bool :=
  match s.linkAt k with
  | none => false
  | some l => r.received.any fun (h, n) => s.hopLink l k h n

/-- Link k is one of the primary's links (R83, R99). -/
def State.primaryLink (s : State) (ctx : Context) (k : Nat) : Bool :=
  match ctx.phase with
  | .primary => false
  | .secondary p => s.routeHasLink p.route k

/-- The slots that the primary route counts as holding on a direction (R84, R100). -/
def State.primaryHolds (s : State) (ctx : Context) (k : Nat) (d : Dir) : SlotSet :=
  match ctx.phase with
  | .primary => 0#80
  | .secondary p => s.routeHolds p.route k d

/-- The regeneration points that the primary route places at a node (R86, R100). -/
def Context.primaryRegens (ctx : Context) (id : NodeId) : Nat :=
  match ctx.phase with
  | .primary => 0
  | .secondary p => p.route.regens.count id

/-- The tests of R83 on the direction of link k arriving at a far node. path lists the nodes of the label's path. -/
def State.mayExtend (s : State) (ctx : Context) (path : List NodeId) (x : Label) (k : Nat) (out : Dir)
    (l : Link) (far : NodeId) : Bool :=
  s.inService k out && !path.contains far && !excludedBy ctx.excludedNodes far &&
  !l.risks.any (fun id => excludedBy ctx.excludedRisks id) && !s.primaryLink ctx k &&
  decide (x.hops + 1 ≤ ctx.req.hopLimit)

/-- The candidate of R84 over a direction from the node of a closed label; none when its mask is empty or its noise
exceeds B. -/
def State.extension (s : State) (ctx : Context) (n : Node) (x : Label) (index port k : Nat) (out : Dir)
    (far : NodeId) : Option Label :=
  let mask := x.mask &&& (s.usable k out &&& ~~~ s.primaryHolds ctx k out)
  let express := if n.id = ctx.req.source ∨ x.regenHere then 0 else n.expressNoise
  let noise := satAdd (satAdd x.noise express) (s.noiseOf k out)
  if mask = 0#80 ∨ ctx.budget < noise then none
  else some
    { node := far, mask := mask, cost := satAdd x.cost (s.costOf k out), noise := noise, hops := x.hops + 1,
      regens := x.regens, parent := some index,
      arrival := some { link := k, dir := out, sender := n.id, port := port }, regenHere := false, closed := false }

/-- One entry of the port table of a closed label's node (R83). -/
def State.extendPort (s : State) (ctx : Context) (n : Node) (path : List NodeId) (x : Label) (index : Nat)
    (g : Growth) (e : Nat × PortRef) : Growth :=
  match e.2 with
  | .claim => g
  | .linkEnd k side =>
    match s.linkAt k with
    | none => g
    | some l =>
      let out := opposite side
      let far := s.idAt (l.endAt out).node
      if s.mayExtend ctx path x k out l far then
        match s.extension ctx n x index e.1 k out far with
        | none => g
        | some c => g.place c
      else g

/-! ### Regeneration (R86) -/

/-- A regeneration label is considered at the node of a closed label (R86). -/
def mayRegenerate (ctx : Context) (n : Node) (x : Label) : Bool :=
  n.id != ctx.req.source && n.id != ctx.req.dest && !x.regenHere && decide (x.regens < ctx.req.regenMax) &&
  decide (n.regenInUse + ctx.primaryRegens n.id < n.regenTotal) &&
  decide (satAdd x.noise n.dropNoise ≤ ctx.budget)

/-- The regeneration label of R86. -/
def regenerationLabel (ctx : Context) (n : Node) (x : Label) (index : Nat) : Label :=
  { node := n.id, mask := slotRange ctx.req.lo ctx.req.hi, cost := satAdd x.cost n.regenCost, noise := n.addNoise,
    hops := x.hops, regens := x.regens + 1, parent := some index, arrival := none, regenHere := true,
    closed := false }

/-- The regeneration part of a search step (R86). -/
def Growth.regenerate (g : Growth) (ctx : Context) (n : Node) (x : Label) (index : Nat) : Growth :=
  if mayRegenerate ctx n x then g.place (regenerationLabel ctx n x index) else g

/-- Everything that the closed label x, of an index, gives rise to (R83 to R87): extensions in ascending port order,
then the regeneration label. A label whose node has left the table gives nothing. -/
def State.extendLabel (s : State) (ctx : Context) (labels : List Label) (index : Nat) (x : Label) : Growth :=
  match s.nodeOf x.node with
  | none => { labels := labels, exhausted := false }
  | some n =>
    let path := (chainOf labels index).map (·.node)
    (n.ports.foldl (fun g e => s.extendPort ctx n path x index g e)
      { labels := labels, exhausted := false }).regenerate ctx n x index

/-! ### The route found (R90, R91) -/

/-- The slot that a segment takes from the mask of its last label (R91). -/
def slotFor (req : FindReq) (mask : SlotSet) : Nat :=
  match req.policy with
  | .first => lowestSlot mask
  | .last => highestSlot mask
  | .preferred => if hasSlot mask req.preferred then req.preferred else lowestSlot mask

/-- The hops of a chain read from the accepted label back, in route order. slot is that of the segment walked; the
parent of a regeneration label is the last label of the segment before. -/
def traceHops (req : FindReq) : List Label → Nat → List Hop → List Hop
  | [], _, acc => acc
  | l :: t, slot, acc =>
    if l.regenHere then traceHops req t (((t.head?.map fun p => slotFor req p.mask)).getD slot) acc
    else
      match l.arrival with
      | none => traceHops req t slot acc
      | some a =>
        traceHops req t slot ({ link := a.link, dir := a.dir, slot := slot, sender := a.sender, port := a.port } :: acc)

/-- The route of the accepted label at an index (R90, R91). -/
def routeFound (req : FindReq) (labels : List Label) (index : Nat) : Route :=
  let chain := chainOf labels index
  let slot := ((chain.head?.map fun l => slotFor req l.mask)).getD 0
  { source := req.source
    dest := req.dest
    hops := traceHops req chain slot []
    regens := ((chain.filter (·.regenHere)).map (·.node)).reverse }

/-! ### Validation (R92) -/

/-- Test 2 of R92: every hop's slot is in the usable set of its direction. -/
def State.routeUsable (s : State) (r : Route) : Bool :=
  r.hops.all fun h => hasSlot (s.usable h.link h.dir) h.slot

/-- The completion validation of the routes of an answer together (R92, R101). -/
def State.validated (s : State) (budget : Nat) (rs : List Route) : Bool :=
  rs.all (fun r => s.routeWhole r && s.routeUsable r && s.routeFeasible budget r) &&
  s.regensSuffice (rs.flatMap (·.regens))

/-! ### Answers and restarts (R93, R97, R105) -/

/-- The engine forms an answer, empties its label store, enters ANSWERING and offers the answer (R105). -/
def State.engineAnswer (s : State) (e : EngineId) (ctx : Context) (st : Status) (labels named : Nat)
    (body : AnswerBody) : State :=
  (s.setEngine e (.answering { ctx with labelsUsed := labels })).offer
    (answerTo ctx.slot (.engine e) ctx.query st 0#32 named body)

/-- The body of an answer without a route (R93); a pair's second summary carries the restarts alone (R102, assumption
log 16). -/
def noRouteBody (ctx : Context) (labels : Nat) : AnswerBody :=
  if ctx.pair then
    .pair (noRouteSummary ctx.budget labels ctx.restarts) none { Summary.zero with restarts := ctx.restarts } none
  else .path (noRouteSummary ctx.budget labels ctx.restarts) none

/-- A failure of the attempt (R97): a restart from the PRIMARY phase while fewer than 2 are used (R102), otherwise
the end with the status that names the failure. -/
def State.failAttempt (s : State) (e : EngineId) (ctx : Context) (st : Status) (labels : Nat) : State :=
  if ctx.restarts < 2 then
    s.setEngine e (s.attempt { ctx with restarts := ctx.restarts + 1 } .primary)
  else s.engineAnswer e ctx st labels noTag (noRouteBody ctx labels)

/-- The labels used by the phase that found the first route: the PRIMARY phase of a pair, or the only phase. -/
def Context.firstLabels (ctx : Context) (labels : Nat) : Nat :=
  match ctx.phase with
  | .primary => labels
  | .secondary p => p.labels

/-- The body of an answer with a route, or with both routes of a pair, and their tags (R93, R96). -/
def State.routedBody (s : State) (ctx : Context) (labels : Nat) (first : Route) (second : Option Route)
    (tag1 tag2 : Nat) : AnswerBody :=
  let x := s.summarize first ctx.budget tag1 (ctx.firstLabels labels) ctx.restarts
  match second with
  | none => .path x (some first)
  | some r => .pair x (some first) (s.summarize r ctx.budget tag2 labels ctx.restarts) (some r)

/-- The body of PAIR_PRIMARY_ONLY (R101): the primary, and a second summary with hop count 0, the labels of the
SECONDARY phase and the restarts, its other values zero (R189, assumption log 16). -/
def State.primaryOnlyBody (s : State) (ctx : Context) (p : Primary) (labels : Nat) : AnswerBody :=
  .pair (s.summarize p.route ctx.budget noTag p.labels ctx.restarts) (some p.route)
    { Summary.zero with labels := labels, restarts := ctx.restarts } none

/-! ### The ends of a phase (R92, R94, R98 to R101) -/

/-- A request with its route or routes found: a commit request when it reserves (R94), the completion validation
otherwise (R92, R101). -/
def State.conclude (s : State) (e : EngineId) (ctx : Context) (labels : List Label) (first : Route)
    (second : Option Route) : State :=
  if ctx.req.reserve then
    s.setEngine e (.committing ctx labels
      { first := first, second := second, budget := ctx.budget, hold := ctx.req.hold, tag := ctx.query.tag,
        slot := ctx.slot })
  else if s.validated ctx.budget (first :: second.toList) then
    s.engineAnswer e ctx .done labels.length noTag
      (s.routedBody ctx labels.length first second noTag noTag)
  else s.failAttempt e ctx .unstable labels.length

/-- The derived exclusions of R99, with the shared-risk lists as they stand. -/
def State.primaryOf (s : State) (ctx : Context) (r : Route) (labels : Nat) : Primary :=
  { route := r
    labels := labels
    exRisks := r.hops.flatMap fun h =>
      if s.routeHasLink r h.link then ((s.linkAt h.link).map (·.risks)).getD [] else []
    exNodes := if ctx.req.nodeDisjoint then r.hops.tail.map (·.sender) else [] }

/-- The destination label at an index is accepted (R82, R90, R98, R101). -/
def State.accept (s : State) (e : EngineId) (ctx : Context) (labels : List Label) (index : Nat) : State :=
  let r := routeFound ctx.req labels index
  if ctx.pair then
    match ctx.phase with
    | .primary => s.setEngine e (s.attempt ctx (.secondary (s.primaryOf ctx r labels.length)))
    | .secondary p => s.conclude e ctx labels p.route (some r)
  else s.conclude e ctx labels r none

/-- A phase ends without a route, with NO_PATH or LABELS_EXHAUSTED (R81, R87, R98, R101). -/
def State.endPhase (s : State) (e : EngineId) (ctx : Context) (st : Status) (labels : Nat) : State :=
  match ctx.phase with
  | .primary => s.engineAnswer e ctx st labels noTag (noRouteBody ctx labels)
  | .secondary p =>
    if s.validated ctx.budget [p.route] then
      s.engineAnswer e ctx .pairPrimaryOnly labels noTag (s.primaryOnlyBody ctx p labels)
    else s.failAttempt e ctx .unstable labels

/-- The step at the destination (R82): the label, already CLOSED in the store, is accepted or discarded. -/
def State.arriveAtDestination (s : State) (e : EngineId) (ctx : Context) (labels : List Label) (index : Nat)
    (x : Label) : State :=
  if satAdd x.noise (s.dropNoise ctx.req.dest) ≤ ctx.budget then s.accept e ctx labels index
  else s.setEngine e (.searching ctx labels)

/-- A search step that closes the label x at an index (R81). -/
def State.closeLabel (s : State) (e : EngineId) (ctx : Context) (labels : List Label) (index : Nat)
    (x : Label) : State :=
  let closed := setAt labels index { x with closed := true }
  if x.node = ctx.req.dest then s.arriveAtDestination e ctx closed index x
  else
    let g := s.extendLabel ctx closed index x
    if g.exhausted then s.endPhase e ctx .labelsExhausted g.labels.length
    else s.setEngine e (.searching ctx g.labels)

/-! ### Commits (R95, R96, R113) -/

/-- The answers of the table to a commit request (R95). -/
inductive CommitAnswer where
  | invalid
  | rejected
  | tableFull
  | accepted (i : Nat) (j : Option Nat)
deriving DecidableEq, Repr

/-- The FREE records in ascending index order. -/
def State.freeIndexes (s : State) : List Nat :=
  (s.records.zipIdx.filter fun (r, _) => r.path.isNone).map (·.2)

/-- The routes of a request. -/
def CommitRequest.routes (q : CommitRequest) : List Route := q.first :: q.second.toList

/-- The judgement of R95: the validation part, the hold part, the FREE records of lowest index (R113). -/
def State.judgeCommit (s : State) (q : CommitRequest) : CommitAnswer :=
  if s.validRoutes q.budget q.routes = false then .invalid
  else if s.holdableRoutes q.routes = false then .rejected
  else
    match s.freeIndexes, q.second with
    | i :: _, none => .accepted i none
    | i :: j :: _, some _ => .accepted i (some j)
    | _, _ => .tableFull

/-- The record fields that a commit fills (R113), with the margin from the reads of the commit event. -/
def State.reservation (s : State) (q : CommitRequest) (r : Route) (partner : Option Nat) : Lightpath :=
  let margin := marginOf q.budget (s.worstNoise r)
  { state := .reserved, origin := .computed, route := r, budget := q.budget, lastMargin := margin,
    noticeMargin := margin, timer := some (if q.hold = 0 then s.globals.defaultHold else q.hold),
    partner := partner }

/-- The routes of an accepted request are held in FREE records (R113). -/
def State.reserve (s : State) (q : CommitRequest) (i : Nat) (j : Option Nat) : State :=
  match q.second, j with
  | some r, some j =>
    (s.fillRecord i (s.reservation q q.first (some (s.recordTag j)))).fillRecord j
      (s.reservation q r (some (s.recordTag i)))
  | _, _ => s.fillRecord i (s.reservation q q.first none)

/-- The table takes the commit request of an engine and the engine acts on the answer (R95, R96, R113). -/
def State.takeCommit (s : State) (e : EngineId) (ctx : Context) (labels : List Label) (q : CommitRequest) : State :=
  match s.judgeCommit q with
  | .invalid => s.failAttempt e ctx .unstable labels.length
  | .rejected => s.failAttempt e ctx .contended labels.length
  | .tableFull =>
    s.engineAnswer e ctx .tableFull labels.length noTag
      (s.routedBody ctx labels.length q.first q.second noTag noTag)
  | .accepted i j =>
    (s.reserve q i j).engineAnswer e ctx .done labels.length (s.recordTag i)
      (s.routedBody ctx labels.length q.first q.second (s.recordTag i) ((j.map s.recordTag).getD noTag))

/-! ### The commands -/

/-- SEARCH_STEP: a SEARCHING engine closes one label, or ends its phase when none is OPEN (R81). -/
def execSearchStep (engine : EngineId) (s : State) : Host.Outcome State Fault Refusal :=
  if s.running then
    match s.engine engine with
    | .searching ctx labels =>
      match firstOpen labels with
      | none => .next (s.endPhase engine ctx .noPath labels.length)
      | some (i, x) => .next (s.closeLabel engine ctx labels i x)
    | _ => .next s
  else .next s

/-- COMMIT: the table takes the commit request of a COMMITTING engine (R95). -/
def execCommit (engine : EngineId) (s : State) : Host.Outcome State Fault Refusal :=
  if s.running then
    match s.engine engine with
    | .committing ctx labels q => .next (s.takeCommit engine ctx labels q)
    | _ => .next s
  else .next s

end Sys2Proof.Machine
end

