-- ==== Sys2Proof/Machine/Lookups.lean ====
section
/-! DEFINITION. The bodies of LOOKUP_NODE, LOOKUP_LINK and STATUS (07 R137 to R139, 12 section 12.5). -/

namespace Sys2Proof.Machine

/-! ### LOOKUP_NODE (R137) -/

/-- The state code of a node. -/
def Liveness.code : Liveness → Nat
  | .live => 1
  | .stale => 2

/-- The three words of a port entry: a link end with the far port and node, or a stored claim. -/
def State.portWords (s : State) (i : Nat) (e : Nat × PortRef) : List Word :=
  match e.2 with
  | .linkEnd k side =>
    let far := ((s.linkAt k).map fun l => l.endAt (opposite side)).getD { node := 256, port := 0 }
    [ word (field e.1 0 16 + field 1 16 8 + field (dirNumber side) 24 1),
      word (field k 0 16 + field far.port 16 16), s.idAt far.node ]
  | .claim =>
    match s.claimAt i e.1 with
    | none => [word (field e.1 0 16 + field 2 16 8), 0#32, 0#32]
    | some c =>
      [ word (field e.1 0 16 + field 2 16 8), word (field c.heardPort 0 16 + field c.timer 16 16), c.heardId ]

/-- The LOOKUP_NODE body: 56 words. -/
def State.nodeBody (s : State) (i : Nat) (n : Node) : List Word :=
  [ n.id,
    word (field i 0 8 + field n.profile 8 8 + field n.liveness.code 16 8 + flag n.quarantined 24 + flag n.clamped 25),
    word (field n.faultScore 0 8 + field n.refresh 8 8 + field n.regenTotal 16 8 + field n.regenInUse 24 8),
    word (field n.hold 0 16 + field n.regenCost 16 16),
    word n.addNoise, word n.dropNoise, word n.expressNoise, word n.ports.length ] ++
  (n.ports.flatMap (fun e => s.portWords i e) ++ List.replicate 48 0#32).take 48

/-! ### LOOKUP_LINK (R138) -/

/-- The condition state codes. -/
def CondState.code : CondState → Nat
  | .unknown => 0 | .rising => 1 | .up => 2 | .falling => 3 | .holdoff => 4 | .down => 5

/-- The three words of a slot set. -/
def slotWords (x : SlotSet) : List Word := [slotWord x 0, slotWord x 1, slotWord x 2]

/-- The nine words of a direction. -/
def State.directionWords (s : State) (k : Nat) (l : Link) (d : Dir) : List Word :=
  let x := l.direction d
  [ word (field x.cond.code 0 8 + field x.count 8 8 + flag x.suppressed 16 + flag x.latched 17 +
      flag (s.inService k d) 18 + flag x.clamped 19 + field x.flap 24 8),
    word (field (x.holdoff.getD 0) 0 16 + field x.cost 16 16), word x.noise ] ++
  slotWords x.lit ++ slotWords (s.heldOn k d)

/-- The LOOKUP_LINK body of a link: 27 words. -/
def State.linkBody (s : State) (k : Nat) (l : Link) : List Word :=
  [ word k, s.idAt l.end0.node, word (field l.end0.port 0 16 + field l.end1.port 16 16), s.idAt l.end1.node,
    word l.risks.length ] ++ (l.risks ++ List.replicate 4 0#32).take 4 ++
  s.directionWords k l .zero ++ s.directionWords k l .one

/-- The LOOKUP_LINK body of a stored claim: 2 words. -/
def claimBody (c : Claim) : List Word := [c.heardId, word (field c.heardPort 0 16 + field c.timer 16 16)]

/-! ### STATUS (R139) -/

/-- Two 16-bit values in a word. -/
def halves (a b : Nat) : Word := word (field a 0 16 + field b 16 16)

/-- Four bytes in a word. -/
def quads (a b c d : Nat) : Word := word (field a 0 8 + field b 8 8 + field c 16 8 + field d 24 8)

/-- The number of records in a state. -/
def State.recordsIn (s : State) (st : LpState) : Nat := (s.lightpaths.filter fun e => e.2.state == st).length

/-- A query slot is QUEUED. -/
def SlotQuery.isQueued : SlotQuery → Bool
  | .queued _ => true
  | .inService _ _ => false

/-- The number of QUEUED slots. -/
def State.queuedSlots (s : State) : Nat := (s.dispatcher.slots.filter fun e => e.2.isQueued).length

/-- The number of IN_SERVICE slots. -/
def State.servedSlots (s : State) : Nat := (s.dispatcher.slots.filter fun e => !e.2.isQueued).length

/-- The number of STAGING slots: an open staging for a slot of which no query is queued or in service (R128). -/
def State.stagingSlots (s : State) : Nat :=
  (s.tap.queryStagings.filter fun e => (tableGet s.dispatcher.slots e.1).isNone).length

/-- The state and slot bytes of an engine. -/
def Engine.bytes : Engine → Nat × Nat
  | .idle => (0, 255)
  | .searching ctx _ => (1, ctx.slot)
  | .committing ctx _ _ => (2, ctx.slot)
  | .answering ctx => (3, ctx.slot)

/-- The configuration source codes; 0 before an image is in force, when no STATUS is served. -/
def sourceCode : Option ImageSource → Nat
  | none => 0
  | some .loaded => 1
  | some .defaulted => 2
  | some .reloaded => 3

/-- The sweep mode codes (R142). -/
def SweepMode.code : SweepMode → Nat
  | .stopped => 0
  | .single => 1
  | .cyclic => 2

/-- A SAVE is in flight. -/
def PortOp.isSave : PortOp → Bool
  | .save _ _ _ _ => true
  | .idle | .load _ | .reload _ _ => false

/-- A RELOAD is in flight. -/
def PortOp.isReload : PortOp → Bool
  | .reload _ _ => true
  | .idle | .load _ | .save _ _ _ _ => false

/-- The STATUS body: 15 words. -/
def State.statusBody (s : State) : List Word :=
  let c := s.intake.counters
  [ halves c.accepted c.overruns, halves c.unknownFormat c.malformed, halves c.filtered c.unattributed,
    halves c.quarantineDrops c.noLink, halves s.tap.abandoned s.notices.lostTotal,
    halves s.store.nodes.length s.store.claims.length, halves s.store.links.length s.intake.queue.length,
    halves s.freeRecords (s.recordsIn .reserved), halves (s.recordsIn .active) (s.recordsIn .degraded),
    halves (s.recordsIn .broken) s.sweep.pendingSet.length,
    quads s.tap.buffer.length (32 - s.queuedSlots - s.servedSlots - s.stagingSlots) s.stagingSlots s.queuedSlots,
    quads s.servedSlots s.dispatcher.high.length s.dispatcher.low.length 0,
    quads s.engine0.bytes.1 s.engine0.bytes.2 s.engine1.bytes.1 s.engine1.bytes.2,
    word (flag s.settling 0 + field (s.dispatcher.settle.getD 0) 16 16),
    word (field (sourceCode s.port.source) 0 8 + flag s.port.changed 8 + flag s.port.op.isSave 9 +
      flag s.port.op.isReload 10 + field s.sweep.mode.code 16 8 + flag s.sweep.pass.isSome 24) ]

/-- The ten counters of STATUS set to 0 (R139). -/
def State.clearCounters (s : State) : State :=
  ((s.count fun _ => Counters.zero).setTap { s.tap with abandoned := 0 }).setNotices
    { s.notices with lostTotal := 0 }

end Sys2Proof.Machine
end

