-- ==== Sys2Proof/Machine/Queries.lean ====
section
/-! DEFINITION. The Query Dispatcher and the Result Writer (07): completions, rewrites, dispatching, the queries that
the dispatcher serves, result writing, and the commands DISPATCH_QUERY, SETTLE_TIMER_EXPIRY and RESULT_WRITER_TAKE.
RESULT_WORD_HANDOFF stands in Machine/Bus.lean, beside the write buffer. -/

namespace Sys2Proof.Machine

/-! ### Queues and answers -/

/-- A query of a search kind (R133). -/
def QueryBody.isSearch : QueryBody → Bool
  | .find _ => true
  | .findPair _ => true
  | .activate _ | .release _ | .adopt _ _ _ _ | .lookupNode _ | .lookupLink _ _ | .status _ | .sweep _
  | .configSet _ _ | .save | .reload | .flush | .nodeClear _ => false

/-- A slot joins the tail of the queue of a priority (R129). -/
def State.enqueue (s : State) (slot : Nat) (high : Bool) : State :=
  s.setDispatcher
    (if high then { s.dispatcher with high := s.dispatcher.high ++ [slot] }
     else { s.dispatcher with low := s.dispatcher.low ++ [slot] })

/-- A slot leaves the queues (R131, R133). -/
def State.dequeue (s : State) (slot : Nat) : State :=
  s.setDispatcher { s.dispatcher with
    high := s.dispatcher.high.filter (· != slot), low := s.dispatcher.low.filter (· != slot) }

/-- The answer waiting for a slot leaves the answer queue (R103, R132). -/
def State.withdrawAnswer (s : State) (slot : Nat) : State :=
  s.setWriter { s.writer with answers := s.writer.answers.filter fun a => a.slot != slot }

/-- An answer formed by the dispatcher: the slot is IN_SERVICE, the answer joins the queue (R129, R134, R137 to R144).
-/
def State.respond (s : State) (slot : Nat) (q : Query) (st : Status) (detail : Nat) (body : AnswerBody) : State :=
  (s.setSlot slot (.inService .answered none)).offer (answerTo slot .dispatcher q st (word detail) noTag body)

/-- The body of an answer that no engine formed, by the kind code: zeros for a FIND or FIND_PAIR (R189). -/
def emptyBody (kind : Nat) : AnswerBody :=
  if kind = 1 then .path Summary.zero none
  else if kind = 2 then .pair Summary.zero none Summary.zero none
  else .none

/-! ### Completions (R129 to R132) -/

/-- The BAD_QUERY answer to a record (R129): tag, kind and notify flag from its closing word; PROVISIONAL when the
dispatcher was SETTLING at the completion of a search kind (R135). -/
def badAnswer (slot : Nat) (raw : RawQuery) (reason : QueryReason) (clamped : Bool) : Answer :=
  let r := raw.record
  { slot := slot, source := .dispatcher, tag := r.queryTag, kind := r.queryKind, status := .badQuery,
    provisional := raw.settling && (r.queryKind == 1 || r.queryKind == 2), clamped := clamped,
    notify := r.queryNotify, detail := word reason.code, named := noTag, body := emptyBody r.queryKind }

/-- A slot whose record fails R129 becomes IN_SERVICE with the BAD_QUERY answer. -/
def State.answerBad (s : State) (slot : Nat) (raw : RawQuery) (reason : QueryReason) (clamped : Bool) : State :=
  (s.setSlot slot (.inService .answered none)).offer (badAnswer slot raw reason clamped)

/-- A completed record of a slot that no query holds is judged and queued or answered (R129). -/
def State.judgeInto (s : State) (slot : Nat) (raw : RawQuery) : State :=
  match judgeQuery raw.record with
  | .bad reason clamped => s.answerBad slot raw reason clamped
  | .good q => (s.setSlot slot (.queued q)).enqueue slot q.high

/-- A completed record of a QUEUED slot replaces the earlier query (R131); with the same priority it keeps the
place in the queue. -/
def State.replaceQueued (s : State) (slot : Nat) (earlier : Query) (raw : RawQuery) : State :=
  match judgeQuery raw.record with
  | .bad reason clamped => (s.dequeue slot).answerBad slot raw reason clamped
  | .good q =>
    if q.high = earlier.high then s.setSlot slot (.queued q)
    else ((s.dequeue slot).setSlot slot (.queued q)).enqueue slot q.high

/-- The hand-offs with the answer to a slot's query withdrawn (R132). -/
def orphan (slot : Nat) (hs : List Handed) : List Handed :=
  hs.map fun h => if h.slot = some slot then { h with slot := none } else h

/-- The queries of a slot that are handed on and not yet taken lose their answers (R132). -/
def State.orphanHanded (s : State) (slot : Nat) : State :=
  s.setHandoffs { s.handoffs with
    toTable := orphan slot s.handoffs.toTable, toSweep := orphan slot s.handoffs.toSweep }

/-- A completed record of an IN_SERVICE slot (R132), by where the earlier query is served. -/
def State.rewriteInService (s : State) (slot : Nat) (serving : Serving) (raw : RawQuery) : State :=
  match serving with
  | .engine e => ((s.setEngine e .idle).withdrawAnswer slot).judgeInto slot raw
  | .answered => (s.withdrawAnswer slot).judgeInto slot raw
  | .table => (s.orphanHanded slot).judgeInto slot raw
  | .sweep => (s.orphanHanded slot).judgeInto slot raw
  | .port => s.setSlot slot (.inService .port (some raw))

/-- The completion of a query record of a slot (R129, R131, R132). -/
def State.arriveQuery (s : State) (slot : Nat) (r : Record) : State :=
  let raw : RawQuery := { record := r, settling := s.settling }
  match tableGet s.dispatcher.slots slot with
  | none => s.judgeInto slot raw
  | some (.queued q) => s.replaceQueued slot q raw
  | some (.inService serving _) => s.rewriteInService slot serving raw

/-! ### Choosing a query (R133) -/

/-- An engine is IDLE. -/
def Engine.isIdle : Engine → Bool
  | .idle => true
  | .searching _ _ | .committing _ _ _ | .answering _ => false

/-- The query of a QUEUED slot. -/
def State.queuedQuery (s : State) (slot : Nat) : Option Query :=
  match tableGet s.dispatcher.slots slot with
  | some (.queued q) => some q
  | _ => none

/-- The query of a slot can be served: a search needs an IDLE engine (R133). -/
def State.servable (s : State) (slot : Nat) : Bool :=
  match s.queuedQuery slot with
  | none => false
  | some q => !q.body.isSearch || s.engine0.isIdle || s.engine1.isIdle

/-- The slot whose query the dispatcher takes next: the oldest servable one of the high queue, else of the low queue
(R133). -/
def State.nextSlot (s : State) : Option Nat :=
  match s.dispatcher.high.find? fun i => s.servable i with
  | some i => some i
  | none => s.dispatcher.low.find? fun i => s.servable i

/-! ### Searches (R77, R134) -/

/-- The engine that a search is assigned to: Engine 0 when it is IDLE (R133). -/
def State.freeEngine (s : State) : EngineId := if s.engine0.isIdle then .e0 else .e1

/-- A search is assigned to an engine, which fills its context and begins (R77). -/
def State.assign (s : State) (slot : Nat) (q : Query) (req : FindReq) (pair : Bool) : State :=
  let e := s.freeEngine
  let ctx : Context := { slot := slot, query := q, req := req, pair := pair, budget := budgetOf req.q req.m,
                         restarts := 0, phase := .primary, labelsUsed := 0 }
  (s.setSlot slot (.inService (.engine e) none)).setEngine e (s.attempt ctx .primary)

/-- A FIND or FIND_PAIR taken from its queue: its endpoints are checked (R134). -/
def State.serveSearch (s : State) (slot : Nat) (q : Query) (req : FindReq) (pair : Bool) : State :=
  if s.fitNode req.source = false then s.respond slot q .unknownNode 1 (emptyBody q.kind)
  else if s.fitNode req.dest = false then s.respond slot q .unknownNode 2 (emptyBody q.kind)
  else if req.source = req.dest then s.respond slot q .sameEndpoints 0 (emptyBody q.kind)
  else s.assign slot q req pair

/-! ### Lookups and STATUS (R137 to R139) -/

/-- LOOKUP_NODE (R137). -/
def State.serveLookupNode (s : State) (slot : Nat) (q : Query) (id : NodeId) : State :=
  match s.nodeEntry id with
  | none => s.respond slot q .notFound 0 .none
  | some (i, n) => s.respond slot q .done i (.words (s.nodeBody i n))

/-- LOOKUP_LINK (R138). -/
def State.serveLookupLink (s : State) (slot : Nat) (q : Query) (id : NodeId) (port : Nat) : State :=
  match s.indexOf id with
  | none => s.respond slot q .notFound 1 .none
  | some i =>
    match s.portAt i port with
    | none => s.respond slot q .notFound 2 .none
    | some .claim => s.respond slot q .notFound 3 (.words (((s.claimAt i port).map claimBody).getD []))
    | some (.linkEnd k side) =>
      s.respond slot q .done (dirNumber side) (.words (((s.linkAt k).map fun l => s.linkBody k l).getD []))

/-- STATUS (R139): the slot is IN_SERVICE as the values are taken; the clear-counters flag then clears the ten
counters. -/
def State.serveStatus (s : State) (slot : Nat) (q : Query) (clear : Bool) : State :=
  let served := s.setSlot slot (.inService .answered none)
  let body := served.statusBody
  (if clear then served.clearCounters else served).respond slot q .done 0 (.words body)

/-! ### FLUSH (R140) -/

/-- The FLUSHED answer of an engine's query, without a route (R104). labels are those in its store, or those of the
phase that ended (assumption log 24). -/
def flushedAnswer (e : EngineId) (ctx : Context) (labels : Nat) : Answer :=
  answerTo ctx.slot (.engine e) ctx.query .flushed 0#32 noTag (noRouteBody ctx labels)

/-- A busy engine's query is answered FLUSHED (R104): an answer not yet taken is replaced in its place. -/
def State.flushEngine (s : State) (e : EngineId) : State :=
  match s.engine e with
  | .idle => s
  | .searching ctx labels => s.engineAnswer e ctx .flushed labels.length noTag (noRouteBody ctx labels.length)
  | .committing ctx labels _ =>
    s.engineAnswer e ctx .flushed labels.length noTag (noRouteBody ctx labels.length)
  | .answering ctx =>
    s.setWriter { s.writer with answers := s.writer.answers.map fun a =>
      if a.slot = ctx.slot then flushedAnswer e ctx ctx.labelsUsed else a }

/-- The Sweep Unit at FLUSH (R157). -/
def sweepFlushed (x : Sweep) (interval : Nat) : Sweep :=
  { x with
    pass := none
    walkCount := 0
    rerun := false
    pendingSet := []
    mode := if x.mode = .cyclic then .cyclic else .stopped
    timer := if x.mode = .cyclic then some interval else none }

/-- The settle timer is started at the settle interval in force (R135). -/
def State.startSettle (s : State) : State :=
  s.setDispatcher { s.dispatcher with settle := startTimer s.globals.settle }

/-- FLUSH, in the order of R140. -/
def State.serveFlush (s : State) (slot : Nat) (q : Query) : State :=
  let engines := (s.flushEngine .e0).flushEngine .e1
  let emptied := engines.setStore Store.empty
  let freed := { emptied with records := clearRecords emptied.records }
  let swept := freed.setSweep (sweepFlushed freed.sweep freed.globals.sweepInterval)
  swept.startSettle.respond slot q .done 0 .none

/-! ### NODE_CLEAR (R141) -/

/-- Quarantine lifted and fault score 0 at the node at an index (R58). -/
def State.liftQuarantine (s : State) (i : Nat) : State :=
  s.updateNode i fun n => { n with quarantined := false, faultScore := 0 }

/-- The directions of a list that came into service between two states have their lightpaths evaluated (R39). -/
def State.evaluateReturned (s before : State) (ds : List (Nat × Dir)) : State :=
  (ds.filter fun (k, d) => !before.inService k d && s.inService k d).foldl
    (fun x (k, d) => x.evaluateDirection k d) s

/-- NODE_CLEAR (R141): quarantine lifted (R58), flap scores and suppression cleared (R38), returns to service
(R39). -/
def State.serveNodeClear (s : State) (slot : Nat) (q : Query) (id : NodeId) : State :=
  match s.nodeEntry id with
  | none => s.respond slot q .notFound 0 .none
  | some (i, n) =>
    let ds := s.directionsAt i
    let cleared := ds.foldl (fun x (k, d) => x.clearFlap k d) (s.liftQuarantine i)
    (cleared.evaluateReturned s ds).respond slot q .done (if n.quarantined then 1 else 0)
      (.words [word n.faultScore, word (s.suppressedAmong ds)])

/-! ### Hand-offs (R136, R142, R144) and CONFIG_SET (R143) -/

/-- ACTIVATE, RELEASE and ADOPT are handed to the Lightpath Table (R136). -/
def State.handToTable (s : State) (slot : Nat) (q : Query) : State :=
  (s.setSlot slot (.inService .table none)).setHandoffs
    { s.handoffs with toTable := s.handoffs.toTable ++ [{ slot := some slot, query := q }] }

/-- A SWEEP is handed to the Sweep Unit (R142). -/
def State.handToSweep (s : State) (slot : Nat) (q : Query) : State :=
  (s.setSlot slot (.inService .sweep none)).setHandoffs
    { s.handoffs with toSweep := s.handoffs.toSweep ++ [{ slot := some slot, query := q }] }

/-- The Configuration Port has a SAVE or RELOAD in flight. -/
def PortOp.busy (x : PortOp) : Bool := x.isSave || x.isReload

/-- SAVE is handed to the port, which captures the image in force with its CRC placed (R144, R186), or is answered
BUSY. -/
def State.serveSave (s : State) (slot : Nat) (q : Query) : State :=
  if s.port.op.busy then s.respond slot q .busy 0 .none
  else
    (s.setSlot slot (.inService .port none)).setPort
      { s.port with op := .save slot q (placeCrc s.image) false }

/-- RELOAD is handed to the port (R144, R185), or is answered BUSY. -/
def State.serveReload (s : State) (slot : Nat) (q : Query) : State :=
  if s.port.op.busy then s.respond slot q .busy 0 .none
  else (s.setSlot slot (.inService .port none)).setPort { s.port with op := .reload slot q }

/-- The operation in flight after a CONFIG_SET has changed a value (R186). -/
def PortOp.altered : PortOp → PortOp
  | .save slot q copy _ => .save slot q copy true
  | .idle => .idle
  | .load phase => .load phase
  | .reload slot q => .reload slot q

/-- The image in force replaced by one with changed values (R143, R180). -/
def State.setValues (s : State) (img : List Byte) : State :=
  s.setPort { s.port with image := some img, changed := true, op := s.port.op.altered }

/-- A CONFIG_SET that changes a value: the target replaced, and R41 acts on a changed profile (R143). -/
def State.configure (s : State) (t : ConfigTarget) (values : List Byte) : State :=
  let set := s.setValues (t.place s.image values)
  match t with
  | .profile n => set.reprofile fun m => m.profile == n
  | .filter _ => set
  | .routing => set
  | .globals => set

/-- CONFIG_SET (R143); one that changes no value leaves everything as it is (assumption log 18). -/
def State.serveConfigSet (s : State) (slot : Nat) (q : Query) (t : ConfigTarget) (values : List Byte) : State :=
  (if t.read (t.place s.image values) = t.read s.image then s else s.configure t values).respond slot q .done 0
    .none

/-! ### Serving a query -/

/-- The dispatcher serves a query that has left its queue (R134 to R144). -/
def State.serve (s : State) (slot : Nat) (q : Query) : State :=
  match q.body with
  | .find req => s.serveSearch slot q req false
  | .findPair req => s.serveSearch slot q req true
  | .activate _ => s.handToTable slot q
  | .release _ => s.handToTable slot q
  | .adopt _ _ _ _ => s.handToTable slot q
  | .lookupNode id => s.serveLookupNode slot q id
  | .lookupLink id port => s.serveLookupLink slot q id port
  | .status clear => s.serveStatus slot q clear
  | .sweep _ => s.handToSweep slot q
  | .configSet t values => s.serveConfigSet slot q t values
  | .save => s.serveSave slot q
  | .reload => s.serveReload slot q
  | .flush => s.serveFlush slot q
  | .nodeClear id => s.serveNodeClear slot q id

/-- The query as it is taken: PROVISIONAL when it is a search taken while SETTLING (R135). -/
def State.takenQuery (s : State) (q : Query) : Query :=
  { q with provisional := q.body.isSearch && s.settling }

/-- DISPATCH_QUERY: the dispatcher takes the oldest query that can be served (R133). -/
def execDispatchQuery (s : State) : Host.Outcome State Fault Refusal :=
  if s.running then
    match s.nextSlot with
    | none => .next s
    | some slot =>
      match s.queuedQuery slot with
      | none => .next s
      | some q => .next ((s.dequeue slot).serve slot (s.takenQuery q))
  else .next s

/-- SETTLE_TIMER_EXPIRY: the settle timer, come to its last one-second event, expires and the dispatcher becomes SETTLED
(R135). A timer that is stopped or has been started again does not expire (R187, assumption log 2). -/
def execSettleTimerExpiry (s : State) : Host.Outcome State Fault Refusal :=
  if s.running ∧ timerExpired s.dispatcher.settle then
    .next (s.setDispatcher { s.dispatcher with settle := none })
  else .next s

/-! ### The Result Writer takes an answer (R145) -/

/-- The engine that offered an answer becomes IDLE when the answer is taken (R105). -/
def State.freeSource (s : State) (x : AnswerSource) : State :=
  match x with
  | .engine e => s.setEngine e .idle
  | .dispatcher => s
  | .port => s

/-- A slot becomes IDLE, or STAGING where a staging is open (R128). -/
def State.clearSlot (s : State) (slot : Nat) : State :=
  s.setDispatcher { s.dispatcher with slots := tableErase s.dispatcher.slots slot }

/-- The successor held for a slot (R132). -/
def State.successorOf (s : State) (slot : Nat) : Option RawQuery :=
  match tableGet s.dispatcher.slots slot with
  | some (.inService _ x) => x
  | _ => none

/-- The successor of a slot, if there is one, is judged as the earlier answer is taken (R132). -/
def State.judgeSuccessor (s : State) (slot : Nat) (x : Option RawQuery) : State :=
  match x with
  | none => s
  | some raw => s.judgeInto slot raw

/-- The address of a result slot in the RESULT window in force (R146). -/
def State.resultBase (s : State) (slot : Nat) : Nat := windowBase s.image .result + 512 * slot

/-- The answer at the head of the queue is taken (R145): its slot address is fixed, its engine and slot are freed,
and the slot's successor is judged. -/
def State.takeAnswer (s : State) (a : Answer) (rest : List Answer) : State :=
  let taken := s.setWriter
    { answers := rest, writing := some { base := s.resultBase a.slot, answer := a, todo := none } }
  ((taken.freeSource a.source).clearSlot a.slot).judgeSuccessor a.slot (s.successorOf a.slot)

/-- RESULT_WRITER_TAKE: the writer, with nothing left to write, takes the answer at the head of the queue (R145). -/
def execResultWriterTake (s : State) : Host.Outcome State Fault Refusal :=
  if s.running ∧ s.writer.writing.isNone then
    match s.writer.answers with
    | [] => .next s
    | a :: rest => .next (s.takeAnswer a rest)
  else .next s

end Sys2Proof.Machine
end

