-- ==== Sys2Proof/WellFormed.lean ====
section
/-! DEFINITION. Which commands can come about at all: what the bus and the tables can name. -/

namespace Sys2Proof

/-- The address of a 32-bit access is word-aligned (R166). -/
def wordAligned (addr : Word) : Bool := addr.toNat % 4 == 0

/-- A command is well formed when its address is word-aligned (R166), its indexes lie in their tables
(R1, R9, R17, R106) and the configuration memory answered at most the 512 bytes asked for (R181). -/
def Instr.wellFormed : Instr → Bool
  | .hostWrite a _ _ _ => wordAligned a
  | .hostRead x _ => wordAligned x.addr
  | .hostWriteReportSlot a _ _ _ => wordAligned a
  | .hostWriteQuerySlot a _ _ _ => wordAligned a
  | .consumerIndexWrite a _ _ _ => wordAligned a
  | .loadReadEnd bs => decide (bs.length ≤ 512)
  | .reloadReadEnd bs => decide (bs.length ≤ 512)
  | .saveEnd bs => decide (bs.length ≤ 512)
  | .nodeHoldExpiry n => decide (n < 256)
  | .claimHoldExpiry n p => decide (n < 256) && decide (p < 65536)
  | .holdoffExpiry k _ => decide (k < 1024)
  | .reservationExpiry i => decide (i < 128)
  | .powerOn | .loadAttemptStart | .busResetAssert | .busResetDeassert | .intakeTakeRecord
  | .observationUp | .observationDown | .dispatchQuery | .settleTimerExpiry | .searchStep _
  | .commit _ | .activate | .release | .adopt | .litCheck | .hopLostEvent _ | .sweepResult
  | .startSingle | .startCyclic | .stop | .sweepStep | .sweepTimerExpiry | .alarmRisingEdge
  | .alarmInputFall | .resultWriterTake | .resultWordHandoff | .noticeTake | .noticeWordHandoff
  | .writeBufferDrain _ => true

end Sys2Proof
end

