-- ==== Sys2Proof/Machine/Bus.lean ====
section
/-! DEFINITION. The Memory Bus Tap (10): the write buffer and its producers, the downstream arbiter, host accesses,
staging and completion, and the commands HOST_WRITE, HOST_READ, HOST_WRITE_REPORT_SLOT, HOST_WRITE_QUERY_SLOT,
CONSUMER_INDEX_WRITE, RESULT_WORD_HANDOFF, NOTICE_WORD_HANDOFF and WRITE_BUFFER_DRAIN. -/

namespace Sys2Proof.Machine

/-! ### The write buffer (R172) -/

/-- The buffer entry that holds an address. -/
def entryAt (b : List WriteEntry) (a : Nat) : Option WriteEntry := b.find? fun e => e.addr == a

/-- The buffer without the entry of an address. -/
def dropEntry (b : List WriteEntry) (a : Nat) : List WriteEntry := b.filter fun e => e.addr != a

/-- A part write of all four bytes to an address that an entry holds: the entry takes it and moves to the tail. -/
def refillEntry (b : List WriteEntry) (e : WriteEntry) (w : Word) : List WriteEntry :=
  dropEntry b e.addr ++ [{ addr := e.addr, value := mergeWord e.value w allBytes, mask := e.mask ||| allBytes }]

/-- The buffer is full (R172). -/
def State.bufferFull (s : State) : Bool := decide (bufferCapacity ≤ s.tap.buffer.length)

/-- A producer's word may take a free place: no other producer began waiting before it (R172). -/
def State.firstToWait (s : State) (p : Producer) : Bool :=
  match s.tap.waiting with
  | [] => true
  | q :: _ => q == p

/-- A word enters a free place at the tail; when that fills the buffer, the next turn is a buffered write's (R173). -/
def State.appendWord (s : State) (p : Producer) (addr : Nat) (w : Word) : State :=
  let b := s.tap.buffer ++ [{ addr := addr, value := w, mask := allBytes }]
  s.setTap { s.tap with
    buffer := b
    waiting := s.tap.waiting.filter (· != p)
    turn := if bufferCapacity ≤ b.length then .buffered else s.tap.turn }

/-- A word is taken by the entry that holds its address, full buffer or not. -/
def State.refillWord (s : State) (p : Producer) (e : WriteEntry) (w : Word) : State :=
  s.setTap { s.tap with
    buffer := refillEntry s.tap.buffer e w, waiting := s.tap.waiting.filter (· != p) }

/-- A word waits with its producer, behind producers that began waiting before it. -/
def State.waitWord (s : State) (p : Producer) : State :=
  s.setTap { s.tap with waiting := if s.tap.waiting.contains p then s.tap.waiting else s.tap.waiting ++ [p] }

/-- A part write handed to the buffer by a producer (R172): the state after it was taken, or none when it must
wait. -/
def State.handWord (s : State) (p : Producer) (addr : Nat) (w : Word) : Option State :=
  match entryAt s.tap.buffer addr with
  | some e => some (s.refillWord p e w)
  | none => if !s.bufferFull && s.firstToWait p then some (s.appendWord p addr w) else none

/-! ### Memory writes and drains (R166, R173) -/

/-- A write passes the downstream port and reaches memory; after an error response the bytes enabled hold free values
(assumption log 5). -/
def State.writeMemory (s : State) (addr : Nat) (w : Word) (enables : ByteMask) (resp : Response) : State :=
  let passed := { s with downstream := .write addr w enables }
  match resp with
  | .ok => { passed with memory := writeWord s.memory addr w enables }
  | .error => { passed with memory := spoilWord s.memory s.freeCount addr enables, freeCount := s.freeCount + 1 }

/-- The arbiter's next turn set. -/
def State.setTurn (s : State) (t : Turn) : State := s.setTap { s.tap with turn := t }

/-- The head of the buffer is granted the port and drained (R173). -/
def State.drainHead (s : State) (resp : Response) : State :=
  match s.tap.buffer with
  | [] => s
  | e :: rest =>
    (s.setTap { s.tap with buffer := rest, turn := .host }).writeMemory e.addr e.value e.mask resp

/-- A host access is granted the port: while the buffer is full and the turn is a buffered write's, the head drains
first (R173, assumption log 21). -/
def State.grantHost (s : State) : State :=
  if s.bufferFull ∧ s.tap.turn = .buffered then s.drainHead .ok else s

/-- The turn after a host access: a buffered write's while the buffer is full (R173). -/
def State.afterHost (s : State) : State := s.setTurn (if s.bufferFull then .buffered else .host)

/-! ### Staging and completion (R168 to R171) -/

/-- The words of a fresh staging: images 0, masks empty (R168). -/
def freshStaging (n : Nat) : List StagedWord := List.replicate n { image := 0#32, valid := 0#4 }

/-- A write merged into word k of a staging (R168). -/
def mergeStaged (ws : List StagedWord) (k : Nat) (data : Word) (enables : ByteMask) : List StagedWord :=
  match ws[k]? with
  | none => ws
  | some x => setAt ws k { image := mergeWord x.image data enables, valid := x.valid ||| enables }

/-- All four bytes of a staged word are valid. -/
def StagedWord.whole (x : StagedWord) : Bool := x.valid == allBytes

/-- A write to word k completes the staging whose closing word is word last (R169). -/
def completes (ws : List StagedWord) (k last : Nat) : Bool :=
  k == last && ((ws[last]?.map StagedWord.whole).getD false)

/-- The completed record (R169): the word images, and the incomplete mark when a byte of words 0 to L − 2 is not
valid, where a length beyond the slot covers all the words before the closing word. -/
def completedRecord (ws : List StagedWord) (last lengthBits : Nat) : Record :=
  let closing := ((ws[last]?.map (·.image)).getD 0#32)
  let covered := min (bits closing 16 lengthBits - 1) last
  { words := ws.map (·.image), incomplete := (ws.take covered).any fun x => !x.whole }

/-- The number of valid bytes of a byte mask. -/
def maskCount (m : ByteMask) : Nat :=
  m.toNat % 2 + m.toNat / 2 % 2 + m.toNat / 4 % 2 + m.toNat / 8 % 2

/-- The number of valid bytes that a staging holds (R170). -/
def validBytes (ws : List StagedWord) : Nat := ws.foldl (fun n x => n + maskCount x.valid) 0

/-- The open report staging of a slot. -/
def State.reportStaging (s : State) (slot : Nat) : Option ReportStaging :=
  s.tap.reportStagings.find? fun x => x.slot == slot

/-- With 8 report stagings open, the oldest is abandoned (R170). -/
def State.evictStaging (s : State) : State :=
  match s.tap.reportStagings with
  | [] => s
  | x :: rest =>
    if s.tap.reportStagings.length < stagingCapacity then s
    else
      (s.setTap { s.tap with reportStagings := rest, abandoned := countUp s.tap.abandoned 1 }).hand
        (notice .stagingAbandoned (word x.slot) (word (validBytes x.words)))

/-- The report staging of a slot is open: opened as the youngest if it was not, after an eviction where 8 are open
(R168, R170), also by a write with no byte enabled, the model's choice (assumption log 40). -/
def State.openReport (s : State) (slot : Nat) : State :=
  match s.reportStaging slot with
  | some _ => s
  | none =>
    let t := s.evictStaging
    t.setTap { t.tap with
      reportStagings := t.tap.reportStagings ++ [{ slot := slot, words := freshStaging 16 }] }

/-- The words of a slot's report staging replaced, its age kept. -/
def State.setReportWords (s : State) (slot : Nat) (ws : List StagedWord) : State :=
  s.setTap { s.tap with
    reportStagings := s.tap.reportStagings.map fun x => if x.slot = slot then { x with words := ws } else x }

/-- The report staging of a slot closes. -/
def State.closeReport (s : State) (slot : Nat) : State :=
  s.setTap { s.tap with reportStagings := s.tap.reportStagings.filter fun x => x.slot != slot }

/-- A host write to word k of the report slot at an address (R168 to R170). One with no byte enabled opens a staging
too, the model's choice (assumption log 40). -/
def State.writeReport (s : State) (slot k : Nat) (data : Word) (enables : ByteMask) : State :=
  let opened := s.openReport slot
  match opened.reportStaging slot with
  | none => opened
  | some x =>
    let ws := mergeStaged x.words k data enables
    if completes ws k 15 then (opened.closeReport slot).arriveReport slot (completedRecord ws 15 8)
    else opened.setReportWords slot ws

/-- The words of a query slot's staging, fresh when none is open (R168, R171). -/
def State.queryWords (s : State) (slot : Nat) : List StagedWord :=
  (tableGet s.tap.queryStagings slot).getD (freshStaging 64)

/-- A host write to word k of a query slot (R168, R169, R171). One with no byte enabled opens a staging too, the model's
choice (assumption log 40). -/
def State.writeQuery (s : State) (slot k : Nat) (data : Word) (enables : ByteMask) : State :=
  let ws := mergeStaged (s.queryWords slot) k data enables
  if completes ws k 63 then
    (s.setTap { s.tap with queryStagings := tableErase s.tap.queryStagings slot }).arriveQuery slot
      (completedRecord ws 63 7)
  else s.setTap { s.tap with queryStagings := tableSet s.tap.queryStagings slot ws }

/-! ### Host accesses (R166, R167, R174, R175) -/

/-- A host write removes the bytes it enables from the entry of its address; an entry left without bytes leaves the
buffer (R175). -/
def cancelBytes (b : List WriteEntry) (addr : Nat) (enables : ByteMask) : List WriteEntry :=
  (b.map fun e => if e.addr = addr then { e with mask := e.mask &&& ~~~ enables } else e).filter
    fun e => e.mask != 0#4

/-- The buffered bytes that a host write overlaps are cancelled (R175). -/
def State.cancel (s : State) (addr : Nat) (enables : ByteMask) : State :=
  s.setTap { s.tap with buffer := cancelBytes s.tap.buffer addr enables }

/-- What the tap does with a host write in a window, by the window's kind (R167). -/
def State.matchWrite (s : State) (w : Window) (addr : Nat) (data : Word) (enables : ByteMask) : State :=
  let o := addr - w.base
  match w.kind with
  | .report => s.writeReport (w.base + o / 64 * 64) (o % 64 / 4) data enables
  | .query => s.writeQuery (o / 256) (o % 256 / 4) data enables
  | .result => s
  | .notice => if o = 0 then s.takeConsumer data enables else s

/-- The tap looks at a host write while the part runs: outside every window nothing is matched (R167, R176, R178). -/
def State.look (s : State) (addr : Nat) (data : Word) (enables : ByteMask) : State :=
  if s.running then
    match windowAt s.image addr with
    | none => s
    | some w => s.matchWrite w addr data enables
  else s

/-- The answer to a host write, passed back unchanged (R166). -/
def State.answerWrite (s : State) (resp : Response) : State :=
  { s with upstream := .write (resp == .error) }

/-- A host write: it reaches memory, cancels the buffered bytes it overlaps and is looked at by the tap (R166, R167,
R175). -/
def State.hostWrite (s : State) (addr : Nat) (data : Word) (enables : ByteMask) (resp : Response) : State :=
  ((((s.grantHost.writeMemory addr data enables resp).answerWrite resp).cancel addr enables).look addr data
    enables).afterHost

/-- A host access at an address that is not word-aligned is none the bus carries (R166, assumption log 22). -/
def State.hostWriteAt (s : State) (addr data : Word) (enables : ByteMask) (resp : Response) :
    Host.Outcome State Fault Refusal :=
  if wordAligned addr then .next (s.hostWrite addr.toNat data enables resp) else .fault .unalignedAccess

/-- Memory's answer to a read (R166); the bytes that the read did not enable, and the data of an error response, are
free values (assumption logs 34 and 5). -/
def State.readMemory (s : State) (addr : Nat) (enables : ByteMask) (resp : Response) : Word :=
  match resp with
  | .ok => mergeWord (Config.disabledData s.freeCount) (readWord s.memory addr) enables
  | .error => Config.erroredData s.freeCount

/-- A read has a free value in its answer: a byte it did not enable, or the data of an error response. -/
def freeRead (enables : ByteMask) (resp : Response) : Bool := enables != allBytes || resp == .error

/-- A read passes the downstream port with the byte enables it carries (R166); the count of free values rises where its
answer has one. -/
def State.readDownstream (s : State) (addr : Nat) (enables : ByteMask) (resp : Response) : State :=
  { s with
    downstream := .read addr enables
    freeCount := if freeRead enables resp then s.freeCount + 1 else s.freeCount }

/-- Memory's answer with the buffered bytes in their places (R174). -/
def State.overlay (s : State) (addr : Nat) (w : Word) : Word :=
  match entryAt s.tap.buffer addr with
  | none => w
  | some e => mergeWord w e.value e.mask

/-- A host read passed downstream (R166, R174). -/
def State.passRead (s : State) (addr : Nat) (enables : ByteMask) (resp : Response) : State :=
  let g := s.grantHost
  ({ g.readDownstream addr enables resp with
      upstream := .read (g.overlay addr (g.readMemory addr enables resp)) (resp == .error) } : State).afterHost

/-- A host read (R174): a word that the buffer holds whole is answered from it, whatever bytes the read enables, and
takes no turn of the port. -/
def State.hostRead (s : State) (addr : Nat) (enables : ByteMask) (resp : Response) : State :=
  match entryAt s.tap.buffer addr with
  | none => s.passRead addr enables resp
  | some e =>
    if e.mask = allBytes then { s with upstream := .read e.value false } else s.passRead addr enables resp

/-! ### The commands -/

/-- HOST_WRITE: a host write, judged by its address (R166, R175, assumption log 22). -/
def execHostWrite (addr data : Word) (enables : ByteMask) (resp : Response) (s : State) :
    Host.Outcome State Fault Refusal := s.hostWriteAt addr data enables resp

/-- HOST_READ (R174). -/
def execHostRead (access : ReadAccess) (resp : Response) (s : State) : Host.Outcome State Fault Refusal :=
  if wordAligned access.addr then .next (s.hostRead access.addr.toNat access.enables resp) else .fault .unalignedAccess

/-- HOST_WRITE_REPORT_SLOT: a host write, judged by its address (R168, assumption log 22). -/
def execHostWriteReportSlot (addr data : Word) (enables : ByteMask) (resp : Response) (s : State) :
    Host.Outcome State Fault Refusal := s.hostWriteAt addr data enables resp

/-- HOST_WRITE_QUERY_SLOT: a host write, judged by its address (R168, assumption log 22). -/
def execHostWriteQuerySlot (addr data : Word) (enables : ByteMask) (resp : Response) (s : State) :
    Host.Outcome State Fault Refusal := s.hostWriteAt addr data enables resp

/-- CONSUMER_INDEX_WRITE: a host write, judged by its address (R162, assumption log 22). -/
def execConsumerIndexWrite (addr data : Word) (enables : ByteMask) (resp : Response) (s : State) :
    Host.Outcome State Fault Refusal := s.hostWriteAt addr data enables resp

/-- WRITE_BUFFER_DRAIN: the arbiter grants the port to the head of the buffer (R173). -/
def execWriteBufferDrain (resp : Response) (s : State) : Host.Outcome State Fault Refusal :=
  if s.running then .next (s.drainHead resp) else .next s

/-- The QUERY notice of a written answer whose query asked for one (R146). -/
def State.noticeDone (s : State) (a : Answer) : State :=
  if a.notify then
    s.hand (notice .queryDone (word a.slot) (word (field a.tag 0 16 + field a.status.code 16 8)))
  else s

/-- The writer's words left to hand on; with none left the answer is written (R146). -/
def State.writeOn (s : State) (w : Writing) (rest : List (Nat × Word)) : State :=
  match rest with
  | [] => (s.setWriter { s.writer with writing := none }).noticeDone w.answer
  | _ :: _ => s.setWriter { s.writer with writing := some { w with todo := some rest } }

/-- The words of an answer that are not yet handed on; the body is composed as the first is handed on (R69, R189,
assumption log 19). -/
def State.wordsOf (s : State) (w : Writing) : List (Nat × Word) := w.todo.getD (s.resultWords w.base w.answer)

/-- RESULT_WORD_HANDOFF: the writer hands its next word to the write buffer, or waits for room (R146, R172). -/
def execResultWordHandoff (s : State) : Host.Outcome State Fault Refusal :=
  if s.running then
    match s.writer.writing with
    | none => .next s
    | some w =>
      match s.wordsOf w with
      | [] => .next (s.writeOn w [])
      | (addr, x) :: rest =>
        match s.handWord .resultWriter addr x with
        | some t => .next (t.writeOn w rest)
        | none => .next ((s.writeOn w ((addr, x) :: rest)).waitWord .resultWriter)
  else .next s

/-- A word that the Notice Unit has handed on leaves its list; a producer word of the ring in force is published
(R161, R165). -/
def State.published (s : State) (w : NoticeWord) (rest : List NoticeWord) : State :=
  s.setNotices { s.notices with out := rest, published := w.publishes.getD s.notices.published }

/-- The Notice Unit hands its next word to the write buffer, or waits for room (R161, R172). -/
def State.passNoticeWord (s : State) : State :=
  match s.notices.out with
  | [] => s
  | w :: rest =>
    match s.handWord .noticeUnit w.addr w.value with
    | some t => t.published w rest
    | none => s.waitWord .noticeUnit

/-- NOTICE_WORD_HANDOFF: the Notice Unit hands its next word to the write buffer, or waits for room (R161, R172). -/
def execNoticeWordHandoff (s : State) : Host.Outcome State Fault Refusal :=
  if s.running then .next s.passNoticeWord else .next s

end Sys2Proof.Machine
end

