-- ==== Sys2Proof/Machine/Sweep.lean ====
section
/-! DEFINITION. The Sweep Unit (08): evaluation, passes, sweep queries, alarms, and the commands SWEEP_STEP,
START_SINGLE, START_CYCLIC, STOP, SWEEP_TIMER_EXPIRY, ALARM_RISING_EDGE and ALARM_INPUT_FALL. -/

namespace Sys2Proof.Machine

/-! ### Evaluation (R150) -/

/-- The finding on a record: WHOLE with its margin from live values when its route stands, LOST otherwise (R150). -/
def State.findingOf (s : State) (p : Lightpath) : Finding :=
  if s.routeStands p.route then .whole (marginOf p.budget (s.worstNoise p.route)) else .lost

/-- A record is in a state that the unit evaluates: ACTIVE, DEGRADED or BROKEN (R112, R150). -/
def Lightpath.evaluated (p : Lightpath) : Bool := p.state != .reserved

/-- The record at an index is evaluated and the result handed to the table; a FREE or RESERVED one gives nothing
(R150). -/
def State.evaluate (s : State) (i : Nat) : State :=
  match s.lightpathAt i with
  | none => s
  | some p =>
    if p.evaluated then
      s.setSweep { s.sweep with outstanding := some { tag := s.recordTag i, finding := s.findingOf p } }
    else s

/-! ### Passes (R151 to R154) -/

/-- A pass starts (R152): position and walk count 0, the sweep timer stopped. -/
def Sweep.startPass (x : Sweep) : Sweep := { x with pass := some 0, walkCount := 0, timer := none }

/-- A pass starts, or the re-run request is set while one runs (R154, R155). -/
def Sweep.startOrRerun (x : Sweep) : Sweep :=
  if x.pass.isSome then { x with rerun := true } else x.startPass

/-- The Sweep Unit after the end of a pass (R152): a re-run, or what the mode asks for. -/
def Sweep.afterPass (x : Sweep) (interval : Nat) : Sweep :=
  if x.rerun then { x with rerun := false }.startPass
  else
    let ended := { x with pass := none, walkCount := 0 }
    match x.mode with
    | .stopped => ended
    | .single => { ended with mode := .stopped }
    | .cyclic => { ended with timer := some interval }

/-- The running pass ends (R152). -/
def State.endPass (s : State) : State :=
  let told := s.hand (notice .passComplete 0#32 (word s.sweep.walkCount))
  told.setSweep (told.sweep.afterPass told.globals.sweepInterval)

/-- The lowest index at or above a position whose record the walk evaluates (R151). -/
def State.nextToWalk (s : State) (pos : Nat) : Option Nat :=
  (s.lightpaths.find? fun e => decide (pos ≤ e.1) && e.2.evaluated).map (·.1)

/-- A step of the walk from a position (R151). -/
def State.walk (s : State) (pos : Nat) : State :=
  match s.nextToWalk pos with
  | none => s.endPass
  | some i =>
    (s.setSweep { s.sweep with pass := some (i + 1), walkCount := s.sweep.walkCount + 1 }).evaluate i

/-- SWEEP_STEP: with no result outstanding, the lowest pending index is served, else the walk of a running pass goes
on (R151). -/
def execSweepStep (s : State) : Host.Outcome State Fault Refusal :=
  if s.running ∧ s.sweep.outstanding.isNone then
    match s.sweep.pendingSet, s.sweep.pass with
    | i :: rest, _ => .next ((s.setSweep { s.sweep with pendingSet := rest }).evaluate i)
    | [], some pos => .next (s.walk pos)
    | [], none => .next s
  else .next s

/-- SWEEP_TIMER_EXPIRY: a running sweep timer that has come to its last one-second event expires and a pass starts
(R153, R187, assumption log 2). -/
def execSweepTimerExpiry (s : State) : Host.Outcome State Fault Refusal :=
  if s.running ∧ timerExpired s.sweep.timer then .next (s.setSweep s.sweep.startPass) else .next s

/-! ### Alarms (R154, R158, R178) -/

/-- ALARM_RISING_EDGE: the input becomes asserted; an edge against the reference level starts a pass or sets the
re-run request (R154). Before the image is in force and during a bus reset the unit takes no change. -/
def execAlarmRisingEdge (s : State) : Host.Outcome State Fault Refusal :=
  let risen := { s with alarmInput := true }
  if s.running ∧ s.sweep.alarmRef = false then
    .next (risen.setSweep { s.sweep with alarmRef := true }.startOrRerun)
  else .next risen

/-- ALARM_INPUT_FALL: the input becomes deasserted, and the reference level with it (R154). -/
def execAlarmInputFall (s : State) : Host.Outcome State Fault Refusal :=
  let fallen := { s with alarmInput := false }
  if s.running then .next (fallen.setSweep { s.sweep with alarmRef := false }) else .next fallen

/-! ### Sweep queries (R142, R155, R156) -/

/-- The next query handed on by the dispatcher leaves the Sweep Unit's inbox. -/
def State.popToSweep (s : State) : State :=
  s.setHandoffs { s.handoffs with toSweep := s.handoffs.toSweep.tail }

/-- The head of the Sweep Unit's inbox, when it carries an action. -/
def State.sweepQuery (s : State) (action : SweepAction) : Option Handed :=
  s.handoffs.toSweep.head?.filter fun h => h.query.body == .sweep action

/-- A START sets the mode, and a pass starts or the re-run request is set (R155). -/
def State.startSweep (s : State) (mode : SweepMode) : State :=
  s.setSweep { s.sweep with mode := mode }.startOrRerun

/-- The answer to a SWEEP: DONE with the mode after the event (R142). -/
def State.answerSweep (s : State) (h : Handed) : State := s.reply h .done s.sweep.mode.code noTag .none

/-- STOP (R156): the mode becomes STOPPED, timer and re-run request are cleared, a running pass is abandoned. -/
def State.stopSweep (s : State) : State :=
  let told :=
    match s.sweep.pass with
    | none => s
    | some pos => s.hand (notice .passAbandoned 0#32 (word pos))
  told.setSweep { s.sweep with mode := .stopped, timer := none, rerun := false, pass := none, walkCount := 0 }

/-- START_SINGLE: the Sweep Unit takes the query at the head of its inbox when it is a START_SINGLE (R155). -/
def execStartSingle (s : State) : Host.Outcome State Fault Refusal :=
  if s.running then
    match s.sweepQuery .startSingle with
    | none => .next s
    | some h => .next ((s.popToSweep.startSweep .single).answerSweep h)
  else .next s

/-- START_CYCLIC: the Sweep Unit takes the query at the head of its inbox when it is a START_CYCLIC (R155). -/
def execStartCyclic (s : State) : Host.Outcome State Fault Refusal :=
  if s.running then
    match s.sweepQuery .startCyclic with
    | none => .next s
    | some h => .next ((s.popToSweep.startSweep .cyclic).answerSweep h)
  else .next s

/-- STOP: the Sweep Unit takes the query at the head of its inbox when it is a STOP (R156). -/
def execStop (s : State) : Host.Outcome State Fault Refusal :=
  if s.running then
    match s.sweepQuery .stop with
    | none => .next s
    | some h => .next (s.popToSweep.stopSweep.answerSweep h)
  else .next s

end Sys2Proof.Machine
end

