-- ==== Sys2Proof/Machine/Startup.lean ====
section
/-! DEFINITION. The Configuration Port, power-on and bus reset (11, R177, R178): the commands POWER_ON,
LOAD_ATTEMPT_START, LOAD_READ_END, BUS_RESET_ASSERT, BUS_RESET_DEASSERT, SAVE_END and RELOAD_READ_END. -/

namespace Sys2Proof.Machine

/-! ### Starting values from the image in force (R135, R158, R165) -/

/-- The Notice Unit's starting values, with the producer word of 0 as its first word to hand on (R165). -/
def State.startNotices (s : State) : State :=
  s.setNotices { NoticeUnit.empty with out := [producerWord s.noticeBase 0 (some 0)] }

/-- The starting sweep mode of the image in force (R183). -/
def Globals.startingMode (g : Globals) : SweepMode := if g.startMode = 2 then .cyclic else .stopped

/-- The Sweep Unit's starting values (R158): mode from the image, reference level from the input, the timer started in
CYCLIC mode. -/
def State.startSweepUnit (s : State) : State :=
  let mode := s.globals.startingMode
  s.setSweep { Sweep.empty with
    mode := mode
    timer := if mode = .cyclic then some s.globals.sweepInterval else none
    alarmRef := s.alarmInput }

/-- The Sweep Unit and the settle timer take their starting values (R135, R158). -/
def State.startTimers (s : State) : State := s.startSweepUnit.startSettle

/-! ### Power-on and load (R182, R184) -/

/-- The image that ends the power-on load comes into force, with the effects of R184 in their order. The producer word
of 0 enters the write buffer in this event, ahead of every other part write (R176). -/
def State.comeIntoForce (s : State) (img : List Byte) (source : ImageSource) (e : NoticeEvent)
    (detail : Nat) : State :=
  ((s.setPort { s.port with image := some img, source := some source, changed := false,
                            op := .idle }).startNotices.passNoticeWord.startTimers).hand
    (notice e 0#32 (word detail))

/-- POWER_ON: every block takes its power-on values and the load begins (R182). The queue, the memory and the pins
are not the part's and stay (assumption log 3). -/
def execPowerOn (s : State) : Host.Outcome State Fault Refusal :=
  .next { State.reset with
    pending := s.pending, freeCount := s.freeCount, memory := s.memory, upstream := s.upstream,
    downstream := s.downstream, alarmInput := s.alarmInput, busReset := s.busReset }

/-- An attempt begins: it adds 1 to the attempt count and reads (R182). -/
def State.beginAttempt (s : State) : State :=
  s.setPort { s.port with op := .load .reading, attempts := s.port.attempts + 1 }

/-- LOAD_ATTEMPT_START: the next attempt begins at the one-second event after a failed one (R182): it is due once that
event has come, and before it the port goes on waiting (R187). The first may begin as soon as the load has begun
(assumption log 7). -/
def execLoadAttemptStart (s : State) : Host.Outcome State Fault Refusal :=
  match s.port.op with
  | .load .begun => .next s.beginAttempt
  | .load .due => .next s.beginAttempt
  | _ => .next s

/-- A load read that failed with a reason (R182): another attempt, or after the eighth the default image. -/
def State.failLoad (s : State) (reason : PortReason) : State :=
  if s.port.attempts < 8 then s.setPort { s.port with op := .load .waiting }
  else s.comeIntoForce defaultImage .defaulted .defaulted reason.code

/-- The read of an attempt ends and the bytes are judged by R181: a valid image comes into force as LOADED (R182,
R184). -/
def State.endAttempt (s : State) (answered : List Byte) : State :=
  match judgeImage answered with
  | none => s.comeIntoForce answered .loaded .loaded s.port.attempts
  | some reason => s.failLoad reason

/-- LOAD_READ_END: the read of the attempt ends (R182); of a load that has only begun, its first attempt begins and ends
(assumption log 7). A bus reset does not stop it. -/
def execLoadReadEnd (answered : List Byte) (s : State) : Host.Outcome State Fault Refusal :=
  match s.port.op with
  | .load .begun => .next (s.beginAttempt.endAttempt answered)
  | .load .reading => .next (s.endAttempt answered)
  | _ => .next s

/-! ### Bus reset (R178) -/

/-- The bus-reset values of every block, with the image in force kept (R25, R43, R104, R127, R147, R158, R165, R177,
R180). Hand-offs in flight are dropped (assumption log 8). The producer word of 0 waits as the Notice Unit's first word,
since the buffer stays empty until the deassertion (R165, R177, R178, assumption log 28). -/
def State.busResetValues (s : State) : State :=
  ({ s with
      port := { s.port with op := .idle }
      tap := Tap.empty
      intake := Intake.empty
      store := Store.empty
      handoffs := Handoffs.empty
      dispatcher := Dispatcher.empty
      engine0 := .idle
      engine1 := .idle
      records := clearRecords s.records
      writer := Writer.empty } : State).startNotices.startTimers

/-- BUS_RESET_ASSERT: the bus reset event (R178); before the image is in force it changes nothing but the level
(R182). -/
def execBusResetAssert (s : State) : Host.Outcome State Fault Refusal :=
  if s.busReset then .next s
  else if s.port.image.isSome then .next ({ s with busReset := true } : State).busResetValues
  else .next { s with busReset := true }

/-- BUS_RESET_DEASSERT: the part runs on from the reset values; the Sweep Unit takes its reference level (R178). -/
def execBusResetDeassert (s : State) : Host.Outcome State Fault Refusal :=
  if s.busReset then
    let released := { s with busReset := false }
    if s.port.image.isSome then
      .next (released.setSweep { s.sweep with alarmRef := s.alarmInput })
    else .next released
  else .next s

/-! ### SAVE (R186) -/

/-- The port's operation ends and its query is answered (R144). -/
def State.endPortQuery (s : State) (slot : Nat) (q : Query) (st : Status) (detail : Nat) : State :=
  (s.setPort { s.port with op := .idle }).offer (answerTo slot .port q st (word detail) noTag .none)

/-- What a SAVE ends with: nothing wrong, a byte unanswered, or a byte read back different (R186). -/
def judgeSave (copy readBack : List Byte) : Option PortReason :=
  if readBack.length ≠ 512 then some .noAnswer else if readBack = copy then none else some .verify

/-- A SAVE has succeeded (R186): the changed flag clears unless a CONFIG_SET has changed a value since the capture. -/
def State.saved (s : State) (slot : Nat) (q : Query) (altered : Bool) : State :=
  ((s.setPort { s.port with changed := s.port.changed && altered }).hand
    (notice .saved 0#32 0#32)).endPortQuery slot q .done 0

/-- SAVE_END: the write and read-back of a SAVE end (R186). -/
def execSaveEnd (readBack : List Byte) (s : State) : Host.Outcome State Fault Refusal :=
  if s.running then
    match s.port.op with
    | .save slot q copy altered =>
      match judgeSave copy readBack with
      | none => .next (s.saved slot q altered)
      | some reason =>
        .next ((s.hand (notice .saveFailed 0#32 (word reason.code))).endPortQuery slot q .saveFailed reason.code)
    | _ => .next s
  else .next s

/-! ### RELOAD (R165, R179, R185) -/

/-- Two images have different window tables: an entry's kind, base or size differs (R179); unused entries are alike
(assumption log 29). -/
def windowsDiffer (old new : List Byte) : Bool := windowEntries old != windowEntries new

/-- The tap under a changed window table: every open staging is discarded and counted (R179). -/
def State.dropStagings (s : State) : State :=
  s.setTap { s.tap with
    reportStagings := []
    queryStagings := []
    abandoned := countUp s.tap.abandoned (s.tap.reportStagings.length + s.tap.queryStagings.length) }

/-- The ring starts anew in another notice window (R165): words taken before keep their old places and publish nothing;
the producer word of 0 goes to the new header, by a later NOTICE_WORD_HANDOFF (assumption log 37). -/
def NoticeUnit.move (u : NoticeUnit) (base : Nat) : NoticeUnit :=
  { u with
    producer := 0
    published := 0
    consumer := 0
    shadow := []
    out := u.out.map (fun w => { w with publishes := none }) ++ [producerWord base 0 (some 0)] }

/-- The ring moved, with the notice "reloaded" ahead of every notice not yet taken, so that it is the first written
in the new window (R165, assumption log 15). -/
def State.moveRing (s : State) : State :=
  let moved := s.notices.move s.noticeBase
  s.setNotices { moved with inbox := notice .reloaded 0#32 0#32 :: moved.inbox }

/-- R41 for every direction whose receiving node's profile differs between the image in force and an old one. -/
def State.reprofileFrom (s : State) (old : List Byte) : State :=
  s.reprofile fun n => profileAt old n.profile != profileAt s.image n.profile

/-- The blocks meet the values of a reloaded image (R185). old is the image it replaced. -/
def State.meetReload (s : State) (old : List Byte) : State :=
  let tapped := if windowsDiffer old s.image then s.dropStagings else s
  if windowOf old .notice ≠ windowOf s.image .notice then tapped.moveRing.reprofileFrom old
  else (tapped.reprofileFrom old).hand (notice .reloaded 0#32 0#32)

/-- A valid image replaces the image in force (R185). -/
def State.reloaded (s : State) (slot : Nat) (q : Query) (img : List Byte) : State :=
  ((s.setPort { s.port with image := some img, source := some .reloaded, changed := false }).meetReload
    s.image).endPortQuery slot q .done 0

/-- RELOAD_READ_END: the read of a RELOAD ends and its bytes are judged by R181 (R185). -/
def execReloadReadEnd (answered : List Byte) (s : State) : Host.Outcome State Fault Refusal :=
  if s.running then
    match s.port.op with
    | .reload slot q =>
      match judgeImage answered with
      | none => .next (s.reloaded slot q answered)
      | some reason =>
        .next ((s.hand (notice .loadFailed 0#32 (word reason.code))).endPortQuery slot q .loadFailed reason.code)
    | _ => .next s
  else .next s

end Sys2Proof.Machine
end

