-- ==== Sys2Proof/Machine/Dispatch.lean ====
section
/-! DEFINITION. The meaning of every command: one arm per constructor of Instr. -/

namespace Sys2Proof.Machine

/-- The effect of a command on everything but the queue. -/
def exec (i : Instr) (s : State) : Host.Outcome State Fault Refusal :=
  match i with
  | .powerOn => Sys2Proof.Machine.execPowerOn s
  | .loadAttemptStart => Sys2Proof.Machine.execLoadAttemptStart s
  | .loadReadEnd answered => Sys2Proof.Machine.execLoadReadEnd answered s
  | .busResetAssert => Sys2Proof.Machine.execBusResetAssert s
  | .busResetDeassert => Sys2Proof.Machine.execBusResetDeassert s
  | .hostWrite addr data enables resp => Sys2Proof.Machine.execHostWrite addr data enables resp s
  | .hostRead access resp => Sys2Proof.Machine.execHostRead access resp s
  | .hostWriteReportSlot addr data enables resp => Sys2Proof.Machine.execHostWriteReportSlot addr data enables resp s
  | .hostWriteQuerySlot addr data enables resp => Sys2Proof.Machine.execHostWriteQuerySlot addr data enables resp s
  | .consumerIndexWrite addr data enables resp => Sys2Proof.Machine.execConsumerIndexWrite addr data enables resp s
  | .intakeTakeRecord => Sys2Proof.Machine.execIntakeTakeRecord s
  | .observationUp => Sys2Proof.Machine.execObservationUp s
  | .observationDown => Sys2Proof.Machine.execObservationDown s
  | .nodeHoldExpiry node => Sys2Proof.Machine.execNodeHoldExpiry node s
  | .claimHoldExpiry claimant port => Sys2Proof.Machine.execClaimHoldExpiry claimant port s
  | .holdoffExpiry link dir => Sys2Proof.Machine.execHoldoffExpiry link dir s
  | .dispatchQuery => Sys2Proof.Machine.execDispatchQuery s
  | .saveEnd readBack => Sys2Proof.Machine.execSaveEnd readBack s
  | .reloadReadEnd answered => Sys2Proof.Machine.execReloadReadEnd answered s
  | .settleTimerExpiry => Sys2Proof.Machine.execSettleTimerExpiry s
  | .searchStep engine => Sys2Proof.Machine.execSearchStep engine s
  | .commit engine => Sys2Proof.Machine.execCommit engine s
  | .activate => Sys2Proof.Machine.execActivate s
  | .release => Sys2Proof.Machine.execRelease s
  | .adopt => Sys2Proof.Machine.execAdopt s
  | .litCheck => Sys2Proof.Machine.execLitCheck s
  | .hopLostEvent source => Sys2Proof.Machine.execHopLostEvent source s
  | .reservationExpiry record => Sys2Proof.Machine.execReservationExpiry record s
  | .sweepResult => Sys2Proof.Machine.execSweepResult s
  | .startSingle => Sys2Proof.Machine.execStartSingle s
  | .startCyclic => Sys2Proof.Machine.execStartCyclic s
  | .stop => Sys2Proof.Machine.execStop s
  | .sweepStep => Sys2Proof.Machine.execSweepStep s
  | .sweepTimerExpiry => Sys2Proof.Machine.execSweepTimerExpiry s
  | .alarmRisingEdge => Sys2Proof.Machine.execAlarmRisingEdge s
  | .alarmInputFall => Sys2Proof.Machine.execAlarmInputFall s
  | .resultWriterTake => Sys2Proof.Machine.execResultWriterTake s
  | .resultWordHandoff => Sys2Proof.Machine.execResultWordHandoff s
  | .noticeTake => Sys2Proof.Machine.execNoticeTake s
  | .noticeWordHandoff => Sys2Proof.Machine.execNoticeWordHandoff s
  | .writeBufferDrain resp => Sys2Proof.Machine.execWriteBufferDrain resp s

end Sys2Proof.Machine
end

