-- ==== Sys2Proof/Machine/Timebase.lean ====
section
/-! DEFINITION. The Timebase (11 R187): the one-second event, which is what a step does on an empty queue (assumption
log 2). Every running timer counts it; each timer that has come to its last event has its expiry command queued, which
acts unless the timer has been stopped or started again before it is taken. -/

namespace Sys2Proof.Machine

/-- A count that comes to its last one-second event. -/
def lastCount (n : Nat) : Bool := decide (n ≤ 1)

/-- A timer, stopped or running, counts one event. -/
def countDown (t : Option Nat) : Option Nat := t.map (· - 1)

/-- A running timer comes to its last event. -/
def expiring (t : Option Nat) : Bool := (t.map lastCount).getD false

/-- The expiries of node hold timers (R5 to R7). -/
def nodeExpiries (s : State) : List Instr :=
  (s.store.nodes.filter fun e => lastCount e.2.hold).map fun e => .nodeHoldExpiry e.1

/-- The expiries of claim hold timers (R16). -/
def claimExpiries (s : State) : List Instr :=
  (s.store.claims.filter fun c => lastCount c.timer).map fun c => .claimHoldExpiry c.claimant c.port

/-- The expiry of a direction's hold-off timer (R32). -/
def holdoffExpiry (k : Nat) (d : Dir) (x : Direction) : List Instr :=
  if expiring x.holdoff then [.holdoffExpiry k d] else []

/-- The expiries of hold-off timers (R32). -/
def holdoffExpiries (s : State) : List Instr :=
  s.store.links.flatMap fun e => holdoffExpiry e.1 .zero e.2.dir0 ++ holdoffExpiry e.1 .one e.2.dir1

/-- The expiries of reservation timers (R117), in ascending record index: R118 leaves the order of two of them open
(assumption log 2). -/
def reservationExpiries (s : State) : List Instr :=
  (s.lightpaths.filter fun e => expiring e.2.timer).map fun e => .reservationExpiry e.1

/-- The expiries of the settle and sweep timers, which do not count while bus reset is asserted (R178). -/
def unitExpiries (s : State) : List Instr :=
  if s.busReset then []
  else
    (if expiring s.dispatcher.settle then [.settleTimerExpiry] else []) ++
    (if expiring s.sweep.timer then [.sweepTimerExpiry] else [])

/-- The operation in flight after a one-second event: a load that waits for it has its next attempt due (R182). -/
def PortOp.tick : PortOp → PortOp
  | .load .waiting => .load .due
  | op => op

/-- The next load attempt begins at the one-second event (R182). -/
def loadStart (s : State) : List Instr := if s.port.op.tick = .load .due then [.loadAttemptStart] else []

/-- The commands that a one-second event brings about (R187). -/
def dueCommands (s : State) : List Instr :=
  nodeExpiries s ++ claimExpiries s ++ holdoffExpiries s ++ reservationExpiries s ++ unitExpiries s ++ loadStart s

/-- A direction's hold-off timer counts. -/
def Direction.tick (x : Direction) : Direction := { x with holdoff := countDown x.holdoff }

/-- The timers of the store count. -/
def Store.tick (x : Store) : Store :=
  { nodes := x.nodes.map fun e => (e.1, { e.2 with hold := e.2.hold - 1 })
    claims := x.claims.map fun c => { c with timer := c.timer - 1 }
    links := x.links.map fun e => (e.1, { e.2 with dir0 := e.2.dir0.tick, dir1 := e.2.dir1.tick }) }

/-- A record's reservation timer counts. -/
def LpRecord.tick (r : LpRecord) : LpRecord :=
  { r with path := r.path.map fun p => { p with timer := countDown p.timer } }

/-- The settle and sweep timers count, unless bus reset is asserted (R178); those of an image that comes into force
meanwhile wait for the deassertion as those of the reset do (R182, R184, assumption log 35). -/
def State.tickUnits (s : State) : State :=
  if s.busReset then s
  else
    (s.setDispatcher { s.dispatcher with settle := countDown s.dispatcher.settle }).setSweep
      { s.sweep with timer := countDown s.sweep.timer }

/-- The one-second event (R187). -/
def State.oneSecond (s : State) : State :=
  { ((s.setStore s.store.tick).tickUnits.setPort { s.port with op := s.port.op.tick }) with
    records := s.records.map LpRecord.tick, pending := s.pending ++ dueCommands s }

end Sys2Proof.Machine
end

