-- ==== Sys2Proof/Safety.lean ====
section
/-! DEFINITION. What counts as a safe run, and the vocabulary of the statements: which part of the state changes, the
invariants of the tables, exact sums. -/

namespace Sys2Proof.Machine

/-! ### Safe runs -/

/-- A step is safe when it answers a next state. -/
def safeStep (s : State) : Prop := ∃ t, step s = .next t

/-- Every command that waits is one that can come about. -/
def queueWellFormed (s : State) : Prop := ∀ c ∈ s.pending, c.wellFormed = true

/-! ### Frames -/

/-- The parts of the state besides the queue. -/
inductive Part where
  | freeCount
  | memory
  | upstream
  | downstream
  | alarmInput
  | busReset
  | port
  | tap
  | intake
  | store
  | handoffs
  | dispatcher
  | engine0
  | engine1
  | records
  | sweep
  | writer
  | notices
deriving DecidableEq, Repr

/-- Two states agree in a part. -/
def agree (s t : State) : Part → Prop
  | .freeCount => t.freeCount = s.freeCount
  | .memory => t.memory = s.memory
  | .upstream => t.upstream = s.upstream
  | .downstream => t.downstream = s.downstream
  | .alarmInput => t.alarmInput = s.alarmInput
  | .busReset => t.busReset = s.busReset
  | .port => t.port = s.port
  | .tap => t.tap = s.tap
  | .intake => t.intake = s.intake
  | .store => t.store = s.store
  | .handoffs => t.handoffs = s.handoffs
  | .dispatcher => t.dispatcher = s.dispatcher
  | .engine0 => t.engine0 = s.engine0
  | .engine1 => t.engine1 = s.engine1
  | .records => t.records = s.records
  | .sweep => t.sweep = s.sweep
  | .writer => t.writer = s.writer
  | .notices => t.notices = s.notices

/-- t is s but for the parts listed: the frame of a command. The queue is the same. -/
def sameBut (parts : List Part) (s t : State) : Prop :=
  t.pending = s.pending ∧ ∀ p, p ∉ parts → agree s t p

/-- The parts that are the block's own: its twelve units, without the surroundings. -/
def blockParts : List Part :=
  [.port, .tap, .intake, .store, .handoffs, .dispatcher, .engine0, .engine1, .records, .sweep, .writer, .notices]

/-- The part of an engine. -/
def enginePart : EngineId → Part
  | .e0 => .engine0
  | .e1 => .engine1

/-- The Notice Unit has been handed some notices, and nothing else of it has changed. -/
def handedNotices (s t : State) (ns : List Notice) : Prop :=
  t.notices = { s.notices with inbox := s.notices.inbox ++ ns }

/-- One answer has joined the answer queue, and nothing else of the writer has changed. -/
def offeredAnswer (s t : State) (a : Answer) : Prop :=
  t.writer = { s.writer with answers := s.writer.answers ++ [a] }

/-- The dispatcher once it has taken the query of a slot from its queue, the slot being IN_SERVICE at a place (R128,
R133). -/
def State.readied (s : State) (slot : Nat) (v : Serving) : Dispatcher :=
  { s.dispatcher with
    slots := tableSet s.dispatcher.slots slot (.inService v none)
    high := s.dispatcher.high.filter (· != slot)
    low := s.dispatcher.low.filter (· != slot) }

/-- Between s and t a query handed on by the dispatcher has been answered, nothing else of the dispatcher changing,
unless a rewrite has withdrawn its answer (R132, R136, R142). -/
structure replied (s t : State) (h : Handed) (st : Status) (detail : Word) (named : Nat) (body : AnswerBody) :
    Prop where
  withdrawn : h.slot = none → agree s t .dispatcher ∧ agree s t .writer
  answered : ∀ slot, h.slot = some slot →
    t.dispatcher = { s.dispatcher with slots := tableSet s.dispatcher.slots slot (.inService .answered none) } ∧
    offeredAnswer s t (answerTo slot .dispatcher h.query st detail named body)

/-! ### Exact noise sums (R72) -/

/-- The exact noise sums of the segments of a route, as segmentNoises walks it, without the saturation. -/
def exactSegments (s : State) (regens : List NodeId) : Nat → List (Hop × NodeId) → List Nat
  | _, [] => []
  | acc, [(h, n)] => [acc + s.noiseOf h.link h.dir + s.dropNoise n]
  | acc, (h, n) :: e :: t =>
    if regens.contains n then
      (acc + s.noiseOf h.link h.dir + s.dropNoise n) :: exactSegments s regens (s.addNoise n) (e :: t)
    else exactSegments s regens (acc + s.noiseOf h.link h.dir + s.expressNoise n) (e :: t)

/-- The exact noise sums of the segments of a route (R72). -/
def State.exactNoises (s : State) (r : Route) : List Nat :=
  exactSegments s r.regens (s.addNoise r.source) r.received

/-! ### Words that are read and written field by field (R188) -/

/-- A word spells fields, each given by its lowest bit, its length and its value, and every bit outside them is 0
(R188). -/
def spells (w : Word) (fs : List (Nat × Nat × Nat)) : Prop :=
  (∀ lo len x, (lo, len, x) ∈ fs → bits w lo len = x % 2 ^ len) ∧
  ∀ j, j < 32 → (∀ lo len x, (lo, len, x) ∈ fs → j < lo ∨ lo + len ≤ j) → w.getLsbD j = false

/-- The three words of a list from word i on are the map of the slots that pass a test: slot g is bit g mod 32 of word
g div 32 (R188). -/
def mapsSlots (ws : List Word) (i : Nat) (test : Nat → Prop) : Prop :=
  (∀ g, g < 80 → ((wordAt ws (i + g / 32)).getLsbD (g % 32) = true ↔ test g)) ∧
  ∀ g, 80 ≤ g → g < 96 → (wordAt ws (i + g / 32)).getLsbD (g % 32) = false

/-! ### Stagings (R168, R169) -/

/-- ws is the staging old with a host write merged into its word k (R168): each byte enabled takes the new data and
becomes valid, every other byte and every other word stays. -/
structure mergedInto (old ws : List StagedWord) (k : Nat) (data : Word) (enables : ByteMask) : Prop where
  length : ws.length = old.length
  others : ∀ j, j ≠ k → ws[j]? = old[j]?
  bytes : ∀ x y j, old[k]? = some x → ws[k]? = some y → j < 4 →
    byteOf y.image j = (if enables.getLsbD j = true then byteOf data j else byteOf x.image j) ∧
    (y.valid.getLsbD j = true ↔ x.valid.getLsbD j = true ∨ enables.getLsbD j = true)

/-- A write to word k that leaves the words ws completes the record whose closing word is word last (R169): the write is
to the closing word, and all its four bytes are valid. -/
def closesRecord (ws : List StagedWord) (k last : Nat) : Prop :=
  k = last ∧ ∃ y, ws[last]? = some y ∧ ∀ j, j < 4 → y.valid.getLsbD j = true

/-- r is the record that the words of a staging make at completion (R169): their images, marked incomplete when a byte
of the words 0 to L − 2 before the closing word is not valid. L stands in bits 16.. of the closing word, len bits
long. -/
structure recordOf (ws : List StagedWord) (last len : Nat) (r : Record) : Prop where
  words : r.words = ws.map (·.image)
  incomplete : r.incomplete = true ↔
    ∃ i y, i + 1 < bits (r.word last) 16 len ∧ i < last ∧ ws[i]? = some y ∧ y.valid ≠ 0xF#4

/-! ### Report records (R47 to R52, 12 section 12.2) -/

/-- The length that a report kind needs, by its code (R47). count is the shared-risk count of a SPAN_CONDITION. -/
def reportNeeds (kind count : Nat) : Nat :=
  match kind with
  | 1 => 7
  | 2 => 2
  | 3 => 5
  | 4 => 5 + count
  | _ => 6

/-- The kind and the length of a report record pass R47: the shared-risk count of a SPAN_CONDITION is tested before the
length. -/
structure Record.reportSized (r : Record) (kind count len : Nat) : Prop where
  named : 1 ≤ kind ∧ kind ≤ 5
  risks : kind = 4 → count ≤ 4
  sized : 2 ≤ len ∧ len ≤ 16 ∧ reportNeeds kind count ≤ len

/-- A field that a report record carries lies outside its range (R49). -/
def Record.reportOutside (r : Record) (kind count : Nat) : Prop :=
  r.word 0 = 0#32 ∨
  kind = 1 ∧ 16 ≤ bits (r.word 1) 0 8 ∨
  kind = 3 ∧ bit (r.word 1) 16 = false ∧ (r.word 2 = 0#32 ∨ r.word 2 = r.word 0) ∨
  kind = 4 ∧ (bits (r.word 1) 16 8 ≠ 1 ∧ bits (r.word 1) 16 8 ≠ 2 ∨ ∃ i, i < count ∧ r.word (4 + i) = 0#32)

/-- A record of format 1 is malformed for a reason, that of the first of the tests of R47 to R49 that it fails: kind,
shared-risk count, length, completeness, ranges. -/
def Record.failsReport (r : Record) (kind count len : Nat) : MalformReason → Prop
  | .kind => ¬ (1 ≤ kind ∧ kind ≤ 5)
  | .length => (1 ≤ kind ∧ kind ≤ 5) ∧ (kind = 4 → count ≤ 4) ∧
      (len < 2 ∨ 16 < len ∨ len < reportNeeds kind count)
  | .incomplete => r.reportSized kind count len ∧ r.incomplete = true
  | .range => kind = 4 ∧ 4 < count ∨
      r.reportSized kind count len ∧ r.incomplete = false ∧ r.reportOutside kind count
  | .format => False

/-- The acceptance filter of an image passes a record of a kind's code from a reporter (R52, 12 section 12.7): no entry
is enabled, or an enabled entry has the kind in its kind set and agrees with the id in every bit of its mask. -/
def passesFilter (img : List Byte) (kind : Nat) (id : NodeId) : Prop :=
  (∀ n, n < 8 → imageByte img (328 + 16 * n) % 2 = 0) ∨
  ∃ n, n < 8 ∧ imageByte img (328 + 16 * n) % 2 = 1 ∧ imageByte img (329 + 16 * n) / 2 ^ (kind - 1) % 2 = 1 ∧
    ∀ j, (imageWord img (324 + 16 * n)).getLsbD j = true → id.getLsbD j = (imageWord img (320 + 16 * n)).getLsbD j

/-! ### Query records (R129, R130, R143, 12 section 12.3) -/

/-- The length that a query kind needs, by its code (12 section 12.3). hops is the hop count of an ADOPT, target the
target of a CONFIG_SET. -/
def queryNeeds (kind hops target : Nat) : Nat :=
  match kind with
  | 1 | 2 => 14
  | 5 => if 1 ≤ hops ∧ hops ≤ 24 then 3 + 2 * hops else 3
  | 7 => 3
  | 10 => if target = 3 then 4 else 6
  | _ => 2

/-- Byte i of the target's bytes that a CONFIG_SET carries from word 1 on (12 section 12.3). -/
def Record.targetByte (r : Record) (i : Nat) : Byte := byteOf (r.word (1 + i / 4)) (i % 4)

/-- The values of a CONFIG_SET lie in their ranges (R143, R183), byte by byte as 12 section 12.7 lays them out. -/
def targetInRange (target n : Nat) (v : Nat → Nat) : Prop :=
  target = 1 ∧ n < 16 ∧ v 0 ≤ 79 ∧ (v 2 ≤ 50 ∨ 206 ≤ v 2) ∧ 1 ≤ v 3 ∧ v 3 ≤ 16 ∧ 1 ≤ v 4 ∧ v 4 ≤ 8 ∧
    1 ≤ v 5 ∧ v 5 ≤ 8 ∧ v 6 ≤ 60 ∧ 16 ≤ v 7 ∧ v 8 < v 7 ∧ 1 ≤ v 9 ∧ v 9 ≤ 63 ∨
  target = 2 ∧ n < 8 ∨
  target = 3 ∧ (∀ i, i < 7 → v i / 2 % 4 ≤ 2) ∨
  target = 4 ∧ (v 1 = 0 ∨ v 1 = 2) ∧ 1 ≤ v 2 ∧ v 3 ≤ 1 ∧ 1 ≤ v 4 + 256 * v 5

/-- The fields of a query meet the RANGE rows of R130, the clamps made. -/
def Record.queryInRange (r : Record) (kind : Nat) : Prop :=
  (kind = 1 ∨ kind = 2 → bits (r.word 3) 0 8 ≤ min 79 (bits (r.word 3) 8 8) ∧
    1 ≤ bits (r.word 2) 8 8 ∧ bits (r.word 2) 8 8 ≤ 3) ∧
  (kind = 9 → 1 ≤ bits (r.word 0) 0 8 ∧ bits (r.word 0) 0 8 ≤ 3) ∧
  (kind = 10 → targetInRange (bits (r.word 0) 0 8) (bits (r.word 0) 8 8) fun i => (r.targetByte i).toNat)

/-- A clamp of R130 has replaced a field of a query. -/
def Record.queryClamped (r : Record) (kind : Nat) : Prop :=
  (kind = 1 ∨ kind = 2) ∧
    (bits (r.word 3) 16 8 = 0 ∨ 24 < bits (r.word 3) 16 8 ∨ 3 < bits (r.word 3) 24 8 ∨ 600 < bits (r.word 4) 0 16 ∨
      100 < bits (r.word 4) 16 16 ∨ 79 < bits (r.word 3) 8 8 ∨
      bits (r.word 2) 8 8 = 3 ∧ 79 < bits (r.word 2) 16 8) ∨
  kind = 5 ∧ (600 < bits (r.word 0) 0 16 ∨ 100 < bits (r.word 0) 16 16)

/-- The record passes the test of R129 that a reason stands for. -/
def Record.passesQuery (r : Record) (kind len : Nat) : QueryReason → Prop
  | .format => bits (r.word 63) 29 3 = 1
  | .kind => 1 ≤ kind ∧ kind ≤ 14
  | .length => 2 ≤ len ∧ len ≤ 64 ∧ queryNeeds kind (bits (r.word 1) 0 8) (bits (r.word 0) 0 8) ≤ len
  | .incomplete => r.incomplete = false
  | .range => r.queryInRange kind

/-- x is the request of a FIND or FIND_PAIR record, its clamps made (R130, 12 section 12.3). -/
structure Record.asks (r : Record) (x : FindReq) : Prop where
  source : x.source = r.word 0
  dest : x.dest = r.word 1
  reserve : x.reserve = bit (r.word 2) 0
  nodeDisjoint : x.nodeDisjoint = bit (r.word 2) 1
  policy : x.policy = if bits (r.word 2) 8 8 = 2 then .last
    else if bits (r.word 2) 8 8 = 3 ∧ bits (r.word 2) 16 8 ≤ 79 then .preferred else .first
  preferred : x.preferred = bits (r.word 2) 16 8
  hold : x.hold = bits (r.word 2) 24 8
  lo : x.lo = bits (r.word 3) 0 8
  hi : x.hi = min 79 (bits (r.word 3) 8 8)
  hopLimit : x.hopLimit = max 1 (min 24 (bits (r.word 3) 16 8))
  regenMax : x.regenMax = min 3 (bits (r.word 3) 24 8)
  q : x.q = min 600 (bits (r.word 4) 0 16)
  m : x.m = min 100 (bits (r.word 4) 16 16)
  exNodes : x.exNodes = [r.word 5, r.word 6, r.word 7, r.word 8]
  exRisks : x.exRisks = [r.word 9, r.word 10, r.word 11, r.word 12]

/-- The fields of a query are those of its record, by the code of its kind (12 section 12.3). -/
def Record.carries (r : Record) (kind : Nat) : QueryBody → Prop
  | .find x => kind = 1 ∧ r.asks x
  | .findPair x => kind = 2 ∧ r.asks x
  | .activate tag => kind = 3 ∧ tag = bits (r.word 0) 0 16
  | .release tag => kind = 4 ∧ tag = bits (r.word 0) 0 16
  | .adopt q m n es => kind = 5 ∧ q = min 600 (bits (r.word 0) 0 16) ∧ m = min 100 (bits (r.word 0) 16 16) ∧
      n = bits (r.word 1) 0 8 ∧ es = if 24 < n then [] else (List.range n).map fun i =>
        { node := r.word (2 + 2 * i), port := bits (r.word (3 + 2 * i)) 0 16
          slot := bits (r.word (3 + 2 * i)) 16 8, regen := bit (r.word (3 + 2 * i)) 24 }
  | .lookupNode id => kind = 6 ∧ id = r.word 0
  | .lookupLink id port => kind = 7 ∧ id = r.word 0 ∧ port = bits (r.word 1) 0 16
  | .status clear => kind = 8 ∧ clear = bit (r.word 0) 0
  | .sweep a => kind = 9 ∧
      bits (r.word 0) 0 8 = match a with | .startSingle => 1 | .startCyclic => 2 | .stop => 3
  | .configSet t values => kind = 10 ∧ match t with
      | .profile n => bits (r.word 0) 0 8 = 1 ∧ n = bits (r.word 0) 8 8 ∧ values = (List.range 10).map r.targetByte
      | .filter n => bits (r.word 0) 0 8 = 2 ∧ n = bits (r.word 0) 8 8 ∧ values = (List.range 10).map r.targetByte
      | .routing => bits (r.word 0) 0 8 = 3 ∧ values = (List.range 7).map r.targetByte
      | .globals => bits (r.word 0) 0 8 = 4 ∧ values = (List.range 12).map r.targetByte
  | .save => kind = 11
  | .reload => kind = 12
  | .flush => kind = 13
  | .nodeClear id => kind = 14 ∧ id = r.word 0

/-- q is the query that a record gives which passes the tests of R129: the fields of its closing word and of its kind,
with the CLAMPED mark of R130. kind is the kind field. -/
structure Record.readsAs (r : Record) (kind : Nat) (q : Query) : Prop where
  tag : q.tag = bits (r.word 63) 0 16
  code : q.kind = kind
  priority : q.high = bit (r.word 63) 23
  notify : q.notify = bit (r.word 63) 28
  clamped : q.clamped = true ↔ r.queryClamped kind
  provisional : q.provisional = false
  body : r.carries kind q.body

/-- What R129 and R130 make of a query record whose closing word gives a kind and a length: a record that passes the
five tests gives its query, and one that does not is bad for the first of them that it fails. CLAMPED is judged with
the fifth. -/
structure Record.judgedByRows (r : Record) (kind len : Nat) : Prop where
  good : ∀ q, judgeQuery r = .good q ↔ (∀ x, r.passesQuery kind len x) ∧ r.readsAs kind q
  bad : ∀ reason clamped, judgeQuery r = .bad reason clamped ↔
    ¬ r.passesQuery kind len reason ∧ (∀ x : QueryReason, x.code < reason.code → r.passesQuery kind len x) ∧
      (clamped = true ↔ reason = .range ∧ r.queryClamped kind)

/-! ### Hops, holds and routes (R90 to R92, R99, R109, R116) -/

/-- A hop with receiving node n names its link (R109): the link at its index departs from its sending node and port and
arrives at n. -/
def State.hopNames (s : State) (h : Hop) (n : NodeId) : Prop :=
  ∃ l x y, s.linkAt h.link = some l ∧
    s.nodeAt (l.endAt (opposite h.dir)).node = some x ∧ x.id = h.sender ∧
    (l.endAt (opposite h.dir)).port = h.port ∧ s.nodeAt (l.endAt h.dir).node = some y ∧ y.id = n

/-- A slot of direction d of link k is held by a hold in force (R109). -/
def State.slotHeld (s : State) (k : Nat) (d : Dir) (g : Nat) : Prop :=
  ∃ i p h n, s.lightpathAt i = some p ∧ (h, n) ∈ p.route.received ∧ h.link = k ∧ h.dir = d ∧ h.slot = g ∧
    s.hopNames h n

/-- Direction d of link k is in service (R27): UP or FALLING, not suppressed, and both ends of its link at nodes that
are LIVE and not quarantined. -/
def State.serving (s : State) (k : Nat) (d : Dir) : Prop :=
  ∃ l a b, s.linkAt k = some l ∧ ((l.direction d).cond = .up ∨ (l.direction d).cond = .falling) ∧
    (l.direction d).suppressed = false ∧
    s.nodeAt l.end0.node = some a ∧ a.liveness = .live ∧ a.quarantined = false ∧
    s.nodeAt l.end1.node = some b ∧ b.liveness = .live ∧ b.quarantined = false

/-- The path of the label at an index, from the start label to it (R79): each label's parent is the label before it, of
a lower index; a label is the start label, or arrives by a hop from its parent's node, or is a regeneration label at
that node. Hop counts and regeneration counts follow. -/
inductive pathTo (ls : List Label) : Nat → List Label → Prop where
  | start (i : Nat) (x : Label) : ls[i]? = some x → x.parent = none → x.arrival = none → x.regenHere = false →
      x.hops = 0 → x.regens = 0 → pathTo ls i [x]
  | hop (i j : Nat) (x y : Label) (a : Arrival) (c : List Label) : ls[i]? = some x → x.parent = some j → j < i →
      ls[j]? = some y → pathTo ls j c → x.arrival = some a → a.sender = y.node → x.regenHere = false →
      x.hops = y.hops + 1 → x.regens = y.regens → pathTo ls i (c ++ [x])
  | regeneration (i j : Nat) (x y : Label) (c : List Label) : ls[i]? = some x → x.parent = some j → j < i →
      ls[j]? = some y → pathTo ls j c → x.arrival = none → x.node = y.node → x.regenHere = true →
      x.hops = y.hops → x.regens = y.regens + 1 → pathTo ls i (c ++ [x])

/-- A segment whose last label has a mask takes slot g (R91). -/
structure takesSlot (req : FindReq) (mask : SlotSet) (g : Nat) : Prop where
  inMask : hasSlot mask g = true
  first : req.policy = .first → ∀ h, hasSlot mask h = true → g ≤ h
  last : req.policy = .last → ∀ h, hasSlot mask h = true → h ≤ g
  preferred : req.policy = .preferred → hasSlot mask req.preferred = true → g = req.preferred
  otherwise : req.policy = .preferred → hasSlot mask req.preferred = false → ∀ h, hasSlot mask h = true → g ≤ h

/-- The last label of the segment that label x of a path is in, given the labels after it (R90): the one before the next
regeneration label, or the last of all. -/
def lastOfSegment (x : Label) : List Label → Label
  | [] => x
  | y :: t => if y.regenHere then x else lastOfSegment y t

/-- The hops of a path, from the source on: the arrivals of its labels, each with the slot that the last label of its
segment takes (R90, R91). -/
def hopsAlong (take : SlotSet → Nat) : List Label → List Hop
  | [] => []
  | x :: t =>
    match x.arrival with
    | none => hopsAlong take t
    | some a =>
      { link := a.link, dir := a.dir, slot := take (lastOfSegment x t).mask, sender := a.sender, port := a.port } ::
        hopsAlong take t

/-- r is the route that the path of an accepted label x gives (R90, R91). -/
structure routeAlong (req : FindReq) (x : Label) (path : List Label) (r : Route) : Prop where
  ends : r.source = req.source ∧ r.dest = req.dest
  hops : ∃ take, (∀ mask, mask ≠ 0#80 → takesSlot req mask (take mask)) ∧ r.hops = hopsAlong take path
  regens : r.regens = (path.filter (·.regenHere)).map (·.node)
  counts : r.hops.length = x.hops ∧ r.regens.length = x.regens

/-- The completion validation of the routes of an answer (R92, R101), its four tests. -/
structure State.validates (s : State) (budget : Nat) (rs : List Route) : Prop where
  named : ∀ r ∈ rs, ∀ h n, (h, n) ∈ r.received → s.hopNames h n ∧ s.serving h.link h.dir
  slots : ∀ r ∈ rs, ∀ h ∈ r.hops, hasSlot (s.usable h.link h.dir) h.slot = true
  regens : ∀ r ∈ rs, ∀ id ∈ r.regens, ∃ n, s.nodeOf id = some n ∧
    n.regenInUse + (rs.flatMap (·.regens)).count id ≤ n.regenTotal
  noises : ∀ r ∈ rs, ∀ x ∈ s.routeNoises r, x ≤ budget

/-- Link l, at the index of a hop with receiving node n, has the ends of the hop, in either direction (R99, assumption
log 26). -/
def State.hasEndsOf (s : State) (l : Link) (h : Hop) (n : NodeId) : Prop :=
  s.idAt l.end0.node = h.sender ∧ l.end0.port = h.port ∧ s.idAt l.end1.node = n ∨
  s.idAt l.end1.node = h.sender ∧ l.end1.port = h.port ∧ s.idAt l.end0.node = n

/-- p is what a FIND_PAIR keeps of its primary route r, with the exclusions that R99 derives from it: the links of the
route while they have its ends, the shared risks of those that still stand, and with the node-disjoint flag the nodes
between source and destination. -/
structure State.keepsPrimary (s : State) (ctx : Context) (r : Route) (labels : Nat) (p : Primary) : Prop where
  route : p.route = r
  labels : p.labels = labels
  links : ∀ (t : State) (x : Context) k, x.phase = .secondary p → (t.primaryLink x k = true ↔
    ∃ l h n, t.linkAt k = some l ∧ (h, n) ∈ r.received ∧ h.link = k ∧ t.hasEndsOf l h n)
  risks : ∀ id, id ∈ p.exRisks ↔
    ∃ l h n, (h, n) ∈ r.received ∧ s.linkAt h.link = some l ∧ s.hasEndsOf l h n ∧ id ∈ l.risks
  nodes : ∀ id, id ∈ p.exNodes ↔ ctx.req.nodeDisjoint = true ∧ ∃ h ∈ r.hops.tail, h.sender = id

/-! ### Invariants -/

/-- The capacities of the tables and queues (R2, R9, R10, R17, R43, R106, R128, R145, R149, R170 to R172), and the
words of the records that are staged or wait (R168, R169). -/
structure State.withinCapacity (s : State) : Prop where
  records : s.records.length = 128
  nodes : s.store.nodes.length ≤ nodeCapacity
  ports : ∀ e ∈ s.store.nodes, e.2.ports.length ≤ portCapacity
  links : s.store.links.length ≤ linkCapacity
  claims : s.store.claims.length ≤ claimCapacity
  ingest : s.intake.queue.length ≤ ingestCapacity
  reportStagings : s.tap.reportStagings.length ≤ stagingCapacity
  queryStagings : risingTable s.tap.queryStagings = true ∧ ∀ e ∈ s.tap.queryStagings, e.1 < 32
  buffer : s.tap.buffer.length ≤ bufferCapacity
  queries : s.dispatcher.high.length + s.dispatcher.low.length ≤ 32
  answers : s.writer.answers.length ≤ 32
  evaluations : s.sweep.pendingSet.Pairwise (· < ·) ∧ ∀ i ∈ s.sweep.pendingSet, i < 128
  reportWords : (∀ x ∈ s.tap.reportStagings, x.words.length = 16) ∧ ∀ r ∈ s.intake.queue, r.words.length = 16
  queryWords : (∀ e ∈ s.tap.queryStagings, e.2.length = 64) ∧
    ∀ n v x, tableGet s.dispatcher.slots n = some (.inService v (some x)) → x.record.words.length = 64

/-- The labels of an engine's store. -/
def Engine.labels : Engine → List Label
  | .idle => []
  | .searching _ ls => ls
  | .committing _ ls _ => ls
  | .answering _ => []

/-- Every record's generation is one that R107 gives: below 512, and not 511 for record 127. -/
def State.generationsLegal (s : State) : Prop :=
  ∀ i, i < s.records.length → (s.recordAt i).gen < 512 ∧ (i = 127 → (s.recordAt i).gen ≠ 511)

/-- No node id stands twice in the node table (R1). -/
def State.idsUnique (s : State) : Prop := (s.store.nodes.map fun e => e.2.id).Nodup

/-- For every node in the table, the regenerator in-use count equals the number of regeneration points naming it among
the non-FREE records (R110); the node table has one entry for each index and for each id (R1). -/
structure State.regensCounted (s : State) : Prop where
  rising : risingTable s.store.nodes = true
  ids : s.idsUnique
  counted : ∀ e ∈ s.store.nodes, e.2.regenInUse = s.regenPoints e.2.id

/-- The condition fields of a direction fit together (R26, R34, R37): a persistence count of 1 to 8 in RISING and
FALLING and of 0 in the other states, a hold-off timer in HOLDOFF only, a score of at most 255, a latch only while
suppressed. -/
structure Direction.conditioned (x : Direction) : Prop where
  count : x.cond = .rising ∨ x.cond = .falling → 1 ≤ x.count ∧ x.count ≤ 8
  still : x.cond ≠ .rising → x.cond ≠ .falling → x.count = 0
  holdoff : x.holdoff.isSome = true → x.cond = .holdoff
  flap : x.flap ≤ 255
  latched : x.latched = true → x.suppressed = true

/-- The condition fields of every direction fit together. -/
def State.directionsConditioned (s : State) : Prop :=
  ∀ e ∈ s.store.links, e.2.dir0.conditioned ∧ e.2.dir1.conditioned

/-- The fields of a node record lie in their ranges (R1, R5, R56): its hold timer at no more than three of the longest
refresh intervals. -/
structure Node.inRange (n : Node) : Prop where
  id : n.id ≠ 0#32
  profile : n.profile < 16
  faultScore : n.faultScore ≤ 63
  refresh : 1 ≤ n.refresh ∧ n.refresh ≤ 60
  hold : n.hold ≤ 180
  regenTotal : n.regenTotal ≤ 15
  regenCost : n.regenCost ≤ 65535
  noises : n.addNoise ≤ 1048576 ∧ n.dropNoise ≤ 1048576 ∧ n.expressNoise ≤ 1048576

/-- The fields of every node record lie in their ranges. -/
def State.nodesInRange (s : State) : Prop := ∀ e ∈ s.store.nodes, e.2.inRange

/-- Each suppressed direction whose latched flag is clear has a flap score above the reuse level of the profile in force
for its receiving node (R36). -/
def State.suppressionHeld (s : State) : Prop :=
  ∀ k l d, s.linkAt k = some l → (l.direction d).suppressed = true → (l.direction d).latched = false →
    (s.receiverProfile l d).reuse < (l.direction d).flap

/-- The image in force, if there is one, has passed the tests 3 and 4 of R181 (R180). -/
def State.imageInForceSound (s : State) : Prop := ∀ img, s.port.image = some img → imageSound img = true

/-- Closed labels cost no more than open ones: the closing costs of an attempt never decrease (R88). -/
def closedBeforeOpen (ls : List Label) : Prop :=
  ∀ a ∈ ls, ∀ b ∈ ls, a.closed = true → b.closed = false → a.cost ≤ b.cost

/-- Both label stores are in the order of R88 and within their bounds (R67, R88), and every label has its path from the
start label (R79). -/
structure State.searchOrdered (s : State) : Prop where
  order : ∀ e, closedBeforeOpen (s.engine e).labels
  costs : ∀ e, ∀ l ∈ (s.engine e).labels, l.cost ≤ sumLimit
  bound : ∀ e, (s.engine e).labels.length ≤ labelCapacity
  traced : ∀ e i x, (s.engine e).labels[i]? = some x → ∃ path, pathTo (s.engine e).labels i path

/-- There is at most one claim for each (claimant, port) (R10). -/
def State.claimsDistinct (s : State) : Prop := (s.store.claims.map fun c => (c.claimant, c.port)).Nodup

/-- No two entries of the write buffer have the same address (R172). -/
def State.bufferAddressesDistinct (s : State) : Prop := (s.tap.buffer.map fun e => e.addr).Nodup

/-- The write buffer's entries have word-aligned addresses, no two the same (R172). -/
structure State.bufferSound (s : State) : Prop where
  aligned : ∀ e ∈ s.tap.buffer, e.addr % 4 = 0
  distinct : s.bufferAddressesDistinct

/-- The word that a host read of a word address is answered with (R174): memory's, with the buffered bytes in their
places. -/
def State.hostSees (s : State) (a : Nat) : Word := s.overlay a (readWord s.memory a)

/-- The tables of the Topology Store agree with one another (R1, R9, R10, R17): indexes and ids are unique, port tables
hold at most 16 ports, each port entry has its claim or its link end, each claim and each link end its port entry. -/
structure State.topologyConsistent (s : State) : Prop where
  nodesRising : risingTable s.store.nodes = true
  linksRising : risingTable s.store.links = true
  ids : s.idsUnique
  claims : s.claimsDistinct
  portsRising : ∀ e ∈ s.store.nodes, risingTable e.2.ports = true ∧ e.2.ports.length ≤ portCapacity
  claimPort : ∀ c ∈ s.store.claims, s.portAt c.claimant c.port = some .claim
  portClaim : ∀ i p, s.portAt i p = some .claim → (s.claimAt i p).isSome = true
  endPort : ∀ k l d, s.linkAt k = some l → s.portAt (l.endAt d).node (l.endAt d).port = some (.linkEnd k d)
  portEnd : ∀ i p k d, s.portAt i p = some (.linkEnd k d) →
    ∃ l, s.linkAt k = some l ∧ l.endAt d = { node := i, port := p }

/-- What the write buffer is handed has word-aligned addresses: the words of the answer being written and those that the
Notice Unit has listed (R146, R161, R172). -/
structure State.writesAligned (s : State) : Prop where
  base : ∀ w, s.writer.writing = some w → w.base % 4 = 0
  todo : ∀ w ws, s.writer.writing = some w → w.todo = some ws → ∀ x ∈ ws, x.1 % 4 = 0
  notices : ∀ w ∈ s.notices.out, w.addr % 4 = 0

/-- The commands that may change what a host read is answered with (R174): host writes, the words that the part hands to
the write buffer, the events that empty it, and a drain that the memory does not take. -/
def changesReads : Instr → Bool
  | .hostWrite _ _ _ _ | .hostWriteReportSlot _ _ _ _ => true
  | .hostWriteQuerySlot _ _ _ _ | .consumerIndexWrite _ _ _ _ => true
  | .resultWordHandoff | .noticeWordHandoff | .loadReadEnd _ | .powerOn | .busResetAssert => true
  | .writeBufferDrain r => r == .error
  | .loadAttemptStart | .busResetDeassert | .hostRead _ _ | .intakeTakeRecord | .observationUp => false
  | .observationDown | .nodeHoldExpiry _ | .claimHoldExpiry _ _ | .holdoffExpiry _ _ | .dispatchQuery => false
  | .saveEnd _ | .reloadReadEnd _ | .settleTimerExpiry | .searchStep _ | .commit _ | .activate | .release => false
  | .adopt | .litCheck | .hopLostEvent _ | .reservationExpiry _ | .sweepResult | .startSingle => false
  | .startCyclic | .stop | .sweepStep | .sweepTimerExpiry | .alarmRisingEdge | .alarmInputFall => false
  | .resultWriterTake | .noticeTake => false

/-- On every direction each slot is held by at most one non-FREE record (R109). -/
def State.slotsHeldOnce (s : State) : Prop :=
  ∀ k d g i j p q, s.lightpathAt i = some p → s.lightpathAt j = some q →
    hasSlot (s.routeHolds p.route k d) g = true → hasSlot (s.routeHolds q.route k d) g = true → i = j

/-- Every CONFIG_SET that is held in its slot carries values that R143 accepts. -/
def State.configQueriesSound (s : State) : Prop :=
  ∀ slot q t values, tableGet s.dispatcher.slots slot = some (.queued q) → q.body = .configSet t values →
    t.accepts values = true ∧
      match t with
      | .profile n => n < 16
      | .filter n => n < 8
      | .routing => True
      | .globals => True

/-- The load and the image in force (R176, R182): the port loads exactly until an image is in force; until then every
other unit stands at its power-on values; the attempt count fits the phase of the load (assumption log 7). -/
structure State.loadQuiet (s : State) : Prop where
  loads : (∃ x, s.port.op = .load x) ↔ s.port.image = none
  quiet : s.port.image = none → ∀ p ∈ blockParts, p ≠ .port → agree State.reset s p
  begun : s.port.op = .load .begun → s.port.attempts = 0
  reading : s.port.op = .load .reading → 1 ≤ s.port.attempts ∧ s.port.attempts ≤ 8
  waiting : s.port.op = .load .waiting ∨ s.port.op = .load .due → 1 ≤ s.port.attempts ∧ s.port.attempts ≤ 7

/-! ### Where the queries of the slots stand (R128, R132, R145) -/

/-- The slot whose query an engine serves (R76). -/
def Engine.servedSlot : Engine → Option Nat
  | .idle => none
  | .searching ctx _ => some ctx.slot
  | .committing ctx _ _ => some ctx.slot
  | .answering ctx => some ctx.slot

/-- The slot whose SAVE or RELOAD is in flight (R144). -/
def PortOp.servedSlot : PortOp → Option Nat
  | .idle => none
  | .load _ => none
  | .save slot _ _ _ => some slot
  | .reload slot _ => some slot

/-- The slot that an answer is for, as a place where its query is served: an engine's query stands in the engine until
the answer is taken (R105). -/
def Answer.place (a : Answer) : Option (Nat × Serving) :=
  match a.source with
  | .engine _ => none
  | .dispatcher => some (a.slot, .answered)
  | .port => some (a.slot, .port)

/-- The places where queries are served, each with its slot: the engines, the hand-offs to the Lightpath Table and the
Sweep Unit, the Configuration Port, and the answers of the dispatcher and the port. -/
def State.servedPlaces (s : State) : List (Nat × Serving) :=
  s.engine0.servedSlot.toList.map (fun n => (n, .engine .e0)) ++
  s.engine1.servedSlot.toList.map (fun n => (n, .engine .e1)) ++
  s.handoffs.toTable.filterMap (fun h => h.slot.map fun n => (n, .table)) ++
  s.handoffs.toSweep.filterMap (fun h => h.slot.map fun n => (n, .sweep)) ++
  s.port.op.servedSlot.toList.map (fun n => (n, .port)) ++
  s.writer.answers.filterMap Answer.place

/-- The slots of the answers that an engine has offered and that are not yet taken. -/
def State.engineAnswers (s : State) (e : EngineId) : List Nat :=
  (s.writer.answers.filter fun a => a.source == .engine e).map (·.slot)

/-- The slot of an engine's answer not yet taken, by its state: an ANSWERING engine has one (R105). -/
def Engine.answerSlot : Engine → List Nat
  | .idle => []
  | .searching _ _ => []
  | .committing _ _ _ => []
  | .answering ctx => [ctx.slot]

/-- The slots, the queues and the places where queries are served agree (R128, R132, R145): no slot stands in the queues
twice, a queue holds the QUEUED slots of its priority, each IN_SERVICE slot is served at one place and no place serves
another slot, an engine's answer waits exactly while it is ANSWERING, and a successor waits only behind the port. -/
structure State.slotsServed (s : State) : Prop where
  rising : risingTable s.dispatcher.slots = true
  range : ∀ e ∈ s.dispatcher.slots, e.1 < 32
  queues : (s.dispatcher.high ++ s.dispatcher.low).Nodup
  high : ∀ n, n ∈ s.dispatcher.high ↔ ∃ q, tableGet s.dispatcher.slots n = some (.queued q) ∧ q.high = true
  low : ∀ n, n ∈ s.dispatcher.low ↔ ∃ q, tableGet s.dispatcher.slots n = some (.queued q) ∧ q.high = false
  once : (s.servedPlaces.map (·.1)).Nodup
  served : ∀ n v, (n, v) ∈ s.servedPlaces ↔ ∃ x, tableGet s.dispatcher.slots n = some (.inService v x)
  engines : ∀ e, s.engineAnswers e = (s.engine e).answerSlot
  successors : ∀ n v x, tableGet s.dispatcher.slots n = some (.inService v (some x)) → v = .port

/-- A completed query record of a slot has been judged (R129), the queues and the answers being those given: the query
waits at the tail of the queue of its priority, or the slot is IN_SERVICE with the BAD_QUERY answer. -/
def judgedTo (t : State) (slot : Nat) (raw : RawQuery) (high low : List Nat) (answers : List Answer) : Prop :=
  (∀ q, judgeQuery raw.record = .good q →
    tableGet t.dispatcher.slots slot = some (.queued q) ∧
    t.dispatcher.high = (if q.high then high ++ [slot] else high) ∧
    t.dispatcher.low = (if q.high then low else low ++ [slot]) ∧ t.writer.answers = answers) ∧
  ∀ reason clamped, judgeQuery raw.record = .bad reason clamped →
    tableGet t.dispatcher.slots slot = some (.inService .answered none) ∧
    t.dispatcher.high = high ∧ t.dispatcher.low = low ∧
    t.writer.answers = answers ++
      [{ slot := slot, source := .dispatcher, tag := raw.record.queryTag, kind := raw.record.queryKind
         status := .badQuery
         provisional := raw.settling && (raw.record.queryKind == 1 || raw.record.queryKind == 2)
         clamped := clamped, notify := raw.record.queryNotify, detail := word reason.code, named := 0xFFFF
         body := emptyBody raw.record.queryKind }]

/-! ### Removal of a node (R8, R18) -/

/-- A link has an end at the node at an index. -/
def Link.touches (l : Link) (i : Nat) : Bool := l.end0.node == i || l.end1.node == i

/-- A port entry of node j that stays when node i, of an id, is removed: no end of a link at node i, and no claim that
hears it (R8, R18). -/
def State.portStays (s : State) (i : Nat) (id : NodeId) (j : Nat) (e : Nat × PortRef) : Bool :=
  match e.2 with
  | .linkEnd k _ => !((s.linkAt k).any fun l => l.touches i)
  | .claim => !((s.claimAt j e.1).any fun c => c.heardId == id)

/-- The hop-lost events of a link's removal (R18), direction 0 first (assumption log 14). -/
def State.linkLost (s : State) (k : Nat) : List StoreEvent :=
  match s.linkAt k with
  | none => []
  | some l =>
    [ .hopLost { subject := s.directionSubject l k .zero, cause := .linkRemoved },
      .hopLost { subject := s.directionSubject l k .one, cause := .linkRemoved } ]

/-- The notice of a link's removal (R18). -/
def State.linkRemovedNotice (s : State) (k : Nat) : List Notice :=
  match s.linkAt k with
  | none => []
  | some l => [linkNotice .removed (s.idAt l.end0.node) l.end0.port (word k)]

/-- Between s and t node n, at index i, has been removed (R8), its links being ks: its record, links and claims and the
claims that hear it with their port entries are gone, everything else in the store stays, and the events of the
removal are handed on, each link's two before the node's own. -/
structure nodeRemoved (s t : State) (i : Nat) (n : Node) (ks : List Nat) : Prop where
  distinct : ks.Nodup
  links : ∀ k, k ∈ ks ↔ ∃ l, s.linkAt k = some l ∧ l.touches i = true
  order : ks.Sublist n.linkIndexes
  gone : t.nodeAt i = none
  nodes : ∀ j, j ≠ i →
    t.nodeAt j = (s.nodeAt j).map fun m => { m with ports := m.ports.filter (s.portStays i n.id j) }
  linkTable : ∀ k, t.linkAt k = if k ∈ ks then none else s.linkAt k
  claims : t.store.claims = s.store.claims.filter fun c => c.claimant != i && c.heardId != n.id
  events : t.handoffs = { s.handoffs with
    storeToTable := s.handoffs.storeToTable ++ ks.flatMap s.linkLost ++
      [.hopLost { subject := .node n.id, cause := .nodeRemoved }] }

/-! ### Changes of a profile and returns to service (R39, R41) -/

/-- The pending-evaluation set has gained exactly the records with a hop on a direction that has returned to service
between s and t (R39), and nothing else of the Sweep Unit has changed. -/
def returnsEvaluated (s t : State) : Prop :=
  (∀ i, i ∈ t.sweep.pendingSet ↔ i ∈ s.sweep.pendingSet ∨ ∃ p k d, s.lightpathAt i = some p ∧
    s.routeOn p.route k d = true ∧ s.inService k d = false ∧ t.inService k d = true) ∧
  t.sweep = { s.sweep with pendingSet := t.sweep.pendingSet }

/-- A direction whose receiving node's profile in force has become p (R41): the latch, then the suppression lifted or
set. -/
def Direction.reprofiled (x : Direction) (p : Profile) : Direction :=
  if x.suppressed then
    let latched := x.latched || p.latch
    { x with latched := latched, suppressed := latched || decide (p.reuse < x.flap) }
  else if p.suppress ≤ x.flap then { x with suppressed := true, latched := p.latch }
  else x

/-- Direction d of a link after a change of the profiles in force for the receiving nodes that pass a test (R41). -/
def State.reprofiled (s : State) (test : Node → Bool) (l : Link) (d : Dir) : Direction :=
  if (s.nodeAt (l.endAt d).node).any test then (l.direction d).reprofiled (s.receiverProfile l d) else l.direction d

/-- The notice that R41 writes for a direction, if any: suppression lifted or set. -/
def State.reprofileNotice (s : State) (test : Node → Bool) (k : Nat) (d : Dir) : Option Notice :=
  (s.linkAt k).bind fun l =>
    let x := l.direction d
    let y := s.reprofiled test l d
    if x.suppressed && !y.suppressed then some (s.directionNotice l d .unsuppressed x.flap)
    else if !x.suppressed && y.suppressed then some (s.directionNotice l d .suppressed x.flap)
    else none

/-- The hop-lost event that R41 raises for a direction, if any: suppression set while it is UP or FALLING (R35). -/
def State.reprofileLost (s : State) (test : Node → Bool) (k : Nat) (d : Dir) : Option HopLost :=
  (s.linkAt k).bind fun l =>
    let x := l.direction d
    if !x.suppressed && (s.reprofiled test l d).suppressed && (x.cond == .up || x.cond == .falling) then
      some { subject := s.directionSubject l k d, cause := .suppressed }
    else none

/-- Between s, whose profiles in force are the new ones, and t, R41 has acted on every direction whose receiving node
passes a test, in the order of assumption log 14. -/
structure reprofiledTo (s t : State) (test : Node → Bool) : Prop where
  frame : sameBut [.store, .handoffs, .sweep, .notices, .dispatcher, .writer] s t
  links : ∀ k, t.linkAt k = (s.linkAt k).map fun l =>
    { l with dir0 := s.reprofiled test l .zero, dir1 := s.reprofiled test l .one }
  nodes : t.store.nodes = s.store.nodes
  claims : t.store.claims = s.store.claims
  events : t.handoffs = { s.handoffs with
    conditionerToTable := s.handoffs.conditionerToTable ++
      s.directions.filterMap fun e => s.reprofileLost test e.1 e.2 }
  told : handedNotices s t (s.directions.filterMap fun e => s.reprofileNotice test e.1 e.2)
  returns : returnsEvaluated s t

/-- A direction after NODE_CLEAR (R38). -/
def Direction.cleared (x : Direction) : Direction := { x with flap := 0, suppressed := false, latched := false }

/-- The notice that R38 writes for a direction of a link at node i, if it was suppressed. -/
def State.clearNotice (s : State) (i k : Nat) (d : Dir) : Option Notice :=
  (s.linkAt k).bind fun l =>
    if l.touches i && (l.direction d).suppressed then some (s.directionNotice l d .unsuppressed 0) else none

/-! ### Accepted records (R5, R55, R56) -/

/-- The node record after an accepted record of its own: LIVE, its hold timer restarted, a good record scored unless it
is quarantined (R5, R56). -/
def Node.proved (n : Node) : Node :=
  { n with
    liveness := .live
    hold := 3 * n.refresh
    faultScore := if n.quarantined then n.faultScore else n.faultScore - 1 }

/-- The notice of a node that an accepted record takes out of STALE (R5). -/
def aliveNotices (i : Nat) (n : Node) : List Notice :=
  if n.liveness = .stale then [notice .liveAgain n.id (word i)] else []

/-- A record is one that an accepted record of node n adds to the pending-evaluation set (R5): it names the node, which
was STALE. -/
def State.namesRevived (s : State) (n : Node) (j : Nat) : Prop :=
  n.liveness = .stale ∧ ∃ p, s.lightpathAt j = some p ∧ p.route.names n.id = true

/-- Intake takes the record r, of a kind, from the known node n at index i, and accepts it (R45, R55). -/
structure accepts (s : State) (r : Record) (rest : List Record) (kind : ReportKind) (i : Nat) (n : Node) : Prop where
  running : s.running = true
  free : s.handoffs.observations = []
  head : s.intake.queue = r :: rest
  format : r.reportFormat = 1
  wellFormed : malformed r = none
  code : reportKind r.reportKindCode = some kind
  filter : filterPasses s.image kind r.reporter = true
  store : s.topologyConsistent
  reporter : s.nodeEntry r.reporter = some (i, n)
  sound : n.quarantined = false ∨ kind = .nodeWithdraw

/-- The intake after it has accepted a record (R55). -/
def acceptedIntake (s : State) (rest : List Record) : Intake :=
  { queue := rest
    counters := { s.intake.counters with accepted := min (s.intake.counters.accepted + 1) 65535 } }

/-- Between s and u the record from node n, at index i, has been accepted and not yet applied (R5, R55, R56): the node
is proved alive, and the records that name it are to be evaluated if it was STALE. -/
structure acceptedTo (s u : State) (rest : List Record) (i : Nat) (n : Node) : Prop where
  frame : sameBut [.intake, .store, .notices, .sweep] s u
  intake : u.intake = acceptedIntake s rest
  node : u.nodeAt i = some n.proved
  nodes : ∀ j, j ≠ i → u.nodeAt j = s.nodeAt j
  claims : u.store.claims = s.store.claims
  links : u.store.links = s.store.links
  sweep : u.sweep = { s.sweep with pendingSet := u.sweep.pendingSet }
  evaluated : ∀ j, j ∈ u.sweep.pendingSet ↔ j ∈ s.sweep.pendingSet ∨ s.namesRevived n j
  told : handedNotices s u (aliveNotices i n)

/-! ### Claims (R9 to R18) -/

/-- Between s and t the port tables of the nodes may have changed, and nothing else of a node record. -/
def portsChanged (s t : State) : Prop :=
  ∀ j, (t.nodeAt j).map (fun m => { m with ports := [] }) = (s.nodeAt j).map fun m => { m with ports := [] }

/-- Between s and t link k has been removed (R18): it and its two port entries are gone, its events and its notice are
handed on, and everything else of the store stays. -/
structure linkRemoved (s t : State) (k : Nat) : Prop where
  frame : sameBut [.store, .handoffs, .notices] s t
  links : ∀ j, t.linkAt j = if j = k then none else s.linkAt j
  ports : ∀ j p, t.portAt j p =
    if s.portAt j p = some (.linkEnd k .zero) ∨ s.portAt j p = some (.linkEnd k .one) then none else s.portAt j p
  nodes : portsChanged s t
  claims : t.store.claims = s.store.claims
  events : t.handoffs = { s.handoffs with storeToTable := s.handoffs.storeToTable ++ s.linkLost k }
  told : handedNotices s t (s.linkRemovedNotice k)

/-- The claim that storing one at a port of node i evicts (R14, R15): none if the port has a claim or the table has
room, else the oldest of those that may be evicted. -/
def State.evicted (s : State) (i port : Nat) (pool : List Claim) : Option Claim :=
  if (s.claimAt i port).isSome ∨ s.store.claims.length < 256 then none else pool.head?

/-- The notice of an eviction (R14). -/
def State.evictionNotice (s : State) (out : Option Claim) : List Notice :=
  match out with
  | none => []
  | some c => [linkNotice .claimEvicted (s.idAt c.claimant) c.port c.heardId]

/-- Between s and t a claim has been stored as the youngest at its port, in place of an earlier one there, and the claim
out, if there is one, has been evicted with its port entry (R10, R14); everything else of the store stays. -/
structure claimStored (s t : State) (c : Claim) (out : Option Claim) : Prop where
  frame : sameBut [.store, .notices] s t
  claims : t.store.claims = (s.store.claims.filter fun x => !x.isAt c.claimant c.port && out != some x) ++ [c]
  ports : ∀ j p, t.portAt j p =
    if j = c.claimant ∧ p = c.port then some .claim
    else if out.any (fun x => x.isAt j p) = true then none else s.portAt j p
  nodes : portsChanged s t
  links : t.store.links = s.store.links

/-- Between s and t a link has been formed at the lowest free index (R13, R17), end 0 at port pb of node b and end 1 at
port pa of node i, whose id is given; both claims have left the claim table. -/
structure linkFormed (s t : State) (i : Nat) (id : NodeId) (pa b pb : Nat) : Prop where
  frame : sameBut [.store, .notices] s t
  links : ∀ j, t.linkAt j = if j = lowestFree s.store.links then
      some { end0 := { node := b, port := pb }, end1 := { node := i, port := pa }, risks := []
             dir0 := freshDirection, dir1 := freshDirection }
    else s.linkAt j
  ports : ∀ j p, t.portAt j p =
    if j = i ∧ p = pa then some (.linkEnd (lowestFree s.store.links) .one)
    else if j = b ∧ p = pb then some (.linkEnd (lowestFree s.store.links) .zero) else s.portAt j p
  nodes : portsChanged s t
  claims : t.store.claims = s.store.claims.filter fun x => !x.isAt b pb && !x.isAt i pa
  told : handedNotices s t [linkNotice .formed id pa (word (lowestFree s.store.links))]

/-- The claim table holds the claim of port pb of node b that matches a claim of port pa of the node with an id that
hears heard:pb (R13). -/
def State.claimMatches (s : State) (id heard : NodeId) (pa b pb : Nat) : Prop :=
  s.indexOf heard = some b ∧ ∃ c, s.claimAt b pb = some c ∧ c.heardId = id ∧ c.heardPort = pa

/-- A port of node i has an entry or can have one (R9). -/
def State.portFits (s : State) (i port : Nat) : Prop := (s.portAt i port).isSome = true ∨ s.portCount i < 16

/-- Between s and t a claim c of a port that is no link end has been met (R9, R13 to R15), id being the claimant's:
refused for a full port table, stored without a match, stored with its match kept where the link table is full, or made
a link. -/
structure claimMet (s t : State) (id : NodeId) (c : Claim) : Prop where
  refused : ¬ s.portFits c.claimant c.port →
    sameBut [.notices] s t ∧ handedNotices s t [notice .portTableFull id (word c.port)]
  stored : s.portFits c.claimant c.port → (∀ b, ¬ s.claimMatches id c.heardId c.port b c.heardPort) →
    claimStored s t c (s.evicted c.claimant c.port s.store.claims) ∧
    handedNotices s t (s.evictionNotice (s.evicted c.claimant c.port s.store.claims))
  kept : ∀ b out, s.portFits c.claimant c.port → s.claimMatches id c.heardId c.port b c.heardPort →
    1024 ≤ s.store.links.length →
    out = s.evicted c.claimant c.port (s.store.claims.filter fun x => !x.isAt b c.heardPort) →
    claimStored s t c out ∧
    handedNotices s t (s.evictionNotice out ++ [linkNotice .linkTableFull id c.port c.heardId])
  formed : ∀ b, s.portFits c.claimant c.port → s.claimMatches id c.heardId c.port b c.heardPort →
    s.store.links.length < 1024 → linkFormed s t c.claimant id c.port b c.heardPort

/-! ### Search steps (R81 to R87, R101) -/

/-- Label x, at index i, is the OPEN label that a search step closes (R81). -/
structure closesNext (ls : List Label) (i : Nat) (x : Label) : Prop where
  stored : ls[i]? = some x
  isOpen : x.closed = false
  first : ∀ j y, ls[j]? = some y → y.closed = false →
    x.cost < y.cost ∨ x.cost = y.cost ∧ (x.noise < y.noise ∨ x.noise = y.noise ∧
      (x.hops < y.hops ∨ x.hops = y.hops ∧ i ≤ j))

/-- A stored label z makes a candidate y superfluous (R85). -/
structure Label.noWorse (z y : Label) : Prop where
  node : z.node = y.node
  cost : z.cost ≤ y.cost
  noise : z.noise ≤ y.noise
  hops : z.hops ≤ y.hops
  regens : z.regens ≤ y.regens
  mask : y.mask &&& z.mask = y.mask

/-- y is the label that R83 and R84 make from the closed label x, of index i at node n, over entry m of the port table
of n, a port that is an end of link l, of index k; d is the direction that leaves n and path holds the nodes of the path
of x. One of the primary's links is what assumption log 26 says. -/
structure State.crossing (s : State) (ctx : Context) (path : List NodeId) (i : Nat) (x : Label) (n : Node)
    (m port k : Nat) (d : Dir) (l : Link) (y : Label) : Prop where
  entry : n.ports[m]? = some (port, .linkEnd k (opposite d))
  link : s.linkAt k = some l
  service : s.inService k d = true
  far : y.node = s.idAt (l.endAt d).node
  path : y.node ∉ path
  nodes : excludedBy ctx.excludedNodes y.node = false
  risks : ∀ id ∈ l.risks, excludedBy ctx.excludedRisks id = false
  primary : s.primaryLink ctx k = false
  hopLimit : y.hops ≤ ctx.req.hopLimit
  mask : y.mask = x.mask &&& (s.usable k d &&& ~~~ s.primaryHolds ctx k d)
  nonempty : y.mask ≠ 0#80
  noise : y.noise = min (min (x.noise + if n.id = ctx.req.source ∨ x.regenHere = true then 0 else n.expressNoise)
    16777215 + s.noiseOf k d) 16777215
  budget : y.noise ≤ ctx.budget
  cost : y.cost = min (x.cost + s.costOf k d) 16777215
  hops : y.hops = x.hops + 1
  regens : y.regens = x.regens
  parent : y.parent = some i
  arrival : y.arrival = some { link := k, dir := d, sender := n.id, port := port }
  regenHere : y.regenHere = false
  isOpen : y.closed = false

/-- y is the regeneration label that R86 considers at node n of the closed label x, of index i. -/
structure regenerating (ctx : Context) (i : Nat) (x : Label) (n : Node) (y : Label) : Prop where
  source : n.id ≠ ctx.req.source
  destination : n.id ≠ ctx.req.dest
  once : x.regenHere = false
  allowed : x.regens < ctx.req.regenMax
  free : n.regenInUse + ctx.primaryRegens n.id < n.regenTotal
  budget : min (x.noise + n.dropNoise) 16777215 ≤ ctx.budget
  node : y.node = n.id
  mask : y.mask = slotRange ctx.req.lo ctx.req.hi
  cost : y.cost = min (x.cost + n.regenCost) 16777215
  noise : y.noise = n.addNoise
  hops : y.hops = x.hops
  regens : y.regens = x.regens + 1
  parent : y.parent = some i
  arrival : y.arrival = none
  regenHere : y.regenHere = true
  isOpen : y.closed = false

/-- y is the candidate of turn m in a search step that closed label x, of index i at node n: over entry m of the port
table as R83 and R84 say, or, after the last entry, that of R86. closed is the store with x CLOSED. -/
def State.candidate (s : State) (ctx : Context) (closed : List Label) (i : Nat) (x : Label) (n : Node) (m : Nat)
    (y : Label) : Prop :=
  (∃ port k d l, s.crossing ctx ((chainOf closed i).map (·.node)) i x n m port k d l y) ∨
  m = n.ports.length ∧ regenerating ctx i x n y

/-- The labels that a search step places after those of the closed store, each with its turn, in the turns below stop
(R83 to R87): the candidates in the order of their turns, but for those that a label stored before their turn makes
superfluous. -/
structure State.placed (s : State) (ctx : Context) (closed : List Label) (i : Nat) (x : Label) (n : Node) (stop : Nat)
    (more : List (Nat × Label)) : Prop where
  candidates : ∀ e ∈ more, e.1 < stop ∧ s.candidate ctx closed i x n e.1 e.2
  order : more.Pairwise fun a b => a.1 < b.1
  fresh : ∀ e ∈ more, ∀ z, (z ∈ closed ∨ ∃ j, j < e.1 ∧ (j, z) ∈ more) → ¬ z.noWorse e.2
  complete : ∀ m y, m < stop → s.candidate ctx closed i x n m y → (m, y) ∈ more ∨
    ∃ z, (z ∈ closed ∨ ∃ j, j < m ∧ (j, z) ∈ more) ∧ z.noWorse y

/-! ### Answers of the engines (R93, R96, R97, R101, R104, R105) -/

/-- The answer of an engine to the query of its context (R105). -/
def Context.answer (ctx : Context) (e : EngineId) (st : Status) (named : Nat) (body : AnswerBody) : Answer :=
  { slot := ctx.slot, source := .engine e, tag := ctx.query.tag, kind := ctx.query.kind, status := st
    provisional := ctx.query.provisional, clamped := ctx.query.clamped, notify := ctx.query.notify, detail := 0#32
    named := named, body := body }

/-- The path summary of a route from live values (R93). -/
def State.summaryOf (s : State) (r : Route) (budget tag used restarts : Nat) : Summary :=
  { hopCount := r.hops.length, segments := r.regens.length + 1, cost := s.routeCost r, worst := s.worstNoise r
    budget := budget, margin := (budget : Int) - s.worstNoise r, tag := tag, labels := used, restarts := restarts }

/-- The body of an answer with one route or with both of a pair, and their tags (R93, R96). used is the label count of
the phase that ended last. -/
def State.routesBody (s : State) (ctx : Context) (used : Nat) (first : Route) (second : Option Route)
    (tag1 tag2 : Nat) : AnswerBody :=
  match second with
  | none => .path (s.summaryOf first ctx.budget tag1 (ctx.firstLabels used) ctx.restarts) (some first)
  | some r => .pair (s.summaryOf first ctx.budget tag1 (ctx.firstLabels used) ctx.restarts) (some first)
      (s.summaryOf r ctx.budget tag2 used ctx.restarts) (some r)

/-- The body of an answer without a route (R93); the second summary of a pair is that of assumption log 16. -/
def Context.routeless (ctx : Context) (used : Nat) : AnswerBody :=
  if ctx.pair then
    .pair { Summary.zero with budget := ctx.budget, labels := used, restarts := ctx.restarts } none
      { Summary.zero with restarts := ctx.restarts } none
  else .path { Summary.zero with budget := ctx.budget, labels := used, restarts := ctx.restarts } none

/-- Between s and t engine e has ended its query with an answer (R105): it is ANSWERING with its label store empty, and
the answer is offered. used is the labels used by the phase that ended. -/
structure engineAnswered (s t : State) (e : EngineId) (ctx : Context) (used : Nat) (a : Answer) : Prop where
  frame : sameBut [enginePart e, .writer] s t
  engine : t.engine e = .answering { ctx with labelsUsed := used }
  offered : offeredAnswer s t a

/-- Between s and t engine e has failed an attempt (R97, R102): it begins another in the PRIMARY phase, or after two
restarts ends the query with the status that names the failure and no route. -/
structure attemptFailed (s t : State) (e : EngineId) (ctx : Context) (st : Status) (used : Nat) : Prop where
  restart : ctx.restarts < 2 → t = s.setEngine e
    (.searching { ctx with restarts := ctx.restarts + 1, phase := .primary } [s.startLabel ctx.req])
  ended : 2 ≤ ctx.restarts → engineAnswered s t e ctx used (ctx.answer e st 0xFFFF (ctx.routeless used))

/-- Between s and t the phase of engine e has ended without a route (R81, R87, R98, R101), used being its labels: a
PRIMARY phase ends the query with a status, a SECONDARY phase with the primary route alone if that still passes the
validation (its second summary: assumption log 16). -/
structure phaseEnded (s t : State) (e : EngineId) (ctx : Context) (st : Status) (used : Nat) : Prop where
  primary : ctx.phase = .primary → engineAnswered s t e ctx used (ctx.answer e st 0xFFFF (ctx.routeless used))
  secondary : ∀ p, ctx.phase = .secondary p → s.validated ctx.budget [p.route] = true →
    engineAnswered s t e ctx used (ctx.answer e .pairPrimaryOnly 0xFFFF
      (.pair (s.summaryOf p.route ctx.budget 0xFFFF p.labels ctx.restarts) (some p.route)
        { Summary.zero with labels := used, restarts := ctx.restarts } none))
  unstable : ∀ p, ctx.phase = .secondary p → s.validated ctx.budget [p.route] = false →
    attemptFailed s t e ctx .unstable used

/-- An engine after FLUSH (R104): a busy one is ANSWERING. -/
def Engine.flushed : Engine → Engine
  | .idle => .idle
  | .searching ctx ls => .answering { ctx with labelsUsed := ls.length }
  | .committing ctx ls _ => .answering { ctx with labelsUsed := ls.length }
  | .answering ctx => .answering ctx

/-- The answer queue once FLUSH has acted on engine e (R104, R140): its FLUSHED answer joins the queue, or takes the
place of its answer not yet taken. The labels it reports are those of assumption log 24. -/
def Engine.flushedAnswers (x : Engine) (e : EngineId) (answers : List Answer) : List Answer :=
  match x with
  | .idle => answers
  | .searching ctx ls => answers ++ [ctx.answer e .flushed 0xFFFF (ctx.routeless ls.length)]
  | .committing ctx ls _ => answers ++ [ctx.answer e .flushed 0xFFFF (ctx.routeless ls.length)]
  | .answering ctx => answers.map fun a =>
      if a.slot = ctx.slot then ctx.answer e .flushed 0xFFFF (ctx.routeless ctx.labelsUsed) else a

/-! ### Records that gain or give up their regenerators (R110, R111, R116) -/

/-- Between s and t the regenerator in-use counts of the nodes may have changed, and nothing else of the store; while
the counts agree with the records (R110), the count of each node is the one given. -/
structure regensChanged (s t : State) (count : Node → Nat) : Prop where
  claims : t.store.claims = s.store.claims
  links : t.store.links = s.store.links
  nodes : ∀ j, (t.nodeAt j).map (fun n => { n with regenInUse := 0 }) =
    (s.nodeAt j).map fun n => { n with regenInUse := 0 }
  counts : s.regensCounted → ∀ j n, s.nodeAt j = some n → t.nodeAt j = some { n with regenInUse := count n }

/-- Between s and t the record p at index i has been freed (R107, R110, R111): the partner tag of the record that its
own names becomes absent, and no other record changes. -/
structure recordFreed (s t : State) (i : Nat) (p : Lightpath) : Prop where
  freed : t.recordAt i = { gen := nextGeneration i (s.recordAt i).gen, path := none }
  others : ∀ j, j ≠ i → t.recordAt j =
    if (p.partner.bind s.named).map (·.1) = some j then
      { s.recordAt j with path := (s.lightpathAt j).map fun x => { x with partner := none } }
    else s.recordAt j
  regens : regensChanged s t fun n => n.regenInUse - p.route.regens.count n.id

/-- A lit check activates a record (R116): the link is still the one it was made for (R17, assumption log 36), the
record is RESERVED with a hop in force on the direction (assumption log 13), and every hop is lit. -/
def State.lightsUp (s : State) (k : Nat) (d : Dir) (sender receiver : EndName) (p : Lightpath) : Bool :=
  s.stillNames k d sender receiver && p.state == .reserved && s.routeOn p.route k d && s.routeLit p.route

/-! ### ADOPT (R120, R121) -/

/-- Entry i of a hop list is faulty (R120). Of two entries with the same node the later is, and of four flagged ones the
fourth (assumption log 17). -/
def entryFaulty (es : List AdoptEntry) (i : Nat) : Prop :=
  ∃ e, es[i]? = some e ∧
    (e.node = 0#32 ∨ (∃ j f, j < i ∧ es[j]? = some f ∧ f.node = e.node) ∨ 79 < e.slot ∨
      i = 0 ∧ e.regen = true ∨ e.regen = true ∧ 3 ≤ (es.take i).countP (·.regen) ∨
      e.regen = false ∧ ∃ j f, i = j + 1 ∧ es[j]? = some f ∧ f.slot ≠ e.slot)

/-- Entry i of a hop list passes the first test of R121 and names hop g, which arrives at a node far: the entry's port
is a link end, and the node at the link's other end is that of the next entry, or for the last entry that of none. -/
structure State.namesHop (s : State) (es : List AdoptEntry) (i : Nat) (g : Hop) (far : NodeId) : Prop where
  link : ∃ e a k d l, es[i]? = some e ∧ s.indexOf e.node = some a ∧ s.portAt a e.port = some (.linkEnd k d) ∧
    s.linkAt k = some l ∧ far = s.idAt (l.endAt (opposite d)).node ∧
    g = { link := k, dir := opposite d, slot := e.slot, sender := e.node, port := e.port }
  next : ∀ f, es[i + 1]? = some f → f.node = far
  dest : es.length = i + 1 → ∀ f ∈ es, f.node ≠ far

/-- r is the route of a hop list whose entries all pass the first test of R121. -/
structure State.adopts (s : State) (es : List AdoptEntry) (r : Route) : Prop where
  source : ∃ e, es[0]? = some e ∧ r.source = e.node
  length : r.hops.length = es.length
  hops : ∀ i g, r.hops[i]? = some g → ∃ far, s.namesHop es i g far ∧ (es.length = i + 1 → r.dest = far)
  regens : r.regens = (es.filter (·.regen)).map (·.node)

/-! ### The bodies of lookups and STATUS (R137 to R139, 12 section 12.5) -/

/-- Word j of a body is word j + 4 of its record. The LOOKUP_NODE body of node n at index i. -/
structure State.laysNode (s : State) (i : Nat) (n : Node) (ws : List Word) : Prop where
  length : ws.length = 56
  id : wordAt ws 0 = n.id
  state : spells (wordAt ws 1) [(0, 8, i), (8, 8, n.profile), (16, 8, if n.liveness = .live then 1 else 2),
    (24, 1, n.quarantined.toNat), (25, 1, n.clamped.toNat)]
  scores : spells (wordAt ws 2) [(0, 8, n.faultScore), (8, 8, n.refresh), (16, 8, n.regenTotal),
    (24, 8, n.regenInUse)]
  hold : spells (wordAt ws 3) [(0, 16, n.hold), (16, 16, n.regenCost)]
  noises : wordAt ws 4 = word n.addNoise ∧ wordAt ws 5 = word n.dropNoise ∧ wordAt ws 6 = word n.expressNoise
  ports : wordAt ws 7 = word n.ports.length
  linkEnds : ∀ m port k d l, m < 16 → n.ports[m]? = some (port, .linkEnd k d) → s.linkAt k = some l →
    spells (wordAt ws (8 + 3 * m)) [(0, 16, port), (16, 8, 1), (24, 1, if d = .zero then 0 else 1)] ∧
    spells (wordAt ws (9 + 3 * m)) [(0, 16, k), (16, 16, (l.endAt (opposite d)).port)] ∧
    wordAt ws (10 + 3 * m) = s.idAt (l.endAt (opposite d)).node
  claims : ∀ m port c, m < 16 → n.ports[m]? = some (port, .claim) → s.claimAt i port = some c →
    spells (wordAt ws (8 + 3 * m)) [(0, 16, port), (16, 8, 2)] ∧
    spells (wordAt ws (9 + 3 * m)) [(0, 16, c.heardPort), (16, 16, c.timer)] ∧ wordAt ws (10 + 3 * m) = c.heardId
  unused : ∀ j, 8 + 3 * n.ports.length ≤ j → j < 56 → wordAt ws j = 0#32

/-- The nine words from word b of a LOOKUP_LINK body that describe direction d of link k, which is x. -/
structure State.laysDirection (s : State) (k : Nat) (d : Dir) (x : Direction) (ws : List Word) (b : Nat) : Prop where
  condition : spells (wordAt ws b) [(0, 8, x.cond.code), (8, 8, x.count), (16, 1, x.suppressed.toNat),
    (17, 1, x.latched.toNat), (18, 1, (s.inService k d).toNat), (19, 1, x.clamped.toNat), (24, 8, x.flap)]
  cost : spells (wordAt ws (b + 1)) [(0, 16, x.holdoff.getD 0), (16, 16, x.cost)]
  noise : wordAt ws (b + 2) = word x.noise
  lit : mapsSlots ws (b + 3) fun g => hasSlot x.lit g = true
  held : mapsSlots ws (b + 6) (s.slotHeld k d)

/-- The LOOKUP_LINK body of link l at index k. -/
structure State.laysLink (s : State) (k : Nat) (l : Link) (ws : List Word) : Prop where
  length : ws.length = 27
  index : wordAt ws 0 = word k
  nodes : wordAt ws 1 = s.idAt l.end0.node ∧ wordAt ws 3 = s.idAt l.end1.node
  ports : spells (wordAt ws 2) [(0, 16, l.end0.port), (16, 16, l.end1.port)]
  count : wordAt ws 4 = word l.risks.length
  risks : ∀ j, j < 4 → wordAt ws (5 + j) = l.risks.getD j 0#32
  dir0 : s.laysDirection k .zero l.dir0 ws 9
  dir1 : s.laysDirection k .one l.dir1 ws 18

/-- The LOOKUP_LINK body of a stored claim. -/
structure laysClaim (c : Claim) (ws : List Word) : Prop where
  length : ws.length = 2
  heard : wordAt ws 0 = c.heardId
  port : spells (wordAt ws 1) [(0, 16, c.heardPort), (16, 16, c.timer)]

/-- The four states of a query slot (R128). -/
inductive SlotState where
  | idle
  | staging
  | queued
  | inService
deriving DecidableEq, Repr

/-- The state of a query slot (R128): STAGING is an open staging of a slot of which no query is queued or served. -/
def State.slotState (s : State) (n : Nat) : SlotState :=
  match tableGet s.dispatcher.slots n, tableGet s.tap.queryStagings n with
  | some (.queued _), _ => .queued
  | some (.inService _ _), _ => .inService
  | none, some _ => .staging
  | none, none => .idle

/-- The number of query slots in a state. -/
def State.slotsIn (s : State) (x : SlotState) : Nat := (List.range 32).countP fun n => s.slotState n == x

/-- The number of lightpath records in a state; none stands for FREE. -/
def State.pathsIn (s : State) (x : Option LpState) : Nat :=
  s.records.countP fun r => r.path.map (·.state) == x

/-- The state code of an engine (12 section 12.5). -/
def Engine.stateCode : Engine → Nat
  | .idle => 0
  | .searching _ _ => 1
  | .committing _ _ _ => 2
  | .answering _ => 3

/-- The STATUS body. -/
structure State.laysStatus (s : State) (ws : List Word) : Prop where
  length : ws.length = 15
  counters : ∀ c j a b, c = s.intake.counters →
    (j, a, b) ∈ [(0, c.accepted, c.overruns), (1, c.unknownFormat, c.malformed), (2, c.filtered, c.unattributed),
      (3, c.quarantineDrops, c.noLink), (4, s.tap.abandoned, s.notices.lostTotal)] →
    spells (wordAt ws j) [(0, 16, a), (16, 16, b)]
  occupancies : ∀ j a b,
    (j, a, b) ∈ [(5, s.store.nodes.length, s.store.claims.length),
      (6, s.store.links.length, s.intake.queue.length), (7, s.pathsIn none, s.pathsIn (some .reserved)),
      (8, s.pathsIn (some .active), s.pathsIn (some .degraded)),
      (9, s.pathsIn (some .broken), s.sweep.pendingSet.length)] →
    spells (wordAt ws j) [(0, 16, a), (16, 16, b)]
  slots : spells (wordAt ws 10) [(0, 8, s.tap.buffer.length), (8, 8, s.slotsIn .idle), (16, 8, s.slotsIn .staging),
    (24, 8, s.slotsIn .queued)]
  queues : spells (wordAt ws 11) [(0, 8, s.slotsIn .inService), (8, 8, s.dispatcher.high.length),
    (16, 8, s.dispatcher.low.length)]
  engines : spells (wordAt ws 12) [(0, 8, s.engine0.stateCode), (8, 8, s.engine0.servedSlot.getD 255),
    (16, 8, s.engine1.stateCode), (24, 8, s.engine1.servedSlot.getD 255)]
  settling : spells (wordAt ws 13) [(0, 1, s.dispatcher.settle.isSome.toNat), (16, 16, s.dispatcher.settle.getD 0)]
  config : spells (wordAt ws 14) [(0, 8, sourceCode s.port.source), (8, 1, s.port.changed.toNat),
    (9, 1, s.port.op.isSave.toNat), (10, 1, s.port.op.isReload.toNat), (16, 8, s.sweep.mode.code),
    (24, 1, s.sweep.pass.isSome.toNat)]

/-! ### Host accesses (R173) -/

/-- Between s and g the port has been granted to a host access (R173): while the buffer is full and the turn is a
buffered write's, the head drains first, with a response of ok (assumption log 21). -/
def State.granted (s g : State) : Prop :=
  (¬ (32 ≤ s.tap.buffer.length ∧ s.tap.turn = .buffered) ∧ g = s) ∨
  s.tap.turn = .buffered ∧ ∃ x rest, s.tap.buffer = x :: rest ∧ 31 ≤ rest.length ∧
    sameBut [.memory, .downstream, .tap] s g ∧ g.tap = { s.tap with buffer := rest, turn := .host } ∧
    g.downstream = .write x.addr x.value x.mask ∧
    ∀ b, readByte g.memory b =
      if x.addr ≤ b ∧ b < x.addr + 4 ∧ x.mask.getLsbD (b - x.addr) = true then byteOf x.value (b - x.addr)
      else readByte s.memory b

end Sys2Proof.Machine
end

