-- ==== Sys2Proof/Certificates/Slice0/Obligations.lean ====
section
/-! DEFINITION. The statements for the provers. Each is about the model of this package alone; the rules that it
formalises or rests on stand in OBLIGATIONS.json. -/

open Sys2Proof Sys2Proof.Machine

/-! ### The queue, outcomes, reset, time -/

/-- A step runs the command at the front of the queue with the queue's rest (assumption log 1). -/
def Obligations.StepRunsFrontCommand : Prop :=
  ∀ (c : Instr) (rest : List Instr) (s : State),
    s.pending = c :: rest → step s = exec c { s with pending := rest }

/-- No command changes the queue of the commands that wait. The queue is the model's own (assumption log 1); that
POWER_ON, which gives every unit its power-on values, leaves it too is assumption log 3. -/
def Obligations.ExecKeepsTheQueue : Prop :=
  ∀ (c : Instr) (s t : State), exec c s = .next t → t.pending = s.pending

/-- A well-formed command answers a next state in every state, and the only stop of the model is the fault of a host
access at an address that is not word-aligned, which the bus does not carry (R166, assumption log 22). -/
def Obligations.CommandsComplete : Prop :=
  (∀ (c : Instr) (s : State), c.wellFormed = true → ∃ t, exec c s = .next t) ∧
  (∀ (c : Instr) (s : State), (∃ t, exec c s = .next t) ∨ exec c s = .fault .unalignedAccess) ∧
  ∀ (s : State) (a d : Word) (e : ByteMask) (r : Response), a.toNat % 4 ≠ 0 →
    exec (.hostWrite a d e r) s = .fault .unalignedAccess ∧
    (∀ b, exec (.hostRead { addr := a, enables := b } r) s = .fault .unalignedAccess) ∧
    exec (.hostWriteReportSlot a d e r) s = .fault .unalignedAccess ∧
    exec (.hostWriteQuerySlot a d e r) s = .fault .unalignedAccess ∧
    exec (.consumerIndexWrite a d e r) s = .fault .unalignedAccess

/-- The values that the rules give every block at power-on hold in the state after reset (R25, R43, R59, R76, R106,
R127, R128, R147 to R149, R158, R159, R168, R172, R173, R180, R182). The load has begun, and its first attempt has yet
to add its 1 to the attempt count (assumption log 7). -/
def Obligations.ResetValues : Prop :=
  State.reset.port = { image := none, source := none, changed := false, op := .load .begun, attempts := 0 } ∧
  State.reset.store = { nodes := [], claims := [], links := [] } ∧
  State.reset.intake.queue = [] ∧
  State.reset.intake.counters =
    { accepted := 0, overruns := 0, unknownFormat := 0, malformed := 0, filtered := 0, unattributed := 0,
      quarantineDrops := 0, noLink := 0 } ∧
  State.reset.engine0 = .idle ∧ State.reset.engine1 = .idle ∧
  State.reset.records.length = 128 ∧
  (∀ i, i < 128 → State.reset.recordAt i = { gen := 0, path := none }) ∧
  State.reset.dispatcher.slots = [] ∧ State.reset.dispatcher.high = [] ∧ State.reset.dispatcher.low = [] ∧
  State.reset.writer = { answers := [], writing := none } ∧
  State.reset.sweep.pendingSet = [] ∧ State.reset.sweep.pass = none ∧ State.reset.sweep.timer = none ∧
  State.reset.sweep.rerun = false ∧ State.reset.sweep.outstanding = none ∧
  State.reset.tap.reportStagings = [] ∧ State.reset.tap.queryStagings = [] ∧ State.reset.tap.buffer = [] ∧
  State.reset.tap.abandoned = 0 ∧ State.reset.tap.turn = .host ∧
  State.reset.notices.producer = 0 ∧ State.reset.notices.consumer = 0 ∧ State.reset.notices.shadow = [] ∧
  State.reset.notices.sequence = 0 ∧ State.reset.notices.lost = 0 ∧ State.reset.notices.lostTotal = 0

/-- A step on an empty queue is the one-second event (R187, assumption log 2): every running timer counts it, but for
the settle and the sweep timer while the bus reset input is asserted (R178; for an image that came into force meanwhile,
assumption log 35). The timers that have come to their last event have their expiries queued, a load that waits has its
next attempt due (R182), and nothing else is queued or changes: the node, claim, link and record tables keep their
entries in their places with every field but the timers. -/
def Obligations.OneSecondEvent : Prop :=
  ∀ s : State, s.pending = [] → ∃ t, step s = .next t ∧
    (∀ p, p ∉ [Part.store, .dispatcher, .records, .sweep, .port] → agree s t p) ∧
    t.store.nodes = s.store.nodes.map (fun e => (e.1, { e.2 with hold := e.2.hold - 1 })) ∧
    (∀ i, .nodeHoldExpiry i ∈ t.pending ↔ ∃ n, (i, n) ∈ s.store.nodes ∧ n.hold ≤ 1) ∧
    t.store.claims = s.store.claims.map (fun c => { c with timer := c.timer - 1 }) ∧
    (∀ i p, .claimHoldExpiry i p ∈ t.pending ↔
      ∃ c ∈ s.store.claims, c.claimant = i ∧ c.port = p ∧ c.timer ≤ 1) ∧
    t.store.links = s.store.links.map (fun e => (e.1,
      { end0 := e.2.end0, end1 := e.2.end1, risks := e.2.risks
        dir0 := { e.2.dir0 with holdoff := e.2.dir0.holdoff.map (· - 1) }
        dir1 := { e.2.dir1 with holdoff := e.2.dir1.holdoff.map (· - 1) } })) ∧
    (∀ k d, .holdoffExpiry k d ∈ t.pending ↔
      ∃ l n, (k, l) ∈ s.store.links ∧ (l.direction d).holdoff = some n ∧ n ≤ 1) ∧
    t.records = s.records.map (fun r =>
      { gen := r.gen, path := r.path.map fun p => { p with timer := p.timer.map (· - 1) } }) ∧
    (∀ i, .reservationExpiry i ∈ t.pending ↔ ∃ p n, s.lightpathAt i = some p ∧ p.timer = some n ∧ n ≤ 1) ∧
    t.dispatcher = { s.dispatcher with
      settle := if s.busReset then s.dispatcher.settle else s.dispatcher.settle.map (· - 1) } ∧
    (.settleTimerExpiry ∈ t.pending ↔ s.busReset = false ∧ ∃ n, s.dispatcher.settle = some n ∧ n ≤ 1) ∧
    t.sweep = { s.sweep with timer := if s.busReset then s.sweep.timer else s.sweep.timer.map (· - 1) } ∧
    (.sweepTimerExpiry ∈ t.pending ↔ s.busReset = false ∧ ∃ n, s.sweep.timer = some n ∧ n ≤ 1) ∧
    t.port = { s.port with op := if s.port.op = .load .waiting then .load .due else s.port.op } ∧
    (.loadAttemptStart ∈ t.pending ↔ s.port.op = .load .waiting ∨ s.port.op = .load .due) ∧
    ∀ c ∈ t.pending, (∃ i, c = .nodeHoldExpiry i) ∨ (∃ i p, c = .claimHoldExpiry i p) ∨
      (∃ k d, c = .holdoffExpiry k d) ∨ (∃ i, c = .reservationExpiry i) ∨ c = .settleTimerExpiry ∨
      c = .sweepTimerExpiry ∨ c = .loadAttemptStart

/-! ### Impairment and cost arithmetic (04) -/

/-- The decibel table (R61): entry d is the integer nearest to 2^20 · 10^(−d/100), written without fractions; halves
round up; the entries never increase; the last sixteen are 1; both readers clamp the index. -/
def Obligations.DecibelTableNearest : Prop :=
  decibelTable.length = 601 ∧
  (∀ d, d ≤ 600 → 1 ≤ decibel d ∧ (2 * decibel d - 1) ^ 100 * 10 ^ d ≤ 2 ^ 2100 ∧
    2 ^ 2100 < (2 * decibel d + 1) ^ 100 * 10 ^ d) ∧
  decibel 0 = 1048576 ∧ decibel 600 = 1 ∧
  (∀ a b, a ≤ b → decibel b ≤ decibel a) ∧
  (∀ d, 585 ≤ d → d ≤ 600 → decibel d = 1) ∧
  (∀ (p : Profile) (w : Word), p.form = .osnrTenths →
    (convertNoise p w).1 = decibel (max 0 (min 600 (signedHalf w + p.calibration))).toNat) ∧
  ∀ q m, budgetOf q m = decibel (min 600 (q + m))

/-- Noise conversion under OSNR_TENTHS (R62): the signed low half plus the calibration offset, exactly, clamped to
0..600, then the decibel table; the clamped mark is set exactly when the sum lay outside. Noise conversion under LINEAR
(R63): the whole word, limited to 1,048,576 and then marked clamped; the calibration offset does not matter. -/
def Obligations.NoiseConversions : Prop :=
  (∀ (p : Profile) (w : Word), p.form = .osnrTenths → -50 ≤ p.calibration → p.calibration ≤ 50 →
    ∃ r d : Int,
      r = (if w.toNat % 65536 < 32768 then ((w.toNat % 65536 : Nat) : Int)
           else ((w.toNat % 65536 : Nat) : Int) - 65536) ∧
      -32768 ≤ r ∧ r ≤ 32767 ∧ d = r + p.calibration ∧ -32818 ≤ d ∧ d ≤ 32817 ∧
      convertNoise p w = (decibel (max 0 (min 600 d)).toNat, decide (d < 0 ∨ 600 < d)) ∧
      (d < 0 → convertNoise p w = (1048576, true)) ∧ (600 < d → convertNoise p w = (1, true)) ∧
      (d = 0 ∨ d = 600 → (convertNoise p w).2 = false)) ∧
  ∀ (p : Profile) (w : Word), p.form = .linear →
    convertNoise p w = (min w.toNat 1048576, decide (1048576 < w.toNat)) ∧
    ∀ c : Int, convertNoise { p with calibration := c } w = convertNoise p w

/-- Channels and slots (R68, R69, R70, R23): one slot for each on-grid channel, no slot twice; a slot is addressable
when some channel maps to it; a slot is usable on a direction when it is addressable at both ends, not lit, and not
held by a hop, of a non-FREE record, that names the link (R109). -/
def Obligations.ChannelsAndUsableSlots : Prop :=
  (∀ p : Profile, p.base ≤ 79 →
    (∀ v g, v < 80 → (slotOfChannel p v = some g ↔
      g ≤ 79 ∧ (match p.channelDir with | .ascending => g = p.base + v | .descending => g + v = p.base))) ∧
    (∀ v w g, slotOfChannel p v = some g → slotOfChannel p w = some g → v = w) ∧
    (∀ (lit : SlotSet) (g : Nat), hasSlot (mapLit p lit) g = true ↔
      ∃ v, v < 80 ∧ hasSlot lit v = true ∧ slotOfChannel p v = some g) ∧
    (∀ g, slotAddressable p g = true ↔ ∃ v, v < 80 ∧ slotOfChannel p v = some g) ∧
    ∀ g, hasSlot (addressableSlots p) g = slotAddressable p g) ∧
  ∀ (s : State) (k : Nat) (d : Dir) (l : Link) (g : Nat), s.linkAt k = some l →
    (hasSlot (s.usable k d) g = true ↔
      (∃ m, s.nodeAt l.end0.node = some m ∧ hasSlot (addressableSlots (s.profileOf m)) g = true) ∧
      (∃ m, s.nodeAt l.end1.node = some m ∧ hasSlot (addressableSlots (s.profileOf m)) g = true) ∧
      hasSlot (l.direction d).lit g = false ∧ ¬ s.slotHeld k d g)

/-- Segment noises (R72): each is the lesser of 16,777,215 and the exact sum. Budget and margin (R73, R74): a larger q
or m gives no larger budget; the margin is exact, within its range, and 0 or more exactly when every segment is
feasible. -/
def Obligations.SegmentNoiseBudgetMargin : Prop :=
  (∀ (s : State) (r : Route),
    s.routeNoises r = (s.exactNoises r).map (fun x => min x 16777215) ∧ s.worstNoise r ≤ 16777215) ∧
  (∀ q m q' m', q ≤ q' → m ≤ m' → budgetOf q' m' ≤ budgetOf q m) ∧
  (∀ q m, 1 ≤ budgetOf q m ∧ budgetOf q m ≤ 1048576) ∧
  ∀ (s : State) (r : Route) (b : Nat), b ≤ 1048576 →
    marginOf b (s.worstNoise r) = (b : Int) - (s.worstNoise r : Int) ∧
    -16777215 ≤ marginOf b (s.worstNoise r) ∧ marginOf b (s.worstNoise r) ≤ 1048576 ∧
    (0 ≤ marginOf b (s.worstNoise r) ↔ ∀ x ∈ s.routeNoises r, x ≤ b)

/-! ### Power-on, load, bus reset, SAVE and RELOAD (10, 11) -/

/-- POWER_ON gives every unit its power-on values and leaves the surroundings (R182, assumption log 3).
LOAD_ATTEMPT_START begins an attempt, which adds 1 to the attempt count (R182): the first of a load that has begun, or
the next one that a one-second event after a failed one has made due. While the port still waits for that event no
attempt begins (R187). That a load begins before its first attempt has added its 1 is assumption log 7. -/
def Obligations.PowerOnAndLoadStart : Prop :=
  (∀ s : State, ∃ t, exec .powerOn s = .next t ∧ sameBut blockParts s t ∧
    ∀ p ∈ blockParts, agree State.reset t p) ∧
  (∀ s : State, s.port.op = .load .begun ∨ s.port.op = .load .due →
    exec .loadAttemptStart s =
      .next { s with port := { s.port with op := .load .reading, attempts := s.port.attempts + 1 } }) ∧
  ∀ s : State, s.port.op = .load .waiting → exec .loadAttemptStart s = .next s

/-- A valid image that ends the power-on load comes into force as LOADED (R181, R182, R184), with the starting values
of the Notice Unit, the Sweep Unit and the settle timer (R135, R158, R165); the notice carries the attempt count, and
the producer word of 0 is the first part write in the buffer (R176). n is that count: an attempt that
LOAD_ATTEMPT_START began has added its 1, and of a load of which the first attempt has not yet done so it adds it here
(assumption log 7). -/
def Obligations.ValidLoad : Prop :=
  ∀ (s : State) (bs : List Byte) (n : Nat), s.loadQuiet →
    (s.port.op = .load .reading ∧ n = s.port.attempts ∨ s.port.op = .load .begun ∧ n = s.port.attempts + 1) →
    bs.length = 512 → crc16 (bs.take 510) = imageHalf bs 510 → windowsSound bs = true → valuesInRange bs = true →
    ∃ t, exec (.loadReadEnd bs) s = .next t ∧ sameBut [.port, .tap, .notices, .sweep, .dispatcher] s t ∧
      t.port = { image := some bs, source := some .loaded, changed := false, op := .idle, attempts := n } ∧
      t.tap = { Tap.empty with
        buffer := [{ addr := windowBase bs .notice + 4, value := 0#32, mask := 0xF#4 }] } ∧
      t.notices = { NoticeUnit.empty with inbox := [notice .loaded 0#32 (word n)] } ∧
      t.sweep = { Sweep.empty with
        mode := if imageByte bs 457 = 2 then .cyclic else .stopped
        timer := if imageByte bs 457 = 2 then some (imageHalf bs 460) else none
        alarmRef := s.alarmInput } ∧
      t.dispatcher = { Dispatcher.empty with settle := if imageByte bs 456 = 0 then none else some (imageByte bs 456) }

/-- A load read that fails (R181, R182): the reason is that of the first test to fail; before the eighth attempt the
part waits for the next one-second event, and after the eighth the default image comes into force as DEFAULTED. That
other than 512 bytes are a transfer not answered whole is assumption log 6; where the count n of the attempt has its 1
added is assumption log 7. -/
def Obligations.FailedLoad : Prop :=
  ∀ (s : State) (bs : List Byte) (reason : PortReason) (n : Nat), s.loadQuiet →
    (s.port.op = .load .reading ∧ n = s.port.attempts ∨ s.port.op = .load .begun ∧ n = s.port.attempts + 1) →
    ((reason = .noAnswer ∧ bs.length ≠ 512) ∨
      (bs.length = 512 ∧
        ((reason = .crc ∧ crc16 (bs.take 510) ≠ imageHalf bs 510) ∨
          (crc16 (bs.take 510) = imageHalf bs 510 ∧
            ((reason = .windows ∧ windowsSound bs = false) ∨
              (windowsSound bs = true ∧ reason = .range ∧ valuesInRange bs = false)))))) →
    (n < 8 → exec (.loadReadEnd bs) s =
      .next { s with port := { s.port with op := .load .waiting, attempts := n } }) ∧
    (n = 8 → ∃ t, exec (.loadReadEnd bs) s = .next t ∧
      sameBut [.port, .tap, .notices, .sweep, .dispatcher] s t ∧
      t.port = { image := some defaultImage, source := some .defaulted, changed := false, op := .idle,
                 attempts := 8 } ∧
      t.tap = { Tap.empty with
        buffer := [{ addr := windowBase defaultImage .notice + 4, value := 0#32, mask := 0xF#4 }] } ∧
      t.notices = { NoticeUnit.empty with inbox := [notice .defaulted 0#32 (word reason.code)] } ∧
      t.sweep = { Sweep.empty with mode := .cyclic, timer := some 60, alarmRef := s.alarmInput } ∧
      t.dispatcher = { Dispatcher.empty with settle := some 20 })

/-- Bus reset (R178): the assertion sets every block to its bus-reset values with the image in force kept and the
hand-offs in flight dropped (assumption log 8) and the producer word of 0 waiting with the Notice Unit (R165,
assumption log 28); the deassertion takes the alarm reference level; before an image is in force only the level
changes (R182). -/
def Obligations.BusResetEvents : Prop :=
  (∀ (s : State) (img : List Byte), s.busReset = false → s.port.image = some img →
    ∃ t, exec .busResetAssert s = .next t ∧ sameBut (.busReset :: blockParts) s t ∧ t.busReset = true ∧
      t.port = { s.port with op := .idle } ∧ t.tap = Tap.empty ∧ t.intake = Intake.empty ∧
      t.store = Store.empty ∧ t.handoffs = Handoffs.empty ∧ t.engine0 = .idle ∧ t.engine1 = .idle ∧
      t.writer = Writer.empty ∧
      t.dispatcher = { Dispatcher.empty with
        settle := if imageByte img 456 = 0 then none else some (imageByte img 456) } ∧
      (∀ i, i < s.records.length → t.recordAt i = { gen := nextGeneration i (s.recordAt i).gen, path := none }) ∧
      t.records.length = s.records.length ∧
      t.sweep = { Sweep.empty with
        mode := if imageByte img 457 = 2 then .cyclic else .stopped
        timer := if imageByte img 457 = 2 then some (imageHalf img 460) else none
        alarmRef := s.alarmInput } ∧
      t.notices = { NoticeUnit.empty with
        out := [{ addr := windowBase img .notice + 4, value := 0#32, publishes := some 0 }] }) ∧
  (∀ s : State, s.busReset = true → s.port.image.isSome = true →
    exec .busResetDeassert s =
      .next { s with busReset := false, sweep := { s.sweep with alarmRef := s.alarmInput } }) ∧
  ∀ s : State, s.port.image = none →
    (s.busReset = false → exec .busResetAssert s = .next { s with busReset := true }) ∧
    (s.busReset = true → exec .busResetDeassert s = .next { s with busReset := false })

/-- The ends of a SAVE (R186, R144) and of a RELOAD (R185, R179, R165). A SAVE read back with other than 512 bytes was
not answered whole (assumption log 6). An invalid image changes nothing but the answer and its notice. A valid one
replaces the image in force; a changed window table discards the stagings, and a changed notice window starts the ring
anew with "reloaded" as its first notice (assumption log 15): sequence, lost count and lost total run on, the words
listed before keep their addresses and publish nothing, and the producer word of 0 follows them (assumption log 37).
The window tables are compared entry by entry, unused ones alike (assumption log 29). R41 acts on the directions whose
receiving node's profile has changed, in the order of assumption log 14: u is the state before it and v the state after
it. -/
def Obligations.SaveAndReloadEnd : Prop :=
  (∀ (s : State) (slot : Nat) (q : Query) (copy bs : List Byte) (altered : Bool),
    s.running = true → s.port.op = .save slot q copy altered → copy.length = 512 →
    (bs = copy → ∃ t, exec (.saveEnd bs) s = .next t ∧ sameBut [.port, .notices, .writer] s t ∧
      t.port = { s.port with op := .idle, changed := s.port.changed && altered } ∧
      handedNotices s t [notice .saved 0#32 0#32] ∧
      offeredAnswer s t (answerTo slot .port q .done 0#32 0xFFFF .none)) ∧
    (bs ≠ copy → ∃ t, exec (.saveEnd bs) s = .next t ∧ sameBut [.port, .notices, .writer] s t ∧
      t.port = { s.port with op := .idle } ∧
      handedNotices s t [notice .saveFailed 0#32 (if bs.length ≠ 512 then 1#32 else 5#32)] ∧
      offeredAnswer s t
        (answerTo slot .port q .saveFailed (if bs.length ≠ 512 then 1#32 else 5#32) 0xFFFF .none))) ∧
  ∀ (s : State) (slot : Nat) (q : Query) (bs : List Byte), s.running = true → s.port.op = .reload slot q →
    (∀ reason, judgeImage bs = some reason → ∃ t, exec (.reloadReadEnd bs) s = .next t ∧
      sameBut [.port, .notices, .writer] s t ∧ t.port = { s.port with op := .idle } ∧
      handedNotices s t [notice .loadFailed 0#32 (word reason.code)] ∧
      offeredAnswer s t (answerTo slot .port q .loadFailed (word reason.code) 0xFFFF .none)) ∧
    (judgeImage bs = none → ∃ t, exec (.reloadReadEnd bs) s = .next t ∧
      sameBut [.port, .tap, .store, .handoffs, .sweep, .notices, .writer] s t ∧
      t.port = { s.port with image := some bs, source := some .reloaded, changed := false, op := .idle } ∧
      offeredAnswer s t (answerTo slot .port q .done 0#32 0xFFFF .none) ∧
      (windowEntries s.image = windowEntries bs → agree s t .tap) ∧
      (windowOf s.image .notice = windowOf bs .notice →
        ∃ ns, handedNotices s t (ns ++ [notice .reloaded 0#32 0#32])) ∧
      ((∀ e ∈ s.store.nodes, profileAt s.image e.2.profile = profileAt bs e.2.profile) →
        agree s t .store ∧ agree s t .handoffs ∧ agree s t .sweep) ∧
      (s.topologyConsistent → ∃ u v, sameBut [.port, .tap, .notices] s u ∧
        u.port = { t.port with op := s.port.op } ∧ u.tap = t.tap ∧
        reprofiledTo u v (fun n => profileAt s.image n.profile != profileAt bs n.profile) ∧
        agree v t .store ∧ agree v t .handoffs ∧ agree v t .sweep ∧
        (windowOf s.image .notice = windowOf bs .notice → u.notices = s.notices ∧
          handedNotices v t [notice .reloaded 0#32 0#32]) ∧
        (windowOf s.image .notice ≠ windowOf bs .notice →
          u.notices.inbox = notice .reloaded 0#32 0#32 :: s.notices.inbox ∧ t.notices = v.notices)) ∧
      (windowEntries s.image ≠ windowEntries bs →
        t.tap = { s.tap with
          reportStagings := [], queryStagings := [],
          abandoned := min (s.tap.abandoned + (s.tap.reportStagings.length + s.tap.queryStagings.length)) 65535 }) ∧
      (windowOf s.image .notice ≠ windowOf bs .notice →
        t.notices.producer = 0 ∧ t.notices.published = 0 ∧ t.notices.consumer = 0 ∧ t.notices.shadow = [] ∧
        t.notices.sequence = s.notices.sequence ∧ t.notices.lost = s.notices.lost ∧
        t.notices.lostTotal = s.notices.lostTotal ∧
        (∃ ns, t.notices.inbox = notice .reloaded 0#32 0#32 :: ns) ∧
        t.notices.out = s.notices.out.map (fun w => { addr := w.addr, value := w.value, publishes := none }) ++
          [{ addr := windowBase bs .notice + 4, value := 0#32, publishes := some 0 }]))

/-! ### The Memory Bus Tap (10) -/

/-- HOST_WRITE (R166, R175, R173): a host write passes the downstream port with its address, data and byte enables,
reaches memory in the bytes it enables, cancels those bytes of a buffered entry of its address, and is answered with
memory's response, in every window and outside all windows. Where the tap takes nothing from it (outside every window,
in the RESULT window, in the NOTICE window at another offset than 0, and while the part does not run) nothing else
changes. The four commands of a host write differ in nothing: its address decides (assumption log 22). HOST_READ (R166,
R174): a word that the buffer holds whole is answered from it and not passed on; otherwise the read passes the
downstream port with its address and byte enables, and the answer holds the buffered bytes of its word and memory's in
the other bytes that it enables (what memory answers in a byte that it does not enable is open, assumption log 34), with
memory's response. g is the state in which the port is granted: a full buffer whose turn it is drains its head first
(R173, assumption log 21). What an access leaves in memory that is answered with an error is open (assumption log 5). -/
def Obligations.HostAccessesAnswered : Prop :=
  (∀ (s : State) (a d : Word) (e : ByteMask) (r : Response),
    exec (.hostWriteReportSlot a d e r) s = exec (.hostWrite a d e r) s ∧
    exec (.hostWriteQuerySlot a d e r) s = exec (.hostWrite a d e r) s ∧
    exec (.consumerIndexWrite a d e r) s = exec (.hostWrite a d e r) s) ∧
  (∀ (s : State) (a d : Word) (e : ByteMask) (r : Response), a.toNat % 4 = 0 →
    ∃ g t, s.granted g ∧ exec (.hostWrite a d e r) s = .next t ∧
      t.downstream = .write a.toNat d e ∧ t.upstream = .write (r == .error) ∧
      (r = .ok → t.freeCount = s.freeCount) ∧
      (∀ x, ¬ (a.toNat ≤ x ∧ x < a.toNat + 4 ∧ e.getLsbD (x - a.toNat) = true) →
        readByte t.memory x = readByte g.memory x) ∧
      (r = .ok → ∀ x, a.toNat ≤ x → x < a.toNat + 4 → e.getLsbD (x - a.toNat) = true →
        readByte t.memory x = byteOf d (x - a.toNat)) ∧
      t.tap.buffer = cancelBytes g.tap.buffer a.toNat e ∧ t.tap.waiting = s.tap.waiting ∧
      t.tap.turn = (if 32 ≤ (cancelBytes g.tap.buffer a.toNat e).length then .buffered else .host) ∧
      ((s.running = false ∨ ∀ w, windowAt s.image a.toNat = some w →
          w.kind = .result ∨ w.kind = .notice ∧ a.toNat ≠ w.base) →
        sameBut [.freeCount, .memory, .upstream, .downstream, .tap] s t ∧
        t.tap.reportStagings = s.tap.reportStagings ∧ t.tap.queryStagings = s.tap.queryStagings ∧
        t.tap.abandoned = s.tap.abandoned)) ∧
  ∀ (s : State) (x : ReadAccess) (a : Nat) (r : Response), a = x.addr.toNat → a % 4 = 0 →
    (∀ y, entryAt s.tap.buffer a = some y → y.mask = 0xF#4 →
      exec (.hostRead x r) s = .next { s with upstream := .read y.value false }) ∧
    ((∀ y, entryAt s.tap.buffer a = some y → y.mask ≠ 0xF#4) →
      ∃ g t w, s.granted g ∧ exec (.hostRead x r) s = .next t ∧
        sameBut [.freeCount, .upstream, .downstream, .tap] g t ∧
        t.tap = { g.tap with turn := if 32 ≤ g.tap.buffer.length then .buffered else .host } ∧
        t.downstream = .read a x.enables ∧ t.upstream = .read w (r == .error) ∧
        (r = .ok → x.enables = 0xF#4 → t.freeCount = s.freeCount) ∧
        (∀ y j, entryAt g.tap.buffer a = some y → j < 4 → y.mask.getLsbD j = true →
          byteOf w j = byteOf y.value j) ∧
        (r = .ok → ∀ j, j < 4 → x.enables.getLsbD j = true →
          (∀ y, entryAt g.tap.buffer a = some y → y.mask.getLsbD j = false) →
          byteOf w j = readByte g.memory (a + j)))

/-- A host read returns the most recent value written by the host or the part (R174): what a read sees changes only by
the bytes of a host write and by the words that the part hands to the write buffer, the producer word of 0 at the end of
the load among them (R184); a drain that the memory takes shows nothing, and no other command changes it but POWER_ON
and BUS_RESET_ASSERT, which empty the buffer, and a drain answered with an error (assumption log 5). What a read is
answered in the bytes that it does not enable is open (assumption log 34). -/
def Obligations.ReadsReturnLatestWrite : Prop :=
  ∀ s : State, s.bufferSound →
    (∀ x : ReadAccess, x.addr.toNat % 4 = 0 →
      ∃ t w, exec (.hostRead x .ok) s = .next t ∧ t.upstream = .read w false ∧
        (∀ j, j < 4 → x.enables.getLsbD j = true → byteOf w j = byteOf (s.hostSees x.addr.toNat) j) ∧
        (x.enables = 0xF#4 → w = s.hostSees x.addr.toNat) ∧
        ∀ b, b % 4 = 0 → t.hostSees b = s.hostSees b) ∧
    (∀ (a d : Word) (e : ByteMask) (t : State), exec (.hostWrite a d e .ok) s = .next t →
      t.hostSees a.toNat = mergeWord (s.hostSees a.toNat) d e ∧
      ∀ b, b % 4 = 0 → b ≠ a.toNat → t.hostSees b = s.hostSees b) ∧
    (∀ (p : Producer) (a : Nat) (w : Word) (t : State), a % 4 = 0 → s.handWord p a w = some t →
      t.hostSees a = w ∧ ∀ b, b % 4 = 0 → b ≠ a → t.hostSees b = s.hostSees b) ∧
    (∀ t, exec (.writeBufferDrain .ok) s = .next t → ∀ b, b % 4 = 0 → t.hostSees b = s.hostSees b) ∧
    ∀ (c : Instr) (t : State), changesReads c = false → exec c s = .next t →
      ∀ b, b % 4 = 0 → t.hostSees b = s.hostSees b

/-- HOST_WRITE_REPORT_SLOT where the write does not complete a record (R167, R168, R170): the write merges byte by byte
into the staging of its slot; the staging is opened with images of 0 and empty masks if none is open, also by a write
with no byte enabled (assumption log 40), and a ninth abandons the oldest with a notice. ws are the words after the
merge. -/
def Obligations.ReportSlotWrite : Prop :=
  ∀ (s : State) (a d : Word) (e : ByteMask) (r : Response) (w : Window) (o slot k : Nat) (ws : List StagedWord),
    s.running = true → a.toNat % 4 = 0 → windowAt s.image a.toNat = some w → w.kind = .report →
    o = a.toNat - w.base → slot = w.base + o / 64 * 64 → k = o % 64 / 4 → ¬ closesRecord ws k 15 →
    (∀ x, s.reportStaging slot = some x → mergedInto x.words ws k d e →
      ∃ t, exec (.hostWriteReportSlot a d e r) s = .next t ∧
        sameBut [.freeCount, .memory, .upstream, .downstream, .tap] s t ∧ t.tap.abandoned = s.tap.abandoned ∧
        t.tap.queryStagings = s.tap.queryStagings ∧
        t.tap.reportStagings = s.tap.reportStagings.map fun y =>
          if y.slot = slot then { y with words := ws } else y) ∧
    (s.reportStaging slot = none → mergedInto (List.replicate 16 { image := 0#32, valid := 0#4 }) ws k d e →
      s.tap.reportStagings.length < 8 → ∃ t, exec (.hostWriteReportSlot a d e r) s = .next t ∧
        sameBut [.freeCount, .memory, .upstream, .downstream, .tap] s t ∧ t.tap.abandoned = s.tap.abandoned ∧
        t.tap.queryStagings = s.tap.queryStagings ∧
        t.tap.reportStagings = s.tap.reportStagings ++ [{ slot := slot, words := ws }]) ∧
    ∀ x rest, s.reportStaging slot = none →
      mergedInto (List.replicate 16 { image := 0#32, valid := 0#4 }) ws k d e →
      s.tap.reportStagings = x :: rest → rest.length = 7 → ∃ t, exec (.hostWriteReportSlot a d e r) s = .next t ∧
        sameBut [.freeCount, .memory, .upstream, .downstream, .tap, .notices] s t ∧
        t.tap.abandoned = min (s.tap.abandoned + 1) 65535 ∧ t.tap.queryStagings = s.tap.queryStagings ∧
        t.tap.reportStagings = rest ++ [{ slot := slot, words := ws }] ∧
        handedNotices s t [notice .stagingAbandoned (word x.slot) (word (validBytes x.words))]

/-- HOST_WRITE_REPORT_SLOT where the write makes the closing word wholly valid (R169, R44): the staging closes, and the
record, marked incomplete when a byte of its words before the closing word is missing, joins the ingest queue or,
with 16 records waiting, is lost as an overrun. A closing word alone completes a record of a slot with no open staging:
its staging opens, abandoning the oldest of eight (R168, R170), and closes again. words are the words staged before, ws
those after the merge, byte by byte, kept the stagings that stay, told and count what an abandonment hands on. -/
def Obligations.ReportCompletion : Prop :=
  ∀ (s : State) (a d : Word) (e : ByteMask) (r : Response) (w : Window) (o slot count : Nat)
      (words ws : List StagedWord) (kept : List ReportStaging) (told : List Notice) (rec : Record),
    s.running = true → a.toNat % 4 = 0 → windowAt s.image a.toNat = some w → w.kind = .report →
    o = a.toNat - w.base → slot = w.base + o / 64 * 64 → o % 64 = 60 →
    ((∃ x, s.reportStaging slot = some x ∧ words = x.words ∧ kept = s.tap.reportStagings ∧ told = [] ∧
        count = s.tap.abandoned) ∨
      s.reportStaging slot = none ∧ words = List.replicate 16 { image := 0#32, valid := 0#4 } ∧
        (s.tap.reportStagings.length < 8 ∧ kept = s.tap.reportStagings ∧ told = [] ∧ count = s.tap.abandoned ∨
          ∃ y, s.tap.reportStagings = y :: kept ∧ kept.length = 7 ∧
            told = [notice .stagingAbandoned (word y.slot) (word (validBytes y.words))] ∧
            count = min (s.tap.abandoned + 1) 65535)) →
    mergedInto words ws 15 d e → closesRecord ws 15 15 → recordOf ws 15 8 rec →
    (s.intake.queue.length < 16 → ∃ t, exec (.hostWriteReportSlot a d e r) s = .next t ∧
      sameBut [.freeCount, .memory, .upstream, .downstream, .tap, .intake, .notices] s t ∧
      t.tap.reportStagings = kept.filter (fun y => y.slot != slot) ∧ t.tap.abandoned = count ∧
      t.tap.queryStagings = s.tap.queryStagings ∧ handedNotices s t told ∧
      t.intake = { s.intake with queue := s.intake.queue ++ [rec] }) ∧
    (16 ≤ s.intake.queue.length → ∃ t, exec (.hostWriteReportSlot a d e r) s = .next t ∧
      sameBut [.freeCount, .memory, .upstream, .downstream, .tap, .intake, .notices] s t ∧
      t.tap.reportStagings = kept.filter (fun y => y.slot != slot) ∧ t.tap.abandoned = count ∧
      t.tap.queryStagings = s.tap.queryStagings ∧
      t.intake = { s.intake with
        counters := { s.intake.counters with overruns := min (s.intake.counters.overruns + 1) 65535 } } ∧
      handedNotices s t (told ++ [notice .overrun (wordAt rec.words 0) (word slot)]))

/-- HOST_WRITE_QUERY_SLOT (R168, R169, R129, R130, R143): a write merges byte by byte into its slot's staging, ws being
the words after the merge (a write with no byte enabled opens a staging too, assumption log 40); the completion in a
slot that no query holds closes the staging, and the query joins the tail of the queue of its priority or is answered
BAD_QUERY. A record is judged by the tests of R129 in their order, the RANGE rows of R130 after its clamps: it gives the
query that its fields spell, or the reason of the first test that it fails, which is the answer's detail. -/
def Obligations.QuerySlotWrite : Prop :=
  (∀ (s : State) (a d : Word) (e : ByteMask) (r : Response) (w : Window) (slot k : Nat) (ws : List StagedWord),
    s.running = true → a.toNat % 4 = 0 → windowAt s.image a.toNat = some w → w.kind = .query →
    slot = (a.toNat - w.base) / 256 → k = (a.toNat - w.base) % 256 / 4 →
    mergedInto ((tableGet s.tap.queryStagings slot).getD (List.replicate 64 { image := 0#32, valid := 0#4 })) ws k d
      e →
    (¬ closesRecord ws k 63 → ∃ t, exec (.hostWriteQuerySlot a d e r) s = .next t ∧
      sameBut [.freeCount, .memory, .upstream, .downstream, .tap] s t ∧
      t.tap.queryStagings = tableSet s.tap.queryStagings slot ws ∧
      t.tap.reportStagings = s.tap.reportStagings ∧ t.tap.abandoned = s.tap.abandoned) ∧
    ∀ raw : RawQuery, closesRecord ws k 63 → recordOf ws 63 7 raw.record →
      raw.settling = s.dispatcher.settle.isSome → tableGet s.dispatcher.slots slot = none →
      ∃ t, exec (.hostWriteQuerySlot a d e r) s = .next t ∧
        sameBut [.freeCount, .memory, .upstream, .downstream, .tap, .dispatcher, .writer] s t ∧
        tableGet t.tap.queryStagings slot = none ∧
        (∀ j, j ≠ slot → tableGet t.tap.queryStagings j = tableGet s.tap.queryStagings j) ∧
        t.tap.reportStagings = s.tap.reportStagings ∧ t.tap.abandoned = s.tap.abandoned ∧
        t.dispatcher.settle = s.dispatcher.settle ∧ t.writer.writing = s.writer.writing ∧
        (∀ j, j ≠ slot → tableGet t.dispatcher.slots j = tableGet s.dispatcher.slots j) ∧
        judgedTo t slot raw s.dispatcher.high s.dispatcher.low s.writer.answers) ∧
  (∀ r : Record, 64 ≤ r.words.length → r.judgedByRows (bits (r.word 63) 24 4) (bits (r.word 63) 16 7)) ∧
  [QueryReason.format, .kind, .length, .incomplete, .range].map QueryReason.code = [256, 257, 258, 259, 260]

/-- HOST_WRITE_QUERY_SLOT where the write completes a record in a slot that is QUEUED or IN_SERVICE (R131, R132,
R103). QUEUED: the earlier query leaves its queue without a result, and a good query of the same priority takes its
place. IN_SERVICE: an engine becomes IDLE and its answer, or that of the dispatcher or the table, is withdrawn; a
query handed on and not yet taken loses its answer; then the new record is judged (as QuerySlotWrite says). Behind a
SAVE or RELOAD it is held as the successor. -/
def Obligations.QueryRewrite : Prop :=
  ∀ (s : State) (a d : Word) (e : ByteMask) (r : Response) (w : Window) (slot : Nat) (ws : List StagedWord)
      (raw : RawQuery),
    s.running = true → a.toNat % 4 = 0 → windowAt s.image a.toNat = some w → w.kind = .query →
    slot = (a.toNat - w.base) / 256 → (a.toNat - w.base) % 256 / 4 = 63 →
    mergedInto ((tableGet s.tap.queryStagings slot).getD (List.replicate 64 { image := 0#32, valid := 0#4 })) ws 63 d
      e →
    closesRecord ws 63 63 → recordOf ws 63 7 raw.record → raw.settling = s.dispatcher.settle.isSome →
    (∀ q, tableGet s.dispatcher.slots slot = some (.queued q) →
      ∃ t, exec (.hostWriteQuerySlot a d e r) s = .next t ∧
        sameBut [.freeCount, .memory, .upstream, .downstream, .tap, .dispatcher, .writer] s t ∧
        tableGet t.tap.queryStagings slot = none ∧ t.dispatcher.settle = s.dispatcher.settle ∧
        t.writer.writing = s.writer.writing ∧
        (∀ j, j ≠ slot → tableGet t.dispatcher.slots j = tableGet s.dispatcher.slots j) ∧
        (∀ x, judgeQuery raw.record = .good x → x.high = q.high →
          tableGet t.dispatcher.slots slot = some (.queued x) ∧ t.dispatcher.high = s.dispatcher.high ∧
          t.dispatcher.low = s.dispatcher.low ∧ t.writer.answers = s.writer.answers) ∧
        ((∀ x, judgeQuery raw.record = .good x → x.high ≠ q.high) →
          judgedTo t slot raw (s.dispatcher.high.filter (· != slot)) (s.dispatcher.low.filter (· != slot))
            s.writer.answers)) ∧
    ∀ v x, tableGet s.dispatcher.slots slot = some (.inService v x) →
      ∃ t, exec (.hostWriteQuerySlot a d e r) s = .next t ∧
        sameBut [.freeCount, .memory, .upstream, .downstream, .tap, .dispatcher, .writer, .engine0, .engine1, .handoffs]
          s t ∧
        tableGet t.tap.queryStagings slot = none ∧ t.dispatcher.settle = s.dispatcher.settle ∧
        t.writer.writing = s.writer.writing ∧
        (∀ j, j ≠ slot → tableGet t.dispatcher.slots j = tableGet s.dispatcher.slots j) ∧
        (∀ g, t.engine g = if v = .engine g then .idle else s.engine g) ∧
        t.handoffs = (if v = .table ∨ v = .sweep then
          { s.handoffs with
            toTable := s.handoffs.toTable.map fun h => if h.slot = some slot then { h with slot := none } else h
            toSweep := s.handoffs.toSweep.map fun h => if h.slot = some slot then { h with slot := none } else h }
          else s.handoffs) ∧
        (v = .port → tableGet t.dispatcher.slots slot = some (.inService .port (some raw)) ∧
          t.dispatcher.high = s.dispatcher.high ∧ t.dispatcher.low = s.dispatcher.low ∧
          t.writer.answers = s.writer.answers) ∧
        (v ≠ .port → judgedTo t slot raw s.dispatcher.high s.dispatcher.low
          (if v = .table ∨ v = .sweep then s.writer.answers
           else s.writer.answers.filter fun y => y.slot != slot))

/-- The write buffer (R172, R173). A part write handed to it is taken by the entry of its address, which moves to the
tail, or takes a free place at the tail unless another producer waits before it, or waits (assumption log 20).
WRITE_BUFFER_DRAIN: the head goes to memory in the bytes of its mask and leaves the buffer; the next turn is the
host's. -/
def Obligations.WriteBuffer : Prop :=
  (∀ (s : State) (x : WriteEntry) (rest : List WriteEntry), s.running = true → s.tap.buffer = x :: rest →
    ∃ t, exec (.writeBufferDrain .ok) s = .next t ∧ sameBut [.memory, .downstream, .tap] s t ∧
      t.tap = { s.tap with buffer := rest, turn := .host } ∧ t.downstream = .write x.addr x.value x.mask ∧
      ∀ b, readByte t.memory b =
        if x.addr ≤ b ∧ b < x.addr + 4 ∧ x.mask.getLsbD (b - x.addr) = true then byteOf x.value (b - x.addr)
        else readByte s.memory b) ∧
  ∀ (s : State) (p : Producer) (a : Nat) (w : Word),
    (∀ x, entryAt s.tap.buffer a = some x → ∃ t, s.handWord p a w = some t ∧ sameBut [.tap] s t ∧
      t.tap.buffer = s.tap.buffer.filter (fun y => y.addr != a) ++ [{ addr := a, value := w, mask := 0xF#4 }]) ∧
    (entryAt s.tap.buffer a = none → s.tap.buffer.length < 32 → (∀ q, s.tap.waiting.head? = some q → q = p) →
      ∃ t, s.handWord p a w = some t ∧ sameBut [.tap] s t ∧
        t.tap.buffer = s.tap.buffer ++ [{ addr := a, value := w, mask := 0xF#4 }] ∧
        t.tap.waiting = s.tap.waiting.filter (· != p) ∧
        t.tap.turn = if s.tap.buffer.length = 31 then .buffered else s.tap.turn) ∧
    (entryAt s.tap.buffer a = none →
      (32 ≤ s.tap.buffer.length ∨ ∃ q, s.tap.waiting.head? = some q ∧ q ≠ p) → s.handWord p a w = none)

/-- RESULT_WORD_HANDOFF (R146, R172): the writer hands its next word to the buffer or waits; with the last word, the
closing word, the answer is written and its query's notice is handed on. The words are composed as the first is
handed on (assumption log 19). NOTICE_WORD_HANDOFF (R161, R172): the Notice Unit hands its next word to the buffer or
waits; a producer word of the ring in force becomes the published producer as it is handed on. -/
def Obligations.WordHandoffs : Prop :=
  (∀ (s u : State) (w : Writing) (a : Nat) (x : Word) (rest : List (Nat × Word)),
    s.running = true → s.writer.writing = some w → w.todo.getD (s.resultWords w.base w.answer) = (a, x) :: rest →
    (s.handWord .resultWriter a x = some u → rest ≠ [] → ∃ t, exec .resultWordHandoff s = .next t ∧
      sameBut [.tap, .writer] s t ∧ t.tap = u.tap ∧
      t.writer = { s.writer with writing := some { w with todo := some rest } }) ∧
    (s.handWord .resultWriter a x = some u → rest = [] → ∃ t, exec .resultWordHandoff s = .next t ∧
      sameBut [.tap, .writer, .notices] s t ∧ t.tap = u.tap ∧ t.writer = { s.writer with writing := none } ∧
      handedNotices s t (if w.answer.notify then
        [notice .queryDone (word w.answer.slot)
          (word (w.answer.tag % 65536 + w.answer.status.code * 65536))] else [])) ∧
    (s.handWord .resultWriter a x = none → ∃ t, exec .resultWordHandoff s = .next t ∧
      sameBut [.tap, .writer] s t ∧ t.tap.buffer = s.tap.buffer ∧ .resultWriter ∈ t.tap.waiting ∧
      t.writer = { s.writer with writing := some { w with todo := some ((a, x) :: rest) } })) ∧
  ∀ (s u : State) (w : NoticeWord) (rest : List NoticeWord), s.running = true → s.notices.out = w :: rest →
    (s.handWord .noticeUnit w.addr w.value = some u → ∃ t, exec .noticeWordHandoff s = .next t ∧
      sameBut [.tap, .notices] s t ∧ t.tap = u.tap ∧
      t.notices = { s.notices with
        out := rest
        published := match w.publishes with | some n => n | none => s.notices.published }) ∧
    (s.handWord .noticeUnit w.addr w.value = none → ∃ t, exec .noticeWordHandoff s = .next t ∧
      sameBut [.tap] s t ∧ t.tap.buffer = s.tap.buffer ∧ .noticeUnit ∈ t.tap.waiting)

/-- The words of a result record (R146, R188, R189, 12 section 12.4): four header words and the body at ascending
addresses, then the closing word at word 127; every field of the header, of the closing word, of path summaries, of hop
entries and of the record body at its place, every bit outside the fields 0; the status and state codes. A hop entry
carries the flag of R69. The flag MARGIN_NEGATIVE is that of the path summaries (assumption log 38). The bodies of
lookups, claims and STATUS stand in DispatchServes. -/
def Obligations.ResultRecordLayout : Prop :=
  (∀ (s : State) (base : Nat) (a : Answer),
    (s.resultWords base a).map (·.1) =
      (List.range (4 + (s.bodyWords a.body).length)).map (fun i => base + 4 * i) ++ [base + 508] ∧
    (s.resultWords base a).getLast? = some (base + 508, closingWord a) ∧
    (s.resultWords base a).map (·.2) =
      headerWords a (s.bodyWords a.body).length ++ s.bodyWords a.body ++ [closingWord a]) ∧
  (∀ (a : Answer) (n : Nat) (negative : Bool),
    (negative = true ↔ (∃ x r, a.body = .path x r ∧ x.margin < 0) ∨
      ∃ x1 r1 x2 r2, a.body = .pair x1 r1 x2 r2 ∧ (x1.margin < 0 ∨ x2.margin < 0)) →
    (∃ w0 w1 w3, headerWords a n = [w0, w1, a.detail, w3] ∧
      spells w0 [(0, 16, a.tag), (16, 8, a.kind), (24, 8, a.slot)] ∧
      spells w1 [(0, 8, a.status.code), (8, 1, a.provisional.toNat), (9, 1, a.clamped.toNat),
        (10, 1, negative.toNat)] ∧
      spells w3 [(0, 32, n)]) ∧
    spells (closingWord a) [(0, 16, a.tag), (16, 4, a.kind), (20, 1, a.provisional.toNat),
      (21, 1, a.clamped.toNat), (22, 1, negative.toNat), (24, 8, a.status.code)]) ∧
  (∀ x : Summary, ∃ w0 w5,
    summaryWords x = [w0, word x.cost, word x.worst, word x.budget, signedWord x.margin, w5, 0#32, 0#32] ∧
    spells w0 [(0, 8, x.hopCount), (8, 8, x.segments), (16, 8, x.restarts), (24, 1, if x.margin < 0 then 1 else 0)] ∧
    spells w5 [(0, 16, x.tag), (16, 16, x.labels)]) ∧
  (∀ (s : State) (regens : List NodeId) (h : Hop) (n : NodeId) (off : Bool),
    (off = false ↔ ∀ id, id = h.sender ∨ id = n →
      ∃ x, s.nodeOf id = some x ∧ slotAddressable (s.profileOf x) h.slot = true) →
    ∃ w, s.hopWords regens h n = [h.sender, w] ∧
      spells w [(0, 16, h.port), (16, 8, h.slot), (24, 1, if n ∈ regens then 1 else 0), (25, 1, off.toNat)]) ∧
  (∀ s : State, s.bodyWords .none = [] ∧ (∀ ws, s.bodyWords (.words ws) = ws) ∧
    s.routeWords none = List.replicate 48 0#32 ∧
    (∀ r, r.hops.length ≤ 24 → s.routeWords (some r) =
      r.received.flatMap (fun e => s.hopWords r.regens e.1 e.2) ++ List.replicate (48 - 2 * r.hops.length) 0#32) ∧
    (∀ x r, s.bodyWords (.path x r) = summaryWords x ++ s.routeWords r ∧ (s.bodyWords (.path x r)).length = 56) ∧
    ∀ x1 r1 x2 r2, (s.bodyWords (.pair x1 r1 x2 r2)).length = 112 ∧ s.bodyWords (.pair x1 r1 x2 r2) =
      summaryWords x1 ++ summaryWords x2 ++ s.routeWords r1 ++ s.routeWords r2) ∧
  (∀ st o partner margin, ∃ w, recordBody st o partner margin = .words [w, signedWord margin] ∧
    spells w [(0, 8, st.code), (8, 1, if o = .adopted then 1 else 0), (16, 16, partner.getD 0xFFFF)]) ∧
  [LpState.reserved, .active, .degraded, .broken].map LpState.code = [1, 2, 3, 4] ∧
  [Status.done, .noPath, .labelsExhausted, .contended, .unstable, .tableFull, .pairPrimaryOnly, .notFound, .conflict,
    .unknownNode, .sameEndpoints, .badQuery, .flushed, .busy, .loadFailed, .saveFailed].map Status.code =
    [1, 2, 3, 4, 5, 6, 7, 8, 9, 10, 11, 12, 13, 14, 15, 16]

/-- CONSUMER_INDEX_WRITE (R162): a full word below the capacity, written to offset 0 of the notice window, becomes the
consumer index; any other value or a part of a word changes nothing of the Notice Unit. A notice line is asserted while
a position of the unconsumed range has a class routed to it (R163), at every moment: that NOTICE_TAKE changes the line
where the unconsumed range holds the producer position is assumption log 41. NOTICE_TAKE (R159, R160, R161): a notice of
a disabled class is discarded; with a full ring (assumption log 39) it is dropped and counted; otherwise it takes the
producer position, the next sequence number and the lost count, and its four words and the producer word join the words
to hand on, in this order (a notice without a port carries port 0, assumption log 32). The words wait for
NOTICE_WORD_HANDOFF (assumption log 37). -/
def Obligations.NoticeRing : Prop :=
  (∀ (s : State) (a d : Word) (e : ByteMask) (r : Response) (w : Window),
    s.running = true → a.toNat % 4 = 0 → windowAt s.image a.toNat = some w → w.kind = .notice →
    a.toNat = w.base → ∃ t, exec (.consumerIndexWrite a d e r) s = .next t ∧
      sameBut [.freeCount, .memory, .upstream, .downstream, .tap, .notices] s t ∧
      (e = 0xF#4 → d.toNat < ringCapacity s.image → t.notices = { s.notices with consumer := d.toNat }) ∧
      (e ≠ 0xF#4 ∨ ringCapacity s.image ≤ d.toNat → t.notices = s.notices)) ∧
  (∀ s : State,
    (s.lineA = true ↔ ∃ i c, i < (s.notices.published + s.capacity - s.notices.consumer) % s.capacity ∧
      tableGet s.notices.shadow ((s.notices.consumer + i) % s.capacity) = some c ∧ (s.routing c).line = .a) ∧
    (s.lineB = true ↔ ∃ i c, i < (s.notices.published + s.capacity - s.notices.consumer) % s.capacity ∧
      tableGet s.notices.shadow ((s.notices.consumer + i) % s.capacity) = some c ∧ (s.routing c).line = .b)) ∧
  ∀ (s : State) (n : Notice) (rest : List Notice) (next : Nat),
    s.running = true → s.notices.inbox = n :: rest → next = (s.notices.producer + 1) % s.capacity →
    ((s.routing n.event.cls).ring = false →
      exec .noticeTake s = .next { s with notices := { s.notices with inbox := rest } }) ∧
    ((s.routing n.event.cls).ring = true → next = s.notices.consumer →
      exec .noticeTake s = .next { s with notices := { s.notices with
        inbox := rest
        lost := min (s.notices.lost + 1) 255
        lostTotal := min (s.notices.lostTotal + 1) 65535 } }) ∧
    ((s.routing n.event.cls).ring = true → next ≠ s.notices.consumer → ∃ t, exec .noticeTake s = .next t ∧
      sameBut [.notices] s t ∧
      t.notices = { s.notices with
        inbox := rest
        producer := next
        shadow := tableSet s.notices.shadow s.notices.producer n.event.cls
        sequence := (s.notices.sequence + 1) % 65536
        lost := 0
        out := t.notices.out } ∧
      t.notices.out.map (fun w => (w.addr, w.value, w.publishes)) =
        s.notices.out.map (fun w => (w.addr, w.value, w.publishes)) ++
        [(s.noticeBase + 16 + 16 * s.notices.producer, n.subject, none),
         (s.noticeBase + 16 + 16 * s.notices.producer + 4, word (n.port % 65536), none),
         (s.noticeBase + 16 + 16 * s.notices.producer + 8, n.detail, none),
         (s.noticeBase + 16 + 16 * s.notices.producer + 12,
          word (s.notices.sequence % 65536 + n.event.cls.code * 65536 + n.event.code * 1048576 +
            s.notices.lost % 256 * 16777216), none),
         (s.noticeBase + 4, word next, some next)])

/-! ### Report Intake and the Topology Store (01, 03) -/

/-- INTAKE_TAKE_RECORD (R45 to R55, R59): the record taken is judged by the five checks in their order, and exactly one
of the six counters of the outcomes rises; a report about no link also counts as no-link, whatever it was accepted as;
the overruns do not change. A record that is filtered, unattributed or dropped for quarantine, and one of unknown format
under IGNORE, changes nothing but the queue and its counter (R46, R52 to R54). Intake takes a record when no observation
waits (assumption log 9). Of a record of 16 words: it is malformed for the first of the tests of R47 to R49 that it
fails, and the filter passes it as R52 says. -/
def Obligations.IntakeCountsOnce : Prop :=
  (∀ r : Record, 16 ≤ r.words.length → ∀ reason, malformed r = some reason ↔
    r.failsReport (bits (r.word 15) 24 4) (bits (r.word 1) 24 4) (bits (r.word 15) 16 8) reason) ∧
  (∀ code k, reportKind code = some k ↔ (code, k) ∈ [(1, ReportKind.nodeAnnounce), (2, .nodeWithdraw),
    (3, .adjacencyClaim), (4, .spanCondition), (5, .channelState)]) ∧
  (∀ img code k id, reportKind code = some k → (filterPasses img k id = true ↔ passesFilter img code id)) ∧
  ∀ (s : State) (r : Record) (rest : List Record) (c : Counters),
    s.running = true → s.handoffs.observations = [] → s.intake.queue = r :: rest → c = s.intake.counters →
    ∃ t, exec .intakeTakeRecord s = .next t ∧ sameBut [.intake, .store, .handoffs, .notices, .sweep] s t ∧
      t.intake.queue = rest ∧
      (if r.reportFormat ≠ 1 then
         t.intake.counters = { c with unknownFormat := min (c.unknownFormat + 1) 65535 } ∧
         (s.globals.unknownFormat = 0 → sameBut [.intake] s t)
       else match malformed r, reportKind r.reportKindCode with
         | some _, _ => t.intake.counters = { c with malformed := min (c.malformed + 1) 65535 }
         | none, none => False
         | none, some k =>
           if filterPasses s.image k r.reporter = false then
             t.intake.counters = { c with filtered := min (c.filtered + 1) 65535 } ∧ sameBut [.intake] s t
           else match s.nodeOf r.reporter with
             | none =>
               if k = .nodeAnnounce then t.intake.counters = { c with accepted := min (c.accepted + 1) 65535 }
               else t.intake.counters = { c with unattributed := min (c.unattributed + 1) 65535 } ∧
                 sameBut [.intake] s t
             | some n =>
               if n.quarantined = true ∧ k ≠ .nodeWithdraw then
                 t.intake.counters = { c with quarantineDrops := min (c.quarantineDrops + 1) 65535 } ∧
                   sameBut [.intake] s t
               else if (k = .spanCondition ∨ k = .channelState) ∧
                   (s.indexOf r.reporter).bind (fun i => s.describedDirection i r.localPort) = none then
                 t.intake.counters = { c with accepted := min (c.accepted + 1) 65535
                                              noLink := min (c.noLink + 1) 65535 }
               else t.intake.counters = { c with accepted := min (c.accepted + 1) 65535 })

/-- A malformed record (R51, R56, R57), and under FAULT handling one of unknown format (R46): the notice with its
reason's code; of a known reporter that is not quarantined the fault score raised, and quarantine with its event and
notice when the score reaches the threshold; of an unknown or a quarantined reporter no score. Which records are
malformed, and for which reason, stands in IntakeCountsOnce. -/
def Obligations.MalformedRecordScores : Prop :=
  [MalformReason.kind, .length, .incomplete, .range, .format].map MalformReason.code = [1, 2, 3, 4, 5] ∧
  ∀ (s : State) (r : Record) (rest : List Record) (reason : MalformReason),
    s.running = true → s.handoffs.observations = [] → s.intake.queue = r :: rest →
    (r.reportFormat = 1 ∧ malformed r = some reason ∨
      r.reportFormat ≠ 1 ∧ s.globals.unknownFormat = 1 ∧ reason = .format) →
    ((s.nodeEntry r.reporter = none ∨ ∃ i n, s.nodeEntry r.reporter = some (i, n) ∧ n.quarantined = true) →
      ∃ t, exec .intakeTakeRecord s = .next t ∧ sameBut [.intake, .notices] s t ∧ t.intake.queue = rest ∧
        handedNotices s t [notice .malformedRecord r.reporter (word reason.code)]) ∧
    ∀ i n score, s.nodeEntry r.reporter = some (i, n) → n.quarantined = false →
      score = min (n.faultScore + 1) 63 →
      (score < (s.profileOf n).faultThreshold → ∃ t, exec .intakeTakeRecord s = .next t ∧
        sameBut [.intake, .store, .notices] s t ∧ t.intake.queue = rest ∧
        t.store = { s.store with nodes := tableUpdate s.store.nodes i fun m => { m with faultScore := score } } ∧
        handedNotices s t [notice .malformedRecord r.reporter (word reason.code)]) ∧
      ((s.profileOf n).faultThreshold ≤ score → ∃ t, exec .intakeTakeRecord s = .next t ∧
        sameBut [.intake, .store, .handoffs, .notices] s t ∧ t.intake.queue = rest ∧
        t.store.nodes = tableUpdate s.store.nodes i (fun m => { m with faultScore := score, quarantined := true }) ∧
        t.store.claims = s.store.claims ∧ t.store.links = s.store.links ∧
        t.handoffs = { s.handoffs with
          intakeToTable := s.handoffs.intakeToTable ++ [{ subject := .node r.reporter, cause := .quarantined }] } ∧
        handedNotices s t [notice .malformedRecord r.reporter (word reason.code),
          notice .quarantined r.reporter (word score)])

/-- A NODE_ANNOUNCE from an unknown reporter (R2, R50, R66): the node at the lowest free index with the fields that the
rule lists, and the notice; with 256 nodes only the notice "node table full". -/
def Obligations.AnnounceCreatesNode : Prop :=
  ∀ (s : State) (r : Record) (rest : List Record) (p : Profile),
    s.running = true → s.handoffs.observations = [] → s.intake.queue = r :: rest → r.reportFormat = 1 →
    malformed r = none → reportKind r.reportKindCode = some .nodeAnnounce →
    filterPasses s.image .nodeAnnounce r.reporter = true → s.nodeEntry r.reporter = none →
    p = profileAt s.image (bits (r.word 1) 0 8) →
    (s.store.nodes.length < 256 → ∃ t, exec .intakeTakeRecord s = .next t ∧
      sameBut [.intake, .store, .notices] s t ∧
      t.store.nodes = tableSet s.store.nodes (lowestFree s.store.nodes)
        { id := r.reporter, profile := bits (r.word 1) 0 8, liveness := .live, quarantined := false, faultScore := 0
          refresh := max 1 (min 60 (bits (r.word 1) 8 8)), hold := 3 * max 1 (min 60 (bits (r.word 1) 8 8))
          regenTotal := min 15 (bits (r.word 1) 16 8), regenInUse := s.regenPoints r.reporter
          regenCost := min (bits (r.word 2) 0 16 * p.multiplier) 65535
          addNoise := (convertNoise p (r.word 3)).1, dropNoise := (convertNoise p (r.word 4)).1
          expressNoise := (convertNoise p (r.word 5)).1
          clamped := (convertNoise p (r.word 3)).2 || (convertNoise p (r.word 4)).2 || (convertNoise p (r.word 5)).2
          ports := [] } ∧
      t.store.claims = s.store.claims ∧ t.store.links = s.store.links ∧
      handedNotices s t [notice .newNode r.reporter (word (lowestFree s.store.nodes))]) ∧
    (256 ≤ s.store.nodes.length → ∃ t, exec .intakeTakeRecord s = .next t ∧ sameBut [.intake, .notices] s t ∧
      handedNotices s t [notice .nodeTableFull r.reporter 0#32])

/-- An ADJACENCY_CLAIM that matches a stored claim (R12, R13, R17): a link at the lowest free index, end 0 at the stored
claim's port and end 1 at the claimant's, both directions as R17 forms them; both claims leave the claim table, both
port entries become link ends, and the notice "formed" is handed on. -/
def Obligations.MatchingClaimFormsLink : Prop :=
  ∀ (s : State) (r : Record) (rest : List Record) (i b pa pb k : Nat) (n : Node) (c : Claim) (fresh : Direction),
    s.running = true → s.handoffs.observations = [] → s.intake.queue = r :: rest → r.reportFormat = 1 →
    malformed r = none → reportKind r.reportKindCode = some .adjacencyClaim →
    filterPasses s.image .adjacencyClaim r.reporter = true → s.topologyConsistent →
    s.nodeEntry r.reporter = some (i, n) → n.quarantined = false → n.liveness = .live →
    bit (r.word 1) 16 = false → pa = bits (r.word 1) 0 16 → pb = bits (r.word 3) 0 16 →
    s.indexOf (r.word 2) = some b → s.claimAt b pb = some c → c.heardId = r.reporter → c.heardPort = pa →
    (s.portAt i pa = some .claim ∨ s.portAt i pa = none ∧ n.ports.length < 16) →
    s.store.links.length < 1024 → k = lowestFree s.store.links →
    fresh = { cond := .unknown, count := 0, holdoff := none, flap := 0, suppressed := false, latched := false
              noise := 1048576, cost := 65535, clamped := false, lit := 0#80 } →
    ∃ t, exec .intakeTakeRecord s = .next t ∧ sameBut [.intake, .store, .notices] s t ∧
      t.linkAt k = some { end0 := { node := b, port := pb }, end1 := { node := i, port := pa }, risks := []
                          dir0 := fresh, dir1 := fresh } ∧
      (∀ j, j ≠ k → t.linkAt j = s.linkAt j) ∧
      t.portAt b pb = some (.linkEnd k .zero) ∧ t.portAt i pa = some (.linkEnd k .one) ∧
      t.store.claims = s.store.claims.filter (fun x => !x.isAt b pb && !x.isAt i pa) ∧
      (∀ j, j ≠ i → j ≠ b → t.nodeAt j = s.nodeAt j) ∧
      handedNotices s t [linkNotice .formed r.reporter pa (word k)]

/-- An accepted ADJACENCY_CLAIM (R9 to R18), u being the state in which the record is accepted and not yet applied. With
the withdraw flag it removes the link or the claim of its port, or has no effect (R11). Without it, a claim at a link's
end that hears the other end confirms the link; one that hears another port removes the link, and the claim is then met
in the state v (R12). A claim at a port that is no link end is met at once: refused for a full port table (R9), stored
or replaced, the oldest evicted from a full claim table (R10, R14), stored beside its match where the link table is full
(R15, the eviction's notice first, assumption log 11), or made a link (R13, R17). The order of the two hop-lost events
of a removed link is assumption log 14. -/
def Obligations.ClaimOutcomes : Prop :=
  ∀ (s : State) (r : Record) (rest : List Record) (i pa : Nat) (n : Node) (c : Claim),
    accepts s r rest .adjacencyClaim i n → pa = bits (r.word 1) 0 16 →
    c = { claimant := i, port := pa, heardId := r.word 2, heardPort := bits (r.word 3) 0 16, timer := 3 * n.refresh } →
    ∃ t u, exec .intakeTakeRecord s = .next t ∧ acceptedTo s u rest i n ∧
      (bit (r.word 1) 16 = true →
        (s.portAt i pa = none → t = u) ∧
        (∀ k d, s.portAt i pa = some (.linkEnd k d) → linkRemoved u t k) ∧
        (s.portAt i pa = some .claim → sameBut [.store] u t ∧ portsChanged u t ∧
          t.store.claims = u.store.claims.filter (fun x => !x.isAt i pa) ∧ t.store.links = u.store.links ∧
          ∀ j p, t.portAt j p = if j = i ∧ p = pa then none else s.portAt j p)) ∧
      (bit (r.word 1) 16 = false →
        (∀ k d l, s.portAt i pa = some (.linkEnd k d) → s.linkAt k = some l →
          (s.idAt (l.endAt (opposite d)).node = c.heardId ∧ (l.endAt (opposite d)).port = c.heardPort → t = u) ∧
          (¬ (s.idAt (l.endAt (opposite d)).node = c.heardId ∧ (l.endAt (opposite d)).port = c.heardPort) →
            ∃ v, linkRemoved u v k ∧ claimMet v t n.id c)) ∧
        ((∀ k d, s.portAt i pa ≠ some (.linkEnd k d)) → claimMet u t n.id c))

/-- An accepted SPAN_CONDITION or CHANNEL_STATE about a direction (R5, R20 to R23, R55, R56). The node is LIVE with
its hold timer restarted and its score lowered. A SPAN_CONDITION stores noise, cost and shared risks and hands on its
observation; a change of noise is significant when the direction was in service as the record was taken (assumption
log 12). A CHANNEL_STATE replaces the lit set and hands on a lit check, which names the ends of its link too (assumption
log 36). One about a port that is no link's end is accepted and changes nothing more but its counter (R20). -/
def Obligations.SpanAndChannelReports : Prop :=
  (∀ (s : State) (r : Record) (rest : List Record) (i : Nat) (n : Node) (kind : ReportKind),
    kind = .spanCondition ∨ kind = .channelState → accepts s r rest kind i n →
    s.describedDirection i r.localPort = none →
    ∃ u, acceptedTo s u rest i n ∧ exec .intakeTakeRecord s = .next { u with intake := { u.intake with
      counters := { u.intake.counters with noLink := min (u.intake.counters.noLink + 1) 65535 } } }) ∧
  ∀ (s : State) (r : Record) (rest : List Record) (i k : Nat) (n : Node) (d : Dir) (l : Link) (x : Direction)
      (p : Profile),
    s.describedDirection i r.localPort = some (k, d) → s.linkAt k = some l → x = l.direction d → p = s.profileOf n →
    (∀ (noise cost : Nat) (significant : Prop), accepts s r rest .spanCondition i n →
      noise = (convertNoise p (r.word 2)).1 →
      cost = min ((if bits (r.word 3) 0 16 = 0 then 1 else bits (r.word 3) 0 16) * p.multiplier) 65535 →
      (significant ↔ s.inService k d = true ∧ noise ≠ x.noise ∧
        s.globals.linkChange ≤ ((noise : Int) - (x.noise : Int)).natAbs) →
      ∃ t ids, exec .intakeTakeRecord s = .next t ∧ sameBut [.intake, .store, .handoffs, .notices, .sweep] s t ∧
        t.intake = acceptedIntake s rest ∧ t.nodeAt i = some n.proved ∧ (∀ j, j ≠ i → t.nodeAt j = s.nodeAt j) ∧
        t.store.claims = s.store.claims ∧ (∀ j, j ≠ k → t.linkAt j = s.linkAt j) ∧
        t.linkAt k = some { l.withDirection d
          { x with noise := noise, clamped := (convertNoise p (r.word 2)).2, cost := cost } with risks := ids } ∧
        ids.Nodup ∧ ids.Sublist r.riskIds ∧ (∀ w, w ∈ r.riskIds → w ∈ ids) ∧
        t.handoffs = { s.handoffs with
          observations := [{ link := k, dir := d, up := decide (bits (r.word 1) 16 8 = 1) }] } ∧
        t.sweep = { s.sweep with pendingSet := t.sweep.pendingSet } ∧
        (∀ j, j ∈ t.sweep.pendingSet ↔ j ∈ s.sweep.pendingSet ∨ s.namesRevived n j ∨
          significant ∧ ∃ q, s.lightpathAt j = some q ∧ s.routeOn q.route k d = true) ∧
        (significant → handedNotices s t
          (aliveNotices i n ++ [linkNotice .significantChange n.id r.localPort (word noise)])) ∧
        (¬ significant → handedNotices s t (aliveNotices i n))) ∧
    (accepts s r rest .channelState i n →
      ∃ t, exec .intakeTakeRecord s = .next t ∧ sameBut [.intake, .store, .handoffs, .notices, .sweep] s t ∧
        t.intake = acceptedIntake s rest ∧ t.nodeAt i = some n.proved ∧ (∀ j, j ≠ i → t.nodeAt j = s.nodeAt j) ∧
        t.store.claims = s.store.claims ∧ (∀ j, j ≠ k → t.linkAt j = s.linkAt j) ∧
        t.linkAt k = some (l.withDirection d { x with lit := mapLit p r.litMap }) ∧
        t.handoffs = { s.handoffs with
          storeToTable := s.handoffs.storeToTable ++
            [.litCheck k d (s.endName (l.endAt (opposite d))) (s.endName (l.endAt d))] } ∧
        t.sweep = { s.sweep with pendingSet := t.sweep.pendingSet } ∧
        (∀ j, j ∈ t.sweep.pendingSet ↔ j ∈ s.sweep.pendingSet ∨ s.namesRevived n j) ∧
        handedNotices s t (aliveNotices i n))

/-- A NODE_ANNOUNCE from a known node (R3, R5, R41, R50, R66): the fields that the rule lists are replaced, its other
fields and every other node, claim and link stay; with another profile R41 then acts on the directions that arrive at
the node. A NODE_WITHDRAW (R8), taken from a quarantined node too: the node is proved alive, removed as R8 says, and
reported. u is the state between the two. The order of several directions, the two of a removed link among them, is
assumption log 14, that of the links and the place of the notice "withdrawn" assumption log 10. -/
def Obligations.RefreshAndWithdraw : Prop :=
  ∀ (s : State) (r : Record) (rest : List Record) (i : Nat) (n : Node),
    (∀ (p : Profile), accepts s r rest .nodeAnnounce i n → p = profileAt s.image (bits (r.word 1) 0 8) →
      ∃ t u, exec .intakeTakeRecord s = .next t ∧ sameBut [.intake, .store, .notices, .sweep] s u ∧
        u.intake = acceptedIntake s rest ∧
        u.nodeAt i = some { n.proved with
          profile := bits (r.word 1) 0 8
          refresh := max 1 (min 60 (bits (r.word 1) 8 8))
          hold := 3 * max 1 (min 60 (bits (r.word 1) 8 8))
          regenTotal := min 15 (bits (r.word 1) 16 8)
          regenCost := min (bits (r.word 2) 0 16 * p.multiplier) 65535
          addNoise := (convertNoise p (r.word 3)).1
          dropNoise := (convertNoise p (r.word 4)).1
          expressNoise := (convertNoise p (r.word 5)).1
          clamped := (convertNoise p (r.word 3)).2 || (convertNoise p (r.word 4)).2 ||
            (convertNoise p (r.word 5)).2 } ∧
        (∀ j, j ≠ i → u.nodeAt j = s.nodeAt j) ∧ u.store.claims = s.store.claims ∧ u.store.links = s.store.links ∧
        u.sweep = { s.sweep with pendingSet := u.sweep.pendingSet } ∧
        (∀ j, j ∈ u.sweep.pendingSet ↔ j ∈ s.sweep.pendingSet ∨ s.namesRevived n j) ∧
        handedNotices s u (aliveNotices i n) ∧
        (bits (r.word 1) 0 8 = n.profile → t = u) ∧
        (bits (r.word 1) 0 8 ≠ n.profile → agree u t .dispatcher ∧ agree u t .writer ∧
          reprofiledTo u t fun m => m.id == n.id)) ∧
    (accepts s r rest .nodeWithdraw i n →
      ∃ t ks, exec .intakeTakeRecord s = .next t ∧ sameBut [.intake, .store, .handoffs, .notices, .sweep] s t ∧
        t.intake = acceptedIntake s rest ∧ nodeRemoved s t i n ks ∧
        t.sweep = { s.sweep with pendingSet := t.sweep.pendingSet } ∧
        (∀ j, j ∈ t.sweep.pendingSet ↔ j ∈ s.sweep.pendingSet ∨ s.namesRevived n j) ∧
        handedNotices s t (aliveNotices i n ++ ks.flatMap s.linkRemovedNotice ++
          [notice .withdrawn n.id (word i)]))

/-- NODE_HOLD_EXPIRY (R6, R7, R8): with its count come to its last event, a LIVE node becomes STALE with its timer
started again; a STALE node is removed with its links, its claims and the claims that hear it, everything else in the
store stays, and the notice "aged out" follows those of the removal (assumption log 10; the order of a link's two
hop-lost events: assumption log 14). A timer that a record has started again does not expire (R7, assumption log 2). -/
def Obligations.NodeHoldExpiry : Prop :=
  ∀ (s : State) (i : Nat) (n : Node), s.running = true → s.nodeAt i = some n →
    (n.hold ≠ 0 → exec (.nodeHoldExpiry i) s = .next s) ∧
    (n.hold = 0 → n.liveness = .live → ∃ t, exec (.nodeHoldExpiry i) s = .next t ∧
      sameBut [.store, .handoffs, .notices] s t ∧
      t.nodeAt i = some { n with liveness := .stale, hold := 3 * n.refresh } ∧
      (∀ j, j ≠ i → t.nodeAt j = s.nodeAt j) ∧ t.store.claims = s.store.claims ∧ t.store.links = s.store.links ∧
      t.handoffs = { s.handoffs with
        storeToTable := s.handoffs.storeToTable ++ [.hopLost { subject := .node n.id, cause := .nodeStale }] } ∧
      handedNotices s t [notice .stale n.id (word i)]) ∧
    (n.hold = 0 → n.liveness = .stale → s.topologyConsistent → ∃ t ks, exec (.nodeHoldExpiry i) s = .next t ∧
      sameBut [.store, .handoffs, .notices] s t ∧ nodeRemoved s t i n ks ∧
      handedNotices s t (ks.flatMap s.linkRemovedNotice ++ [notice .agedOut n.id (word i)]))

/-- The expiries that concern one timer, each of which acts when the timer's count has come to its last event and leaves
everything as it is when the timer is stopped or has been started again (R187, assumption log 2): a claim hold timer
removes the claim and its port entry with no notice (R16), a hold-off timer takes its direction from HOLDOFF to DOWN
(R32), the settle timer makes the dispatcher SETTLED (R135), a reservation timer frees its record with the notice
"expired" (R117, R111, R107), its partner losing its partner tag and its regenerators being given up (R110). -/
def Obligations.Expiries : Prop :=
  ∀ s : State, s.running = true →
    (∀ i p c, s.claimAt i p = some c →
      (c.timer ≠ 0 → exec (.claimHoldExpiry i p) s = .next s) ∧
      (c.timer = 0 → ∃ t, exec (.claimHoldExpiry i p) s = .next t ∧ sameBut [.store] s t ∧
        t.store.claims = s.store.claims.filter (fun x => !x.isAt i p) ∧ t.claimAt i p = none ∧
        t.portAt i p = none ∧ (∀ j q, (j, q) ≠ (i, p) → t.portAt j q = s.portAt j q) ∧
        portsChanged s t ∧ t.store.links = s.store.links)) ∧
    (∀ k d l x, s.linkAt k = some l → x = l.direction d → x.cond = .holdoff →
      (x.holdoff ≠ some 0 → exec (.holdoffExpiry k d) s = .next s) ∧
      (x.holdoff = some 0 → ∃ t, exec (.holdoffExpiry k d) s = .next t ∧ sameBut [.store] s t ∧
        t.linkAt k = some (l.withDirection d { x with cond := .down, holdoff := none }) ∧
        (∀ j, j ≠ k → t.linkAt j = s.linkAt j) ∧
        t.store.nodes = s.store.nodes ∧ t.store.claims = s.store.claims)) ∧
    (s.dispatcher.settle ≠ some 0 → exec .settleTimerExpiry s = .next s) ∧
    (s.dispatcher.settle = some 0 →
      exec .settleTimerExpiry s = .next { s with dispatcher := { s.dispatcher with settle := none } }) ∧
    ∀ i p, s.lightpathAt i = some p →
      (p.timer ≠ some 0 → exec (.reservationExpiry i) s = .next s) ∧
      (p.timer = some 0 → ∃ t, exec (.reservationExpiry i) s = .next t ∧
        sameBut [.store, .records, .notices] s t ∧ recordFreed s t i p ∧
        handedNotices s t
          [notice .expired (word ((s.recordAt i).gen * 128 + i)) (if p.state = .reserved then 1#32 else 2#32)])

/-! ### The Span Conditioner (02) -/

/-- OBSERVATION_UP (R28, R29, R33, R34, R36), by the condition state; the rest of its link and every other link stay. On
a return to service the records with a hop on the direction join the pending-evaluation set (R39). -/
def Obligations.ObservationUp : Prop :=
  ∀ (s : State) (k : Nat) (d : Dir) (rest : List Observation) (l : Link) (x : Direction) (p : Profile),
    s.running = true → s.handoffs.observations = { link := k, dir := d, up := true } :: rest →
    s.linkAt k = some l → x = l.direction d → p = s.receiverProfile l d →
    ∃ t y, exec .observationUp s = .next t ∧ sameBut [.handoffs, .store, .notices, .sweep] s t ∧
      t.handoffs = { s.handoffs with observations := rest } ∧ returnsEvaluated s t ∧
      t.linkAt k = some (l.withDirection d y) ∧ (∀ j, j ≠ k → t.linkAt j = s.linkAt j) ∧
      t.store.nodes = s.store.nodes ∧ t.store.claims = s.store.claims ∧
      (x.cond = .unknown ∨ x.cond = .down →
        y = if p.upPersistence ≤ 1 then { x with cond := .up, count := 0 }
            else { x with cond := .rising, count := 1 }) ∧
      (x.cond = .rising →
        y = if p.upPersistence ≤ x.count + 1 then { x with cond := .up, count := 0 }
            else { x with count := x.count + 1 }) ∧
      (x.cond = .up →
        y = if x.suppressed = true ∧ x.latched = false ∧ x.flap - 1 ≤ p.reuse then
              { x with flap := x.flap - 1, suppressed := false }
            else { x with flap := x.flap - 1 }) ∧
      (x.cond = .falling → y = { x with cond := .up, count := 0 }) ∧
      (x.cond = .holdoff → y = x) ∧
      handedNotices s t
        (if y.cond = .up ∧ (x.cond = .unknown ∨ x.cond = .rising ∨ x.cond = .down) then
          [s.directionNotice l d .up x.flap]
         else if x.suppressed = true ∧ y.suppressed = false then [s.directionNotice l d .unsuppressed (x.flap - 1)]
         else [])

/-- OBSERVATION_DOWN (R28, R30, R31, R35), by the condition state: a confirmed failure raises the flap score by 16,
starts the hold-off, raises a hop-lost event, hands on the notice, and may set suppression. Nothing else of the link or
of another changes. -/
def Obligations.ObservationDown : Prop :=
  ∀ (s : State) (k : Nat) (d : Dir) (rest : List Observation) (l : Link) (x : Direction) (p : Profile)
      (confirmed : Prop),
    s.running = true → s.handoffs.observations = { link := k, dir := d, up := false } :: rest →
    s.linkAt k = some l → x = l.direction d → p = s.receiverProfile l d →
    (confirmed ↔ x.cond = .up ∧ p.downPersistence ≤ 1 ∨ x.cond = .falling ∧ p.downPersistence ≤ x.count + 1) →
    ∃ t y, exec .observationDown s = .next t ∧ sameBut [.handoffs, .store, .notices] s t ∧
      t.linkAt k = some (l.withDirection d y) ∧ (∀ j, j ≠ k → t.linkAt j = s.linkAt j) ∧
      t.store.nodes = s.store.nodes ∧ t.store.claims = s.store.claims ∧
      (¬ confirmed → t.handoffs = { s.handoffs with observations := rest } ∧ handedNotices s t [] ∧
        (x.cond = .unknown ∨ x.cond = .rising → y = { x with cond := .down, count := 0 }) ∧
        (x.cond = .up → y = { x with cond := .falling, count := 1 }) ∧
        (x.cond = .falling → y = { x with count := x.count + 1 }) ∧
        (x.cond = .holdoff ∨ x.cond = .down → y = x)) ∧
      (confirmed →
        t.handoffs = { s.handoffs with
          observations := rest
          conditionerToTable := s.handoffs.conditionerToTable ++
            [{ subject := s.directionSubject l k d, cause := .confirmedDown }] } ∧
        y = { x with
          flap := min (x.flap + 16) 255
          count := 0
          cond := if 0 < p.holdoff then .holdoff else .down
          holdoff := if 0 < p.holdoff then some p.holdoff else none
          suppressed := y.suppressed
          latched := y.latched } ∧
        (x.suppressed = false ∧ p.suppress ≤ y.flap → y.suppressed = true ∧ y.latched = p.latch ∧
          handedNotices s t [s.directionNotice l d .confirmedDown y.flap, s.directionNotice l d .suppressed y.flap]) ∧
        (¬ (x.suppressed = false ∧ p.suppress ≤ y.flap) → y.suppressed = x.suppressed ∧ y.latched = x.latched ∧
          handedNotices s t [s.directionNotice l d .confirmedDown y.flap]))

/-! ### The Query Dispatcher and the Result Writer (07) -/

/-- DISPATCH_QUERY chooses (R133): whenever a queued query can be served it takes one, the oldest servable query of the
high queue, and one of the low queue only when the high queue has none that can be served; a search can be served only
with an engine IDLE. With nothing that can be served nothing changes (assumption log 1). -/
def Obligations.DispatchChoosesOldest : Prop :=
  (∀ (s : State) (slot : Nat), s.nextSlot = some slot →
    (∃ before after, s.dispatcher.high = before ++ slot :: after ∧ s.servable slot = true ∧
      ∀ x ∈ before, s.servable x = false) ∨
    ((∀ x ∈ s.dispatcher.high, s.servable x = false) ∧
      ∃ before after, s.dispatcher.low = before ++ slot :: after ∧ s.servable slot = true ∧
        ∀ x ∈ before, s.servable x = false)) ∧
  (∀ (s : State) (slot : Nat), s.servable slot = true ↔ ∃ q, tableGet s.dispatcher.slots slot = some (.queued q) ∧
    ((∃ r, q.body = .find r ∨ q.body = .findPair r) → s.engine0 = .idle ∨ s.engine1 = .idle)) ∧
  (∀ s : State, s.nextSlot = none ↔ ∀ x ∈ s.dispatcher.high ++ s.dispatcher.low, s.servable x = false) ∧
  ∀ s : State, s.running = true → s.nextSlot = none → exec .dispatchQuery s = .next s

/-- DISPATCH_QUERY of a FIND or FIND_PAIR (R76, R77, R80, R134): with both endpoints LIVE and not quarantined the search
goes to Engine 0 if it is IDLE, else to Engine 1, which begins with one label at the source; otherwise it is
answered. -/
def Obligations.SearchAssigned : Prop :=
  ∀ (s : State) (slot : Nat) (q x : Query) (r : FindReq) (pair : Bool),
    s.running = true → s.nextSlot = some slot → s.queuedQuery slot = some q →
    q.body = (if pair then .findPair r else .find r) → x = { q with provisional := s.dispatcher.settle.isSome } →
    (s.fitNode r.source = true → s.fitNode r.dest = true → r.source ≠ r.dest →
      ∀ e, e = (if s.engine0 = .idle then EngineId.e0 else EngineId.e1) → ∃ t, exec .dispatchQuery s = .next t ∧
        sameBut [.dispatcher, enginePart e] s t ∧ t.dispatcher = s.readied slot (.engine e) ∧
        t.engine e = .searching
          { slot := slot, query := x, req := r, pair := pair
            budget := budgetOf r.q r.m, restarts := 0, phase := .primary, labelsUsed := 0 }
          [{ node := r.source, mask := slotRange r.lo r.hi, cost := 0, noise := s.addNoise r.source, hops := 0
             regens := 0, parent := none, arrival := none, regenHere := false, closed := false }]) ∧
    ∀ st n, (s.fitNode r.source = false ∧ st = .unknownNode ∧ n = 1 ∨
        s.fitNode r.source = true ∧ s.fitNode r.dest = false ∧ st = .unknownNode ∧ n = 2 ∨
        s.fitNode r.source = true ∧ s.fitNode r.dest = true ∧ r.source = r.dest ∧ st = .sameEndpoints ∧ n = 0) →
      ∃ t, exec .dispatchQuery s = .next t ∧ sameBut [.dispatcher, .writer] s t ∧
        t.dispatcher = s.readied slot .answered ∧
        offeredAnswer s t (answerTo slot .dispatcher x st (word n) 0xFFFF (emptyBody q.kind))

/-- DISPATCH_QUERY of a FLUSH (R140, R25, R104, R127, R135, R157): every busy engine's query is answered FLUSHED, Engine
0 first, an answer not yet taken being replaced in its place (the labels that it reports: assumption log 24); the store
is emptied, every record is FREE with its generation advanced, the Sweep Unit keeps only CYCLIC mode, the settle timer
starts at the interval in force, the other queries stay queued, and the answer is DONE. -/
def Obligations.FlushEmpties : Prop :=
  ∀ (s : State) (slot : Nat) (q : Query),
    s.running = true → s.nextSlot = some slot → s.queuedQuery slot = some q → q.body = .flush →
    ∃ t, exec .dispatchQuery s = .next t ∧
      sameBut [.store, .dispatcher, .engine0, .engine1, .records, .sweep, .writer] s t ∧
      (∀ e, t.engine e = (s.engine e).flushed) ∧
      t.store = { nodes := [], claims := [], links := [] } ∧ t.records.length = s.records.length ∧
      (∀ i, i < s.records.length → t.recordAt i = { gen := nextGeneration i (s.recordAt i).gen, path := none }) ∧
      t.sweep = { s.sweep with
        pass := none, walkCount := 0, rerun := false, pendingSet := []
        mode := if s.sweep.mode = .cyclic then .cyclic else .stopped
        timer := if s.sweep.mode = .cyclic then some s.globals.sweepInterval else none } ∧
      t.dispatcher = { s.readied slot .answered with
        settle := if s.globals.settle = 0 then none else some s.globals.settle } ∧
      t.writer = { s.writer with
        answers := s.engine1.flushedAnswers .e1 (s.engine0.flushedAnswers .e0 s.writer.answers) ++
          [answerTo slot .dispatcher { q with provisional := false } .done 0#32 0xFFFF .none] }

/-- DISPATCH_QUERY of the queries that change no table (R136 to R139, R142, R144, R186): a lookup and a STATUS are
answered from the state at the event, a STATUS that clears then sets the ten counters to 0; ACTIVATE, RELEASE, ADOPT
and SWEEP are handed on; SAVE, with the image and its CRC captured, and RELOAD go to the port, or are answered BUSY.
In each case the query has left its queue and its slot is IN_SERVICE. The bodies hold their fields at the places of 12
section 12.5 (R188, R189); a STATUS counts the slots of a dispatcher and stagings that are sound (CapacitiesKept). -/
def Obligations.DispatchServes : Prop :=
  ([CondState.unknown, .rising, .up, .falling, .holdoff, .down].map CondState.code = [0, 1, 2, 3, 4, 5] ∧
    [SweepMode.stopped, .single, .cyclic].map SweepMode.code = [0, 1, 2] ∧
    [ImageSource.loaded, .defaulted, .reloaded].map (fun x => sourceCode (some x)) = [1, 2, 3]) ∧
  ∀ (s : State) (slot : Nat) (q x : Query) (ready : Serving → Dispatcher),
    s.running = true → s.nextSlot = some slot → s.queuedQuery slot = some q → q.body.isSearch = false →
    x = { q with provisional := false } →
    ready = (fun v => { s.dispatcher with
      slots := tableSet s.dispatcher.slots slot (.inService v none)
      high := s.dispatcher.high.filter (· != slot)
      low := s.dispatcher.low.filter (· != slot) }) →
    (∀ id, q.body = .lookupNode id → ∃ t, exec .dispatchQuery s = .next t ∧ sameBut [.dispatcher, .writer] s t ∧
      t.dispatcher = ready .answered ∧
      (s.nodeEntry id = none → offeredAnswer s t (answerTo slot .dispatcher x .notFound 0#32 0xFFFF .none)) ∧
      ∀ i n, s.nodeEntry id = some (i, n) →
        ∃ ws, offeredAnswer s t (answerTo slot .dispatcher x .done (word i) 0xFFFF (.words ws)) ∧
          s.laysNode i n ws) ∧
    (∀ id port, q.body = .lookupLink id port → ∃ t, exec .dispatchQuery s = .next t ∧
      sameBut [.dispatcher, .writer] s t ∧ t.dispatcher = ready .answered ∧
      (s.indexOf id = none → offeredAnswer s t (answerTo slot .dispatcher x .notFound 1#32 0xFFFF .none)) ∧
      ∀ i, s.indexOf id = some i →
        (s.portAt i port = none → offeredAnswer s t (answerTo slot .dispatcher x .notFound 2#32 0xFFFF .none)) ∧
        (∀ c, s.portAt i port = some .claim → s.claimAt i port = some c →
          ∃ ws, offeredAnswer s t (answerTo slot .dispatcher x .notFound 3#32 0xFFFF (.words ws)) ∧ laysClaim c ws) ∧
        ∀ k d l, s.portAt i port = some (.linkEnd k d) → s.linkAt k = some l →
          ∃ ws, offeredAnswer s t (answerTo slot .dispatcher x .done (if d = .zero then 0#32 else 1#32) 0xFFFF
            (.words ws)) ∧ s.laysLink k l ws) ∧
    (∀ clear, q.body = .status clear → ∃ t, exec .dispatchQuery s = .next t ∧
      sameBut [.dispatcher, .writer, .intake, .tap, .notices] s t ∧ t.dispatcher = ready .answered ∧
      (∃ ws, offeredAnswer s t (answerTo slot .dispatcher x .done 0#32 0xFFFF (.words ws)) ∧
        (s.slotsServed → s.withinCapacity →
          ({ s with dispatcher := ready .answered } : State).laysStatus ws)) ∧
      (clear = false → agree s t .intake ∧ agree s t .tap ∧ agree s t .notices) ∧
      (clear = true → t.intake = { Intake.empty with queue := s.intake.queue } ∧
        t.tap = { s.tap with abandoned := 0 } ∧ t.notices = { s.notices with lostTotal := 0 })) ∧
    ((∃ tag, q.body = .activate tag) ∨ (∃ tag, q.body = .release tag) ∨ (∃ a b c es, q.body = .adopt a b c es) →
      exec .dispatchQuery s = .next { s with
        dispatcher := ready .table
        handoffs := { s.handoffs with toTable := s.handoffs.toTable ++ [{ slot := some slot, query := x }] } }) ∧
    (∀ a, q.body = .sweep a → exec .dispatchQuery s = .next { s with
      dispatcher := ready .sweep
      handoffs := { s.handoffs with toSweep := s.handoffs.toSweep ++ [{ slot := some slot, query := x }] } }) ∧
    (q.body = .save ∨ q.body = .reload →
      (s.port.op.isSave = true ∨ s.port.op.isReload = true → ∃ t, exec .dispatchQuery s = .next t ∧
        sameBut [.dispatcher, .writer] s t ∧ t.dispatcher = ready .answered ∧
        offeredAnswer s t (answerTo slot .dispatcher x .busy 0#32 0xFFFF .none)) ∧
      (s.port.op.isSave = false → s.port.op.isReload = false → exec .dispatchQuery s = .next { s with
        dispatcher := ready .port
        port := { s.port with
          op := if q.body = .save then .save slot x (placeCrc s.image) false else .reload slot x } }))

/-- DISPATCH_QUERY of NODE_CLEAR (R38, R39, R58, R141) and CONFIG_SET (R41, R143, R186). NODE_CLEAR lifts the node's
quarantine, clears its score and the scores, suppression and latch of its links' directions, with the notices and the
returns to service. A CONFIG_SET that changes a value puts it into the image in force, and R41 acts on a changed
profile; one that changes none leaves everything (assumption log 18). The order of several directions is assumption
log 14. -/
def Obligations.DispatchChanges : Prop :=
  ∀ (s : State) (slot : Nat) (q x : Query) (ready : Dispatcher),
    s.running = true → s.nextSlot = some slot → s.queuedQuery slot = some q → x = { q with provisional := false } →
    s.topologyConsistent →
    ready = { s.dispatcher with
      slots := tableSet s.dispatcher.slots slot (.inService .answered none)
      high := s.dispatcher.high.filter (· != slot)
      low := s.dispatcher.low.filter (· != slot) } →
    (∀ id, q.body = .nodeClear id →
      (s.nodeEntry id = none → ∃ t, exec .dispatchQuery s = .next t ∧ sameBut [.dispatcher, .writer] s t ∧
        t.dispatcher = ready ∧ offeredAnswer s t (answerTo slot .dispatcher x .notFound 0#32 0xFFFF .none)) ∧
      ∀ i n told, s.nodeEntry id = some (i, n) →
        told = s.directions.filterMap (fun e => s.clearNotice i e.1 e.2) →
        ∃ t, exec .dispatchQuery s = .next t ∧ sameBut [.store, .sweep, .notices, .dispatcher, .writer] s t ∧
          t.dispatcher = ready ∧ t.nodeAt i = some { n with quarantined := false, faultScore := 0 } ∧
          (∀ j, j ≠ i → t.nodeAt j = s.nodeAt j) ∧ t.store.claims = s.store.claims ∧
          (∀ k, t.linkAt k = (s.linkAt k).map fun l =>
            if l.touches i then { l with dir0 := l.dir0.cleared, dir1 := l.dir1.cleared } else l) ∧
          returnsEvaluated s t ∧ handedNotices s t told ∧
          offeredAnswer s t (answerTo slot .dispatcher x .done (if n.quarantined then 1#32 else 0#32) 0xFFFF
            (.words [word n.faultScore, word told.length]))) ∧
    ∀ target values, q.body = .configSet target values →
      (target.read (target.place s.image values) = target.read s.image →
        ∃ t, exec .dispatchQuery s = .next t ∧ sameBut [.dispatcher, .writer] s t ∧ t.dispatcher = ready ∧
          offeredAnswer s t (answerTo slot .dispatcher x .done 0#32 0xFFFF .none)) ∧
      (target.read (target.place s.image values) ≠ target.read s.image →
        ∃ t u, exec .dispatchQuery s = .next t ∧ sameBut [.port] s u ∧
          u.port = { s.port with image := some (target.place s.image values), changed := true, op := u.port.op } ∧
          (∀ a b c f, s.port.op = .save a b c f → u.port.op = .save a b c true) ∧
          (s.port.op.isSave = false → u.port.op = s.port.op) ∧ t.dispatcher = ready ∧
          offeredAnswer s t (answerTo slot .dispatcher x .done 0#32 0xFFFF .none) ∧
          (∀ n, target = .profile n → reprofiledTo u t fun m => m.profile == n) ∧
          ((∀ n, target ≠ .profile n) → sameBut [.dispatcher, .writer] u t))

/-- RESULT_WRITER_TAKE (R145, R105, R146): the answer at the head leaves the queue, its slot's address in the RESULT
window is fixed, the engine that gave it becomes IDLE, and its slot becomes IDLE. A successor held for the slot is
judged in the same event (R132, as QuerySlotWrite says); the PROVISIONAL flag of its BAD_QUERY answer is judged as its
record was completed (assumption log 25). -/
def Obligations.WriterTakesAnswer : Prop :=
  ∀ (s : State) (a : Answer) (rest : List Answer), s.running = true → s.writer.writing = none →
    s.writer.answers = a :: rest →
    ∃ t, exec .resultWriterTake s = .next t ∧ sameBut [.engine0, .engine1, .dispatcher, .writer] s t ∧
      t.writer.writing =
        some { base := windowBase s.image .result + 512 * a.slot, answer := a, todo := none } ∧
      (∀ e, a.source = .engine e → t.engine e = .idle) ∧
      (∀ e, a.source ≠ .engine e → t.engine e = s.engine e) ∧
      (s.successorOf a.slot = none → t.writer.answers = rest ∧
        t.dispatcher = { s.dispatcher with slots := tableErase s.dispatcher.slots a.slot } ∧
        tableGet t.dispatcher.slots a.slot = none) ∧
      ∀ raw, s.successorOf a.slot = some raw → t.dispatcher.settle = s.dispatcher.settle ∧
        (∀ j, j ≠ a.slot → tableGet t.dispatcher.slots j = tableGet s.dispatcher.slots j) ∧
        judgedTo t a.slot raw s.dispatcher.high s.dispatcher.low rest

/-! ### Path Engines and commits (05, 06) -/

/-- SEARCH_STEP at the destination or without an OPEN label (R81, R82, R90 to R92, R94, R97 to R102). Without one the
phase ends with NO_PATH. Otherwise it closes the OPEN label that comes first by cost, noise, hop count and index. At
the destination a label beyond B is discarded; one within B ends the phase: a commit request, or the validation with
DONE or a failure, or for a pair the SECONDARY phase. r is the route found: the arrivals of the labels on the accepted
label's path, in order from the source, each segment with the slot that the policy takes from the mask of its last label
(every label has a path: ClosingCostsNeverDecrease). The validation makes the four tests of R92, and the SECONDARY phase
excludes what R99 derives from the primary (its links: assumption log 26; the ends of a hop: assumption log 13). -/
def Obligations.SearchStep : Prop :=
  (∀ (s : State) (budget : Nat) (rs : List Route), s.validated budget rs = true ↔ s.validates budget rs) ∧
  ∀ (s : State) (e : EngineId) (ctx : Context) (ls : List Label), s.running = true →
    s.engine e = .searching ctx ls →
    ((∀ l ∈ ls, l.closed = true) →
      ∃ t, exec (.searchStep e) s = .next t ∧ phaseEnded s t e ctx .noPath ls.length) ∧
    ∀ i x closed r, closesNext ls i x → closed = ls.set i { x with closed := true } → x.node = ctx.req.dest →
      r = routeFound ctx.req closed i →
      (∀ path, pathTo ls i path → routeAlong ctx.req x path r) ∧
      (ctx.budget < min (x.noise + s.dropNoise ctx.req.dest) 16777215 →
        exec (.searchStep e) s = .next (s.setEngine e (.searching ctx closed))) ∧
      (min (x.noise + s.dropNoise ctx.req.dest) 16777215 ≤ ctx.budget →
        (ctx.pair = true → ctx.phase = .primary → ∃ p, s.keepsPrimary ctx r ls.length p ∧
          exec (.searchStep e) s = .next (s.setEngine e
            (.searching { ctx with phase := .secondary p } [s.startLabel ctx.req]))) ∧
        ∀ first second, (ctx.pair = false ∧ first = r ∧ second = none ∨
            ctx.pair = true ∧ (∃ p, ctx.phase = .secondary p ∧ first = p.route) ∧ second = some r) →
          (ctx.req.reserve = true → exec (.searchStep e) s =
            .next (s.setEngine e (.committing ctx closed
              { first := first, second := second, budget := ctx.budget, hold := ctx.req.hold
                tag := ctx.query.tag, slot := ctx.slot }))) ∧
          (ctx.req.reserve = false → s.validated ctx.budget (first :: second.toList) = true →
            ∃ t, exec (.searchStep e) s = .next t ∧ engineAnswered s t e ctx ls.length
              (ctx.answer e .done 0xFFFF (s.routesBody ctx ls.length first second 0xFFFF 0xFFFF))) ∧
          (ctx.req.reserve = false → s.validated ctx.budget (first :: second.toList) = false →
            ∃ t, exec (.searchStep e) s = .next t ∧ attemptFailed s t e ctx .unstable ls.length))

/-- SEARCH_STEP at another node than the destination (R81, R83 to R87, R99 to R101). The closed label gives a candidate
over each link end of its node's port table that R83 and R84 allow, and the regeneration label that R86 allows; one
whose node has left the table gives none. The candidates are taken in the order of the port table, the regeneration
label last, and each is placed unless a label stored before it is taken makes it superfluous. A candidate that finds
2048 labels stored is not placed, the rest of the step is not made, and the phase ends with LABELS_EXHAUSTED, a
SECONDARY one as R101 says. Which links are the primary's is assumption log 26. -/
def Obligations.SearchExtends : Prop :=
  ∀ (s : State) (e : EngineId) (ctx : Context) (ls closed : List Label) (i : Nat) (x : Label), s.running = true →
    s.engine e = .searching ctx ls → closesNext ls i x → closed = ls.set i { x with closed := true } →
    x.node ≠ ctx.req.dest →
    (s.nodeOf x.node = none → exec (.searchStep e) s = .next (s.setEngine e (.searching ctx closed))) ∧
    ∀ n, s.nodeOf x.node = some n → ∃ stop more after, s.placed ctx closed i x n stop more ∧
      after = closed ++ more.map (·.2) ∧ (more = [] ∨ after.length ≤ 2048) ∧
      (stop = n.ports.length + 1 ∧ exec (.searchStep e) s = .next (s.setEngine e (.searching ctx after)) ∨
        2048 ≤ after.length ∧ (∃ y, s.candidate ctx closed i x n stop y ∧ ∀ z ∈ after, ¬ z.noWorse y) ∧
          ∃ t, exec (.searchStep e) s = .next t ∧ phaseEnded s t e ctx .labelsExhausted after.length)

/-- COMMIT (R93 to R97, R102, R106, R110, R113): a request of one route that passes both parts fills the FREE record of
lowest index as RESERVED, one of two routes the two of lowest index, each naming the other as its partner; the in-use
counts rise, and the engine answers DONE with the routes, their summaries and their tags. With too few FREE records it
answers TABLE_FULL with the same and no tag. One that fails the validation or the holds restarts the attempt while fewer
than 2 restarts are used, and then ends UNSTABLE or CONTENDED with no route (a pair's second summary then: assumption
log 16). -/
def Obligations.CommitOutcomes : Prop :=
  ∀ (s : State) (e : EngineId) (ctx : Context) (ls : List Label) (q : CommitRequest) (hold : Nat)
      (kept : Route → Option Nat → Lightpath),
    s.running = true → s.engine e = .committing ctx ls q →
    hold = (if q.hold = 0 then s.globals.defaultHold else q.hold) →
    kept = (fun r partner =>
      { state := .reserved, origin := .computed, route := r, budget := q.budget
        lastMargin := (q.budget : Int) - s.worstNoise r, noticeMargin := (q.budget : Int) - s.worstNoise r
        timer := some hold, partner := partner }) →
    (∀ i free tag, q.second = none → s.routeWhole q.first = true → s.routeUnlit q.first = true →
      s.routeFeasible q.budget q.first = true → s.routeUnheld q.first = true →
      s.regensSuffice q.first.regens = true → s.freeIndexes = i :: free → tag = (s.recordAt i).gen * 128 + i →
      ∃ t, exec (.commit e) s = .next t ∧ sameBut [.store, .records, enginePart e, .writer] s t ∧
        t.recordAt i = { gen := (s.recordAt i).gen, path := some (kept q.first none) } ∧
        (∀ j, j ≠ i → t.recordAt j = s.recordAt j) ∧
        regensChanged s t (fun n => n.regenInUse + q.first.regens.count n.id) ∧
        t.engine e = .answering { ctx with labelsUsed := ls.length } ∧
        offeredAnswer s t (ctx.answer e .done tag (s.routesBody ctx ls.length q.first none tag 0xFFFF))) ∧
    (∀ i j free r tag1 tag2, q.second = some r → s.routeValid q.budget q.first = true →
      s.routeValid q.budget r = true → s.routeUnheld q.first = true → s.routeUnheld r = true →
      s.regensSuffice (q.first.regens ++ r.regens) = true → s.freeIndexes = i :: j :: free →
      tag1 = (s.recordAt i).gen * 128 + i → tag2 = (s.recordAt j).gen * 128 + j →
      ∃ t, exec (.commit e) s = .next t ∧ sameBut [.store, .records, enginePart e, .writer] s t ∧
        t.recordAt i = { gen := (s.recordAt i).gen, path := some (kept q.first (some tag2)) } ∧
        t.recordAt j = { gen := (s.recordAt j).gen, path := some (kept r (some tag1)) } ∧
        (∀ k, k ≠ i → k ≠ j → t.recordAt k = s.recordAt k) ∧
        regensChanged s t (fun n => n.regenInUse + (q.first.regens ++ r.regens).count n.id) ∧
        t.engine e = .answering { ctx with labelsUsed := ls.length } ∧
        offeredAnswer s t (ctx.answer e .done tag1 (s.routesBody ctx ls.length q.first (some r) tag1 tag2))) ∧
    (s.validRoutes q.budget q.routes = true → s.holdableRoutes q.routes = true →
      s.freeIndexes.length < q.routes.length → ∃ t, exec (.commit e) s = .next t ∧
        engineAnswered s t e ctx ls.length (ctx.answer e .tableFull 0xFFFF
          (s.routesBody ctx ls.length q.first q.second 0xFFFF 0xFFFF))) ∧
    (s.validRoutes q.budget q.routes = false →
      ∃ t, exec (.commit e) s = .next t ∧ attemptFailed s t e ctx .unstable ls.length) ∧
    (s.validRoutes q.budget q.routes = true → s.holdableRoutes q.routes = false →
      ∃ t, exec (.commit e) s = .next t ∧ attemptFailed s t e ctx .contended ls.length)

/-- On every direction a slot is held by at most one non-FREE record (R109): a commit of one route, a commit of two
routes without a direction in common, and an ADOPT keep it so. -/
def Obligations.HoldsStayExclusive : Prop :=
  ∀ s t : State, s.slotsHeldOnce →
    (∀ e ctx ls q, s.engine e = .committing ctx ls q → exec (.commit e) s = .next t →
      (∀ r, q.second = some r → ∀ h ∈ q.first.hops, ∀ g ∈ r.hops, (h.link, h.dir) ≠ (g.link, g.dir)) →
      t.slotsHeldOnce) ∧
    (exec .adopt s = .next t → t.slotsHeldOnce)

/-! ### The Lightpath Table (06) -/

/-- ACTIVATE and RELEASE (R107, R110, R111, R115, R119): a tag that names no record is answered NOT_FOUND; ACTIVATE
makes a RESERVED record ACTIVE and leaves another, and reports the record as it is afterwards; RELEASE frees the record
and reports it as it was. The table answers unless a rewrite has withdrawn the answer; the tag that the answer is
offered with has no place in its record (assumption log 27). -/
def Obligations.ActivateAndRelease : Prop :=
  ∀ (s : State) (h : Handed) (rest : List Handed) (tag : Nat),
    s.running = true → s.handoffs.toTable = h :: rest →
    (h.query.body = .activate tag → s.named tag = none → ∃ t, exec .activate s = .next t ∧
      sameBut [.handoffs, .dispatcher, .writer] s t ∧ t.handoffs = { s.handoffs with toTable := rest } ∧
      replied s t h .notFound 0#32 tag .none) ∧
    (h.query.body = .release tag → s.named tag = none → ∃ t, exec .release s = .next t ∧
      sameBut [.handoffs, .dispatcher, .writer] s t ∧ t.handoffs = { s.handoffs with toTable := rest } ∧
      replied s t h .notFound 0#32 tag .none) ∧
    ∀ i p, s.named tag = some (i, p) →
      (h.query.body = .activate tag → p.state = .reserved → ∃ t, exec .activate s = .next t ∧
        sameBut [.handoffs, .records, .notices, .sweep, .dispatcher, .writer] s t ∧
        t.handoffs = { s.handoffs with toTable := rest } ∧
        t.recordAt i = { gen := (s.recordAt i).gen, path := some { p with state := .active, timer := none } } ∧
        (∀ j, j ≠ i → t.recordAt j = s.recordAt j) ∧
        handedNotices s t [notice .activated (word tag) 1#32] ∧
        t.sweep = { s.sweep with pendingSet := insertAscending s.sweep.pendingSet i } ∧
        replied s t h .done 0#32 tag (recordBody .active p.origin p.partner p.lastMargin)) ∧
      (h.query.body = .activate tag → p.state ≠ .reserved → ∃ t, exec .activate s = .next t ∧
        sameBut [.handoffs, .dispatcher, .writer] s t ∧ t.handoffs = { s.handoffs with toTable := rest } ∧
        replied s t h .done 0#32 tag (recordBody p.state p.origin p.partner p.lastMargin)) ∧
      (h.query.body = .release tag → ∃ t, exec .release s = .next t ∧
        sameBut [.handoffs, .store, .records, .dispatcher, .writer] s t ∧
        t.handoffs = { s.handoffs with toTable := rest } ∧ recordFreed s t i p ∧
        replied s t h .done 0#32 tag (recordBody p.state p.origin p.partner p.lastMargin))

/-- ADOPT (R110, R120, R121): a bad hop count and a hop list with a faulty entry are answered BAD_QUERY, an entry that
names no hop to the next entry's node (the last: to a node of no entry) or a held slot CONFLICT, each with the index of
the first such entry (assumption log 17), and a full table TABLE_FULL. A hop list that passes the tests fills the FREE
record of lowest index as ACTIVE with no timer; the in-use counts rise, the notice, the evaluation and the answer
follow. The table answers unless a rewrite has withdrawn the answer. -/
def Obligations.AdoptEntersRecord : Prop :=
  ∀ (s : State) (h : Handed) (rest : List Handed) (q m n : Nat) (es : List AdoptEntry)
      (refused : Status → Nat → AnswerBody → Prop),
    s.running = true → s.handoffs.toTable = h :: rest → h.query.body = .adopt q m n es →
    refused = (fun st detail body => ∃ t, exec .adopt s = .next t ∧ sameBut [.handoffs, .dispatcher, .writer] s t ∧
      t.handoffs = { s.handoffs with toTable := rest } ∧ replied s t h st (word detail) 0xFFFF body) →
    (n = 0 ∨ 24 < n → refused .badQuery 0 .none) ∧
    (1 ≤ n → n ≤ 24 → ∀ i, entryFaulty es i → (∀ j, j < i → ¬ entryFaulty es j) → refused .badQuery i .none) ∧
    (1 ≤ n → n ≤ 24 → (∀ i, ¬ entryFaulty es i) → ∀ i, i < es.length → (∀ g far, ¬ s.namesHop es i g far) →
      (∀ j, j < i → ∃ g far, s.namesHop es j g far) → refused .conflict i .none) ∧
    ∀ r, 1 ≤ n → n ≤ 24 → (∀ i, ¬ entryFaulty es i) → s.adopts es r →
      (∀ i g, r.hops[i]? = some g → s.slotHeld g.link g.dir g.slot →
        (∀ j f, j < i → r.hops[j]? = some f → ¬ s.slotHeld f.link f.dir f.slot) → refused .conflict i .none) ∧
      ((∀ g ∈ r.hops, ¬ s.slotHeld g.link g.dir g.slot) → (∀ i, i < s.records.length → s.lightpathAt i ≠ none) →
        refused .tableFull 0 (.path (s.summaryOf r (budgetOf q m) 0xFFFF 0 0) (some r))) ∧
      ∀ i tag, (∀ g ∈ r.hops, ¬ s.slotHeld g.link g.dir g.slot) → i < s.records.length → s.lightpathAt i = none →
        (∀ j, j < i → s.lightpathAt j ≠ none) → tag = (s.recordAt i).gen * 128 + i →
        ∃ t, exec .adopt s = .next t ∧
          sameBut [.handoffs, .store, .records, .notices, .sweep, .dispatcher, .writer] s t ∧
          t.handoffs = { s.handoffs with toTable := rest } ∧
          (t.recordAt i).gen = (s.recordAt i).gen ∧
          t.lightpathAt i = some
            { state := .active, origin := .adopted, route := r, budget := budgetOf q m
              lastMargin := (budgetOf q m : Int) - s.worstNoise r
              noticeMargin := (budgetOf q m : Int) - s.worstNoise r, timer := none, partner := none } ∧
          (∀ j, j ≠ i → t.recordAt j = s.recordAt j) ∧
          regensChanged s t (fun n => n.regenInUse + r.regens.count n.id) ∧
          handedNotices s t [notice .activated (word tag) 3#32] ∧
          t.sweep = { s.sweep with pendingSet := insertAscending s.sweep.pendingSet i } ∧
          replied s t h .done
            (word (r.regens.filter fun id => (t.nodeOf id).any fun x => decide (x.regenTotal < x.regenInUse)).length)
            tag (.path (s.summaryOf r (budgetOf q m) tag 0 0) (some r))

/-- LIT_CHECK (R116, R108): while the link is still the one that the check was made for (R17, assumption log 36), each
RESERVED record with a hop in force on the direction (assumption log 13) becomes ACTIVE, its timer stopped, when every
hop of its route names its link and has its slot in the direction's lit set, with its notice, in ascending index, and
its evaluation; no other record changes. HOP_LOST_EVENT (R108, R122): every non-FREE record that the subject selects, by
a hop on its direction or by its node, and that is not BROKEN becomes BROKEN, keeping its other fields, and no other
record changes; the causes have their codes. -/
def Obligations.LitChecksAndLostHops : Prop :=
  (∀ (s : State) (k : Nat) (d : Dir) (a b : EndName) (rest : List StoreEvent), s.running = true →
    s.handoffs.storeToTable = .litCheck k d a b :: rest →
    (s.stillNames k d a b = true ↔
      ∃ l, s.linkAt k = some l ∧ s.endName (l.endAt (opposite d)) = a ∧ s.endName (l.endAt d) = b) ∧
    (∀ p, s.lightsUp k d a b p = true ↔ s.stillNames k d a b = true ∧ p.state = .reserved ∧
      (∃ h n, (h, n) ∈ p.route.received ∧ h.link = k ∧ h.dir = d ∧ s.hopNames h n) ∧
      ∀ h n, (h, n) ∈ p.route.received → s.hopNames h n ∧
        ∃ l, s.linkAt h.link = some l ∧ hasSlot (l.direction h.dir).lit h.slot = true) ∧
    ∃ t, exec .litCheck s = .next t ∧ sameBut [.handoffs, .records, .notices, .sweep] s t ∧
      t.handoffs = { s.handoffs with storeToTable := rest } ∧
      (∀ i, (t.recordAt i).gen = (s.recordAt i).gen) ∧
      (∀ i p, s.lightpathAt i = some p →
        t.lightpathAt i =
          if s.lightsUp k d a b p = true then some { p with state := .active, timer := none } else some p) ∧
      (∀ i, s.lightpathAt i = none → t.lightpathAt i = none) ∧
      t.sweep = { s.sweep with pendingSet := t.sweep.pendingSet } ∧
      (∀ i, i ∈ t.sweep.pendingSet ↔
        i ∈ s.sweep.pendingSet ∨ ∃ p, s.lightpathAt i = some p ∧ s.lightsUp k d a b p = true) ∧
      handedNotices s t (s.lightpaths.filterMap fun e =>
        if s.lightsUp k d a b e.2 = true then
          some (notice .activated (word ((s.recordAt e.1).gen * 128 + e.1)) 2#32)
        else none)) ∧
  (∀ (p : Lightpath) k d a port, (LostSubject.direction k d a port).selects p = true ↔
    ∃ h ∈ p.route.hops, h.link = k ∧ h.dir = d ∧ h.sender = a ∧ h.port = port) ∧
  (∀ (p : Lightpath) id, (LostSubject.node id).selects p = true ↔
    p.route.source = id ∨ p.route.dest = id ∨ (∃ h ∈ p.route.hops, h.sender = id) ∨ id ∈ p.route.regens) ∧
  [Cause.confirmedDown, .suppressed, .linkRemoved, .nodeStale, .nodeRemoved, .quarantined, .foundBySweep].map
    Cause.code = [1, 2, 3, 4, 5, 6, 7] ∧
  ∀ (s : State) (src : LostSource) (x : HopLost) (hs : Handoffs), s.running = true →
    (src = .topologyStore ∧ (∃ rest, s.handoffs.storeToTable = .hopLost x :: rest ∧
        hs = { s.handoffs with storeToTable := rest }) ∨
      src = .spanConditioner ∧ (∃ rest, s.handoffs.conditionerToTable = x :: rest ∧
        hs = { s.handoffs with conditionerToTable := rest }) ∨
      src = .reportIntake ∧ (∃ rest, s.handoffs.intakeToTable = x :: rest ∧
        hs = { s.handoffs with intakeToTable := rest })) →
    ∃ t, exec (.hopLostEvent src) s = .next t ∧ sameBut [.handoffs, .records, .notices] s t ∧ t.handoffs = hs ∧
      (∀ i, (t.recordAt i).gen = (s.recordAt i).gen) ∧
      (∀ i p, s.lightpathAt i = some p →
        t.lightpathAt i = if x.subject.selects p = true then some { p with state := .broken } else some p) ∧
      (∀ i, s.lightpathAt i = none → t.lightpathAt i = none) ∧
      handedNotices s t (s.lightpaths.filterMap fun e =>
        if x.subject.selects e.2 = true ∧ e.2.state ≠ .broken then
          some (notice .broken (word ((s.recordAt e.1).gen * 128 + e.1)) (word x.cause.code))
        else none)

/-- SWEEP_RESULT (R123 to R125): a finding on a tag that names no record, or on a RESERVED record, changes nothing; a
LOST finding breaks a record that is ACTIVE or DEGRADED; a WHOLE finding stores its margin and moves the record
between ACTIVE and DEGRADED by the margin and the recover level. A BROKEN record leaves BROKEN with a margin of 0 or
more when its route stands: to RESERVED while its timer runs, else to ACTIVE or DEGRADED; otherwise it stays BROKEN.
In each case the result is taken. -/
def Obligations.SweepResultApplied : Prop :=
  ∀ (s : State) (x : SweepResult), s.running = true → s.sweep.outstanding = some x →
    (s.named x.tag = none ∨ (∃ i p, s.named x.tag = some (i, p) ∧ p.state = .reserved) →
      exec .sweepResult s = .next { s with sweep := { s.sweep with outstanding := none } }) ∧
    ∀ i p, s.named x.tag = some (i, p) →
      (x.finding = .lost → p.state = .active ∨ p.state = .degraded → ∃ t, exec .sweepResult s = .next t ∧
        sameBut [.sweep, .records, .notices] s t ∧ t.sweep = { s.sweep with outstanding := none } ∧
        t.recordAt i = { gen := (s.recordAt i).gen, path := some { p with state := .broken } } ∧
        (∀ j, j ≠ i → t.recordAt j = s.recordAt j) ∧
        handedNotices s t [notice .broken (word x.tag) 7#32]) ∧
      (p.state = .broken → (x.finding = .lost ∨ ∃ margin : Int, x.finding = .whole margin ∧ 0 ≤ margin ∧
          s.routeStands p.route = false) →
        exec .sweepResult s = .next { s with sweep := { s.sweep with outstanding := none } }) ∧
      (∀ margin : Int, x.finding = .whole margin → p.state = .broken → 0 ≤ margin → s.routeStands p.route = true →
        ∃ t state, exec .sweepResult s = .next t ∧ sameBut [.sweep, .records, .notices] s t ∧
          t.sweep = { s.sweep with outstanding := none } ∧
          (t.recordAt i).gen = (s.recordAt i).gen ∧
          t.lightpathAt i = some { p with state := state, lastMargin := margin, noticeMargin := margin } ∧
          (∀ j, j ≠ i → t.recordAt j = s.recordAt j) ∧
          (p.timer.isSome = true → state = .reserved ∧
            handedNotices s t [notice .restored (word x.tag) (signedWord margin)]) ∧
          (p.timer = none → (s.globals.recover : Int) ≤ margin → state = .active ∧
            handedNotices s t [notice .restored (word x.tag) (signedWord margin)]) ∧
          (p.timer = none → margin < (s.globals.recover : Int) → state = .degraded ∧
            handedNotices s t [notice .degraded (word x.tag) (signedWord margin)])) ∧
      ∀ margin : Int, x.finding = .whole margin →
        p.state = .active ∨ p.state = .degraded ∨ p.state = .broken ∧ margin < 0 →
        ∃ t, exec .sweepResult s = .next t ∧
          sameBut [.sweep, .records, .notices] s t ∧ t.sweep = { s.sweep with outstanding := none } ∧
          (∀ j, j ≠ i → t.recordAt j = s.recordAt j) ∧
          ((p.state = .active ∧ margin < 0 → t.lightpathAt i = some
              { p with state := .degraded, lastMargin := margin, noticeMargin := margin } ∧
            handedNotices s t [notice .degraded (word x.tag) (signedWord margin)]) ∧
          (p.state = .degraded ∧ (s.globals.recover : Int) ≤ margin → t.lightpathAt i = some
              { p with state := .active, lastMargin := margin, noticeMargin := margin } ∧
            handedNotices s t [notice .restored (word x.tag) (signedWord margin)]) ∧
          (p.state = .active ∧ 0 ≤ margin ∨ p.state = .degraded ∧ margin < (s.globals.recover : Int) ∨
              p.state = .broken →
            if p.noticeMargin ≠ margin ∧ s.globals.marginDrift ≤ (margin - p.noticeMargin).natAbs then
              t.lightpathAt i = some { p with lastMargin := margin, noticeMargin := margin } ∧
              handedNotices s t [notice .marginDrift (word x.tag) (signedWord margin)]
            else t.lightpathAt i = some { p with lastMargin := margin } ∧ handedNotices s t []))

/-! ### The Sweep Unit (08) -/

/-- START_SINGLE, START_CYCLIC and STOP (R142, R155, R156): a START sets the mode and starts a pass, or sets the re-run
request while one runs; STOP clears mode, timer and re-run request and abandons a running pass with a notice; each is
answered DONE with the mode, unless a rewrite has withdrawn the answer. SWEEP_TIMER_EXPIRY, ALARM_RISING_EDGE and
ALARM_INPUT_FALL (R153, R154): an expiry whose timer has come to its last event (R187, assumption log 2) and an edge
against the reference level start a pass, an edge during a pass sets the re-run request, and the fall takes the
reference level down. -/
def Obligations.SweepStartsAndStops : Prop :=
  (∀ (s : State) (h : Handed) (rest : List Handed), s.running = true → s.handoffs.toSweep = h :: rest →
    (∀ action c mode, (action = SweepAction.startSingle ∧ c = Instr.startSingle ∧ mode = SweepMode.single ∨
        action = .startCyclic ∧ c = .startCyclic ∧ mode = .cyclic) → h.query.body = .sweep action →
      ∃ t, exec c s = .next t ∧ sameBut [.handoffs, .sweep, .dispatcher, .writer] s t ∧
        t.handoffs = { s.handoffs with toSweep := rest } ∧
        t.sweep = (if s.sweep.pass.isSome then { s.sweep with mode := mode, rerun := true }
          else { s.sweep with mode := mode, pass := some 0, walkCount := 0, timer := none }) ∧
        replied s t h .done (if mode = .single then 1#32 else 2#32) 0xFFFF .none) ∧
    (h.query.body = .sweep .stop → ∃ t, exec .stop s = .next t ∧
      sameBut [.handoffs, .sweep, .notices, .dispatcher, .writer] s t ∧
      t.handoffs = { s.handoffs with toSweep := rest } ∧
      t.sweep = { s.sweep with mode := .stopped, timer := none, rerun := false, pass := none, walkCount := 0 } ∧
      handedNotices s t (match s.sweep.pass with
        | some pos => [notice .passAbandoned 0#32 (word pos)]
        | none => []) ∧
      replied s t h .done 0#32 0xFFFF .none)) ∧
  ∀ s : State, s.running = true →
    (s.sweep.timer = some 0 → exec .sweepTimerExpiry s = .next { s with sweep := { s.sweep with
      pass := some 0, walkCount := 0, timer := none } }) ∧
    (s.sweep.timer ≠ some 0 → exec .sweepTimerExpiry s = .next s) ∧
    (s.sweep.alarmRef = false → s.sweep.pass = none → exec .alarmRisingEdge s = .next { s with
      alarmInput := true
      sweep := { s.sweep with alarmRef := true, pass := some 0, walkCount := 0, timer := none } }) ∧
    (s.sweep.alarmRef = false → s.sweep.pass.isSome = true → exec .alarmRisingEdge s = .next { s with
      alarmInput := true, sweep := { s.sweep with alarmRef := true, rerun := true } }) ∧
    (s.sweep.alarmRef = true → exec .alarmRisingEdge s = .next { s with alarmInput := true }) ∧
    exec .alarmInputFall s = .next { s with alarmInput := false, sweep := { s.sweep with alarmRef := false } }

/-- SWEEP_STEP (R150 to R152): with a result outstanding the unit waits, and with no pending index and no pass nothing
changes. A pending index is served before the walk; the walk evaluates the ACTIVE, DEGRADED or BROKEN record of lowest
index at or above the position; past the last one the pass ends with its notice. A route stands while every hop names
its link and is in service (R27) and every node of it is in the table, LIVE and not quarantined (the ends of a hop:
assumption log 13). -/
def Obligations.SweepStep : Prop :=
  (∀ (s : State) k d, s.inService k d = true ↔ s.serving k d) ∧
  (∀ (s : State) (r : Route), s.routeStands r = true ↔
    (∀ h n, (h, n) ∈ r.received → s.hopNames h n ∧ s.serving h.link h.dir) ∧
    ∀ id, id = r.source ∨ id = r.dest ∨ (∃ h ∈ r.hops, id = h.sender) ∨ id ∈ r.regens →
      ∃ n, s.nodeOf id = some n ∧ n.liveness = .live ∧ n.quarantined = false) ∧
  (∀ (s : State) x, s.running = true → s.sweep.outstanding = some x → exec .sweepStep s = .next s) ∧
  (∀ s : State, s.running = true → s.sweep.outstanding = none → s.sweep.pendingSet = [] → s.sweep.pass = none →
    exec .sweepStep s = .next s) ∧
  ∀ s : State, s.running = true → s.sweep.outstanding = none →
    (∀ i rest p, s.sweep.pendingSet = i :: rest → s.lightpathAt i = some p → p.state ≠ .reserved →
      exec .sweepStep s = .next { s with sweep := { s.sweep with
        pendingSet := rest
        outstanding := some
          { tag := (s.recordAt i).gen * 128 + i
            finding := if s.routeStands p.route = true then .whole ((p.budget : Int) - s.worstNoise p.route)
              else .lost } } }) ∧
    (∀ i rest, s.sweep.pendingSet = i :: rest →
      s.lightpathAt i = none ∨ (∃ p, s.lightpathAt i = some p ∧ p.state = .reserved) →
      exec .sweepStep s = .next { s with sweep := { s.sweep with pendingSet := rest } }) ∧
    (∀ pos i p, s.sweep.pendingSet = [] → s.sweep.pass = some pos → pos ≤ i → s.lightpathAt i = some p →
      p.state ≠ .reserved →
      (∀ j x, pos ≤ j → j < i → s.lightpathAt j = some x → x.state = .reserved) →
      exec .sweepStep s = .next { s with sweep := { s.sweep with
        pass := some (i + 1)
        walkCount := s.sweep.walkCount + 1
        outstanding := some
          { tag := (s.recordAt i).gen * 128 + i
            finding := if s.routeStands p.route = true then .whole ((p.budget : Int) - s.worstNoise p.route)
              else .lost } } }) ∧
    ∀ pos, s.sweep.pendingSet = [] → s.sweep.pass = some pos →
      (∀ j x, pos ≤ j → s.lightpathAt j = some x → x.state = .reserved) →
      ∃ t, exec .sweepStep s = .next t ∧ sameBut [.sweep, .notices] s t ∧
        handedNotices s t [notice .passComplete 0#32 (word s.sweep.walkCount)] ∧
        t.sweep = if s.sweep.rerun then
            { s.sweep with rerun := false, pass := some 0, walkCount := 0, timer := none }
          else { s.sweep with
            pass := none
            walkCount := 0
            mode := if s.sweep.mode = .cyclic then .cyclic else .stopped
            timer := if s.sweep.mode = .cyclic then some s.globals.sweepInterval else s.sweep.timer }

/-! ### Invariants that every step keeps -/

/-- The downstream memory keeps its canonical form (R166, assumption log 4). Generations stay as R107 gives them, so
that 0xFFFF names no record. -/
def Obligations.MemoryAndGenerations : Prop :=
  (∀ s t : State, memoryWf s.memory = true → step s = .next t → memoryWf t.memory = true) ∧
  (∀ s t : State, s.generationsLegal → step s = .next t → t.generationsLegal) ∧
  ∀ s : State, s.generationsLegal → s.records.length = 128 → s.named 0xFFFF = none

/-- For every node in the table the regenerator in-use count equals the number of regeneration points naming it among
the non-FREE records (R110, R2). -/
def Obligations.RegeneratorCountsAgree : Prop :=
  ∀ s t : State, s.regensCounted → step s = .next t → t.regensCounted

/-- The condition fields of every direction fit together (R26, R34, R37), and the fields of every node record lie in
their ranges (R1), while the image in force is sound (R181). At every moment each suppressed direction whose latched
flag is clear has a flap score above the reuse level of the profile in force for its receiving node (R36), while the
tables agree with one another, the image in force and the values of the CONFIG_SETs that are held are sound, and no
image means an empty store (R182). -/
def Obligations.DirectionFieldsFit : Prop :=
  (∀ s t : State, s.directionsConditioned → s.nodesInRange → s.imageInForceSound → step s = .next t →
    t.directionsConditioned ∧ t.nodesInRange) ∧
  ∀ s t : State, s.suppressionHeld → s.nodesInRange → s.topologyConsistent → s.imageInForceSound →
    s.configQueriesSound → s.loadQuiet → step s = .next t → t.suppressionHeld

/-- The tables and queues stay within their capacities: the node table and every port table, the claim and link tables,
the ingest queue, the records, the query queues, the answer queue, the pending-evaluation set, the stagings and the
write buffer (R2, R9, R10, R17, R43, R106, R128, R145, R149, R170 to R172), with one claim for each (claimant, port) and
one buffer entry for each address; report records have 16 words, query records 64 (R168, R169). No slot stands in the
queues twice, and each IN_SERVICE slot is served at one place (R128, R132, R145). -/
def Obligations.CapacitiesKept : Prop :=
  ∀ s t : State, s.withinCapacity → s.slotsServed → s.claimsDistinct → s.bufferAddressesDistinct →
    s.topologyConsistent → s.imageInForceSound → step s = .next t →
    t.withinCapacity ∧ t.slotsServed ∧ t.claimsDistinct ∧ t.bufferAddressesDistinct

/-- Every step keeps the write buffer sound (R172): its entries have word-aligned addresses, no two the same, and so
have the words that are to be handed to it (R146, R161), while the image in force is sound (R181). -/
def Obligations.BufferStaysSound : Prop :=
  ∀ s t : State, s.bufferSound → s.writesAligned → s.imageInForceSound → step s = .next t →
    t.bufferSound ∧ t.writesAligned

/-- The tables of the Topology Store agree with one another: every (node, port) is the end of at most one link or the
claimant of at most one stored claim, and not both (R1, R9, R10, R17). -/
def Obligations.TopologyStaysConsistent : Prop :=
  ∀ s t : State, s.topologyConsistent → step s = .next t → t.topologyConsistent

/-- The image in force has 512 bytes and passes tests 3 (WINDOWS) and 4 (RANGE) of R181, whatever a CONFIG_SET has
changed in it (R143, R180); test 2 is not claimed, since a CONFIG_SET leaves the CRC field as it is. The port loads
exactly until an image is in force, and until then every other unit stands at its power-on values (R176, R182); the
attempt count fits the phase of the load (assumption log 7). -/
def Obligations.ImageInForceSound : Prop :=
  (∀ s t : State, s.imageInForceSound → s.configQueriesSound → step s = .next t →
    t.imageInForceSound ∧ t.configQueriesSound) ∧
  ∀ s t : State, s.loadQuiet → step s = .next t → t.loadQuiet

/-- Within an attempt the closing costs never decrease, a label store never holds more than 2048 labels, and every label
has its path from the start label (R79, R87, R88). -/
def Obligations.ClosingCostsNeverDecrease : Prop :=
  ∀ s t : State, s.searchOrdered → step s = .next t → t.searchOrdered

/-- The state after reset meets every invariant above. -/
def Obligations.ResetMeetsInvariants : Prop :=
  memoryWf State.reset.memory = true ∧ State.reset.generationsLegal ∧ State.reset.regensCounted ∧
  State.reset.directionsConditioned ∧ State.reset.withinCapacity ∧ State.reset.claimsDistinct ∧
  State.reset.bufferSound ∧ State.reset.topologyConsistent ∧ State.reset.imageInForceSound ∧
  State.reset.configQueriesSound ∧ State.reset.searchOrdered ∧ State.reset.slotsHeldOnce ∧
  State.reset.slotsServed ∧ State.reset.writesAligned ∧ State.reset.loadQuiet ∧ State.reset.nodesInRange ∧
  State.reset.suppressionHeld
end

