-- ==== Sys2Proof/Laws/Adopt.lean ====
section
/-! SUPPORT. The laws of ADOPT's tests (R120, R121): the first faulty entry, the hop that an entry names, the first
entry that names none. -/

namespace Sys2Proof.Machine

/-- The search for the first faulty entry after some that have passed (R120). -/
theorem entryFault_gen (es : List AdoptEntry) : ∀ (pre : List AdoptEntry) (seen prev flagged),
    (∀ x, x ∈ seen ↔ ∃ f ∈ pre, f.node = x) → prev = (pre.getLast?.map (·.slot)) →
    flagged = pre.countP (·.regen) →
    (∀ k, entryFault es pre.length seen prev flagged = some k ↔ (pre.length ≤ k ∧ entryFaulty (pre ++ es) k ∧
      ∀ j, pre.length ≤ j → j < k → ¬ entryFaulty (pre ++ es) j)) ∧
    (entryFault es pre.length seen prev flagged = none ↔
      ∀ k, pre.length ≤ k → ¬ entryFaulty (pre ++ es) k) := by
  induction es with
  | nil =>
    intro pre seen prev flagged _ _ _
    have hn : ∀ k, pre.length ≤ k → ¬ entryFaulty (pre ++ []) k := by
      rintro k hk ⟨e, he, _⟩
      rw [List.append_nil, List.getElem?_eq_none hk] at he; cases he
    exact ⟨fun k => ⟨fun h => by simp [entryFault] at h, fun ⟨h1, h2, _⟩ => absurd h2 (hn k h1)⟩,
      ⟨fun _ => hn, fun _ => rfl⟩⟩
  | cons e t ih =>
    intro pre seen prev flagged hseen hprev hflag
    have hat : (pre ++ e :: t)[pre.length]? = some e := by simp
    have hf : entryFaulty (pre ++ e :: t) pre.length ↔
        (e.node = 0#32 ∨ seen.contains e.node ∨ 79 < e.slot ∨ (pre.length = 0 ∧ e.regen) ∨
          (e.regen ∧ 3 ≤ flagged) ∨ (¬ e.regen ∧ prev.isSome ∧ prev ≠ some e.slot)) := by
      unfold entryFaulty
      rw [hat]
      simp only [Option.some.injEq, exists_eq_left']
      have h1 : (∃ j f, j < pre.length ∧ (pre ++ e :: t)[j]? = some f ∧ f.node = e.node) ↔
          seen.contains e.node = true := by
        rw [List.contains_iff_mem, hseen]
        constructor
        · rintro ⟨j, f, hj, hf, h⟩
          rw [List.getElem?_append_left hj] at hf
          exact ⟨f, List.mem_of_getElem? hf, h⟩
        · rintro ⟨f, hf, h⟩
          obtain ⟨j, hj⟩ := List.getElem?_of_mem hf
          have := (List.getElem?_eq_some_iff.mp hj).1
          exact ⟨j, f, this, by rw [List.getElem?_append_left this]; exact hj, h⟩
      have h2 : ((pre ++ e :: t).take pre.length).countP (·.regen) = flagged := by simp [hflag]
      have h3 : (∃ j f, pre.length = j + 1 ∧ (pre ++ e :: t)[j]? = some f ∧ f.slot ≠ e.slot) ↔
          (prev.isSome = true ∧ prev ≠ some e.slot) := by
        rw [hprev]
        rcases List.eq_nil_or_concat pre with rfl | ⟨p, x, rfl⟩
        · simp
        · simp only [List.concat_eq_append]
          simp
      rw [h1, h2, h3]
      simp
    have ihh := ih (pre ++ [e]) (e.node :: seen) (some e.slot) (if e.regen then flagged + 1 else flagged)
      (by intro x; simp [hseen, eq_comm, or_comm]) (by simp)
      (by rw [hflag]; cases h : e.regen <;> simp [h])
    rw [List.append_assoc, List.singleton_append] at ihh
    simp only [List.length_append, List.length_singleton] at ihh
    unfold entryFault
    by_cases hc : entryFaulty (pre ++ e :: t) pre.length
    · rw [if_pos (hf.mp hc)]
      refine ⟨fun k => ?_, ?_⟩
      · simp only [Option.some.injEq]
        constructor
        · rintro rfl; exact ⟨le_refl _, hc, fun j h1 h2 => by omega⟩
        · rintro ⟨h1, h2, h3⟩; by_contra hh; exact h3 _ (le_refl _) (by omega) hc
      · simp only [reduceCtorEq, false_iff, not_forall]
        exact ⟨_, le_refl _, by simpa using hc⟩
    · rw [if_neg (fun h => hc (hf.mpr h))]
      refine ⟨fun k => ?_, ?_⟩
      · rw [ihh.1 k]
        constructor
        · rintro ⟨h1, h2, h3⟩
          refine ⟨by omega, h2, fun j h4 h5 => ?_⟩
          by_cases h6 : j = pre.length
          · subst h6; exact hc
          · exact h3 j (by omega) h5
        · rintro ⟨h1, h2, h3⟩
          refine ⟨?_, h2, fun j h4 h5 => h3 j (by omega) h5⟩
          by_contra h6
          have : k = pre.length := by omega
          subst this; exact hc h2
      · rw [ihh.2]
        constructor
        · intro h k hk
          by_cases h6 : k = pre.length
          · subst h6; exact hc
          · exact h k (by omega)
        · intro h k hk; exact h k (by omega)

/-- The first faulty entry of a hop list (R120). -/
theorem entryFault_iff (es : List AdoptEntry) :
    (∀ k, entryFault es 0 [] none 0 = some k ↔ entryFaulty es k ∧ ∀ j, j < k → ¬ entryFaulty es j) ∧
    (entryFault es 0 [] none 0 = none ↔ ∀ k, ¬ entryFaulty es k) := by
  have := entryFault_gen es [] [] none 0 (by simp) rfl rfl
  simpa using this

/-- The hop that an entry names, and the node at the link's other end (R121). -/
theorem State.adoptHop_iff (s : State) (e : AdoptEntry) (g : Hop) (far : NodeId) : s.adoptHop e = some (g, far) ↔
   ∃ a k d l, s.indexOf e.node = some a ∧ s.portAt a e.port = some (.linkEnd k d) ∧
    s.linkAt k = some l ∧ far = s.idAt (l.endAt (opposite d)).node ∧
    g = { link := k, dir := opposite d, slot := e.slot, sender := e.node, port := e.port } := by
  unfold State.adoptHop
  cases hi : s.indexOf e.node with
  | none => simp
  | some a =>
    simp only [Option.bind_some]
    cases hp : s.portAt a e.port with
    | none => simp [hp]
    | some r =>
      cases r with
      | claim => simp [hp]
      | linkEnd k d =>
        simp only
        cases hl : s.linkAt k with
        | none => simp [hp, hl]
        | some l => simp [hp, hl, eq_comm, and_comm]

/-- The search for the first entry that names no hop, after some that have passed (R121). -/
theorem State.adoptLinkFault_gen (s : State) (es : List AdoptEntry) : ∀ (pre : List AdoptEntry),
    (∀ k, s.adoptLinkFault ((pre ++ es).map (·.node)) es pre.length = some k ↔
      (pre.length ≤ k ∧ k < (pre ++ es).length ∧ (∀ g far, ¬ s.namesHop (pre ++ es) k g far) ∧
        ∀ j, pre.length ≤ j → j < k → ∃ g far, s.namesHop (pre ++ es) j g far)) ∧
    (s.adoptLinkFault ((pre ++ es).map (·.node)) es pre.length = none ↔
      ∀ k, pre.length ≤ k → k < (pre ++ es).length → ∃ g far, s.namesHop (pre ++ es) k g far) := by
  induction es with
  | nil => intro pre; simp [State.adoptLinkFault]; exact ⟨fun k h1 h2 => by omega, fun k h1 h2 => by omega⟩
  | cons e t ih =>
    intro pre
    have hat : (pre ++ e :: t)[pre.length]? = some e := by simp
    have names : ∀ g far, s.namesHop (pre ++ e :: t) pre.length g far ↔ s.adoptHop e = some (g, far) ∧
        (∀ f, t[0]? = some f → f.node = far) ∧ (t = [] → far ∉ (pre ++ e :: t).map (·.node)) := by
      intro g far
      rw [State.adoptHop_iff]
      have n1 : (pre ++ e :: t)[pre.length + 1]? = t[0]? := by
        rw [List.getElem?_append_right (by omega)]; simp
      constructor
      · rintro ⟨⟨e', a, k, d, l, h1, h2, h3, h4, h5, h6⟩, h7, h8⟩
        rw [hat] at h1; cases h1
        refine ⟨⟨a, k, d, l, h2, h3, h4, h5, h6⟩, fun f hf => h7 f (by rw [n1]; exact hf), ?_⟩
        intro ht hm
        obtain ⟨f, hf, hf2⟩ := List.mem_map.mp hm
        exact h8 (by simp [ht]) f hf hf2
      · rintro ⟨⟨a, k, d, l, h2, h3, h4, h5, h6⟩, h7, h8⟩
        refine ⟨⟨e, a, k, d, l, hat, h2, h3, h4, h5, h6⟩, fun f hf => h7 f (by rw [← n1]; exact hf), ?_⟩
        intro hlen f hf hff
        refine h8 ?_ (List.mem_map.mpr ⟨f, hf, hff⟩)
        have : t.length = 0 := by simp at hlen; simp; omega
        exact List.length_eq_zero_iff.mp this
    by_cases hc : ∃ g far, s.namesHop (pre ++ e :: t) pre.length g far
    · obtain ⟨g, far, hgf⟩ := hc
      obtain ⟨h1, h2, h3⟩ := (names g far).mp hgf
      cases t with
      | nil =>
        simp only [State.adoptLinkFault, h1]
        have h3' : ((pre ++ [e]).map (·.node)).contains far = false := by
          have := h3 rfl
          rw [← List.contains_iff_mem] at this; simpa using this
        rw [if_neg (by rw [h3']; simp)]
        refine ⟨fun k => ?_, ?_⟩
        · simp only [reduceCtorEq, false_iff]
          rintro ⟨k1, k2, k3, _⟩
          have : k = pre.length := by simp at k2; omega
          subst this; exact k3 _ _ hgf
        · simp only [true_iff]
          intro k k1 k2
          have : k = pre.length := by simp at k2; omega
          subst this; exact ⟨g, far, hgf⟩
      | cons e' t =>
        simp only [State.adoptLinkFault, h1]
        rw [if_pos (h2 e' rfl).symm]
        have ihh := ih (pre ++ [e])
        rw [List.append_assoc, List.singleton_append] at ihh
        simp only [List.length_append, List.length_singleton] at ihh
        simp only [List.length_append]
        refine ⟨fun k => ?_, ?_⟩
        · rw [ihh.1 k]
          constructor
          · rintro ⟨k1, k2, k3, k4⟩
            refine ⟨by omega, k2, k3, fun j j1 j2 => ?_⟩
            by_cases h6 : j = pre.length
            · subst h6; exact ⟨g, far, hgf⟩
            · exact k4 j (by omega) j2
          · rintro ⟨k1, k2, k3, k4⟩
            refine ⟨?_, k2, k3, fun j j1 j2 => k4 j (by omega) j2⟩
            by_contra h6
            have : k = pre.length := by omega
            subst this; exact k3 _ _ hgf
        · rw [ihh.2]
          constructor
          · intro h k k1 k2
            by_cases h6 : k = pre.length
            · subst h6; exact ⟨g, far, hgf⟩
            · exact h k (by omega) k2
          · intro h k k1 k2; exact h k (by omega) k2
    · have hbad : s.adoptLinkFault ((pre ++ e :: t).map (·.node)) (e :: t) pre.length = some pre.length := by
        simp only [not_exists] at hc
        cases ha : s.adoptHop e with
        | none => cases t <;> simp [State.adoptLinkFault, ha]
        | some p =>
          obtain ⟨g, far⟩ := p
          have := hc g far
          rw [names] at this
          cases t with
          | nil =>
            simp only [State.adoptLinkFault, ha]
            rw [if_pos]
            by_contra hn
            apply this
            refine ⟨ha, by simp, fun _ hm => hn ?_⟩
            rw [List.contains_iff_mem]; exact hm
          | cons e' t =>
            simp only [State.adoptLinkFault, ha]
            rw [if_neg]
            intro hfar
            exact this ⟨ha, by simp [hfar], by simp⟩
      rw [hbad]
      simp only [not_exists] at hc
      refine ⟨fun k => ?_, ?_⟩
      · simp only [Option.some.injEq]
        constructor
        · rintro rfl; exact ⟨le_refl _, by simp, hc, fun j h1 h2 => by omega⟩
        · rintro ⟨h1, h2, h3, h4⟩
          by_contra hh
          obtain ⟨g, far, h⟩ := h4 pre.length (le_refl _) (by omega)
          exact hc g far h
      · simp only [reduceCtorEq, false_iff]
        intro h
        obtain ⟨g, far, h⟩ := h pre.length (le_refl _) (by simp)
        exact hc g far h

/-- The first entry of a hop list that names no hop (R121). -/
theorem State.adoptLinkFault_iff (s : State) (es : List AdoptEntry) :
    (∀ k, s.adoptLinkFault (es.map (·.node)) es 0 = some k ↔
      k < es.length ∧ (∀ g far, ¬ s.namesHop es k g far) ∧ ∀ j, j < k → ∃ g far, s.namesHop es j g far) ∧
    (s.adoptLinkFault (es.map (·.node)) es 0 = none ↔
      ∀ k, k < es.length → ∃ g far, s.namesHop es k g far) := by
  simpa using s.adoptLinkFault_gen es []

end Sys2Proof.Machine
end

