-- ==== Sys2Proof/Laws/Tables.lean ====
section
/-! SUPPORT. The laws of sparse tables: reading after placing and erasing, and the canonical form kept by every
table operation. -/

namespace Sys2Proof.Machine

/-- The indexes of a table. -/
def tableKeys {α : Type} (t : List (Nat × α)) : List Nat := t.map (·.1)

theorem risingTable_iff {α : Type} (t : List (Nat × α)) :
    risingTable t = true ↔ (tableKeys t).Pairwise (· < ·) := by
  induction t with
  | nil => simp [risingTable, tableKeys]
  | cons e t ih =>
    cases t with
    | nil => simp [risingTable, tableKeys]
    | cons e' t =>
      simp only [risingTable, Bool.and_eq_true, decide_eq_true_eq, ih, tableKeys, List.map_cons,
        List.pairwise_cons]
      constructor
      · rintro ⟨h, h1, h2⟩
        refine ⟨?_, h1, h2⟩
        intro a ha
        rcases List.mem_cons.mp ha with rfl | ha
        · exact h
        · exact lt_trans h (h1 a ha)
      · rintro ⟨h, h1⟩
        exact ⟨h _ (List.mem_cons_self ..), h1⟩

theorem tableGet_set_self {α : Type} (t : List (Nat × α)) (k : Nat) (y : α) :
    tableGet (tableSet t k y) k = some y := by
  induction t with
  | nil => simp [tableSet, tableGet]
  | cons e t ih =>
    obtain ⟨i, x⟩ := e
    simp only [tableSet]
    split
    · simp [tableGet]
    · split
      · simp [tableGet]
      · rename_i h1 h2
        simp [tableGet, Ne.symm h2, ih]

theorem tableGet_set_other {α : Type} (t : List (Nat × α)) (k j : Nat) (y : α) (h : j ≠ k) :
    tableGet (tableSet t k y) j = tableGet t j := by
  induction t with
  | nil => simp [tableSet, tableGet, Ne.symm h]
  | cons e t ih =>
    obtain ⟨i, x⟩ := e
    simp only [tableSet]
    split
    · simp [tableGet, Ne.symm h]
    · split
      · rename_i h1 h2
        subst h2
        simp [tableGet, Ne.symm h]
      · simp [tableGet, ih]

theorem mem_keys_set {α : Type} (t : List (Nat × α)) (k : Nat) (y : α) (a : Nat) :
    a ∈ tableKeys (tableSet t k y) ↔ a = k ∨ a ∈ tableKeys t := by
  induction t with
  | nil => simp [tableSet, tableKeys]
  | cons e t ih =>
    obtain ⟨i, x⟩ := e
    simp only [tableSet]
    split
    · simp [tableKeys]
    · split
      · rename_i h1 h2
        subst h2
        simp [tableKeys]
      · simp only [tableKeys, List.map_cons, List.mem_cons] at ih ⊢
        rw [ih]; tauto

/-- Placing an entry keeps the canonical form. -/
theorem risingTable_set {α : Type} (t : List (Nat × α)) (k : Nat) (y : α) (h : risingTable t = true) :
    risingTable (tableSet t k y) = true := by
  rw [risingTable_iff] at *
  induction t with
  | nil => simp [tableSet, tableKeys]
  | cons e t ih =>
    obtain ⟨i, x⟩ := e
    simp only [tableKeys, List.map_cons, List.pairwise_cons] at h
    simp only [tableSet]
    split
    · rename_i h1
      simp only [tableKeys, List.map_cons, List.pairwise_cons]
      refine ⟨?_, h.1, h.2⟩
      intro a ha
      rcases List.mem_cons.mp ha with rfl | ha
      · exact h1
      · exact lt_trans h1 (h.1 a ha)
    · split
      · rename_i h1 h2
        subst h2
        simpa [tableKeys] using h
      · rename_i h1 h2
        simp only [tableKeys, List.map_cons, List.pairwise_cons]
        refine ⟨?_, ih h.2⟩
        intro a ha
        rcases (mem_keys_set t k y a).mp ha with rfl | ha
        · omega
        · exact h.1 a ha

/-- Removing an entry keeps the canonical form. -/
theorem risingTable_erase {α : Type} (t : List (Nat × α)) (k : Nat) (h : risingTable t = true) :
    risingTable (tableErase t k) = true := by
  rw [risingTable_iff] at *
  exact h.sublist ((List.filter_sublist).map _)

/-- Changing an entry keeps the indexes. -/
theorem tableKeys_update {α : Type} (t : List (Nat × α)) (k : Nat) (f : α → α) :
    tableKeys (tableUpdate t k f) = tableKeys t := by
  simp only [tableKeys, tableUpdate, List.map_map]
  apply List.map_congr_left
  intro e _
  simp only [Function.comp_apply]
  split <;> rfl

/-- Changing an entry keeps the canonical form. -/
theorem risingTable_update {α : Type} (t : List (Nat × α)) (k : Nat) (f : α → α)
    (h : risingTable t = true) : risingTable (tableUpdate t k f) = true := by
  rw [risingTable_iff] at *
  rw [tableKeys_update]
  exact h

theorem tableGet_update_self {α : Type} (t : List (Nat × α)) (k : Nat) (f : α → α) :
    tableGet (tableUpdate t k f) k = (tableGet t k).map f := by
  induction t with
  | nil => rfl
  | cons e t ih =>
    obtain ⟨i, x⟩ := e
    simp only [tableUpdate, List.map_cons] at ih ⊢
    by_cases h : i = k
    · simp [tableGet, h]
    · simp [tableGet, h, ih]

theorem tableGet_update_other {α : Type} (t : List (Nat × α)) (k j : Nat) (f : α → α) (h : j ≠ k) :
    tableGet (tableUpdate t k f) j = tableGet t j := by
  induction t with
  | nil => rfl
  | cons e t ih =>
    obtain ⟨i, x⟩ := e
    simp only [tableUpdate, List.map_cons] at ih ⊢
    by_cases hi : i = k
    · subst hi
      simp [tableGet, Ne.symm h, ih]
    · simp [tableGet, hi, ih]

theorem tableGet_erase_self {α : Type} (t : List (Nat × α)) (k : Nat) :
    tableGet (tableErase t k) k = none := by
  induction t with
  | nil => rfl
  | cons e t ih =>
    obtain ⟨i, x⟩ := e
    simp only [tableErase, List.filter_cons] at ih ⊢
    by_cases h : i = k
    · simp [h, ih]
    · simp [h, tableGet, ih]

theorem tableGet_erase_other {α : Type} (t : List (Nat × α)) (k j : Nat) (h : j ≠ k) :
    tableGet (tableErase t k) j = tableGet t j := by
  induction t with
  | nil => rfl
  | cons e t ih =>
    obtain ⟨i, x⟩ := e
    simp only [tableErase, List.filter_cons] at ih ⊢
    by_cases hi : i = k
    · subst hi
      simp [tableGet, Ne.symm h, ih]
    · simp [hi, tableGet, ih]

theorem tableGet_mem {α : Type} (t : List (Nat × α)) (k : Nat) (x : α) (h : tableGet t k = some x) :
    (k, x) ∈ t := by
  induction t with
  | nil => simp [tableGet] at h
  | cons e t ih =>
    obtain ⟨i, y⟩ := e
    simp only [tableGet] at h
    split at h
    · rename_i hi
      cases h
      simp [hi]
    · exact List.mem_cons_of_mem _ (ih h)

theorem setAt_length {α : Type} (l : List α) (i : Nat) (y : α) : (setAt l i y).length = l.length := by
  induction l generalizing i with
  | nil => rfl
  | cons x t ih => cases i <;> simp [setAt, ih]

theorem setAt_get {α : Type} (l : List α) (i j : Nat) (y : α) :
    (setAt l i y)[j]? = if i = j ∧ j < l.length then some y else l[j]? := by
  induction l generalizing i j with
  | nil => simp [setAt]
  | cons x t ih =>
    cases i with
    | zero => cases j <;> simp [setAt]
    | succ i => cases j <;> simp [setAt, ih]

/-- Putting a number into an ascending list keeps it ascending. -/
theorem mem_insertAscending (l : List Nat) (n a : Nat) : a ∈ insertAscending l n ↔ a = n ∨ a ∈ l := by
  induction l with
  | nil => simp [insertAscending]
  | cons m t ih =>
    simp only [insertAscending]
    split
    · simp
    · split
      · rename_i h1 h2
        subst h2
        simp
      · simp only [List.mem_cons, ih]; tauto

end Sys2Proof.Machine
end

