-- ==== Sys2Proof/Laws/Memory.lean ====
section
/-! SUPPORT. The laws of the downstream memory: reading after writing, and the canonical form kept by every memory
operation. -/

namespace Sys2Proof.Machine

/-- A byte lane keeps the canonical form. -/
theorem memoryWf_writeLane (m : List Host.Cell) (a i : Nat) (b : Byte) (en : ByteMask)
    (h : memoryWf m = true) : memoryWf (writeLane m a i b en) = true := by
  unfold writeLane
  split
  · exact risingTable_set _ _ _ h
  · exact h

/-- A word write keeps the canonical form. -/
theorem memoryWf_writeWord (m : List Host.Cell) (a : Nat) (w : Word) (en : ByteMask)
    (h : memoryWf m = true) : memoryWf (writeWord m a w en) = true := by
  unfold writeWord
  exact memoryWf_writeLane _ _ _ _ _ (memoryWf_writeLane _ _ _ _ _ (memoryWf_writeLane _ _ _ _ _
    (memoryWf_writeLane _ _ _ _ _ h)))

/-- A word write with an error response keeps the canonical form. -/
theorem memoryWf_spoilWord (m : List Host.Cell) (n a : Nat) (en : ByteMask)
    (h : memoryWf m = true) : memoryWf (spoilWord m n a en) = true := by
  unfold spoilWord
  exact memoryWf_writeLane _ _ _ _ _ (memoryWf_writeLane _ _ _ _ _ (memoryWf_writeLane _ _ _ _ _
    (memoryWf_writeLane _ _ _ _ _ h)))

/-- Memory after reset has the canonical form. -/
theorem memoryWf_reset : memoryWf State.reset.memory = true := rfl

/-- A byte after one lane was written. -/
theorem readByte_writeLane (m : List Host.Cell) (a i x : Nat) (b : Byte) (en : ByteMask) :
    readByte (writeLane m a i b en) x = if x = a + i ∧ en.getLsbD i = true then b else readByte m x := by
  unfold writeLane readByte memoryByte
  by_cases he : en.getLsbD i = true
  · by_cases hx : x = a + i
    · subst hx
      simp [he, tableGet_set_self]
    · simp [he, hx, tableGet_set_other _ _ _ _ hx]
  · simp [he]

/-- A byte of the word written reads the byte written where its enable is set. -/
theorem readByte_writeWord_inside (m : List Host.Cell) (a i : Nat) (w : Word) (en : ByteMask) (hi : i < 4) :
    readByte (writeWord m a w en) (a + i) = if en.getLsbD i then byteOf w i else readByte m (a + i) := by
  unfold writeWord
  simp only [readByte_writeLane]
  interval_cases i <;> simp

/-- A byte outside the word written reads as before. -/
theorem readByte_writeWord_outside (m : List Host.Cell) (a x : Nat) (w : Word) (en : ByteMask)
    (h : x < a ∨ a + 4 ≤ x) : readByte (writeWord m a w en) x = readByte m x := by
  unfold writeWord
  simp only [readByte_writeLane]
  rw [if_neg (by omega), if_neg (by omega), if_neg (by omega), if_neg (by omega)]

/-- A byte outside a word whose write was answered with an error reads as before. -/
theorem readByte_spoilWord_outside (m : List Host.Cell) (n a x : Nat) (en : ByteMask)
    (h : x < a ∨ a + 4 ≤ x) : readByte (spoilWord m n a en) x = readByte m x := by
  unfold spoilWord
  simp only [readByte_writeLane]
  rw [if_neg (by omega), if_neg (by omega), if_neg (by omega), if_neg (by omega)]

/-- A write reaches memory in its canonical form, whatever the response. -/
theorem memoryWf_writeMemory (s : State) (a : Nat) (w : Word) (en : ByteMask) (r : Response)
    (h : memoryWf s.memory = true) : memoryWf (s.writeMemory a w en r).memory = true := by
  cases r
  · exact memoryWf_writeWord _ _ _ _ h
  · exact memoryWf_spoilWord _ _ _ _ h

end Sys2Proof.Machine
end

