-- ==== Sys2Proof/Laws/State.lean ====
section
/-! SUPPORT. The named updates of State, field by field: what each changes and what it leaves, so that no later proof
unfolds a record update. -/

namespace Sys2Proof.Machine

section
variable (s : State)

/-! ### setStore -/

@[simp] theorem State.setStore_pending (x : Store) : (s.setStore x).pending = s.pending := rfl
@[simp] theorem State.setStore_freeCount (x : Store) : (s.setStore x).freeCount = s.freeCount := rfl
@[simp] theorem State.setStore_memory (x : Store) : (s.setStore x).memory = s.memory := rfl
@[simp] theorem State.setStore_upstream (x : Store) : (s.setStore x).upstream = s.upstream := rfl
@[simp] theorem State.setStore_downstream (x : Store) : (s.setStore x).downstream = s.downstream := rfl
@[simp] theorem State.setStore_alarmInput (x : Store) : (s.setStore x).alarmInput = s.alarmInput := rfl
@[simp] theorem State.setStore_busReset (x : Store) : (s.setStore x).busReset = s.busReset := rfl
@[simp] theorem State.setStore_port (x : Store) : (s.setStore x).port = s.port := rfl
@[simp] theorem State.setStore_tap (x : Store) : (s.setStore x).tap = s.tap := rfl
@[simp] theorem State.setStore_intake (x : Store) : (s.setStore x).intake = s.intake := rfl
@[simp] theorem State.setStore_store (x : Store) : (s.setStore x).store = x := rfl
@[simp] theorem State.setStore_handoffs (x : Store) : (s.setStore x).handoffs = s.handoffs := rfl
@[simp] theorem State.setStore_dispatcher (x : Store) : (s.setStore x).dispatcher = s.dispatcher := rfl
@[simp] theorem State.setStore_engine0 (x : Store) : (s.setStore x).engine0 = s.engine0 := rfl
@[simp] theorem State.setStore_engine1 (x : Store) : (s.setStore x).engine1 = s.engine1 := rfl
@[simp] theorem State.setStore_records (x : Store) : (s.setStore x).records = s.records := rfl
@[simp] theorem State.setStore_sweep (x : Store) : (s.setStore x).sweep = s.sweep := rfl
@[simp] theorem State.setStore_writer (x : Store) : (s.setStore x).writer = s.writer := rfl
@[simp] theorem State.setStore_notices (x : Store) : (s.setStore x).notices = s.notices := rfl
@[simp] theorem State.setStore_running (x : Store) : (s.setStore x).running = s.running := rfl
@[simp] theorem State.setStore_image (x : Store) : (s.setStore x).image = s.image := rfl
@[simp] theorem State.setStore_globals (x : Store) : (s.setStore x).globals = s.globals := rfl

/-! ### setSweep -/

@[simp] theorem State.setSweep_pending (x : Sweep) : (s.setSweep x).pending = s.pending := rfl
@[simp] theorem State.setSweep_freeCount (x : Sweep) : (s.setSweep x).freeCount = s.freeCount := rfl
@[simp] theorem State.setSweep_memory (x : Sweep) : (s.setSweep x).memory = s.memory := rfl
@[simp] theorem State.setSweep_upstream (x : Sweep) : (s.setSweep x).upstream = s.upstream := rfl
@[simp] theorem State.setSweep_downstream (x : Sweep) : (s.setSweep x).downstream = s.downstream := rfl
@[simp] theorem State.setSweep_alarmInput (x : Sweep) : (s.setSweep x).alarmInput = s.alarmInput := rfl
@[simp] theorem State.setSweep_busReset (x : Sweep) : (s.setSweep x).busReset = s.busReset := rfl
@[simp] theorem State.setSweep_port (x : Sweep) : (s.setSweep x).port = s.port := rfl
@[simp] theorem State.setSweep_tap (x : Sweep) : (s.setSweep x).tap = s.tap := rfl
@[simp] theorem State.setSweep_intake (x : Sweep) : (s.setSweep x).intake = s.intake := rfl
@[simp] theorem State.setSweep_store (x : Sweep) : (s.setSweep x).store = s.store := rfl
@[simp] theorem State.setSweep_handoffs (x : Sweep) : (s.setSweep x).handoffs = s.handoffs := rfl
@[simp] theorem State.setSweep_dispatcher (x : Sweep) : (s.setSweep x).dispatcher = s.dispatcher := rfl
@[simp] theorem State.setSweep_engine0 (x : Sweep) : (s.setSweep x).engine0 = s.engine0 := rfl
@[simp] theorem State.setSweep_engine1 (x : Sweep) : (s.setSweep x).engine1 = s.engine1 := rfl
@[simp] theorem State.setSweep_records (x : Sweep) : (s.setSweep x).records = s.records := rfl
@[simp] theorem State.setSweep_sweep (x : Sweep) : (s.setSweep x).sweep = x := rfl
@[simp] theorem State.setSweep_writer (x : Sweep) : (s.setSweep x).writer = s.writer := rfl
@[simp] theorem State.setSweep_notices (x : Sweep) : (s.setSweep x).notices = s.notices := rfl
@[simp] theorem State.setSweep_running (x : Sweep) : (s.setSweep x).running = s.running := rfl
@[simp] theorem State.setSweep_image (x : Sweep) : (s.setSweep x).image = s.image := rfl
@[simp] theorem State.setSweep_globals (x : Sweep) : (s.setSweep x).globals = s.globals := rfl

/-! ### setTap -/

@[simp] theorem State.setTap_pending (x : Tap) : (s.setTap x).pending = s.pending := rfl
@[simp] theorem State.setTap_freeCount (x : Tap) : (s.setTap x).freeCount = s.freeCount := rfl
@[simp] theorem State.setTap_memory (x : Tap) : (s.setTap x).memory = s.memory := rfl
@[simp] theorem State.setTap_upstream (x : Tap) : (s.setTap x).upstream = s.upstream := rfl
@[simp] theorem State.setTap_downstream (x : Tap) : (s.setTap x).downstream = s.downstream := rfl
@[simp] theorem State.setTap_alarmInput (x : Tap) : (s.setTap x).alarmInput = s.alarmInput := rfl
@[simp] theorem State.setTap_busReset (x : Tap) : (s.setTap x).busReset = s.busReset := rfl
@[simp] theorem State.setTap_port (x : Tap) : (s.setTap x).port = s.port := rfl
@[simp] theorem State.setTap_tap (x : Tap) : (s.setTap x).tap = x := rfl
@[simp] theorem State.setTap_intake (x : Tap) : (s.setTap x).intake = s.intake := rfl
@[simp] theorem State.setTap_store (x : Tap) : (s.setTap x).store = s.store := rfl
@[simp] theorem State.setTap_handoffs (x : Tap) : (s.setTap x).handoffs = s.handoffs := rfl
@[simp] theorem State.setTap_dispatcher (x : Tap) : (s.setTap x).dispatcher = s.dispatcher := rfl
@[simp] theorem State.setTap_engine0 (x : Tap) : (s.setTap x).engine0 = s.engine0 := rfl
@[simp] theorem State.setTap_engine1 (x : Tap) : (s.setTap x).engine1 = s.engine1 := rfl
@[simp] theorem State.setTap_records (x : Tap) : (s.setTap x).records = s.records := rfl
@[simp] theorem State.setTap_sweep (x : Tap) : (s.setTap x).sweep = s.sweep := rfl
@[simp] theorem State.setTap_writer (x : Tap) : (s.setTap x).writer = s.writer := rfl
@[simp] theorem State.setTap_notices (x : Tap) : (s.setTap x).notices = s.notices := rfl
@[simp] theorem State.setTap_running (x : Tap) : (s.setTap x).running = s.running := rfl
@[simp] theorem State.setTap_image (x : Tap) : (s.setTap x).image = s.image := rfl
@[simp] theorem State.setTap_globals (x : Tap) : (s.setTap x).globals = s.globals := rfl

/-! ### setDispatcher -/

@[simp] theorem State.setDispatcher_pending (x : Dispatcher) : (s.setDispatcher x).pending = s.pending := rfl
@[simp] theorem State.setDispatcher_freeCount (x : Dispatcher) : (s.setDispatcher x).freeCount = s.freeCount := rfl
@[simp] theorem State.setDispatcher_memory (x : Dispatcher) : (s.setDispatcher x).memory = s.memory := rfl
@[simp] theorem State.setDispatcher_upstream (x : Dispatcher) : (s.setDispatcher x).upstream = s.upstream := rfl
@[simp] theorem State.setDispatcher_downstream (x : Dispatcher) : (s.setDispatcher x).downstream = s.downstream := rfl
@[simp] theorem State.setDispatcher_alarmInput (x : Dispatcher) : (s.setDispatcher x).alarmInput = s.alarmInput := rfl
@[simp] theorem State.setDispatcher_busReset (x : Dispatcher) : (s.setDispatcher x).busReset = s.busReset := rfl
@[simp] theorem State.setDispatcher_port (x : Dispatcher) : (s.setDispatcher x).port = s.port := rfl
@[simp] theorem State.setDispatcher_tap (x : Dispatcher) : (s.setDispatcher x).tap = s.tap := rfl
@[simp] theorem State.setDispatcher_intake (x : Dispatcher) : (s.setDispatcher x).intake = s.intake := rfl
@[simp] theorem State.setDispatcher_store (x : Dispatcher) : (s.setDispatcher x).store = s.store := rfl
@[simp] theorem State.setDispatcher_handoffs (x : Dispatcher) : (s.setDispatcher x).handoffs = s.handoffs := rfl
@[simp] theorem State.setDispatcher_dispatcher (x : Dispatcher) : (s.setDispatcher x).dispatcher = x := rfl
@[simp] theorem State.setDispatcher_engine0 (x : Dispatcher) : (s.setDispatcher x).engine0 = s.engine0 := rfl
@[simp] theorem State.setDispatcher_engine1 (x : Dispatcher) : (s.setDispatcher x).engine1 = s.engine1 := rfl
@[simp] theorem State.setDispatcher_records (x : Dispatcher) : (s.setDispatcher x).records = s.records := rfl
@[simp] theorem State.setDispatcher_sweep (x : Dispatcher) : (s.setDispatcher x).sweep = s.sweep := rfl
@[simp] theorem State.setDispatcher_writer (x : Dispatcher) : (s.setDispatcher x).writer = s.writer := rfl
@[simp] theorem State.setDispatcher_notices (x : Dispatcher) : (s.setDispatcher x).notices = s.notices := rfl
@[simp] theorem State.setDispatcher_running (x : Dispatcher) : (s.setDispatcher x).running = s.running := rfl
@[simp] theorem State.setDispatcher_image (x : Dispatcher) : (s.setDispatcher x).image = s.image := rfl
@[simp] theorem State.setDispatcher_globals (x : Dispatcher) : (s.setDispatcher x).globals = s.globals := rfl

/-! ### setHandoffs -/

@[simp] theorem State.setHandoffs_pending (x : Handoffs) : (s.setHandoffs x).pending = s.pending := rfl
@[simp] theorem State.setHandoffs_freeCount (x : Handoffs) : (s.setHandoffs x).freeCount = s.freeCount := rfl
@[simp] theorem State.setHandoffs_memory (x : Handoffs) : (s.setHandoffs x).memory = s.memory := rfl
@[simp] theorem State.setHandoffs_upstream (x : Handoffs) : (s.setHandoffs x).upstream = s.upstream := rfl
@[simp] theorem State.setHandoffs_downstream (x : Handoffs) : (s.setHandoffs x).downstream = s.downstream := rfl
@[simp] theorem State.setHandoffs_alarmInput (x : Handoffs) : (s.setHandoffs x).alarmInput = s.alarmInput := rfl
@[simp] theorem State.setHandoffs_busReset (x : Handoffs) : (s.setHandoffs x).busReset = s.busReset := rfl
@[simp] theorem State.setHandoffs_port (x : Handoffs) : (s.setHandoffs x).port = s.port := rfl
@[simp] theorem State.setHandoffs_tap (x : Handoffs) : (s.setHandoffs x).tap = s.tap := rfl
@[simp] theorem State.setHandoffs_intake (x : Handoffs) : (s.setHandoffs x).intake = s.intake := rfl
@[simp] theorem State.setHandoffs_store (x : Handoffs) : (s.setHandoffs x).store = s.store := rfl
@[simp] theorem State.setHandoffs_handoffs (x : Handoffs) : (s.setHandoffs x).handoffs = x := rfl
@[simp] theorem State.setHandoffs_dispatcher (x : Handoffs) : (s.setHandoffs x).dispatcher = s.dispatcher := rfl
@[simp] theorem State.setHandoffs_engine0 (x : Handoffs) : (s.setHandoffs x).engine0 = s.engine0 := rfl
@[simp] theorem State.setHandoffs_engine1 (x : Handoffs) : (s.setHandoffs x).engine1 = s.engine1 := rfl
@[simp] theorem State.setHandoffs_records (x : Handoffs) : (s.setHandoffs x).records = s.records := rfl
@[simp] theorem State.setHandoffs_sweep (x : Handoffs) : (s.setHandoffs x).sweep = s.sweep := rfl
@[simp] theorem State.setHandoffs_writer (x : Handoffs) : (s.setHandoffs x).writer = s.writer := rfl
@[simp] theorem State.setHandoffs_notices (x : Handoffs) : (s.setHandoffs x).notices = s.notices := rfl
@[simp] theorem State.setHandoffs_running (x : Handoffs) : (s.setHandoffs x).running = s.running := rfl
@[simp] theorem State.setHandoffs_image (x : Handoffs) : (s.setHandoffs x).image = s.image := rfl
@[simp] theorem State.setHandoffs_globals (x : Handoffs) : (s.setHandoffs x).globals = s.globals := rfl

/-! ### setNotices -/

@[simp] theorem State.setNotices_pending (x : NoticeUnit) : (s.setNotices x).pending = s.pending := rfl
@[simp] theorem State.setNotices_freeCount (x : NoticeUnit) : (s.setNotices x).freeCount = s.freeCount := rfl
@[simp] theorem State.setNotices_memory (x : NoticeUnit) : (s.setNotices x).memory = s.memory := rfl
@[simp] theorem State.setNotices_upstream (x : NoticeUnit) : (s.setNotices x).upstream = s.upstream := rfl
@[simp] theorem State.setNotices_downstream (x : NoticeUnit) : (s.setNotices x).downstream = s.downstream := rfl
@[simp] theorem State.setNotices_alarmInput (x : NoticeUnit) : (s.setNotices x).alarmInput = s.alarmInput := rfl
@[simp] theorem State.setNotices_busReset (x : NoticeUnit) : (s.setNotices x).busReset = s.busReset := rfl
@[simp] theorem State.setNotices_port (x : NoticeUnit) : (s.setNotices x).port = s.port := rfl
@[simp] theorem State.setNotices_tap (x : NoticeUnit) : (s.setNotices x).tap = s.tap := rfl
@[simp] theorem State.setNotices_intake (x : NoticeUnit) : (s.setNotices x).intake = s.intake := rfl
@[simp] theorem State.setNotices_store (x : NoticeUnit) : (s.setNotices x).store = s.store := rfl
@[simp] theorem State.setNotices_handoffs (x : NoticeUnit) : (s.setNotices x).handoffs = s.handoffs := rfl
@[simp] theorem State.setNotices_dispatcher (x : NoticeUnit) : (s.setNotices x).dispatcher = s.dispatcher := rfl
@[simp] theorem State.setNotices_engine0 (x : NoticeUnit) : (s.setNotices x).engine0 = s.engine0 := rfl
@[simp] theorem State.setNotices_engine1 (x : NoticeUnit) : (s.setNotices x).engine1 = s.engine1 := rfl
@[simp] theorem State.setNotices_records (x : NoticeUnit) : (s.setNotices x).records = s.records := rfl
@[simp] theorem State.setNotices_sweep (x : NoticeUnit) : (s.setNotices x).sweep = s.sweep := rfl
@[simp] theorem State.setNotices_writer (x : NoticeUnit) : (s.setNotices x).writer = s.writer := rfl
@[simp] theorem State.setNotices_notices (x : NoticeUnit) : (s.setNotices x).notices = x := rfl
@[simp] theorem State.setNotices_running (x : NoticeUnit) : (s.setNotices x).running = s.running := rfl
@[simp] theorem State.setNotices_image (x : NoticeUnit) : (s.setNotices x).image = s.image := rfl
@[simp] theorem State.setNotices_globals (x : NoticeUnit) : (s.setNotices x).globals = s.globals := rfl

/-! ### setWriter -/

@[simp] theorem State.setWriter_pending (x : Writer) : (s.setWriter x).pending = s.pending := rfl
@[simp] theorem State.setWriter_freeCount (x : Writer) : (s.setWriter x).freeCount = s.freeCount := rfl
@[simp] theorem State.setWriter_memory (x : Writer) : (s.setWriter x).memory = s.memory := rfl
@[simp] theorem State.setWriter_upstream (x : Writer) : (s.setWriter x).upstream = s.upstream := rfl
@[simp] theorem State.setWriter_downstream (x : Writer) : (s.setWriter x).downstream = s.downstream := rfl
@[simp] theorem State.setWriter_alarmInput (x : Writer) : (s.setWriter x).alarmInput = s.alarmInput := rfl
@[simp] theorem State.setWriter_busReset (x : Writer) : (s.setWriter x).busReset = s.busReset := rfl
@[simp] theorem State.setWriter_port (x : Writer) : (s.setWriter x).port = s.port := rfl
@[simp] theorem State.setWriter_tap (x : Writer) : (s.setWriter x).tap = s.tap := rfl
@[simp] theorem State.setWriter_intake (x : Writer) : (s.setWriter x).intake = s.intake := rfl
@[simp] theorem State.setWriter_store (x : Writer) : (s.setWriter x).store = s.store := rfl
@[simp] theorem State.setWriter_handoffs (x : Writer) : (s.setWriter x).handoffs = s.handoffs := rfl
@[simp] theorem State.setWriter_dispatcher (x : Writer) : (s.setWriter x).dispatcher = s.dispatcher := rfl
@[simp] theorem State.setWriter_engine0 (x : Writer) : (s.setWriter x).engine0 = s.engine0 := rfl
@[simp] theorem State.setWriter_engine1 (x : Writer) : (s.setWriter x).engine1 = s.engine1 := rfl
@[simp] theorem State.setWriter_records (x : Writer) : (s.setWriter x).records = s.records := rfl
@[simp] theorem State.setWriter_sweep (x : Writer) : (s.setWriter x).sweep = s.sweep := rfl
@[simp] theorem State.setWriter_writer (x : Writer) : (s.setWriter x).writer = x := rfl
@[simp] theorem State.setWriter_notices (x : Writer) : (s.setWriter x).notices = s.notices := rfl
@[simp] theorem State.setWriter_running (x : Writer) : (s.setWriter x).running = s.running := rfl
@[simp] theorem State.setWriter_image (x : Writer) : (s.setWriter x).image = s.image := rfl
@[simp] theorem State.setWriter_globals (x : Writer) : (s.setWriter x).globals = s.globals := rfl

/-! ### setIntake -/

@[simp] theorem State.setIntake_pending (x : Intake) : (s.setIntake x).pending = s.pending := rfl
@[simp] theorem State.setIntake_freeCount (x : Intake) : (s.setIntake x).freeCount = s.freeCount := rfl
@[simp] theorem State.setIntake_memory (x : Intake) : (s.setIntake x).memory = s.memory := rfl
@[simp] theorem State.setIntake_upstream (x : Intake) : (s.setIntake x).upstream = s.upstream := rfl
@[simp] theorem State.setIntake_downstream (x : Intake) : (s.setIntake x).downstream = s.downstream := rfl
@[simp] theorem State.setIntake_alarmInput (x : Intake) : (s.setIntake x).alarmInput = s.alarmInput := rfl
@[simp] theorem State.setIntake_busReset (x : Intake) : (s.setIntake x).busReset = s.busReset := rfl
@[simp] theorem State.setIntake_port (x : Intake) : (s.setIntake x).port = s.port := rfl
@[simp] theorem State.setIntake_tap (x : Intake) : (s.setIntake x).tap = s.tap := rfl
@[simp] theorem State.setIntake_intake (x : Intake) : (s.setIntake x).intake = x := rfl
@[simp] theorem State.setIntake_store (x : Intake) : (s.setIntake x).store = s.store := rfl
@[simp] theorem State.setIntake_handoffs (x : Intake) : (s.setIntake x).handoffs = s.handoffs := rfl
@[simp] theorem State.setIntake_dispatcher (x : Intake) : (s.setIntake x).dispatcher = s.dispatcher := rfl
@[simp] theorem State.setIntake_engine0 (x : Intake) : (s.setIntake x).engine0 = s.engine0 := rfl
@[simp] theorem State.setIntake_engine1 (x : Intake) : (s.setIntake x).engine1 = s.engine1 := rfl
@[simp] theorem State.setIntake_records (x : Intake) : (s.setIntake x).records = s.records := rfl
@[simp] theorem State.setIntake_sweep (x : Intake) : (s.setIntake x).sweep = s.sweep := rfl
@[simp] theorem State.setIntake_writer (x : Intake) : (s.setIntake x).writer = s.writer := rfl
@[simp] theorem State.setIntake_notices (x : Intake) : (s.setIntake x).notices = s.notices := rfl
@[simp] theorem State.setIntake_running (x : Intake) : (s.setIntake x).running = s.running := rfl
@[simp] theorem State.setIntake_image (x : Intake) : (s.setIntake x).image = s.image := rfl
@[simp] theorem State.setIntake_globals (x : Intake) : (s.setIntake x).globals = s.globals := rfl

/-! ### setPort -/

@[simp] theorem State.setPort_pending (x : ConfigPort) : (s.setPort x).pending = s.pending := rfl
@[simp] theorem State.setPort_freeCount (x : ConfigPort) : (s.setPort x).freeCount = s.freeCount := rfl
@[simp] theorem State.setPort_memory (x : ConfigPort) : (s.setPort x).memory = s.memory := rfl
@[simp] theorem State.setPort_upstream (x : ConfigPort) : (s.setPort x).upstream = s.upstream := rfl
@[simp] theorem State.setPort_downstream (x : ConfigPort) : (s.setPort x).downstream = s.downstream := rfl
@[simp] theorem State.setPort_alarmInput (x : ConfigPort) : (s.setPort x).alarmInput = s.alarmInput := rfl
@[simp] theorem State.setPort_busReset (x : ConfigPort) : (s.setPort x).busReset = s.busReset := rfl
@[simp] theorem State.setPort_port (x : ConfigPort) : (s.setPort x).port = x := rfl
@[simp] theorem State.setPort_tap (x : ConfigPort) : (s.setPort x).tap = s.tap := rfl
@[simp] theorem State.setPort_intake (x : ConfigPort) : (s.setPort x).intake = s.intake := rfl
@[simp] theorem State.setPort_store (x : ConfigPort) : (s.setPort x).store = s.store := rfl
@[simp] theorem State.setPort_handoffs (x : ConfigPort) : (s.setPort x).handoffs = s.handoffs := rfl
@[simp] theorem State.setPort_dispatcher (x : ConfigPort) : (s.setPort x).dispatcher = s.dispatcher := rfl
@[simp] theorem State.setPort_engine0 (x : ConfigPort) : (s.setPort x).engine0 = s.engine0 := rfl
@[simp] theorem State.setPort_engine1 (x : ConfigPort) : (s.setPort x).engine1 = s.engine1 := rfl
@[simp] theorem State.setPort_records (x : ConfigPort) : (s.setPort x).records = s.records := rfl
@[simp] theorem State.setPort_sweep (x : ConfigPort) : (s.setPort x).sweep = s.sweep := rfl
@[simp] theorem State.setPort_writer (x : ConfigPort) : (s.setPort x).writer = s.writer := rfl
@[simp] theorem State.setPort_notices (x : ConfigPort) : (s.setPort x).notices = s.notices := rfl

/-! ### setNodes -/

@[simp] theorem State.setNodes_pending (x : List (Nat × Node)) : (s.setNodes x).pending = s.pending := rfl
@[simp] theorem State.setNodes_freeCount (x : List (Nat × Node)) : (s.setNodes x).freeCount = s.freeCount := rfl
@[simp] theorem State.setNodes_memory (x : List (Nat × Node)) : (s.setNodes x).memory = s.memory := rfl
@[simp] theorem State.setNodes_upstream (x : List (Nat × Node)) : (s.setNodes x).upstream = s.upstream := rfl
@[simp] theorem State.setNodes_downstream (x : List (Nat × Node)) : (s.setNodes x).downstream = s.downstream := rfl
@[simp] theorem State.setNodes_alarmInput (x : List (Nat × Node)) : (s.setNodes x).alarmInput = s.alarmInput := rfl
@[simp] theorem State.setNodes_busReset (x : List (Nat × Node)) : (s.setNodes x).busReset = s.busReset := rfl
@[simp] theorem State.setNodes_port (x : List (Nat × Node)) : (s.setNodes x).port = s.port := rfl
@[simp] theorem State.setNodes_tap (x : List (Nat × Node)) : (s.setNodes x).tap = s.tap := rfl
@[simp] theorem State.setNodes_intake (x : List (Nat × Node)) : (s.setNodes x).intake = s.intake := rfl
@[simp] theorem State.setNodes_store (x : List (Nat × Node)) :
    (s.setNodes x).store = { s.store with nodes := x } := rfl
@[simp] theorem State.setNodes_handoffs (x : List (Nat × Node)) : (s.setNodes x).handoffs = s.handoffs := rfl
@[simp] theorem State.setNodes_dispatcher (x : List (Nat × Node)) : (s.setNodes x).dispatcher = s.dispatcher := rfl
@[simp] theorem State.setNodes_engine0 (x : List (Nat × Node)) : (s.setNodes x).engine0 = s.engine0 := rfl
@[simp] theorem State.setNodes_engine1 (x : List (Nat × Node)) : (s.setNodes x).engine1 = s.engine1 := rfl
@[simp] theorem State.setNodes_records (x : List (Nat × Node)) : (s.setNodes x).records = s.records := rfl
@[simp] theorem State.setNodes_sweep (x : List (Nat × Node)) : (s.setNodes x).sweep = s.sweep := rfl
@[simp] theorem State.setNodes_writer (x : List (Nat × Node)) : (s.setNodes x).writer = s.writer := rfl
@[simp] theorem State.setNodes_notices (x : List (Nat × Node)) : (s.setNodes x).notices = s.notices := rfl
@[simp] theorem State.setNodes_running (x : List (Nat × Node)) : (s.setNodes x).running = s.running := rfl
@[simp] theorem State.setNodes_image (x : List (Nat × Node)) : (s.setNodes x).image = s.image := rfl
@[simp] theorem State.setNodes_globals (x : List (Nat × Node)) : (s.setNodes x).globals = s.globals := rfl

/-! ### setClaims -/

@[simp] theorem State.setClaims_pending (x : List Claim) : (s.setClaims x).pending = s.pending := rfl
@[simp] theorem State.setClaims_freeCount (x : List Claim) : (s.setClaims x).freeCount = s.freeCount := rfl
@[simp] theorem State.setClaims_memory (x : List Claim) : (s.setClaims x).memory = s.memory := rfl
@[simp] theorem State.setClaims_upstream (x : List Claim) : (s.setClaims x).upstream = s.upstream := rfl
@[simp] theorem State.setClaims_downstream (x : List Claim) : (s.setClaims x).downstream = s.downstream := rfl
@[simp] theorem State.setClaims_alarmInput (x : List Claim) : (s.setClaims x).alarmInput = s.alarmInput := rfl
@[simp] theorem State.setClaims_busReset (x : List Claim) : (s.setClaims x).busReset = s.busReset := rfl
@[simp] theorem State.setClaims_port (x : List Claim) : (s.setClaims x).port = s.port := rfl
@[simp] theorem State.setClaims_tap (x : List Claim) : (s.setClaims x).tap = s.tap := rfl
@[simp] theorem State.setClaims_intake (x : List Claim) : (s.setClaims x).intake = s.intake := rfl
@[simp] theorem State.setClaims_store (x : List Claim) : (s.setClaims x).store = { s.store with claims := x } := rfl
@[simp] theorem State.setClaims_handoffs (x : List Claim) : (s.setClaims x).handoffs = s.handoffs := rfl
@[simp] theorem State.setClaims_dispatcher (x : List Claim) : (s.setClaims x).dispatcher = s.dispatcher := rfl
@[simp] theorem State.setClaims_engine0 (x : List Claim) : (s.setClaims x).engine0 = s.engine0 := rfl
@[simp] theorem State.setClaims_engine1 (x : List Claim) : (s.setClaims x).engine1 = s.engine1 := rfl
@[simp] theorem State.setClaims_records (x : List Claim) : (s.setClaims x).records = s.records := rfl
@[simp] theorem State.setClaims_sweep (x : List Claim) : (s.setClaims x).sweep = s.sweep := rfl
@[simp] theorem State.setClaims_writer (x : List Claim) : (s.setClaims x).writer = s.writer := rfl
@[simp] theorem State.setClaims_notices (x : List Claim) : (s.setClaims x).notices = s.notices := rfl
@[simp] theorem State.setClaims_running (x : List Claim) : (s.setClaims x).running = s.running := rfl
@[simp] theorem State.setClaims_image (x : List Claim) : (s.setClaims x).image = s.image := rfl
@[simp] theorem State.setClaims_globals (x : List Claim) : (s.setClaims x).globals = s.globals := rfl

/-! ### setLinks -/

@[simp] theorem State.setLinks_pending (x : List (Nat × Link)) : (s.setLinks x).pending = s.pending := rfl
@[simp] theorem State.setLinks_freeCount (x : List (Nat × Link)) : (s.setLinks x).freeCount = s.freeCount := rfl
@[simp] theorem State.setLinks_memory (x : List (Nat × Link)) : (s.setLinks x).memory = s.memory := rfl
@[simp] theorem State.setLinks_upstream (x : List (Nat × Link)) : (s.setLinks x).upstream = s.upstream := rfl
@[simp] theorem State.setLinks_downstream (x : List (Nat × Link)) : (s.setLinks x).downstream = s.downstream := rfl
@[simp] theorem State.setLinks_alarmInput (x : List (Nat × Link)) : (s.setLinks x).alarmInput = s.alarmInput := rfl
@[simp] theorem State.setLinks_busReset (x : List (Nat × Link)) : (s.setLinks x).busReset = s.busReset := rfl
@[simp] theorem State.setLinks_port (x : List (Nat × Link)) : (s.setLinks x).port = s.port := rfl
@[simp] theorem State.setLinks_tap (x : List (Nat × Link)) : (s.setLinks x).tap = s.tap := rfl
@[simp] theorem State.setLinks_intake (x : List (Nat × Link)) : (s.setLinks x).intake = s.intake := rfl
@[simp] theorem State.setLinks_store (x : List (Nat × Link)) :
    (s.setLinks x).store = { s.store with links := x } := rfl
@[simp] theorem State.setLinks_handoffs (x : List (Nat × Link)) : (s.setLinks x).handoffs = s.handoffs := rfl
@[simp] theorem State.setLinks_dispatcher (x : List (Nat × Link)) : (s.setLinks x).dispatcher = s.dispatcher := rfl
@[simp] theorem State.setLinks_engine0 (x : List (Nat × Link)) : (s.setLinks x).engine0 = s.engine0 := rfl
@[simp] theorem State.setLinks_engine1 (x : List (Nat × Link)) : (s.setLinks x).engine1 = s.engine1 := rfl
@[simp] theorem State.setLinks_records (x : List (Nat × Link)) : (s.setLinks x).records = s.records := rfl
@[simp] theorem State.setLinks_sweep (x : List (Nat × Link)) : (s.setLinks x).sweep = s.sweep := rfl
@[simp] theorem State.setLinks_writer (x : List (Nat × Link)) : (s.setLinks x).writer = s.writer := rfl
@[simp] theorem State.setLinks_notices (x : List (Nat × Link)) : (s.setLinks x).notices = s.notices := rfl
@[simp] theorem State.setLinks_running (x : List (Nat × Link)) : (s.setLinks x).running = s.running := rfl
@[simp] theorem State.setLinks_image (x : List (Nat × Link)) : (s.setLinks x).image = s.image := rfl
@[simp] theorem State.setLinks_globals (x : List (Nat × Link)) : (s.setLinks x).globals = s.globals := rfl

/-! ### updateNode -/

@[simp] theorem State.updateNode_pending (i : Nat) (f : Node → Node) : (s.updateNode i f).pending = s.pending := rfl
@[simp] theorem State.updateNode_freeCount (i : Nat) (f : Node → Node) :
    (s.updateNode i f).freeCount = s.freeCount := rfl
@[simp] theorem State.updateNode_memory (i : Nat) (f : Node → Node) : (s.updateNode i f).memory = s.memory := rfl
@[simp] theorem State.updateNode_upstream (i : Nat) (f : Node → Node) :
    (s.updateNode i f).upstream = s.upstream := rfl
@[simp] theorem State.updateNode_downstream (i : Nat) (f : Node → Node) :
    (s.updateNode i f).downstream = s.downstream := rfl
@[simp] theorem State.updateNode_alarmInput (i : Nat) (f : Node → Node) :
    (s.updateNode i f).alarmInput = s.alarmInput := rfl
@[simp] theorem State.updateNode_busReset (i : Nat) (f : Node → Node) :
    (s.updateNode i f).busReset = s.busReset := rfl
@[simp] theorem State.updateNode_port (i : Nat) (f : Node → Node) : (s.updateNode i f).port = s.port := rfl
@[simp] theorem State.updateNode_tap (i : Nat) (f : Node → Node) : (s.updateNode i f).tap = s.tap := rfl
@[simp] theorem State.updateNode_intake (i : Nat) (f : Node → Node) : (s.updateNode i f).intake = s.intake := rfl
@[simp] theorem State.updateNode_store (i : Nat) (f : Node → Node) :
    (s.updateNode i f).store = { s.store with nodes := tableUpdate s.store.nodes i f } := rfl
@[simp] theorem State.updateNode_handoffs (i : Nat) (f : Node → Node) :
    (s.updateNode i f).handoffs = s.handoffs := rfl
@[simp] theorem State.updateNode_dispatcher (i : Nat) (f : Node → Node) :
    (s.updateNode i f).dispatcher = s.dispatcher := rfl
@[simp] theorem State.updateNode_engine0 (i : Nat) (f : Node → Node) : (s.updateNode i f).engine0 = s.engine0 := rfl
@[simp] theorem State.updateNode_engine1 (i : Nat) (f : Node → Node) : (s.updateNode i f).engine1 = s.engine1 := rfl
@[simp] theorem State.updateNode_records (i : Nat) (f : Node → Node) : (s.updateNode i f).records = s.records := rfl
@[simp] theorem State.updateNode_sweep (i : Nat) (f : Node → Node) : (s.updateNode i f).sweep = s.sweep := rfl
@[simp] theorem State.updateNode_writer (i : Nat) (f : Node → Node) : (s.updateNode i f).writer = s.writer := rfl
@[simp] theorem State.updateNode_notices (i : Nat) (f : Node → Node) : (s.updateNode i f).notices = s.notices := rfl
@[simp] theorem State.updateNode_running (i : Nat) (f : Node → Node) : (s.updateNode i f).running = s.running := rfl
@[simp] theorem State.updateNode_image (i : Nat) (f : Node → Node) : (s.updateNode i f).image = s.image := rfl
@[simp] theorem State.updateNode_globals (i : Nat) (f : Node → Node) : (s.updateNode i f).globals = s.globals := rfl

/-! ### updateLink -/

@[simp] theorem State.updateLink_pending (k : Nat) (f : Link → Link) : (s.updateLink k f).pending = s.pending := rfl
@[simp] theorem State.updateLink_freeCount (k : Nat) (f : Link → Link) :
    (s.updateLink k f).freeCount = s.freeCount := rfl
@[simp] theorem State.updateLink_memory (k : Nat) (f : Link → Link) : (s.updateLink k f).memory = s.memory := rfl
@[simp] theorem State.updateLink_upstream (k : Nat) (f : Link → Link) :
    (s.updateLink k f).upstream = s.upstream := rfl
@[simp] theorem State.updateLink_downstream (k : Nat) (f : Link → Link) :
    (s.updateLink k f).downstream = s.downstream := rfl
@[simp] theorem State.updateLink_alarmInput (k : Nat) (f : Link → Link) :
    (s.updateLink k f).alarmInput = s.alarmInput := rfl
@[simp] theorem State.updateLink_busReset (k : Nat) (f : Link → Link) :
    (s.updateLink k f).busReset = s.busReset := rfl
@[simp] theorem State.updateLink_port (k : Nat) (f : Link → Link) : (s.updateLink k f).port = s.port := rfl
@[simp] theorem State.updateLink_tap (k : Nat) (f : Link → Link) : (s.updateLink k f).tap = s.tap := rfl
@[simp] theorem State.updateLink_intake (k : Nat) (f : Link → Link) : (s.updateLink k f).intake = s.intake := rfl
@[simp] theorem State.updateLink_store (k : Nat) (f : Link → Link) :
    (s.updateLink k f).store = { s.store with links := tableUpdate s.store.links k f } := rfl
@[simp] theorem State.updateLink_handoffs (k : Nat) (f : Link → Link) :
    (s.updateLink k f).handoffs = s.handoffs := rfl
@[simp] theorem State.updateLink_dispatcher (k : Nat) (f : Link → Link) :
    (s.updateLink k f).dispatcher = s.dispatcher := rfl
@[simp] theorem State.updateLink_engine0 (k : Nat) (f : Link → Link) : (s.updateLink k f).engine0 = s.engine0 := rfl
@[simp] theorem State.updateLink_engine1 (k : Nat) (f : Link → Link) : (s.updateLink k f).engine1 = s.engine1 := rfl
@[simp] theorem State.updateLink_records (k : Nat) (f : Link → Link) : (s.updateLink k f).records = s.records := rfl
@[simp] theorem State.updateLink_sweep (k : Nat) (f : Link → Link) : (s.updateLink k f).sweep = s.sweep := rfl
@[simp] theorem State.updateLink_writer (k : Nat) (f : Link → Link) : (s.updateLink k f).writer = s.writer := rfl
@[simp] theorem State.updateLink_notices (k : Nat) (f : Link → Link) : (s.updateLink k f).notices = s.notices := rfl
@[simp] theorem State.updateLink_running (k : Nat) (f : Link → Link) : (s.updateLink k f).running = s.running := rfl
@[simp] theorem State.updateLink_image (k : Nat) (f : Link → Link) : (s.updateLink k f).image = s.image := rfl
@[simp] theorem State.updateLink_globals (k : Nat) (f : Link → Link) : (s.updateLink k f).globals = s.globals := rfl

/-! ### setDirection -/

@[simp] theorem State.setDirection_pending (k : Nat) (d : Dir) (x : Direction) :
    (s.setDirection k d x).pending = s.pending := rfl
@[simp] theorem State.setDirection_freeCount (k : Nat) (d : Dir) (x : Direction) :
    (s.setDirection k d x).freeCount = s.freeCount := rfl
@[simp] theorem State.setDirection_memory (k : Nat) (d : Dir) (x : Direction) :
    (s.setDirection k d x).memory = s.memory := rfl
@[simp] theorem State.setDirection_upstream (k : Nat) (d : Dir) (x : Direction) :
    (s.setDirection k d x).upstream = s.upstream := rfl
@[simp] theorem State.setDirection_downstream (k : Nat) (d : Dir) (x : Direction) :
    (s.setDirection k d x).downstream = s.downstream := rfl
@[simp] theorem State.setDirection_alarmInput (k : Nat) (d : Dir) (x : Direction) :
    (s.setDirection k d x).alarmInput = s.alarmInput := rfl
@[simp] theorem State.setDirection_busReset (k : Nat) (d : Dir) (x : Direction) :
    (s.setDirection k d x).busReset = s.busReset := rfl
@[simp] theorem State.setDirection_port (k : Nat) (d : Dir) (x : Direction) :
    (s.setDirection k d x).port = s.port := rfl
@[simp] theorem State.setDirection_tap (k : Nat) (d : Dir) (x : Direction) : (s.setDirection k d x).tap = s.tap := rfl
@[simp] theorem State.setDirection_intake (k : Nat) (d : Dir) (x : Direction) :
    (s.setDirection k d x).intake = s.intake := rfl
@[simp] theorem State.setDirection_store (k : Nat) (d : Dir) (x : Direction) :
    (s.setDirection k d x).store = { s.store with links := tableUpdate s.store.links k fun l => l.withDirection d x } := rfl
@[simp] theorem State.setDirection_handoffs (k : Nat) (d : Dir) (x : Direction) :
    (s.setDirection k d x).handoffs = s.handoffs := rfl
@[simp] theorem State.setDirection_dispatcher (k : Nat) (d : Dir) (x : Direction) :
    (s.setDirection k d x).dispatcher = s.dispatcher := rfl
@[simp] theorem State.setDirection_engine0 (k : Nat) (d : Dir) (x : Direction) :
    (s.setDirection k d x).engine0 = s.engine0 := rfl
@[simp] theorem State.setDirection_engine1 (k : Nat) (d : Dir) (x : Direction) :
    (s.setDirection k d x).engine1 = s.engine1 := rfl
@[simp] theorem State.setDirection_records (k : Nat) (d : Dir) (x : Direction) :
    (s.setDirection k d x).records = s.records := rfl
@[simp] theorem State.setDirection_sweep (k : Nat) (d : Dir) (x : Direction) :
    (s.setDirection k d x).sweep = s.sweep := rfl
@[simp] theorem State.setDirection_writer (k : Nat) (d : Dir) (x : Direction) :
    (s.setDirection k d x).writer = s.writer := rfl
@[simp] theorem State.setDirection_notices (k : Nat) (d : Dir) (x : Direction) :
    (s.setDirection k d x).notices = s.notices := rfl
@[simp] theorem State.setDirection_running (k : Nat) (d : Dir) (x : Direction) : (s.setDirection k d x).running = s.running := rfl
@[simp] theorem State.setDirection_image (k : Nat) (d : Dir) (x : Direction) : (s.setDirection k d x).image = s.image := rfl
@[simp] theorem State.setDirection_globals (k : Nat) (d : Dir) (x : Direction) : (s.setDirection k d x).globals = s.globals := rfl

/-! ### setRecord -/

@[simp] theorem State.setRecord_pending (i : Nat) (r : LpRecord) : (s.setRecord i r).pending = s.pending := rfl
@[simp] theorem State.setRecord_freeCount (i : Nat) (r : LpRecord) : (s.setRecord i r).freeCount = s.freeCount := rfl
@[simp] theorem State.setRecord_memory (i : Nat) (r : LpRecord) : (s.setRecord i r).memory = s.memory := rfl
@[simp] theorem State.setRecord_upstream (i : Nat) (r : LpRecord) : (s.setRecord i r).upstream = s.upstream := rfl
@[simp] theorem State.setRecord_downstream (i : Nat) (r : LpRecord) :
    (s.setRecord i r).downstream = s.downstream := rfl
@[simp] theorem State.setRecord_alarmInput (i : Nat) (r : LpRecord) :
    (s.setRecord i r).alarmInput = s.alarmInput := rfl
@[simp] theorem State.setRecord_busReset (i : Nat) (r : LpRecord) : (s.setRecord i r).busReset = s.busReset := rfl
@[simp] theorem State.setRecord_port (i : Nat) (r : LpRecord) : (s.setRecord i r).port = s.port := rfl
@[simp] theorem State.setRecord_tap (i : Nat) (r : LpRecord) : (s.setRecord i r).tap = s.tap := rfl
@[simp] theorem State.setRecord_intake (i : Nat) (r : LpRecord) : (s.setRecord i r).intake = s.intake := rfl
@[simp] theorem State.setRecord_store (i : Nat) (r : LpRecord) : (s.setRecord i r).store = s.store := rfl
@[simp] theorem State.setRecord_handoffs (i : Nat) (r : LpRecord) : (s.setRecord i r).handoffs = s.handoffs := rfl
@[simp] theorem State.setRecord_dispatcher (i : Nat) (r : LpRecord) :
    (s.setRecord i r).dispatcher = s.dispatcher := rfl
@[simp] theorem State.setRecord_engine0 (i : Nat) (r : LpRecord) : (s.setRecord i r).engine0 = s.engine0 := rfl
@[simp] theorem State.setRecord_engine1 (i : Nat) (r : LpRecord) : (s.setRecord i r).engine1 = s.engine1 := rfl
@[simp] theorem State.setRecord_records (i : Nat) (r : LpRecord) :
    (s.setRecord i r).records = setAt s.records i r := rfl
@[simp] theorem State.setRecord_sweep (i : Nat) (r : LpRecord) : (s.setRecord i r).sweep = s.sweep := rfl
@[simp] theorem State.setRecord_writer (i : Nat) (r : LpRecord) : (s.setRecord i r).writer = s.writer := rfl
@[simp] theorem State.setRecord_notices (i : Nat) (r : LpRecord) : (s.setRecord i r).notices = s.notices := rfl
@[simp] theorem State.setRecord_running (i : Nat) (r : LpRecord) : (s.setRecord i r).running = s.running := rfl
@[simp] theorem State.setRecord_image (i : Nat) (r : LpRecord) : (s.setRecord i r).image = s.image := rfl
@[simp] theorem State.setRecord_globals (i : Nat) (r : LpRecord) : (s.setRecord i r).globals = s.globals := rfl

/-! ### setLightpath -/

@[simp] theorem State.setLightpath_pending (i : Nat) (p : Lightpath) : (s.setLightpath i p).pending = s.pending := rfl
@[simp] theorem State.setLightpath_freeCount (i : Nat) (p : Lightpath) :
    (s.setLightpath i p).freeCount = s.freeCount := rfl
@[simp] theorem State.setLightpath_memory (i : Nat) (p : Lightpath) : (s.setLightpath i p).memory = s.memory := rfl
@[simp] theorem State.setLightpath_upstream (i : Nat) (p : Lightpath) :
    (s.setLightpath i p).upstream = s.upstream := rfl
@[simp] theorem State.setLightpath_downstream (i : Nat) (p : Lightpath) :
    (s.setLightpath i p).downstream = s.downstream := rfl
@[simp] theorem State.setLightpath_alarmInput (i : Nat) (p : Lightpath) :
    (s.setLightpath i p).alarmInput = s.alarmInput := rfl
@[simp] theorem State.setLightpath_busReset (i : Nat) (p : Lightpath) :
    (s.setLightpath i p).busReset = s.busReset := rfl
@[simp] theorem State.setLightpath_port (i : Nat) (p : Lightpath) : (s.setLightpath i p).port = s.port := rfl
@[simp] theorem State.setLightpath_tap (i : Nat) (p : Lightpath) : (s.setLightpath i p).tap = s.tap := rfl
@[simp] theorem State.setLightpath_intake (i : Nat) (p : Lightpath) : (s.setLightpath i p).intake = s.intake := rfl
@[simp] theorem State.setLightpath_store (i : Nat) (p : Lightpath) : (s.setLightpath i p).store = s.store := rfl
@[simp] theorem State.setLightpath_handoffs (i : Nat) (p : Lightpath) :
    (s.setLightpath i p).handoffs = s.handoffs := rfl
@[simp] theorem State.setLightpath_dispatcher (i : Nat) (p : Lightpath) :
    (s.setLightpath i p).dispatcher = s.dispatcher := rfl
@[simp] theorem State.setLightpath_engine0 (i : Nat) (p : Lightpath) : (s.setLightpath i p).engine0 = s.engine0 := rfl
@[simp] theorem State.setLightpath_engine1 (i : Nat) (p : Lightpath) : (s.setLightpath i p).engine1 = s.engine1 := rfl
@[simp] theorem State.setLightpath_records (i : Nat) (p : Lightpath) :
    (s.setLightpath i p).records = setAt s.records i { s.recordAt i with path := some p } := rfl
@[simp] theorem State.setLightpath_sweep (i : Nat) (p : Lightpath) : (s.setLightpath i p).sweep = s.sweep := rfl
@[simp] theorem State.setLightpath_writer (i : Nat) (p : Lightpath) : (s.setLightpath i p).writer = s.writer := rfl
@[simp] theorem State.setLightpath_notices (i : Nat) (p : Lightpath) : (s.setLightpath i p).notices = s.notices := rfl
@[simp] theorem State.setLightpath_running (i : Nat) (p : Lightpath) : (s.setLightpath i p).running = s.running := rfl
@[simp] theorem State.setLightpath_image (i : Nat) (p : Lightpath) : (s.setLightpath i p).image = s.image := rfl
@[simp] theorem State.setLightpath_globals (i : Nat) (p : Lightpath) : (s.setLightpath i p).globals = s.globals := rfl

/-! ### hand -/

@[simp] theorem State.hand_pending (n : Notice) : (s.hand n).pending = s.pending := rfl
@[simp] theorem State.hand_freeCount (n : Notice) : (s.hand n).freeCount = s.freeCount := rfl
@[simp] theorem State.hand_memory (n : Notice) : (s.hand n).memory = s.memory := rfl
@[simp] theorem State.hand_upstream (n : Notice) : (s.hand n).upstream = s.upstream := rfl
@[simp] theorem State.hand_downstream (n : Notice) : (s.hand n).downstream = s.downstream := rfl
@[simp] theorem State.hand_alarmInput (n : Notice) : (s.hand n).alarmInput = s.alarmInput := rfl
@[simp] theorem State.hand_busReset (n : Notice) : (s.hand n).busReset = s.busReset := rfl
@[simp] theorem State.hand_port (n : Notice) : (s.hand n).port = s.port := rfl
@[simp] theorem State.hand_tap (n : Notice) : (s.hand n).tap = s.tap := rfl
@[simp] theorem State.hand_intake (n : Notice) : (s.hand n).intake = s.intake := rfl
@[simp] theorem State.hand_store (n : Notice) : (s.hand n).store = s.store := rfl
@[simp] theorem State.hand_handoffs (n : Notice) : (s.hand n).handoffs = s.handoffs := rfl
@[simp] theorem State.hand_dispatcher (n : Notice) : (s.hand n).dispatcher = s.dispatcher := rfl
@[simp] theorem State.hand_engine0 (n : Notice) : (s.hand n).engine0 = s.engine0 := rfl
@[simp] theorem State.hand_engine1 (n : Notice) : (s.hand n).engine1 = s.engine1 := rfl
@[simp] theorem State.hand_records (n : Notice) : (s.hand n).records = s.records := rfl
@[simp] theorem State.hand_sweep (n : Notice) : (s.hand n).sweep = s.sweep := rfl
@[simp] theorem State.hand_writer (n : Notice) : (s.hand n).writer = s.writer := rfl
@[simp] theorem State.hand_notices (n : Notice) :
    (s.hand n).notices = { s.notices with inbox := s.notices.inbox ++ [n] } := rfl
@[simp] theorem State.hand_running (n : Notice) : (s.hand n).running = s.running := rfl
@[simp] theorem State.hand_image (n : Notice) : (s.hand n).image = s.image := rfl
@[simp] theorem State.hand_globals (n : Notice) : (s.hand n).globals = s.globals := rfl

/-! ### raiseStore -/

@[simp] theorem State.raiseStore_pending (x : StoreEvent) : (s.raiseStore x).pending = s.pending := rfl
@[simp] theorem State.raiseStore_freeCount (x : StoreEvent) : (s.raiseStore x).freeCount = s.freeCount := rfl
@[simp] theorem State.raiseStore_memory (x : StoreEvent) : (s.raiseStore x).memory = s.memory := rfl
@[simp] theorem State.raiseStore_upstream (x : StoreEvent) : (s.raiseStore x).upstream = s.upstream := rfl
@[simp] theorem State.raiseStore_downstream (x : StoreEvent) : (s.raiseStore x).downstream = s.downstream := rfl
@[simp] theorem State.raiseStore_alarmInput (x : StoreEvent) : (s.raiseStore x).alarmInput = s.alarmInput := rfl
@[simp] theorem State.raiseStore_busReset (x : StoreEvent) : (s.raiseStore x).busReset = s.busReset := rfl
@[simp] theorem State.raiseStore_port (x : StoreEvent) : (s.raiseStore x).port = s.port := rfl
@[simp] theorem State.raiseStore_tap (x : StoreEvent) : (s.raiseStore x).tap = s.tap := rfl
@[simp] theorem State.raiseStore_intake (x : StoreEvent) : (s.raiseStore x).intake = s.intake := rfl
@[simp] theorem State.raiseStore_store (x : StoreEvent) : (s.raiseStore x).store = s.store := rfl
@[simp] theorem State.raiseStore_handoffs (x : StoreEvent) :
    (s.raiseStore x).handoffs = { s.handoffs with storeToTable := s.handoffs.storeToTable ++ [x] } := rfl
@[simp] theorem State.raiseStore_dispatcher (x : StoreEvent) : (s.raiseStore x).dispatcher = s.dispatcher := rfl
@[simp] theorem State.raiseStore_engine0 (x : StoreEvent) : (s.raiseStore x).engine0 = s.engine0 := rfl
@[simp] theorem State.raiseStore_engine1 (x : StoreEvent) : (s.raiseStore x).engine1 = s.engine1 := rfl
@[simp] theorem State.raiseStore_records (x : StoreEvent) : (s.raiseStore x).records = s.records := rfl
@[simp] theorem State.raiseStore_sweep (x : StoreEvent) : (s.raiseStore x).sweep = s.sweep := rfl
@[simp] theorem State.raiseStore_writer (x : StoreEvent) : (s.raiseStore x).writer = s.writer := rfl
@[simp] theorem State.raiseStore_notices (x : StoreEvent) : (s.raiseStore x).notices = s.notices := rfl
@[simp] theorem State.raiseStore_running (x : StoreEvent) : (s.raiseStore x).running = s.running := rfl
@[simp] theorem State.raiseStore_image (x : StoreEvent) : (s.raiseStore x).image = s.image := rfl
@[simp] theorem State.raiseStore_globals (x : StoreEvent) : (s.raiseStore x).globals = s.globals := rfl

/-! ### raiseConditioner -/

@[simp] theorem State.raiseConditioner_pending (x : HopLost) : (s.raiseConditioner x).pending = s.pending := rfl
@[simp] theorem State.raiseConditioner_freeCount (x : HopLost) : (s.raiseConditioner x).freeCount = s.freeCount := rfl
@[simp] theorem State.raiseConditioner_memory (x : HopLost) : (s.raiseConditioner x).memory = s.memory := rfl
@[simp] theorem State.raiseConditioner_upstream (x : HopLost) : (s.raiseConditioner x).upstream = s.upstream := rfl
@[simp] theorem State.raiseConditioner_downstream (x : HopLost) :
    (s.raiseConditioner x).downstream = s.downstream := rfl
@[simp] theorem State.raiseConditioner_alarmInput (x : HopLost) :
    (s.raiseConditioner x).alarmInput = s.alarmInput := rfl
@[simp] theorem State.raiseConditioner_busReset (x : HopLost) : (s.raiseConditioner x).busReset = s.busReset := rfl
@[simp] theorem State.raiseConditioner_port (x : HopLost) : (s.raiseConditioner x).port = s.port := rfl
@[simp] theorem State.raiseConditioner_tap (x : HopLost) : (s.raiseConditioner x).tap = s.tap := rfl
@[simp] theorem State.raiseConditioner_intake (x : HopLost) : (s.raiseConditioner x).intake = s.intake := rfl
@[simp] theorem State.raiseConditioner_store (x : HopLost) : (s.raiseConditioner x).store = s.store := rfl
@[simp] theorem State.raiseConditioner_handoffs (x : HopLost) :
    (s.raiseConditioner x).handoffs = { s.handoffs with conditionerToTable := s.handoffs.conditionerToTable ++ [x] } := rfl
@[simp] theorem State.raiseConditioner_dispatcher (x : HopLost) :
    (s.raiseConditioner x).dispatcher = s.dispatcher := rfl
@[simp] theorem State.raiseConditioner_engine0 (x : HopLost) : (s.raiseConditioner x).engine0 = s.engine0 := rfl
@[simp] theorem State.raiseConditioner_engine1 (x : HopLost) : (s.raiseConditioner x).engine1 = s.engine1 := rfl
@[simp] theorem State.raiseConditioner_records (x : HopLost) : (s.raiseConditioner x).records = s.records := rfl
@[simp] theorem State.raiseConditioner_sweep (x : HopLost) : (s.raiseConditioner x).sweep = s.sweep := rfl
@[simp] theorem State.raiseConditioner_writer (x : HopLost) : (s.raiseConditioner x).writer = s.writer := rfl
@[simp] theorem State.raiseConditioner_notices (x : HopLost) : (s.raiseConditioner x).notices = s.notices := rfl
@[simp] theorem State.raiseConditioner_running (x : HopLost) : (s.raiseConditioner x).running = s.running := rfl
@[simp] theorem State.raiseConditioner_image (x : HopLost) : (s.raiseConditioner x).image = s.image := rfl
@[simp] theorem State.raiseConditioner_globals (x : HopLost) : (s.raiseConditioner x).globals = s.globals := rfl

/-! ### raiseIntake -/

@[simp] theorem State.raiseIntake_pending (x : HopLost) : (s.raiseIntake x).pending = s.pending := rfl
@[simp] theorem State.raiseIntake_freeCount (x : HopLost) : (s.raiseIntake x).freeCount = s.freeCount := rfl
@[simp] theorem State.raiseIntake_memory (x : HopLost) : (s.raiseIntake x).memory = s.memory := rfl
@[simp] theorem State.raiseIntake_upstream (x : HopLost) : (s.raiseIntake x).upstream = s.upstream := rfl
@[simp] theorem State.raiseIntake_downstream (x : HopLost) : (s.raiseIntake x).downstream = s.downstream := rfl
@[simp] theorem State.raiseIntake_alarmInput (x : HopLost) : (s.raiseIntake x).alarmInput = s.alarmInput := rfl
@[simp] theorem State.raiseIntake_busReset (x : HopLost) : (s.raiseIntake x).busReset = s.busReset := rfl
@[simp] theorem State.raiseIntake_port (x : HopLost) : (s.raiseIntake x).port = s.port := rfl
@[simp] theorem State.raiseIntake_tap (x : HopLost) : (s.raiseIntake x).tap = s.tap := rfl
@[simp] theorem State.raiseIntake_intake (x : HopLost) : (s.raiseIntake x).intake = s.intake := rfl
@[simp] theorem State.raiseIntake_store (x : HopLost) : (s.raiseIntake x).store = s.store := rfl
@[simp] theorem State.raiseIntake_handoffs (x : HopLost) :
    (s.raiseIntake x).handoffs = { s.handoffs with intakeToTable := s.handoffs.intakeToTable ++ [x] } := rfl
@[simp] theorem State.raiseIntake_dispatcher (x : HopLost) : (s.raiseIntake x).dispatcher = s.dispatcher := rfl
@[simp] theorem State.raiseIntake_engine0 (x : HopLost) : (s.raiseIntake x).engine0 = s.engine0 := rfl
@[simp] theorem State.raiseIntake_engine1 (x : HopLost) : (s.raiseIntake x).engine1 = s.engine1 := rfl
@[simp] theorem State.raiseIntake_records (x : HopLost) : (s.raiseIntake x).records = s.records := rfl
@[simp] theorem State.raiseIntake_sweep (x : HopLost) : (s.raiseIntake x).sweep = s.sweep := rfl
@[simp] theorem State.raiseIntake_writer (x : HopLost) : (s.raiseIntake x).writer = s.writer := rfl
@[simp] theorem State.raiseIntake_notices (x : HopLost) : (s.raiseIntake x).notices = s.notices := rfl
@[simp] theorem State.raiseIntake_running (x : HopLost) : (s.raiseIntake x).running = s.running := rfl
@[simp] theorem State.raiseIntake_image (x : HopLost) : (s.raiseIntake x).image = s.image := rfl
@[simp] theorem State.raiseIntake_globals (x : HopLost) : (s.raiseIntake x).globals = s.globals := rfl

/-! ### addEvaluation -/

@[simp] theorem State.addEvaluation_pending (i : Nat) : (s.addEvaluation i).pending = s.pending := rfl
@[simp] theorem State.addEvaluation_freeCount (i : Nat) : (s.addEvaluation i).freeCount = s.freeCount := rfl
@[simp] theorem State.addEvaluation_memory (i : Nat) : (s.addEvaluation i).memory = s.memory := rfl
@[simp] theorem State.addEvaluation_upstream (i : Nat) : (s.addEvaluation i).upstream = s.upstream := rfl
@[simp] theorem State.addEvaluation_downstream (i : Nat) : (s.addEvaluation i).downstream = s.downstream := rfl
@[simp] theorem State.addEvaluation_alarmInput (i : Nat) : (s.addEvaluation i).alarmInput = s.alarmInput := rfl
@[simp] theorem State.addEvaluation_busReset (i : Nat) : (s.addEvaluation i).busReset = s.busReset := rfl
@[simp] theorem State.addEvaluation_port (i : Nat) : (s.addEvaluation i).port = s.port := rfl
@[simp] theorem State.addEvaluation_tap (i : Nat) : (s.addEvaluation i).tap = s.tap := rfl
@[simp] theorem State.addEvaluation_intake (i : Nat) : (s.addEvaluation i).intake = s.intake := rfl
@[simp] theorem State.addEvaluation_store (i : Nat) : (s.addEvaluation i).store = s.store := rfl
@[simp] theorem State.addEvaluation_handoffs (i : Nat) : (s.addEvaluation i).handoffs = s.handoffs := rfl
@[simp] theorem State.addEvaluation_dispatcher (i : Nat) : (s.addEvaluation i).dispatcher = s.dispatcher := rfl
@[simp] theorem State.addEvaluation_engine0 (i : Nat) : (s.addEvaluation i).engine0 = s.engine0 := rfl
@[simp] theorem State.addEvaluation_engine1 (i : Nat) : (s.addEvaluation i).engine1 = s.engine1 := rfl
@[simp] theorem State.addEvaluation_records (i : Nat) : (s.addEvaluation i).records = s.records := rfl
@[simp] theorem State.addEvaluation_sweep (i : Nat) :
    (s.addEvaluation i).sweep = { s.sweep with pendingSet := insertAscending s.sweep.pendingSet i } := rfl
@[simp] theorem State.addEvaluation_writer (i : Nat) : (s.addEvaluation i).writer = s.writer := rfl
@[simp] theorem State.addEvaluation_notices (i : Nat) : (s.addEvaluation i).notices = s.notices := rfl
@[simp] theorem State.addEvaluation_running (i : Nat) : (s.addEvaluation i).running = s.running := rfl
@[simp] theorem State.addEvaluation_image (i : Nat) : (s.addEvaluation i).image = s.image := rfl
@[simp] theorem State.addEvaluation_globals (i : Nat) : (s.addEvaluation i).globals = s.globals := rfl

/-! ### addEvaluations -/

@[simp] theorem State.addEvaluations_pending (f : Lightpath → Bool) : (s.addEvaluations f).pending = s.pending := rfl
@[simp] theorem State.addEvaluations_freeCount (f : Lightpath → Bool) :
    (s.addEvaluations f).freeCount = s.freeCount := rfl
@[simp] theorem State.addEvaluations_memory (f : Lightpath → Bool) : (s.addEvaluations f).memory = s.memory := rfl
@[simp] theorem State.addEvaluations_upstream (f : Lightpath → Bool) :
    (s.addEvaluations f).upstream = s.upstream := rfl
@[simp] theorem State.addEvaluations_downstream (f : Lightpath → Bool) :
    (s.addEvaluations f).downstream = s.downstream := rfl
@[simp] theorem State.addEvaluations_alarmInput (f : Lightpath → Bool) :
    (s.addEvaluations f).alarmInput = s.alarmInput := rfl
@[simp] theorem State.addEvaluations_busReset (f : Lightpath → Bool) :
    (s.addEvaluations f).busReset = s.busReset := rfl
@[simp] theorem State.addEvaluations_port (f : Lightpath → Bool) : (s.addEvaluations f).port = s.port := rfl
@[simp] theorem State.addEvaluations_tap (f : Lightpath → Bool) : (s.addEvaluations f).tap = s.tap := rfl
@[simp] theorem State.addEvaluations_intake (f : Lightpath → Bool) : (s.addEvaluations f).intake = s.intake := rfl
@[simp] theorem State.addEvaluations_store (f : Lightpath → Bool) : (s.addEvaluations f).store = s.store := rfl
@[simp] theorem State.addEvaluations_handoffs (f : Lightpath → Bool) :
    (s.addEvaluations f).handoffs = s.handoffs := rfl
@[simp] theorem State.addEvaluations_dispatcher (f : Lightpath → Bool) :
    (s.addEvaluations f).dispatcher = s.dispatcher := rfl
@[simp] theorem State.addEvaluations_engine0 (f : Lightpath → Bool) : (s.addEvaluations f).engine0 = s.engine0 := rfl
@[simp] theorem State.addEvaluations_engine1 (f : Lightpath → Bool) : (s.addEvaluations f).engine1 = s.engine1 := rfl
@[simp] theorem State.addEvaluations_records (f : Lightpath → Bool) : (s.addEvaluations f).records = s.records := rfl
@[simp] theorem State.addEvaluations_sweep (f : Lightpath → Bool) :
    (s.addEvaluations f).sweep = { s.sweep with pendingSet := (s.lightpaths.filter fun e => f e.2).foldl (fun x e => insertAscending x e.1) s.sweep.pendingSet } := rfl
@[simp] theorem State.addEvaluations_writer (f : Lightpath → Bool) : (s.addEvaluations f).writer = s.writer := rfl
@[simp] theorem State.addEvaluations_notices (f : Lightpath → Bool) : (s.addEvaluations f).notices = s.notices := rfl
@[simp] theorem State.addEvaluations_running (f : Lightpath → Bool) : (s.addEvaluations f).running = s.running := rfl
@[simp] theorem State.addEvaluations_image (f : Lightpath → Bool) : (s.addEvaluations f).image = s.image := rfl
@[simp] theorem State.addEvaluations_globals (f : Lightpath → Bool) : (s.addEvaluations f).globals = s.globals := rfl

/-! ### evaluateDirection -/

@[simp] theorem State.evaluateDirection_pending (k : Nat) (d : Dir) :
    (s.evaluateDirection k d).pending = s.pending := rfl
@[simp] theorem State.evaluateDirection_freeCount (k : Nat) (d : Dir) :
    (s.evaluateDirection k d).freeCount = s.freeCount := rfl
@[simp] theorem State.evaluateDirection_memory (k : Nat) (d : Dir) :
    (s.evaluateDirection k d).memory = s.memory := rfl
@[simp] theorem State.evaluateDirection_upstream (k : Nat) (d : Dir) :
    (s.evaluateDirection k d).upstream = s.upstream := rfl
@[simp] theorem State.evaluateDirection_downstream (k : Nat) (d : Dir) :
    (s.evaluateDirection k d).downstream = s.downstream := rfl
@[simp] theorem State.evaluateDirection_alarmInput (k : Nat) (d : Dir) :
    (s.evaluateDirection k d).alarmInput = s.alarmInput := rfl
@[simp] theorem State.evaluateDirection_busReset (k : Nat) (d : Dir) :
    (s.evaluateDirection k d).busReset = s.busReset := rfl
@[simp] theorem State.evaluateDirection_port (k : Nat) (d : Dir) : (s.evaluateDirection k d).port = s.port := rfl
@[simp] theorem State.evaluateDirection_tap (k : Nat) (d : Dir) : (s.evaluateDirection k d).tap = s.tap := rfl
@[simp] theorem State.evaluateDirection_intake (k : Nat) (d : Dir) :
    (s.evaluateDirection k d).intake = s.intake := rfl
@[simp] theorem State.evaluateDirection_store (k : Nat) (d : Dir) : (s.evaluateDirection k d).store = s.store := rfl
@[simp] theorem State.evaluateDirection_handoffs (k : Nat) (d : Dir) :
    (s.evaluateDirection k d).handoffs = s.handoffs := rfl
@[simp] theorem State.evaluateDirection_dispatcher (k : Nat) (d : Dir) :
    (s.evaluateDirection k d).dispatcher = s.dispatcher := rfl
@[simp] theorem State.evaluateDirection_engine0 (k : Nat) (d : Dir) :
    (s.evaluateDirection k d).engine0 = s.engine0 := rfl
@[simp] theorem State.evaluateDirection_engine1 (k : Nat) (d : Dir) :
    (s.evaluateDirection k d).engine1 = s.engine1 := rfl
@[simp] theorem State.evaluateDirection_records (k : Nat) (d : Dir) :
    (s.evaluateDirection k d).records = s.records := rfl
@[simp] theorem State.evaluateDirection_sweep (k : Nat) (d : Dir) :
    (s.evaluateDirection k d).sweep = (s.addEvaluations fun p => s.routeOn p.route k d).sweep := rfl
@[simp] theorem State.evaluateDirection_writer (k : Nat) (d : Dir) :
    (s.evaluateDirection k d).writer = s.writer := rfl
@[simp] theorem State.evaluateDirection_notices (k : Nat) (d : Dir) :
    (s.evaluateDirection k d).notices = s.notices := rfl
@[simp] theorem State.evaluateDirection_running (k : Nat) (d : Dir) : (s.evaluateDirection k d).running = s.running := rfl
@[simp] theorem State.evaluateDirection_image (k : Nat) (d : Dir) : (s.evaluateDirection k d).image = s.image := rfl
@[simp] theorem State.evaluateDirection_globals (k : Nat) (d : Dir) : (s.evaluateDirection k d).globals = s.globals := rfl

/-! ### offer -/

@[simp] theorem State.offer_pending (a : Answer) : (s.offer a).pending = s.pending := rfl
@[simp] theorem State.offer_freeCount (a : Answer) : (s.offer a).freeCount = s.freeCount := rfl
@[simp] theorem State.offer_memory (a : Answer) : (s.offer a).memory = s.memory := rfl
@[simp] theorem State.offer_upstream (a : Answer) : (s.offer a).upstream = s.upstream := rfl
@[simp] theorem State.offer_downstream (a : Answer) : (s.offer a).downstream = s.downstream := rfl
@[simp] theorem State.offer_alarmInput (a : Answer) : (s.offer a).alarmInput = s.alarmInput := rfl
@[simp] theorem State.offer_busReset (a : Answer) : (s.offer a).busReset = s.busReset := rfl
@[simp] theorem State.offer_port (a : Answer) : (s.offer a).port = s.port := rfl
@[simp] theorem State.offer_tap (a : Answer) : (s.offer a).tap = s.tap := rfl
@[simp] theorem State.offer_intake (a : Answer) : (s.offer a).intake = s.intake := rfl
@[simp] theorem State.offer_store (a : Answer) : (s.offer a).store = s.store := rfl
@[simp] theorem State.offer_handoffs (a : Answer) : (s.offer a).handoffs = s.handoffs := rfl
@[simp] theorem State.offer_dispatcher (a : Answer) : (s.offer a).dispatcher = s.dispatcher := rfl
@[simp] theorem State.offer_engine0 (a : Answer) : (s.offer a).engine0 = s.engine0 := rfl
@[simp] theorem State.offer_engine1 (a : Answer) : (s.offer a).engine1 = s.engine1 := rfl
@[simp] theorem State.offer_records (a : Answer) : (s.offer a).records = s.records := rfl
@[simp] theorem State.offer_sweep (a : Answer) : (s.offer a).sweep = s.sweep := rfl
@[simp] theorem State.offer_writer (a : Answer) :
    (s.offer a).writer = { s.writer with answers := s.writer.answers ++ [a] } := rfl
@[simp] theorem State.offer_notices (a : Answer) : (s.offer a).notices = s.notices := rfl
@[simp] theorem State.offer_running (a : Answer) : (s.offer a).running = s.running := rfl
@[simp] theorem State.offer_image (a : Answer) : (s.offer a).image = s.image := rfl
@[simp] theorem State.offer_globals (a : Answer) : (s.offer a).globals = s.globals := rfl

/-! ### setSlot -/

@[simp] theorem State.setSlot_pending (slot : Nat) (x : SlotQuery) : (s.setSlot slot x).pending = s.pending := rfl
@[simp] theorem State.setSlot_freeCount (slot : Nat) (x : SlotQuery) :
    (s.setSlot slot x).freeCount = s.freeCount := rfl
@[simp] theorem State.setSlot_memory (slot : Nat) (x : SlotQuery) : (s.setSlot slot x).memory = s.memory := rfl
@[simp] theorem State.setSlot_upstream (slot : Nat) (x : SlotQuery) : (s.setSlot slot x).upstream = s.upstream := rfl
@[simp] theorem State.setSlot_downstream (slot : Nat) (x : SlotQuery) :
    (s.setSlot slot x).downstream = s.downstream := rfl
@[simp] theorem State.setSlot_alarmInput (slot : Nat) (x : SlotQuery) :
    (s.setSlot slot x).alarmInput = s.alarmInput := rfl
@[simp] theorem State.setSlot_busReset (slot : Nat) (x : SlotQuery) : (s.setSlot slot x).busReset = s.busReset := rfl
@[simp] theorem State.setSlot_port (slot : Nat) (x : SlotQuery) : (s.setSlot slot x).port = s.port := rfl
@[simp] theorem State.setSlot_tap (slot : Nat) (x : SlotQuery) : (s.setSlot slot x).tap = s.tap := rfl
@[simp] theorem State.setSlot_intake (slot : Nat) (x : SlotQuery) : (s.setSlot slot x).intake = s.intake := rfl
@[simp] theorem State.setSlot_store (slot : Nat) (x : SlotQuery) : (s.setSlot slot x).store = s.store := rfl
@[simp] theorem State.setSlot_handoffs (slot : Nat) (x : SlotQuery) : (s.setSlot slot x).handoffs = s.handoffs := rfl
@[simp] theorem State.setSlot_dispatcher (slot : Nat) (x : SlotQuery) :
    (s.setSlot slot x).dispatcher = { s.dispatcher with slots := tableSet s.dispatcher.slots slot x } := rfl
@[simp] theorem State.setSlot_engine0 (slot : Nat) (x : SlotQuery) : (s.setSlot slot x).engine0 = s.engine0 := rfl
@[simp] theorem State.setSlot_engine1 (slot : Nat) (x : SlotQuery) : (s.setSlot slot x).engine1 = s.engine1 := rfl
@[simp] theorem State.setSlot_records (slot : Nat) (x : SlotQuery) : (s.setSlot slot x).records = s.records := rfl
@[simp] theorem State.setSlot_sweep (slot : Nat) (x : SlotQuery) : (s.setSlot slot x).sweep = s.sweep := rfl
@[simp] theorem State.setSlot_writer (slot : Nat) (x : SlotQuery) : (s.setSlot slot x).writer = s.writer := rfl
@[simp] theorem State.setSlot_notices (slot : Nat) (x : SlotQuery) : (s.setSlot slot x).notices = s.notices := rfl
@[simp] theorem State.setSlot_running (slot : Nat) (x : SlotQuery) : (s.setSlot slot x).running = s.running := rfl
@[simp] theorem State.setSlot_image (slot : Nat) (x : SlotQuery) : (s.setSlot slot x).image = s.image := rfl
@[simp] theorem State.setSlot_globals (slot : Nat) (x : SlotQuery) : (s.setSlot slot x).globals = s.globals := rfl

/-! ### count -/

@[simp] theorem State.count_pending (f : Counters → Counters) : (s.count f).pending = s.pending := rfl
@[simp] theorem State.count_freeCount (f : Counters → Counters) : (s.count f).freeCount = s.freeCount := rfl
@[simp] theorem State.count_memory (f : Counters → Counters) : (s.count f).memory = s.memory := rfl
@[simp] theorem State.count_upstream (f : Counters → Counters) : (s.count f).upstream = s.upstream := rfl
@[simp] theorem State.count_downstream (f : Counters → Counters) : (s.count f).downstream = s.downstream := rfl
@[simp] theorem State.count_alarmInput (f : Counters → Counters) : (s.count f).alarmInput = s.alarmInput := rfl
@[simp] theorem State.count_busReset (f : Counters → Counters) : (s.count f).busReset = s.busReset := rfl
@[simp] theorem State.count_port (f : Counters → Counters) : (s.count f).port = s.port := rfl
@[simp] theorem State.count_tap (f : Counters → Counters) : (s.count f).tap = s.tap := rfl
@[simp] theorem State.count_intake (f : Counters → Counters) :
    (s.count f).intake = { s.intake with counters := f s.intake.counters } := rfl
@[simp] theorem State.count_store (f : Counters → Counters) : (s.count f).store = s.store := rfl
@[simp] theorem State.count_handoffs (f : Counters → Counters) : (s.count f).handoffs = s.handoffs := rfl
@[simp] theorem State.count_dispatcher (f : Counters → Counters) : (s.count f).dispatcher = s.dispatcher := rfl
@[simp] theorem State.count_engine0 (f : Counters → Counters) : (s.count f).engine0 = s.engine0 := rfl
@[simp] theorem State.count_engine1 (f : Counters → Counters) : (s.count f).engine1 = s.engine1 := rfl
@[simp] theorem State.count_records (f : Counters → Counters) : (s.count f).records = s.records := rfl
@[simp] theorem State.count_sweep (f : Counters → Counters) : (s.count f).sweep = s.sweep := rfl
@[simp] theorem State.count_writer (f : Counters → Counters) : (s.count f).writer = s.writer := rfl
@[simp] theorem State.count_notices (f : Counters → Counters) : (s.count f).notices = s.notices := rfl
@[simp] theorem State.count_running (f : Counters → Counters) : (s.count f).running = s.running := rfl
@[simp] theorem State.count_image (f : Counters → Counters) : (s.count f).image = s.image := rfl
@[simp] theorem State.count_globals (f : Counters → Counters) : (s.count f).globals = s.globals := rfl

/-! ### setTurn -/

@[simp] theorem State.setTurn_pending (t : Turn) : (s.setTurn t).pending = s.pending := rfl
@[simp] theorem State.setTurn_freeCount (t : Turn) : (s.setTurn t).freeCount = s.freeCount := rfl
@[simp] theorem State.setTurn_memory (t : Turn) : (s.setTurn t).memory = s.memory := rfl
@[simp] theorem State.setTurn_upstream (t : Turn) : (s.setTurn t).upstream = s.upstream := rfl
@[simp] theorem State.setTurn_downstream (t : Turn) : (s.setTurn t).downstream = s.downstream := rfl
@[simp] theorem State.setTurn_alarmInput (t : Turn) : (s.setTurn t).alarmInput = s.alarmInput := rfl
@[simp] theorem State.setTurn_busReset (t : Turn) : (s.setTurn t).busReset = s.busReset := rfl
@[simp] theorem State.setTurn_port (t : Turn) : (s.setTurn t).port = s.port := rfl
@[simp] theorem State.setTurn_tap (t : Turn) : (s.setTurn t).tap = { s.tap with turn := t } := rfl
@[simp] theorem State.setTurn_intake (t : Turn) : (s.setTurn t).intake = s.intake := rfl
@[simp] theorem State.setTurn_store (t : Turn) : (s.setTurn t).store = s.store := rfl
@[simp] theorem State.setTurn_handoffs (t : Turn) : (s.setTurn t).handoffs = s.handoffs := rfl
@[simp] theorem State.setTurn_dispatcher (t : Turn) : (s.setTurn t).dispatcher = s.dispatcher := rfl
@[simp] theorem State.setTurn_engine0 (t : Turn) : (s.setTurn t).engine0 = s.engine0 := rfl
@[simp] theorem State.setTurn_engine1 (t : Turn) : (s.setTurn t).engine1 = s.engine1 := rfl
@[simp] theorem State.setTurn_records (t : Turn) : (s.setTurn t).records = s.records := rfl
@[simp] theorem State.setTurn_sweep (t : Turn) : (s.setTurn t).sweep = s.sweep := rfl
@[simp] theorem State.setTurn_writer (t : Turn) : (s.setTurn t).writer = s.writer := rfl
@[simp] theorem State.setTurn_notices (t : Turn) : (s.setTurn t).notices = s.notices := rfl
@[simp] theorem State.setTurn_running (t : Turn) : (s.setTurn t).running = s.running := rfl
@[simp] theorem State.setTurn_image (t : Turn) : (s.setTurn t).image = s.image := rfl
@[simp] theorem State.setTurn_globals (t : Turn) : (s.setTurn t).globals = s.globals := rfl

/-! ### setEngine -/

@[simp] theorem State.setEngine_pending (e : EngineId) (x : Engine) : (s.setEngine e x).pending = s.pending := by
  cases e <;> rfl
@[simp] theorem State.setEngine_freeCount (e : EngineId) (x : Engine) : (s.setEngine e x).freeCount = s.freeCount := by
  cases e <;> rfl
@[simp] theorem State.setEngine_memory (e : EngineId) (x : Engine) : (s.setEngine e x).memory = s.memory := by
  cases e <;> rfl
@[simp] theorem State.setEngine_upstream (e : EngineId) (x : Engine) : (s.setEngine e x).upstream = s.upstream := by
  cases e <;> rfl
@[simp] theorem State.setEngine_downstream (e : EngineId) (x : Engine) : (s.setEngine e x).downstream = s.downstream := by
  cases e <;> rfl
@[simp] theorem State.setEngine_alarmInput (e : EngineId) (x : Engine) : (s.setEngine e x).alarmInput = s.alarmInput := by
  cases e <;> rfl
@[simp] theorem State.setEngine_busReset (e : EngineId) (x : Engine) : (s.setEngine e x).busReset = s.busReset := by
  cases e <;> rfl
@[simp] theorem State.setEngine_port (e : EngineId) (x : Engine) : (s.setEngine e x).port = s.port := by
  cases e <;> rfl
@[simp] theorem State.setEngine_tap (e : EngineId) (x : Engine) : (s.setEngine e x).tap = s.tap := by
  cases e <;> rfl
@[simp] theorem State.setEngine_intake (e : EngineId) (x : Engine) : (s.setEngine e x).intake = s.intake := by
  cases e <;> rfl
@[simp] theorem State.setEngine_store (e : EngineId) (x : Engine) : (s.setEngine e x).store = s.store := by
  cases e <;> rfl
@[simp] theorem State.setEngine_handoffs (e : EngineId) (x : Engine) : (s.setEngine e x).handoffs = s.handoffs := by
  cases e <;> rfl
@[simp] theorem State.setEngine_dispatcher (e : EngineId) (x : Engine) : (s.setEngine e x).dispatcher = s.dispatcher := by
  cases e <;> rfl
@[simp] theorem State.setEngine_records (e : EngineId) (x : Engine) : (s.setEngine e x).records = s.records := by
  cases e <;> rfl
@[simp] theorem State.setEngine_sweep (e : EngineId) (x : Engine) : (s.setEngine e x).sweep = s.sweep := by
  cases e <;> rfl
@[simp] theorem State.setEngine_writer (e : EngineId) (x : Engine) : (s.setEngine e x).writer = s.writer := by
  cases e <;> rfl
@[simp] theorem State.setEngine_notices (e : EngineId) (x : Engine) : (s.setEngine e x).notices = s.notices := by
  cases e <;> rfl
@[simp] theorem State.setEngine_running (e : EngineId) (x : Engine) : (s.setEngine e x).running = s.running := by
  cases e <;> rfl
@[simp] theorem State.setEngine_image (e : EngineId) (x : Engine) : (s.setEngine e x).image = s.image := by
  cases e <;> rfl
@[simp] theorem State.setEngine_globals (e : EngineId) (x : Engine) : (s.setEngine e x).globals = s.globals := by
  cases e <;> rfl
@[simp] theorem State.setEngine_engine_self (e : EngineId) (x : Engine) : (s.setEngine e x).engine e = x := by
  cases e <;> rfl
theorem State.setEngine_engine_other (e f : EngineId) (x : Engine) (h : f ≠ e) :
    (s.setEngine e x).engine f = s.engine f := by
  cases e <;> cases f <;> first | rfl | exact absurd rfl h

end

end Sys2Proof.Machine
end

