-- ==== Sys2Proof/Laws/Bus.lean ====
section
/-! SUPPORT. The laws of the Bus Tap: the full buffer, the merging of words, and what handing a word to the buffer can
do. -/

namespace Sys2Proof.Machine

theorem State.bufferFull_iff (s : State) : s.bufferFull = true ↔ 32 ≤ s.tap.buffer.length := by
  unfold State.bufferFull bufferCapacity
  exact decide_eq_true_iff

theorem maskBits_allBytes : maskBits allBytes = BitVec.allOnes 32 := by decide

/-- A merge of all four bytes is the new word. -/
theorem mergeWord_allBytes (x w : Word) : mergeWord x w allBytes = w := by
  unfold mergeWord
  rw [maskBits_allBytes, BitVec.not_allOnes, BitVec.and_zero, BitVec.zero_or, BitVec.and_allOnes]

/-- A merge of no byte is the old word. -/
theorem mergeWord_none (x w : Word) : mergeWord x w 0#4 = x := by
  have : maskBits 0#4 = 0#32 := by decide
  unfold mergeWord
  rw [this, BitVec.and_zero, BitVec.or_zero, BitVec.not_zero, BitVec.and_allOnes]

theorem byteMask_or_all (x : ByteMask) : x ||| allBytes = allBytes := by
  have : allBytes = BitVec.allOnes 4 := by decide
  rw [this, BitVec.or_allOnes]

/-- The buffer without an entry of an address has no entry of that address. -/
theorem entryAt_dropEntry (b : List WriteEntry) (a : Nat) : entryAt (dropEntry b a) a = none := by
  unfold entryAt dropEntry
  rw [List.find?_eq_none]
  intro e he
  simpa using (List.mem_filter.mp he).2

/-- The entry found for an address has that address. -/
theorem entryAt_addr (b : List WriteEntry) (a : Nat) (e : WriteEntry) (h : entryAt b a = some e) : e.addr = a := by
  simpa using List.find?_some h

/-- A word handed to the buffer (R172): taken by the entry of its address, or by a free place at the tail, or kept
waiting. -/
theorem State.handWord_cases (s : State) (p : Producer) (a : Nat) (w : Word) :
    (∃ e, entryAt s.tap.buffer a = some e ∧ s.handWord p a w = some (s.refillWord p e w)) ∨
    (entryAt s.tap.buffer a = none ∧ s.bufferFull = false ∧ s.firstToWait p = true ∧
      s.handWord p a w = some (s.appendWord p a w)) ∨
    (entryAt s.tap.buffer a = none ∧ (s.bufferFull = true ∨ s.firstToWait p = false) ∧
      s.handWord p a w = none) := by
  unfold State.handWord
  cases h : entryAt s.tap.buffer a with
  | some e => exact .inl ⟨e, rfl, rfl⟩
  | none =>
    right
    cases hf : s.bufferFull <;> cases hw : s.firstToWait p <;> simp

/-- The host access has its turn at once unless the buffer is full and the turn is a buffered write's (R173). -/
theorem State.grantHost_eq (s : State) (h : ¬ (32 ≤ s.tap.buffer.length ∧ s.tap.turn = .buffered)) :
    s.grantHost = s := by
  unfold State.grantHost
  rw [if_neg]
  rwa [State.bufferFull_iff]

/-- A byte of memory after a word was written (R166). -/
theorem readByte_writeWord (m : List Host.Cell) (a : Nat) (w : Word) (e : ByteMask) (x : Nat) :
    readByte (writeWord m a w e) x =
      if a ≤ x ∧ x < a + 4 ∧ e.getLsbD (x - a) = true then byteOf w (x - a) else readByte m x := by
  by_cases h : x < a ∨ a + 4 ≤ x
  · rw [readByte_writeWord_outside _ _ _ _ _ h, if_neg (by omega)]
  · obtain ⟨i, rfl⟩ : ∃ i, x = a + i := ⟨x - a, by omega⟩
    rw [readByte_writeWord_inside _ _ _ _ _ (by omega)]
    have : a + i - a = i := by omega
    rw [this]
    cases e.getLsbD i
    · simp
    · rw [if_pos rfl, if_pos ⟨by omega, by omega, rfl⟩]

/-! ### What passes the downstream port (R166) -/

@[simp] theorem State.writeMemory_downstream (s : State) (a : Nat) (w : Word) (e : ByteMask) (r : Response) :
    (s.writeMemory a w e r).downstream = .write a w e := by cases r <;> rfl

@[simp] theorem State.writeMemory_tap (s : State) (a : Nat) (w : Word) (e : ByteMask) (r : Response) :
    (s.writeMemory a w e r).tap = s.tap := by cases r <;> rfl

@[simp] theorem State.readDownstream_downstream (s : State) (a : Nat) (e : ByteMask) (r : Response) :
    (s.readDownstream a e r).downstream = .read a e := rfl

@[simp] theorem State.readDownstream_memory (s : State) (a : Nat) (e : ByteMask) (r : Response) :
    (s.readDownstream a e r).memory = s.memory := rfl

@[simp] theorem State.readDownstream_tap (s : State) (a : Nat) (e : ByteMask) (r : Response) :
    (s.readDownstream a e r).tap = s.tap := rfl

/-- A read of all four bytes without an error takes no free value. -/
@[simp] theorem State.readDownstream_freeCount (s : State) (a : Nat) :
    (s.readDownstream a allBytes .ok).freeCount = s.freeCount := rfl

/-- A read of all four bytes is answered with the word of memory. -/
theorem State.readMemory_allBytes (s : State) (a : Nat) : s.readMemory a allBytes .ok = readWord s.memory a :=
  mergeWord_allBytes _ _

end Sys2Proof.Machine
end

