-- ==== Sys2Proof/Laws/Frames.lean ====
section
/-! SUPPORT. Frames: for each shared operation, the parts of the state that it can change. Every other part, and the
queue, is the same afterwards (Safety.lean: sameBut). -/

namespace Sys2Proof.Machine

/-! ### Composing frames -/

theorem sameBut_refl (ps : List Part) (s : State) : sameBut ps s s :=
  ⟨rfl, fun p _ => by cases p <;> rfl⟩

theorem agree_trans {s t u : State} {p : Part} (h : agree s t p) (h' : agree t u p) : agree s u p := by
  cases p <;> exact Eq.trans h' h

theorem sameBut_trans {ps : List Part} {s t u : State} (h : sameBut ps s t) (h' : sameBut ps t u) :
    sameBut ps s u :=
  ⟨h'.1.trans h.1, fun p hp => agree_trans (h.2 p hp) (h'.2 p hp)⟩

/-- A frame holds with more parts listed. -/
theorem sameBut_mono {ps qs : List Part} {s t : State} (h : sameBut ps s t) (hs : ∀ p ∈ ps, p ∈ qs) :
    sameBut qs s t :=
  ⟨h.1, fun p hp => h.2 p fun hq => hp (hs p hq)⟩

/-- Two operations, one after the other. -/
theorem sameBut_then {ps qs rs : List Part} {s t u : State} (h : sameBut ps s t) (h' : sameBut qs t u)
    (hs : ∀ p ∈ ps, p ∈ rs) (hs' : ∀ p ∈ qs, p ∈ rs) : sameBut rs s u :=
  sameBut_trans (sameBut_mono h hs) (sameBut_mono h' hs')

/-- A fold of an operation keeps the frame of the operation. -/
theorem sameBut_foldl {α : Type} {ps : List Part} (f : State → α → State)
    (h : ∀ x a, sameBut ps x (f x a)) (l : List α) (s : State) : sameBut ps s (l.foldl f s) := by
  induction l generalizing s with
  | nil => exact sameBut_refl ps s
  | cons a t ih => exact sameBut_trans (h s a) (ih (f s a))

/-! ### Named updates -/

theorem State.setStore_frame (s : State) (x : Store) :
    sameBut [.store] s (s.setStore x) := by
  exact ⟨rfl, fun p hp => by cases p <;> first | exact absurd (by decide) hp | rfl⟩

theorem State.updateNode_frame (s : State) (i : Nat) (f : Node → Node) :
    sameBut [.store] s (s.updateNode i f) := by
  exact ⟨rfl, fun p hp => by cases p <;> first | exact absurd (by decide) hp | rfl⟩

theorem State.setDirection_frame (s : State) (k : Nat) (d : Dir) (x : Direction) :
    sameBut [.store] s (s.setDirection k d x) := by
  exact ⟨rfl, fun p hp => by cases p <;> first | exact absurd (by decide) hp | rfl⟩

theorem State.setLightpath_frame (s : State) (i : Nat) (p : Lightpath) :
    sameBut [.records] s (s.setLightpath i p) := by
  exact ⟨rfl, fun p hp => by cases p <;> first | exact absurd (by decide) hp | rfl⟩

theorem State.hand_frame (s : State) (n : Notice) :
    sameBut [.notices] s (s.hand n) := by
  exact ⟨rfl, fun p hp => by cases p <;> first | exact absurd (by decide) hp | rfl⟩

theorem State.raiseStore_frame (s : State) (x : StoreEvent) :
    sameBut [.handoffs] s (s.raiseStore x) := by
  exact ⟨rfl, fun p hp => by cases p <;> first | exact absurd (by decide) hp | rfl⟩

theorem State.raiseConditioner_frame (s : State) (x : HopLost) :
    sameBut [.handoffs] s (s.raiseConditioner x) := by
  exact ⟨rfl, fun p hp => by cases p <;> first | exact absurd (by decide) hp | rfl⟩

theorem State.raiseIntake_frame (s : State) (x : HopLost) :
    sameBut [.handoffs] s (s.raiseIntake x) := by
  exact ⟨rfl, fun p hp => by cases p <;> first | exact absurd (by decide) hp | rfl⟩

theorem State.addEvaluation_frame (s : State) (i : Nat) :
    sameBut [.sweep] s (s.addEvaluation i) := by
  exact ⟨rfl, fun p hp => by cases p <;> first | exact absurd (by decide) hp | rfl⟩

theorem State.addEvaluations_frame (s : State) (f : Lightpath → Bool) :
    sameBut [.sweep] s (s.addEvaluations f) := by
  exact ⟨rfl, fun p hp => by cases p <;> first | exact absurd (by decide) hp | rfl⟩

theorem State.evaluateDirection_frame (s : State) (k : Nat) (d : Dir) :
    sameBut [.sweep] s (s.evaluateDirection k d) := by
  exact ⟨rfl, fun p hp => by cases p <;> first | exact absurd (by decide) hp | rfl⟩

theorem State.offer_frame (s : State) (a : Answer) :
    sameBut [.writer] s (s.offer a) := by
  exact ⟨rfl, fun p hp => by cases p <;> first | exact absurd (by decide) hp | rfl⟩

theorem State.setSlot_frame (s : State) (slot : Nat) (x : SlotQuery) :
    sameBut [.dispatcher] s (s.setSlot slot x) := by
  exact ⟨rfl, fun p hp => by cases p <;> first | exact absurd (by decide) hp | rfl⟩

theorem State.count_frame (s : State) (f : Counters → Counters) :
    sameBut [.intake] s (s.count f) := by
  exact ⟨rfl, fun p hp => by cases p <;> first | exact absurd (by decide) hp | rfl⟩

/-! ### Span Conditioner (02) -/

theorem State.returned_frame (s : State) (k : Nat) (d : Dir) (b : Bool) :
    sameBut [.sweep] s (s.returned k d b) := by
  unfold State.returned
  split
  · exact ⟨rfl, fun p hp => by cases p <;> first | exact absurd (by decide) hp | rfl⟩
  · exact sameBut_refl _ _

theorem State.suppress_frame (s : State) (k : Nat) (d : Dir) (l : Link) (x : Direction) (q : Profile) :
    sameBut [.store, .handoffs, .notices] s (s.suppress k d l x q) := by
  by_cases h : x.cond = .up ∨ x.cond = .falling
  · simp only [State.suppress, h, if_true]
    exact ⟨rfl, fun p hp => by cases p <;> first | exact absurd (by decide) hp | rfl⟩
  · simp only [State.suppress, h, if_false]
    exact ⟨rfl, fun p hp => by cases p <;> first | exact absurd (by decide) hp | rfl⟩

theorem State.unsuppress_frame (s : State) (k : Nat) (d : Dir) (l : Link) (x : Direction) :
    sameBut [.store, .notices, .sweep] s (s.unsuppress k d l x) := by
  unfold State.unsuppress
  refine sameBut_then (ps := [.store, .notices]) ?_ (State.returned_frame _ k d _) (by decide) (by decide)
  exact ⟨rfl, fun p hp => by cases p <;> first | exact absurd (by decide) hp | rfl⟩

theorem State.enterUp_frame (s : State) (k : Nat) (d : Dir) (l : Link) (x : Direction) :
    sameBut [.store, .notices, .sweep] s (s.enterUp k d l x) := by
  unfold State.enterUp
  refine sameBut_then (ps := [.store, .notices]) ?_ (State.returned_frame _ k d _) (by decide) (by decide)
  exact ⟨rfl, fun p hp => by cases p <;> first | exact absurd (by decide) hp | rfl⟩

theorem State.cleanRefresh_frame (s : State) (k : Nat) (d : Dir) (l : Link) (x : Direction) (q : Profile) :
    sameBut [.store, .notices, .sweep] s (s.cleanRefresh k d l x q) := by
  simp only [State.cleanRefresh]
  split
  · exact sameBut_then (State.setDirection_frame s k d _) (State.unsuppress_frame _ k d l _) (by decide) (by decide)
  · exact ⟨rfl, fun p hp => by cases p <;> first | exact absurd (by decide) hp | rfl⟩

theorem State.confirmFailure_frame (s : State) (k : Nat) (d : Dir) (l : Link) (x : Direction) (q : Profile) :
    sameBut [.store, .handoffs, .notices] s (s.confirmFailure k d l x q) := by
  simp only [State.confirmFailure]
  split
  · refine sameBut_trans ?_ (State.suppress_frame _ k d l _ q)
    exact ⟨rfl, fun p hp => by cases p <;> first | exact absurd (by decide) hp | rfl⟩
  · exact ⟨rfl, fun p hp => by cases p <;> first | exact absurd (by decide) hp | rfl⟩

theorem State.observeUp_frame (s : State) (k : Nat) (d : Dir) :
    sameBut [.store, .notices, .sweep] s (s.observeUp k d) := by
  unfold State.observeUp
  split
  · exact sameBut_refl _ _
  · simp only
    split
    · split
      · exact State.enterUp_frame _ _ _ _ _
      · exact ⟨rfl, fun p hp => by cases p <;> first | exact absurd (by decide) hp | rfl⟩
    · split
      · exact State.enterUp_frame _ _ _ _ _
      · exact ⟨rfl, fun p hp => by cases p <;> first | exact absurd (by decide) hp | rfl⟩
    · split
      · exact State.enterUp_frame _ _ _ _ _
      · exact ⟨rfl, fun p hp => by cases p <;> first | exact absurd (by decide) hp | rfl⟩
    · exact State.cleanRefresh_frame _ _ _ _ _ _
    · exact ⟨rfl, fun p hp => by cases p <;> first | exact absurd (by decide) hp | rfl⟩
    · exact sameBut_refl _ _

theorem State.observeDown_frame (s : State) (k : Nat) (d : Dir) :
    sameBut [.store, .handoffs, .notices] s (s.observeDown k d) := by
  unfold State.observeDown
  split
  · exact sameBut_refl _ _
  · simp only
    split
    · exact ⟨rfl, fun p hp => by cases p <;> first | exact absurd (by decide) hp | rfl⟩
    · exact ⟨rfl, fun p hp => by cases p <;> first | exact absurd (by decide) hp | rfl⟩
    · split
      · exact State.confirmFailure_frame _ _ _ _ _ _
      · exact ⟨rfl, fun p hp => by cases p <;> first | exact absurd (by decide) hp | rfl⟩
    · split
      · exact State.confirmFailure_frame _ _ _ _ _ _
      · exact ⟨rfl, fun p hp => by cases p <;> first | exact absurd (by decide) hp | rfl⟩
    · exact sameBut_refl _ _
    · exact sameBut_refl _ _

theorem State.reprofileDirection_frame (s : State) (k : Nat) (d : Dir) :
    sameBut [.store, .handoffs, .notices, .sweep] s (s.reprofileDirection k d) := by
  unfold State.reprofileDirection
  split
  · exact sameBut_refl _ _
  · simp only
    split
    · exact sameBut_then (State.setDirection_frame s k d _) (State.unsuppress_frame _ k d _ _) (by decide) (by decide)
    · split
      · exact sameBut_then (State.setDirection_frame s k d _) (State.suppress_frame _ k d _ _ _) (by decide) (by decide)
      · exact ⟨rfl, fun p hp => by cases p <;> first | exact absurd (by decide) hp | rfl⟩

theorem State.reprofile_frame (s : State) (f : Node → Bool) :
    sameBut [.store, .handoffs, .notices, .sweep] s (s.reprofile f) := by
  exact sameBut_foldl _ (fun x (e : Nat × Dir) => State.reprofileDirection_frame x e.1 e.2) _ s

theorem State.clearFlap_frame (s : State) (k : Nat) (d : Dir) :
    sameBut [.store, .notices] s (s.clearFlap k d) := by
  unfold State.clearFlap
  split
  · exact sameBut_refl _ _
  · simp only
    split
    · exact ⟨rfl, fun p hp => by cases p <;> first | exact absurd (by decide) hp | rfl⟩
    · exact ⟨rfl, fun p hp => by cases p <;> first | exact absurd (by decide) hp | rfl⟩

/-! ### Topology Store (01) -/

theorem State.removeClaim_frame (s : State) (i port : Nat) :
    sameBut [.store] s (s.removeClaim i port) := by
  exact ⟨rfl, fun p hp => by cases p <;> first | exact absurd (by decide) hp | rfl⟩

theorem State.removeLink_frame (s : State) (k : Nat) :
    sameBut [.store, .handoffs, .notices] s (s.removeLink k) := by
  unfold State.removeLink
  split
  · exact sameBut_refl _ _
  · exact ⟨by simp [State.erasePort], fun p hp => by cases p <;> first | exact absurd (by decide) hp | simp [agree, State.erasePort]⟩

theorem State.formLink_frame (s : State) (b pb a pa : Nat) :
    sameBut [.store, .notices] s (s.formLink b pb a pa) := by
  exact ⟨rfl, fun p hp => by cases p <;> first | exact absurd (by decide) hp | rfl⟩

theorem State.removeNode_frame (s : State) (i : Nat) (n : Node) :
    sameBut [.store, .handoffs, .notices] s (s.removeNode i n) := by
  unfold State.removeNode
  have h1 := sameBut_foldl (fun (x : State) k => x.removeLink k) (fun x k => State.removeLink_frame x k) n.linkIndexes s
  refine sameBut_trans h1 ?_
  generalize n.linkIndexes.foldl (fun (x : State) k => x.removeLink k) s = u
  have h2 := sameBut_foldl (ps := [.store, .handoffs, .notices]) (fun (x : State) (c : Claim) => x.removeClaim c.claimant c.port)
    (fun x c => sameBut_mono (State.removeClaim_frame x c.claimant c.port) (by decide))
    ((u.setClaims (u.store.claims.filter fun c => c.claimant != i)).store.claims.filter fun c => c.heardId == n.id)
    (u.setClaims (u.store.claims.filter fun c => c.claimant != i))
  refine sameBut_trans (t := u.setClaims (u.store.claims.filter fun c => c.claimant != i)) ?_ (sameBut_trans h2 ?_)
  · exact ⟨rfl, fun p hp => by cases p <;> first | exact absurd (by decide) hp | rfl⟩
  · exact ⟨rfl, fun p hp => by cases p <;> first | exact absurd (by decide) hp | rfl⟩

theorem State.createNode_frame (s : State) (r : Record) :
    sameBut [.store, .notices] s (s.createNode r) := by
  unfold State.createNode
  split
  · exact ⟨rfl, fun p hp => by cases p <;> first | exact absurd (by decide) hp | rfl⟩
  · exact ⟨rfl, fun p hp => by cases p <;> first | exact absurd (by decide) hp | rfl⟩

theorem State.refreshNode_frame (s : State) (r : Record) (i : Nat) (n : Node) :
    sameBut [.store, .handoffs, .notices, .sweep] s (s.refreshNode r i n) := by
  simp only [State.refreshNode]
  split
  · exact ⟨rfl, fun p hp => by cases p <;> first | exact absurd (by decide) hp | rfl⟩
  · exact sameBut_then (State.updateNode_frame s i _) (State.reprofile_frame _ _) (by decide) (by decide)

theorem State.withdrawClaim_frame (s : State) (i port : Nat) :
    sameBut [.store, .handoffs, .notices] s (s.withdrawClaim i port) := by
  unfold State.withdrawClaim
  split
  · exact sameBut_refl _ _
  · exact State.removeLink_frame _ _
  · exact ⟨rfl, fun p hp => by cases p <;> first | exact absurd (by decide) hp | rfl⟩

theorem State.evictClaim_frame (s : State) (keep : Claim → Bool) :
    sameBut [.store, .notices] s (s.evictClaim keep) := by
  unfold State.evictClaim
  split
  · exact sameBut_refl _ _
  · split
    · exact sameBut_refl _ _
    · exact ⟨rfl, fun p hp => by cases p <;> first | exact absurd (by decide) hp | rfl⟩

theorem State.placeClaim_frame (s : State) (i port : Nat) (id : NodeId) (p : Nat) :
    sameBut [.store] s (s.placeClaim i port id p) := by
  exact ⟨rfl, fun p hp => by cases p <;> first | exact absurd (by decide) hp | rfl⟩

theorem State.storeClaim_frame (s : State) (i port : Nat) (id : NodeId) (p : Nat) (keep : Claim → Bool) :
    sameBut [.store, .notices] s (s.storeClaim i port id p keep) := by
  unfold State.storeClaim
  split
  · exact sameBut_mono (State.placeClaim_frame _ _ _ _ _) (by decide)
  · exact sameBut_then (State.evictClaim_frame s keep) (State.placeClaim_frame _ i port id p) (by decide) (by decide)

theorem State.meetClaim_frame (s : State) (i : Nat) (id : NodeId) (port : Nat) (h : NodeId) (p : Nat) :
    sameBut [.store, .notices] s (s.meetClaim i id port h p) := by
  unfold State.meetClaim
  split
  · exact ⟨rfl, fun p hp => by cases p <;> first | exact absurd (by decide) hp | rfl⟩
  · split
    · exact State.storeClaim_frame _ _ _ _ _ _
    · split
      · exact sameBut_then (State.storeClaim_frame s i port h p _) (State.hand_frame _ _) (by decide) (by decide)
      · refine sameBut_then (ps := [.store]) ?_ (State.formLink_frame _ _ _ _ _) (by decide) (by decide)
        exact ⟨rfl, fun p hp => by cases p <;> first | exact absurd (by decide) hp | rfl⟩

theorem State.takeClaim_frame (s : State) (i : Nat) (id : NodeId) (port : Nat) (h : NodeId) (p : Nat) :
    sameBut [.store, .handoffs, .notices] s (s.takeClaim i id port h p) := by
  unfold State.takeClaim
  split
  · split
    · exact sameBut_refl _ _
    · exact sameBut_then (State.removeLink_frame s _) (State.meetClaim_frame _ i id port h p) (by decide) (by decide)
  · exact sameBut_mono (State.meetClaim_frame s i id port h p) (by decide)

theorem State.applyClaim_frame (s : State) (r : Record) (i : Nat) :
    sameBut [.store, .handoffs, .notices] s (s.applyClaim r i) := by
  unfold State.applyClaim
  split
  · exact State.withdrawClaim_frame _ _ _
  · exact State.takeClaim_frame _ _ _ _ _ _

theorem State.applySpan_frame (s : State) (r : Record) (n : Node) (k : Nat) (d : Dir) (b : Bool) :
    sameBut [.store, .handoffs, .notices, .sweep] s (s.applySpan r n k d b) := by
  unfold State.applySpan
  split
  · exact sameBut_refl _ _
  · simp only
    split
    · exact ⟨by simp, fun p hp => by cases p <;> first | exact absurd (by decide) hp | simp [agree]⟩
    · exact ⟨by simp, fun p hp => by cases p <;> first | exact absurd (by decide) hp | simp [agree]⟩

theorem State.applyChannels_frame (s : State) (r : Record) (n : Node) (k : Nat) (d : Dir) :
    sameBut [.store, .handoffs] s (s.applyChannels r n k d) := by
  unfold State.applyChannels
  split
  · exact sameBut_refl _ _
  · exact ⟨rfl, fun p hp => by cases p <;> first | exact absurd (by decide) hp | rfl⟩

theorem State.proveAlive_frame (s : State) (i : Nat) (n : Node) :
    sameBut [.store, .notices, .sweep] s (s.proveAlive i n) := by
  simp only [State.proveAlive]
  split
  · exact ⟨rfl, fun p hp => by cases p <;> first | exact absurd (by decide) hp | rfl⟩
  · exact ⟨rfl, fun p hp => by cases p <;> first | exact absurd (by decide) hp | rfl⟩

theorem State.goStale_frame (s : State) (i : Nat) (n : Node) :
    sameBut [.store, .handoffs, .notices] s (s.goStale i n) := by
  exact ⟨rfl, fun p hp => by cases p <;> first | exact absurd (by decide) hp | rfl⟩

/-! ### Report Intake (03) -/

theorem State.arriveReport_frame (s : State) (slot : Nat) (r : Record) :
    sameBut [.intake, .notices] s (s.arriveReport slot r) := by
  unfold State.arriveReport
  split
  · exact ⟨rfl, fun p hp => by cases p <;> first | exact absurd (by decide) hp | rfl⟩
  · exact ⟨rfl, fun p hp => by cases p <;> first | exact absurd (by decide) hp | rfl⟩

theorem State.scoreFault_frame (s : State) (id : NodeId) :
    sameBut [.store, .handoffs, .notices] s (s.scoreFault id) := by
  unfold State.scoreFault
  split
  · exact sameBut_refl _ _
  · split
    · exact sameBut_refl _ _
    · simp only
      split
      · exact ⟨rfl, fun p hp => by cases p <;> first | exact absurd (by decide) hp | rfl⟩
      · exact ⟨rfl, fun p hp => by cases p <;> first | exact absurd (by decide) hp | rfl⟩

theorem State.scoreGood_frame (s : State) (i : Nat) :
    sameBut [.store] s (s.scoreGood i) := by
  exact ⟨rfl, fun p hp => by cases p <;> first | exact absurd (by decide) hp | rfl⟩

theorem State.applyRecord_frame (s : State) (k : ReportKind) (r : Record) (i : Nat) (n : Node) (b : Bool) :
    sameBut [.intake, .store, .handoffs, .notices, .sweep] s (s.applyRecord k r i n b) := by
  unfold State.applyRecord
  split
  · exact sameBut_mono (State.refreshNode_frame s r i n) (by decide)
  · exact sameBut_then (State.removeNode_frame s i n) (State.hand_frame _ _) (by decide) (by decide)
  · exact sameBut_mono (State.applyClaim_frame s r i) (by decide)
  · split
    · exact ⟨rfl, fun p hp => by cases p <;> first | exact absurd (by decide) hp | rfl⟩
    · exact sameBut_mono (State.applySpan_frame s r n _ _ b) (by decide)
  · split
    · exact ⟨rfl, fun p hp => by cases p <;> first | exact absurd (by decide) hp | rfl⟩
    · exact sameBut_mono (State.applyChannels_frame s r n _ _) (by decide)

theorem State.acceptRecord_frame (s : State) (k : ReportKind) (r : Record) :
    sameBut [.intake, .store, .handoffs, .notices, .sweep] s (s.acceptRecord k r) := by
  unfold State.acceptRecord
  simp only
  split
  · exact sameBut_then (State.count_frame s _) (State.createNode_frame _ r) (by decide) (by decide)
  · refine sameBut_then (ps := [.intake, .store, .handoffs, .notices, .sweep]) ?_ (State.applyRecord_frame _ _ _ _ _ _) (by decide) (by decide)
    refine sameBut_then (ps := [.intake, .store, .handoffs, .notices, .sweep]) ?_ (State.proveAlive_frame _ _ _) (by decide) (by decide)
    refine sameBut_then (ps := [.intake]) ?_ (State.scoreGood_frame _ _) (by decide) (by decide)
    exact State.count_frame _ _

theorem State.dropFormat_frame (s : State) (r : Record) :
    sameBut [.intake, .store, .handoffs, .notices, .sweep] s (s.dropFormat r) := by
  simp only [State.dropFormat]
  split
  · refine sameBut_then (ps := [.intake, .notices]) ?_ (State.scoreFault_frame _ _) (by decide) (by decide)
    exact ⟨rfl, fun p hp => by cases p <;> first | exact absurd (by decide) hp | rfl⟩
  · exact ⟨rfl, fun p hp => by cases p <;> first | exact absurd (by decide) hp | rfl⟩

theorem State.dropMalformed_frame (s : State) (r : Record) (x : MalformReason) :
    sameBut [.intake, .store, .handoffs, .notices, .sweep] s (s.dropMalformed r x) := by
  simp only [State.dropMalformed]
  refine sameBut_then (ps := [.intake, .notices]) ?_ (State.scoreFault_frame _ _) (by decide) (by decide)
  exact ⟨rfl, fun p hp => by cases p <;> first | exact absurd (by decide) hp | rfl⟩

theorem State.attribute_frame (s : State) (k : ReportKind) (r : Record) :
    sameBut [.intake, .store, .handoffs, .notices, .sweep] s (s.attribute k r) := by
  unfold State.attribute
  split
  · split
    · exact State.acceptRecord_frame _ _ _
    · exact ⟨rfl, fun p hp => by cases p <;> first | exact absurd (by decide) hp | rfl⟩
  · split
    · exact ⟨rfl, fun p hp => by cases p <;> first | exact absurd (by decide) hp | rfl⟩
    · exact State.acceptRecord_frame _ _ _

theorem State.judgeRecord_frame (s : State) (r : Record) :
    sameBut [.intake, .store, .handoffs, .notices, .sweep] s (s.judgeRecord r) := by
  unfold State.judgeRecord
  split
  · exact State.dropFormat_frame _ _
  · split
    · exact State.dropMalformed_frame _ _ _
    · exact State.dropMalformed_frame _ _ _
    · split
      · exact State.attribute_frame _ _ _
      · exact ⟨rfl, fun p hp => by cases p <;> first | exact absurd (by decide) hp | rfl⟩

/-! ### Lightpath Table (06) -/

theorem State.updateNodeOf_frame (s : State) (id : NodeId) (f : Node → Node) :
    sameBut [.store] s (s.updateNodeOf id f) := by
  unfold State.updateNodeOf
  split
  · exact sameBut_refl _ _
  · exact ⟨rfl, fun p hp => by cases p <;> first | exact absurd (by decide) hp | rfl⟩

theorem State.takeRegens_frame (s : State) (ids : List NodeId) :
    sameBut [.store] s (s.takeRegens ids) := by
  exact sameBut_foldl _ (fun x id => State.updateNodeOf_frame x id _) ids s

theorem State.returnRegens_frame (s : State) (ids : List NodeId) :
    sameBut [.store] s (s.returnRegens ids) := by
  exact sameBut_foldl _ (fun x id => State.updateNodeOf_frame x id _) ids s

theorem State.fillRecord_frame (s : State) (i : Nat) (p : Lightpath) :
    sameBut [.store, .records] s (s.fillRecord i p) := by
  exact sameBut_then (State.setLightpath_frame s i p) (State.takeRegens_frame _ _) (by decide) (by decide)

theorem State.dropPartner_frame (s : State) (q : Option Nat) :
    sameBut [.records] s (s.dropPartner q) := by
  unfold State.dropPartner
  split
  · exact sameBut_refl _ _
  · exact ⟨rfl, fun p hp => by cases p <;> first | exact absurd (by decide) hp | rfl⟩

theorem State.freeRecord_frame (s : State) (i : Nat) (p : Lightpath) :
    sameBut [.store, .records] s (s.freeRecord i p) := by
  simp only [State.freeRecord]
  refine sameBut_then (State.returnRegens_frame s p.route.regens)
    (sameBut_trans (State.dropPartner_frame _ p.partner) ?_) (by decide) (by decide)
  exact ⟨rfl, fun p hp => by cases p <;> first | exact absurd (by decide) hp | rfl⟩

theorem State.activateRecord_frame (s : State) (i : Nat) (p : Lightpath) (x : Nat) :
    sameBut [.records, .notices, .sweep] s (s.activateRecord i p x) := by
  exact ⟨rfl, fun p hp => by cases p <;> first | exact absurd (by decide) hp | rfl⟩

theorem State.reply_frame (s : State) (h : Handed) (st : Status) (x y : Nat) (b : AnswerBody) :
    sameBut [.dispatcher, .writer] s (s.reply h st x y b) := by
  unfold State.reply
  split
  · exact sameBut_refl _ _
  · exact ⟨rfl, fun p hp => by cases p <;> first | exact absurd (by decide) hp | rfl⟩

theorem State.activate_frame (s : State) (h : Handed) (tag : Nat) :
    sameBut [.records, .notices, .sweep, .dispatcher, .writer] s (s.activate h tag) := by
  unfold State.activate
  split
  · exact sameBut_mono (State.reply_frame s _ _ _ _ _) (by decide)
  · split
    · exact sameBut_then (State.activateRecord_frame s _ _ _) (State.reply_frame _ _ _ _ _ _) (by decide) (by decide)
    · exact sameBut_mono (State.reply_frame s _ _ _ _ _) (by decide)

theorem State.litCheckRecord_frame (s : State) (k : Nat) (d : Dir) (i : Nat) (p : Lightpath) :
    sameBut [.records, .notices, .sweep] s (s.litCheckRecord k d i p) := by
  unfold State.litCheckRecord
  split
  · exact State.activateRecord_frame _ _ _ _
  · exact sameBut_refl _ _

theorem State.checkLit_frame (s : State) (k : Nat) (d : Dir) (x y : EndName) :
    sameBut [.records, .notices, .sweep] s (s.checkLit k d x y) := by
  unfold State.checkLit
  split
  · exact sameBut_foldl _ (fun z (e : Nat × Lightpath) => State.litCheckRecord_frame z k d e.1 e.2) _ s
  · exact sameBut_refl _ _

theorem State.release_frame (s : State) (h : Handed) (tag : Nat) :
    sameBut [.store, .records, .dispatcher, .writer] s (s.release h tag) := by
  unfold State.release
  split
  · exact sameBut_mono (State.reply_frame s _ _ _ _ _) (by decide)
  · exact sameBut_then (State.freeRecord_frame s _ _) (State.reply_frame _ _ _ _ _ _) (by decide) (by decide)

theorem State.expireRecord_frame (s : State) (i : Nat) (p : Lightpath) :
    sameBut [.store, .records, .notices] s (s.expireRecord i p) := by
  exact sameBut_then (State.freeRecord_frame s i p) (State.hand_frame _ _) (by decide) (by decide)

theorem State.adoptInto_frame (s : State) (h : Handed) (i : Nat) (r : Route) (b : Nat) :
    sameBut [.store, .records, .notices, .sweep, .dispatcher, .writer] s (s.adoptInto h i r b) := by
  simp only [State.adoptInto]
  refine sameBut_then (ps := [.store, .records, .notices, .sweep, .dispatcher, .writer]) ?_ (State.reply_frame _ _ _ _ _ _) (by decide) (by decide)
  refine sameBut_then (ps := [.store, .records, .notices, .sweep, .dispatcher, .writer]) ?_ (State.addEvaluation_frame _ _) (by decide) (by decide)
  exact sameBut_then (State.fillRecord_frame s i _) (State.hand_frame _ _) (by decide) (by decide)

theorem State.adopt_frame (s : State) (h : Handed) (q m n : Nat) (es : List AdoptEntry) :
    sameBut [.store, .records, .notices, .sweep, .dispatcher, .writer] s (s.adopt h q m n es) := by
  unfold State.adopt
  split
  · exact sameBut_mono (State.reply_frame s _ _ _ _ _) (by decide)
  · split
    · exact sameBut_mono (State.reply_frame s _ _ _ _ _) (by decide)
    · simp only
      split
      · exact sameBut_mono (State.reply_frame s _ _ _ _ _) (by decide)
      · split
        · exact sameBut_mono (State.reply_frame s _ _ _ _ _) (by decide)
        · exact State.adoptInto_frame _ _ _ _ _

theorem State.loseRecord_frame (s : State) (x : HopLost) (i : Nat) (p : Lightpath) :
    sameBut [.records, .notices] s (s.loseRecord x i p) := by
  unfold State.loseRecord
  split
  · exact ⟨rfl, fun p hp => by cases p <;> first | exact absurd (by decide) hp | rfl⟩
  · exact sameBut_refl _ _

theorem State.takeHopLost_frame (s : State) (x : HopLost) :
    sameBut [.records, .notices] s (s.takeHopLost x) := by
  exact sameBut_foldl _ (fun y (e : Nat × Lightpath) => State.loseRecord_frame y x e.1 e.2) _ s

theorem State.applyWhole_frame (s : State) (i : Nat) (p : Lightpath) (m : Int) :
    sameBut [.records, .notices] s (s.applyWhole i p m) := by
  simp only [State.applyWhole]
  split
  · exact ⟨rfl, fun p hp => by cases p <;> first | exact absurd (by decide) hp | rfl⟩
  · split
    · exact ⟨rfl, fun p hp => by cases p <;> first | exact absurd (by decide) hp | rfl⟩
    · exact ⟨rfl, fun p hp => by cases p <;> first | exact absurd (by decide) hp | rfl⟩

theorem State.applyLost_frame (s : State) (i : Nat) (p : Lightpath) :
    sameBut [.records, .notices] s (s.applyLost i p) := by
  unfold State.applyLost
  split
  · exact sameBut_refl _ _
  · exact ⟨rfl, fun p hp => by cases p <;> first | exact absurd (by decide) hp | rfl⟩

theorem State.applyResult_frame (s : State) (x : SweepResult) :
    sameBut [.records, .notices] s (s.applyResult x) := by
  unfold State.applyResult
  split
  · exact sameBut_refl _ _
  · split
    · exact sameBut_refl _ _
    · split
      · exact State.applyLost_frame _ _ _
      · split
        · exact State.applyLost_frame _ _ _
        · exact State.applyWhole_frame _ _ _ _

/-! ### Path Engines (05) -/

theorem State.setEngine_frame (s : State) (e : EngineId) (x : Engine) :
    sameBut [enginePart e, .writer] s (s.setEngine e x) := by
  cases e
  · exact ⟨rfl, fun p hp => by cases p <;> first | exact absurd (by decide) hp | rfl⟩
  · exact ⟨rfl, fun p hp => by cases p <;> first | exact absurd (by decide) hp | rfl⟩

theorem State.engineAnswer_frame (s : State) (e : EngineId) (c : Context) (st : Status) (n m : Nat) (b : AnswerBody) :
    sameBut [enginePart e, .writer] s (s.engineAnswer e c st n m b) := by
  cases e
  · exact ⟨rfl, fun p hp => by cases p <;> first | exact absurd (by decide) hp | rfl⟩
  · exact ⟨rfl, fun p hp => by cases p <;> first | exact absurd (by decide) hp | rfl⟩

theorem State.failAttempt_frame (s : State) (e : EngineId) (c : Context) (st : Status) (n : Nat) :
    sameBut [enginePart e, .writer] s (s.failAttempt e c st n) := by
  unfold State.failAttempt
  split
  · exact State.setEngine_frame _ _ _
  · exact State.engineAnswer_frame _ _ _ _ _ _ _

theorem State.conclude_frame (s : State) (e : EngineId) (c : Context) (ls : List Label) (r : Route) (q : Option Route) :
    sameBut [enginePart e, .writer] s (s.conclude e c ls r q) := by
  unfold State.conclude
  split
  · exact State.setEngine_frame _ _ _
  · split
    · exact State.engineAnswer_frame _ _ _ _ _ _ _
    · exact State.failAttempt_frame _ _ _ _ _

theorem State.accept_frame (s : State) (e : EngineId) (c : Context) (ls : List Label) (i : Nat) :
    sameBut [enginePart e, .writer] s (s.accept e c ls i) := by
  simp only [State.accept]
  split
  · split
    · exact State.setEngine_frame _ _ _
    · exact State.conclude_frame _ _ _ _ _ _
  · exact State.conclude_frame _ _ _ _ _ _

theorem State.endPhase_frame (s : State) (e : EngineId) (c : Context) (st : Status) (n : Nat) :
    sameBut [enginePart e, .writer] s (s.endPhase e c st n) := by
  unfold State.endPhase
  split
  · exact State.engineAnswer_frame _ _ _ _ _ _ _
  · split
    · exact State.engineAnswer_frame _ _ _ _ _ _ _
    · exact State.failAttempt_frame _ _ _ _ _

theorem State.closeLabel_frame (s : State) (e : EngineId) (c : Context) (ls : List Label) (i : Nat) (x : Label) :
    sameBut [enginePart e, .writer] s (s.closeLabel e c ls i x) := by
  simp only [State.closeLabel, State.arriveAtDestination]
  split
  · split
    · exact State.accept_frame _ _ _ _ _
    · exact State.setEngine_frame _ _ _
  · split
    · exact State.endPhase_frame _ _ _ _ _
    · exact State.setEngine_frame _ _ _

theorem State.reserve_frame (s : State) (q : CommitRequest) (i : Nat) (j : Option Nat) :
    sameBut [.store, .records] s (s.reserve q i j) := by
  unfold State.reserve
  split
  · exact sameBut_trans (State.fillRecord_frame s _ _) (State.fillRecord_frame _ _ _)
  · exact State.fillRecord_frame _ _ _

theorem State.takeCommit_frame (s : State) (e : EngineId) (c : Context) (ls : List Label) (q : CommitRequest) :
    sameBut [enginePart e, .writer, .store, .records] s (s.takeCommit e c ls q) := by
  have mono : ∀ t, sameBut [enginePart e, .writer] s t → sameBut [enginePart e, .writer, .store, .records] s t :=
    fun t h => sameBut_mono h (by cases e <;> decide)
  unfold State.takeCommit
  split
  · exact mono _ (State.failAttempt_frame _ _ _ _ _)
  · exact mono _ (State.failAttempt_frame _ _ _ _ _)
  · exact mono _ (State.engineAnswer_frame _ _ _ _ _ _ _)
  · exact sameBut_then (State.reserve_frame s q _ _) (State.engineAnswer_frame _ e _ _ _ _ _)
      (by cases e <;> decide) (by cases e <;> decide)

/-! ### Query Dispatcher and Result Writer (07) -/

theorem State.enqueue_frame (s : State) (slot : Nat) (b : Bool) :
    sameBut [.dispatcher] s (s.enqueue slot b) := by
  exact ⟨rfl, fun p hp => by cases p <;> first | exact absurd (by decide) hp | rfl⟩

theorem State.dequeue_frame (s : State) (slot : Nat) :
    sameBut [.dispatcher] s (s.dequeue slot) := by
  exact ⟨rfl, fun p hp => by cases p <;> first | exact absurd (by decide) hp | rfl⟩

theorem State.withdrawAnswer_frame (s : State) (slot : Nat) :
    sameBut [.writer] s (s.withdrawAnswer slot) := by
  exact ⟨rfl, fun p hp => by cases p <;> first | exact absurd (by decide) hp | rfl⟩

theorem State.respond_frame (s : State) (slot : Nat) (q : Query) (st : Status) (x : Nat) (b : AnswerBody) :
    sameBut [.dispatcher, .writer] s (s.respond slot q st x b) := by
  exact ⟨rfl, fun p hp => by cases p <;> first | exact absurd (by decide) hp | rfl⟩

theorem State.answerBad_frame (s : State) (slot : Nat) (w : RawQuery) (r : QueryReason) (b : Bool) :
    sameBut [.dispatcher, .writer] s (s.answerBad slot w r b) := by
  exact ⟨rfl, fun p hp => by cases p <;> first | exact absurd (by decide) hp | rfl⟩

theorem State.judgeInto_frame (s : State) (slot : Nat) (w : RawQuery) :
    sameBut [.dispatcher, .writer] s (s.judgeInto slot w) := by
  unfold State.judgeInto
  split
  · exact State.answerBad_frame _ _ _ _ _
  · exact ⟨rfl, fun p hp => by cases p <;> first | exact absurd (by decide) hp | rfl⟩

theorem State.replaceQueued_frame (s : State) (slot : Nat) (q : Query) (w : RawQuery) :
    sameBut [.dispatcher, .writer] s (s.replaceQueued slot q w) := by
  unfold State.replaceQueued
  split
  · exact sameBut_then (State.dequeue_frame s slot) (State.answerBad_frame _ _ _ _ _) (by decide) (by decide)
  · split
    · exact ⟨rfl, fun p hp => by cases p <;> first | exact absurd (by decide) hp | rfl⟩
    · exact ⟨rfl, fun p hp => by cases p <;> first | exact absurd (by decide) hp | rfl⟩

theorem State.rewriteInService_frame (s : State) (slot : Nat) (v : Serving) (w : RawQuery) :
    sameBut [.engine0, .engine1, .handoffs, .dispatcher, .writer] s (s.rewriteInService slot v w) := by
  unfold State.rewriteInService
  split
  · rename_i e
    refine sameBut_then (ps := [.engine0, .engine1, .writer]) ?_ (State.judgeInto_frame _ slot w) (by decide) (by decide)
    cases e
    · exact ⟨rfl, fun p hp => by cases p <;> first | exact absurd (by decide) hp | rfl⟩
    · exact ⟨rfl, fun p hp => by cases p <;> first | exact absurd (by decide) hp | rfl⟩
  · exact sameBut_then (State.withdrawAnswer_frame s slot) (State.judgeInto_frame _ slot w) (by decide) (by decide)
  · refine sameBut_then (ps := [.handoffs]) ?_ (State.judgeInto_frame _ slot w) (by decide) (by decide)
    exact ⟨rfl, fun p hp => by cases p <;> first | exact absurd (by decide) hp | rfl⟩
  · refine sameBut_then (ps := [.handoffs]) ?_ (State.judgeInto_frame _ slot w) (by decide) (by decide)
    exact ⟨rfl, fun p hp => by cases p <;> first | exact absurd (by decide) hp | rfl⟩
  · exact ⟨rfl, fun p hp => by cases p <;> first | exact absurd (by decide) hp | rfl⟩

theorem State.arriveQuery_frame (s : State) (slot : Nat) (r : Record) :
    sameBut [.engine0, .engine1, .handoffs, .dispatcher, .writer] s (s.arriveQuery slot r) := by
  unfold State.arriveQuery
  simp only
  split
  · exact sameBut_mono (State.judgeInto_frame s slot _) (by decide)
  · exact sameBut_mono (State.replaceQueued_frame s slot _ _) (by decide)
  · exact State.rewriteInService_frame _ _ _ _

theorem State.serveSearch_frame (s : State) (slot : Nat) (q : Query) (r : FindReq) (b : Bool) :
    sameBut [.dispatcher, .engine0, .engine1, .writer] s (s.serveSearch slot q r b) := by
  unfold State.serveSearch
  split
  · exact sameBut_mono (State.respond_frame s _ _ _ _ _) (by decide)
  · split
    · exact sameBut_mono (State.respond_frame s _ _ _ _ _) (by decide)
    · split
      · exact sameBut_mono (State.respond_frame s _ _ _ _ _) (by decide)
      · simp only [State.assign]
        refine sameBut_then (State.setSlot_frame s slot _) (State.setEngine_frame _ s.freeEngine _) (by decide) ?_
        cases s.freeEngine <;> decide

theorem State.flushEngine_frame (s : State) (e : EngineId) :
    sameBut [.engine0, .engine1, .writer] s (s.flushEngine e) := by
  unfold State.flushEngine
  split
  · exact sameBut_refl _ _
  · exact sameBut_mono (State.engineAnswer_frame s e _ _ _ _ _) (by cases e <;> decide)
  · exact sameBut_mono (State.engineAnswer_frame s e _ _ _ _ _) (by cases e <;> decide)
  · exact ⟨rfl, fun p hp => by cases p <;> first | exact absurd (by decide) hp | rfl⟩

theorem State.serveFlush_frame (s : State) (slot : Nat) (q : Query) :
    sameBut [.store, .dispatcher, .engine0, .engine1, .records, .sweep, .writer] s (s.serveFlush slot q) := by
  have h0 := sameBut_trans (State.flushEngine_frame s .e0) (State.flushEngine_frame _ .e1)
  simp only [State.serveFlush]
  generalize (s.flushEngine .e0).flushEngine .e1 = u at h0 ⊢
  refine sameBut_then h0 (qs := [.store, .dispatcher, .records, .sweep, .writer]) ?_ (by decide) (by decide)
  refine sameBut_then (ps := [.store, .dispatcher, .records, .sweep]) ?_ (State.respond_frame _ _ _ _ _ _)
    (by decide) (by decide)
  exact ⟨by simp [State.startSettle], fun p hp => by cases p <;> first | exact absurd (by decide) hp | simp [agree, State.startSettle]⟩

theorem State.evaluateReturned_frame (s : State) (b : State) (ds : List (Nat × Dir)) :
    sameBut [.sweep] s (s.evaluateReturned b ds) := by
  exact sameBut_foldl _ (fun x (e : Nat × Dir) => State.evaluateDirection_frame x e.1 e.2) _ s

theorem State.serveNodeClear_frame (s : State) (slot : Nat) (q : Query) (id : NodeId) :
    sameBut [.store, .notices, .sweep, .dispatcher, .writer] s (s.serveNodeClear slot q id) := by
  unfold State.serveNodeClear
  split
  · exact sameBut_mono (State.respond_frame s _ _ _ _ _) (by decide)
  · rename_i i n _
    simp only
    have h := sameBut_foldl (fun (x : State) (e : Nat × Dir) => x.clearFlap e.1 e.2)
      (fun x e => State.clearFlap_frame x e.1 e.2) (s.directionsAt i) (s.liftQuarantine i)
    refine sameBut_then (State.updateNode_frame s i _) (sameBut_then h (sameBut_then (State.evaluateReturned_frame _ s _)
      (State.respond_frame _ _ _ _ _ _) (rs := [.sweep, .dispatcher, .writer]) (by decide) (by decide))
      (rs := [.store, .notices, .sweep, .dispatcher, .writer]) (by decide) (by decide)) (by decide) (by decide)

theorem State.serveConfigSet_frame (s : State) (slot : Nat) (q : Query) (t : ConfigTarget) (v : List Byte) :
    sameBut [.port, .store, .handoffs, .notices, .sweep, .dispatcher, .writer] s (s.serveConfigSet slot q t v) := by
  have hc : sameBut [.port, .store, .handoffs, .notices, .sweep] s (s.configure t v) := by
    simp only [State.configure]
    split
    · refine sameBut_then (ps := [.port]) ?_ (State.reprofile_frame _ _) (by decide) (by decide)
      exact ⟨rfl, fun p hp => by cases p <;> first | exact absurd (by decide) hp | rfl⟩
    · exact ⟨rfl, fun p hp => by cases p <;> first | exact absurd (by decide) hp | rfl⟩
    · exact ⟨rfl, fun p hp => by cases p <;> first | exact absurd (by decide) hp | rfl⟩
    · exact ⟨rfl, fun p hp => by cases p <;> first | exact absurd (by decide) hp | rfl⟩
  unfold State.serveConfigSet
  refine sameBut_then (ps := [.port, .store, .handoffs, .notices, .sweep]) ?_ (State.respond_frame _ _ _ _ _ _)
    (by decide) (by decide)
  split
  · exact sameBut_refl _ _
  · exact hc

theorem State.serve_frame (s : State) (slot : Nat) (q : Query) :
    sameBut [.port, .tap, .intake, .store, .handoffs, .dispatcher, .engine0, .engine1, .records, .sweep, .writer, .notices] s (s.serve slot q) := by
  unfold State.serve
  split
  · exact sameBut_mono (State.serveSearch_frame s _ _ _ _) (by decide)
  · exact sameBut_mono (State.serveSearch_frame s _ _ _ _) (by decide)
  · exact ⟨rfl, fun p hp => by cases p <;> first | exact absurd (by decide) hp | rfl⟩
  · exact ⟨rfl, fun p hp => by cases p <;> first | exact absurd (by decide) hp | rfl⟩
  · exact ⟨rfl, fun p hp => by cases p <;> first | exact absurd (by decide) hp | rfl⟩
  · unfold State.serveLookupNode
    split
    · exact sameBut_mono (State.respond_frame s _ _ _ _ _) (by decide)
    · exact sameBut_mono (State.respond_frame s _ _ _ _ _) (by decide)
  · unfold State.serveLookupLink
    split
    · exact sameBut_mono (State.respond_frame s _ _ _ _ _) (by decide)
    · split
      · exact sameBut_mono (State.respond_frame s _ _ _ _ _) (by decide)
      · exact sameBut_mono (State.respond_frame s _ _ _ _ _) (by decide)
      · exact sameBut_mono (State.respond_frame s _ _ _ _ _) (by decide)
  · simp only [State.serveStatus]
    refine sameBut_trans (t := (if _ then (s.setSlot slot (.inService .answered none)).clearCounters
      else s.setSlot slot (.inService .answered none))) ?_ (sameBut_mono (State.respond_frame _ _ _ _ _ _) (by decide))
    split
    · exact ⟨rfl, fun p hp => by cases p <;> first | exact absurd (by decide) hp | rfl⟩
    · exact ⟨rfl, fun p hp => by cases p <;> first | exact absurd (by decide) hp | rfl⟩
  · exact ⟨rfl, fun p hp => by cases p <;> first | exact absurd (by decide) hp | rfl⟩
  · exact sameBut_mono (State.serveConfigSet_frame s _ _ _ _) (by decide)
  · unfold State.serveSave
    split
    · exact sameBut_mono (State.respond_frame s _ _ _ _ _) (by decide)
    · exact ⟨rfl, fun p hp => by cases p <;> first | exact absurd (by decide) hp | rfl⟩
  · unfold State.serveReload
    split
    · exact sameBut_mono (State.respond_frame s _ _ _ _ _) (by decide)
    · exact ⟨rfl, fun p hp => by cases p <;> first | exact absurd (by decide) hp | rfl⟩
  · exact sameBut_mono (State.serveFlush_frame s _ _) (by decide)
  · exact sameBut_mono (State.serveNodeClear_frame s _ _ _) (by decide)

theorem State.takeAnswer_frame (s : State) (a : Answer) (rest : List Answer) :
    sameBut [.engine0, .engine1, .dispatcher, .writer] s (s.takeAnswer a rest) := by
  simp only [State.takeAnswer]
  have h1 : ∀ (u : State) (x : AnswerSource), sameBut [.engine0, .engine1] u (u.freeSource x) := by
    intro u x
    cases x with
    | engine e =>
      cases e
      · exact ⟨rfl, fun p hp => by cases p <;> first | exact absurd (by decide) hp | rfl⟩
      · exact ⟨rfl, fun p hp => by cases p <;> first | exact absurd (by decide) hp | rfl⟩
    | dispatcher => exact sameBut_refl _ _
    | port => exact sameBut_refl _ _
  have h2 : ∀ (u : State) (x : Option RawQuery), sameBut [.dispatcher, .writer] u (u.judgeSuccessor a.slot x) := by
    intro u x
    cases x with
    | none => exact sameBut_refl _ _
    | some w => exact State.judgeInto_frame _ _ _
  refine sameBut_then (ps := [.writer]) (qs := [.engine0, .engine1, .dispatcher, .writer]) ?_ ?_ (by decide) (by decide)
    (t := s.setWriter
      { answers := rest, writing := some { base := s.resultBase a.slot, answer := a, todo := none } })
  · exact ⟨rfl, fun p hp => by cases p <;> first | exact absurd (by decide) hp | rfl⟩
  · refine sameBut_then (h1 _ a.source) (sameBut_trans (ps := [.dispatcher, .writer]) ?_ (h2 _ _)) (by decide) (by decide)
    exact ⟨rfl, fun p hp => by cases p <;> first | exact absurd (by decide) hp | rfl⟩

/-! ### Sweep Unit, Notice Unit, Bus Tap, Configuration Port (08 to 11) -/

theorem State.evaluate_frame (s : State) (i : Nat) :
    sameBut [.sweep] s (s.evaluate i) := by
  unfold State.evaluate
  split
  · exact sameBut_refl _ _
  · split
    · exact ⟨rfl, fun p hp => by cases p <;> first | exact absurd (by decide) hp | rfl⟩
    · exact sameBut_refl _ _

theorem State.walk_frame (s : State) (i : Nat) :
    sameBut [.sweep, .notices] s (s.walk i) := by
  unfold State.walk
  split
  · exact ⟨rfl, fun p hp => by cases p <;> first | exact absurd (by decide) hp | rfl⟩
  · refine sameBut_then (ps := [.sweep]) ?_ (State.evaluate_frame _ _) (by decide) (by decide)
    exact ⟨rfl, fun p hp => by cases p <;> first | exact absurd (by decide) hp | rfl⟩

theorem State.takeNotice_frame (s : State) (n : Notice) :
    sameBut [.notices] s (s.takeNotice n) := by
  unfold State.takeNotice
  split
  · exact sameBut_refl _ _
  · split
    · exact ⟨rfl, fun p hp => by cases p <;> first | exact absurd (by decide) hp | rfl⟩
    · exact ⟨rfl, fun p hp => by cases p <;> first | exact absurd (by decide) hp | rfl⟩

theorem State.writeMemory_frame (s : State) (a : Nat) (w : Word) (en : ByteMask) (r : Response) :
    sameBut [.freeCount, .memory, .downstream] s (s.writeMemory a w en r) := by
  cases r
  · exact ⟨rfl, fun p hp => by cases p <;> first | exact absurd (by decide) hp | rfl⟩
  · exact ⟨rfl, fun p hp => by cases p <;> first | exact absurd (by decide) hp | rfl⟩

theorem State.drainHead_frame (s : State) (r : Response) :
    sameBut [.freeCount, .memory, .downstream, .tap] s (s.drainHead r) := by
  unfold State.drainHead
  split
  · exact sameBut_refl _ _
  · refine sameBut_then (ps := [.tap]) ?_ (State.writeMemory_frame _ _ _ _ r) (by decide) (by decide)
    exact ⟨rfl, fun p hp => by cases p <;> first | exact absurd (by decide) hp | rfl⟩

theorem State.handWord_frame (s t : State) (p : Producer) (a : Nat) (w : Word) (h : s.handWord p a w = some t) :
    sameBut [.tap] s t := by
  unfold State.handWord at h
  split at h
  · cases h
    exact ⟨rfl, fun p hp => by cases p <;> first | exact absurd (by decide) hp | rfl⟩
  · split at h
    · cases h
      exact ⟨rfl, fun p hp => by cases p <;> first | exact absurd (by decide) hp | rfl⟩
    · cases h

theorem State.passNoticeWord_frame (s : State) : sameBut [.tap, .notices] s s.passNoticeWord := by
  unfold State.passNoticeWord
  split
  · exact sameBut_refl _ _
  · split
    · rename_i h
      refine sameBut_then (State.handWord_frame _ _ _ _ _ h) (qs := [.notices]) ?_ (by decide) (by decide)
      exact ⟨rfl, fun p hp => by cases p <;> first | exact absurd (by decide) hp | rfl⟩
    · exact ⟨rfl, fun p hp => by cases p <;> first | exact absurd (by decide) hp | rfl⟩

theorem State.openReport_frame (s : State) (slot : Nat) :
    sameBut [.tap, .notices] s (s.openReport slot) := by
  have he : sameBut [.tap, .notices] s s.evictStaging := by
    unfold State.evictStaging
    split
    · exact sameBut_refl _ _
    · split
      · exact sameBut_refl _ _
      · exact ⟨rfl, fun p hp => by cases p <;> first | exact absurd (by decide) hp | rfl⟩
  unfold State.openReport
  split
  · exact sameBut_refl _ _
  · refine sameBut_trans he ?_
    exact ⟨rfl, fun p hp => by cases p <;> first | exact absurd (by decide) hp | rfl⟩

theorem State.writeReport_frame (s : State) (slot k : Nat) (w : Word) (en : ByteMask) :
    sameBut [.tap, .intake, .notices] s (s.writeReport slot k w en) := by
  simp only [State.writeReport]
  refine sameBut_then (State.openReport_frame s slot) (qs := [.tap, .intake, .notices]) ?_ (by decide) (by decide)
  split
  · exact sameBut_refl _ _
  · split
    · refine sameBut_then (ps := [.tap]) ?_ (State.arriveReport_frame _ _ _) (by decide) (by decide)
      exact ⟨rfl, fun p hp => by cases p <;> first | exact absurd (by decide) hp | rfl⟩
    · exact ⟨rfl, fun p hp => by cases p <;> first | exact absurd (by decide) hp | rfl⟩

theorem State.writeQuery_frame (s : State) (slot k : Nat) (w : Word) (en : ByteMask) :
    sameBut [.tap, .engine0, .engine1, .handoffs, .dispatcher, .writer] s (s.writeQuery slot k w en) := by
  simp only [State.writeQuery]
  split
  · refine sameBut_then (ps := [.tap]) ?_ (State.arriveQuery_frame _ _ _) (by decide) (by decide)
    exact ⟨rfl, fun p hp => by cases p <;> first | exact absurd (by decide) hp | rfl⟩
  · exact ⟨rfl, fun p hp => by cases p <;> first | exact absurd (by decide) hp | rfl⟩

theorem State.look_frame (s : State) (a : Nat) (w : Word) (en : ByteMask) :
    sameBut [.tap, .intake, .notices, .engine0, .engine1, .handoffs, .dispatcher, .writer] s (s.look a w en) := by
  unfold State.look
  split
  · split
    · exact sameBut_refl _ _
    · simp only [State.matchWrite]
      split
      · exact sameBut_mono (State.writeReport_frame s _ _ _ _) (by decide)
      · exact sameBut_mono (State.writeQuery_frame s _ _ _ _) (by decide)
      · exact sameBut_refl _ _
      · split
        · unfold State.takeConsumer
          split
          · exact ⟨rfl, fun p hp => by cases p <;> first | exact absurd (by decide) hp | rfl⟩
          · exact sameBut_refl _ _
        · exact sameBut_refl _ _
  · exact sameBut_refl _ _

/-! ### The end of the load (R182, R184) -/

theorem State.startTimers_frame (s : State) : sameBut [.sweep, .dispatcher] s s.startTimers := by
  exact ⟨rfl, fun p hp => by cases p <;> first | exact absurd (by decide) hp | rfl⟩

theorem State.comeIntoForce_frame (s : State) (img : List Byte) (x : ImageSource) (e : NoticeEvent) (n : Nat) :
    sameBut [.port, .tap, .notices, .sweep, .dispatcher] s (s.comeIntoForce img x e n) := by
  unfold State.comeIntoForce
  refine sameBut_then (ps := [.port, .tap, .notices, .sweep, .dispatcher]) ?_ (State.hand_frame _ _) (by decide)
    (by decide)
  refine sameBut_then (ps := [.port, .tap, .notices]) ?_ (State.startTimers_frame _) (by decide) (by decide)
  refine sameBut_then (ps := [.port, .notices]) ?_ (State.passNoticeWord_frame _) (by decide) (by decide)
  exact ⟨rfl, fun p hp => by cases p <;> first | exact absurd (by decide) hp | rfl⟩

theorem State.endAttempt_frame (s : State) (bs : List Byte) :
    sameBut [.port, .tap, .notices, .sweep, .dispatcher] s (s.endAttempt bs) := by
  unfold State.endAttempt
  split
  · exact State.comeIntoForce_frame _ _ _ _ _
  · unfold State.failLoad
    split
    · exact ⟨rfl, fun p hp => by cases p <;> first | exact absurd (by decide) hp | rfl⟩
    · exact State.comeIntoForce_frame _ _ _ _ _

end Sys2Proof.Machine
end

