-- ==== Sys2Proof/Laws/Image.lean ====
section
/-! SUPPORT. The laws of the configuration image: the CRC is a left fold over the bytes, and the length of an image is
kept by the operations that change its bytes. -/

namespace Sys2Proof.Machine

theorem atNumeral_eq (f : Nat → Nat) (n : Nat) : atNumeral f n = f n := by
  cases n <;> rfl

/-- The CRC register after a list of bytes is the left fold of one byte's step. -/
theorem crcBytes_eq_foldl (bs : List Byte) (c : Nat) : crcBytes bs c = bs.foldl crcByte c := by
  induction bs generalizing c with
  | nil => rfl
  | cons b t ih => rw [crcBytes, atNumeral_eq, ih, List.foldl_cons]

/-- An image with its CRC placed has 512 bytes. -/
theorem placeCrc_length (img : List Byte) (h : 510 ≤ img.length) : (placeCrc img).length = 512 := by
  simp [placeCrc]; omega

/-- Placing values of a CONFIG_SET keeps the length of the image. -/
theorem spliceImage_length (img values : List Byte) (o len : Nat) (h : o + len ≤ img.length) :
    (spliceImage img o len values).length = img.length := by
  simp [spliceImage]; omega

end Sys2Proof.Machine
end

