-- ==== Sys2Proof/Laws/Paths.lean ====
section
/-! SUPPORT. The laws of the paths of labels (R79, R90, R91): the chain of labels that a search step walks is the path
read backwards, and the route found has its arrivals as hops. -/

namespace Sys2Proof.Machine

/-- A path ends with its own label. -/
theorem pathTo_last (ls : List Label) (i : Nat) (path : List Label) (h : pathTo ls i path) :
    ∃ c x, path = c ++ [x] ∧ ls[i]? = some x := by
  cases h with
  | start _ x h1 => exact ⟨[], _, rfl, h1⟩
  | hop => exact ⟨_, _, rfl, ‹_›⟩
  | regeneration => exact ⟨_, _, rfl, ‹_›⟩

/-- A change of a later label leaves the chain of an earlier one. -/
theorem chainFrom_set_later (ls : List Label) (i : Nat) (z : Label) (path : List Label) (j : Nat)
    (hj : j < i) (h : pathTo ls j path) (fuel : Nat) (hf : j < fuel) :
    chainFrom (ls.set i z) fuel j = path.reverse := by
  induction h generalizing fuel with
  | start j x h1 h2 =>
    obtain ⟨f, rfl⟩ : ∃ f, fuel = f + 1 := ⟨fuel - 1, by omega⟩
    simp [chainFrom, List.getElem?_set_ne (show i ≠ j by omega), h1, h2]
  | hop j k x y a c h1 h2 h3 h4 _ h6 _ _ _ _ ih =>
    obtain ⟨f, rfl⟩ : ∃ f, fuel = f + 1 := ⟨fuel - 1, by omega⟩
    simp [chainFrom, List.getElem?_set_ne (show i ≠ j by omega), h1, h2, ih (by omega) f (by omega)]
  | regeneration j k x y c h1 h2 h3 h4 _ h6 _ _ _ _ ih =>
    obtain ⟨f, rfl⟩ : ∃ f, fuel = f + 1 := ⟨fuel - 1, by omega⟩
    simp [chainFrom, List.getElem?_set_ne (show i ≠ j by omega), h1, h2, ih (by omega) f (by omega)]

/-- The chain of the label that a step closes: that label, then its path backwards. -/
theorem chainOf_set_closed (ls : List Label) (i : Nat) (x : Label) (path : List Label)
    (h : pathTo ls i path) (hx : ls[i]? = some x) :
    chainOf (ls.set i { x with closed := true }) i = { x with closed := true } :: path.reverse.tail := by
  have hlt : i < ls.length := (List.getElem?_eq_some_iff.mp hx).1
  unfold chainOf
  simp only [chainFrom]
  rw [List.getElem?_set_self hlt]
  simp only
  cases h with
  | start _ y h1 h2 => rw [hx] at h1; cases h1; simp [h2]
  | hop _ j y z a c h1 h2 h3 h4 h5 =>
    rw [hx] at h1; cases h1
    simp only [h2]; rw [chainFrom_set_later ls i _ c j h3 h5 _ h3]; simp
  | regeneration _ j y z c h1 h2 h3 h4 h5 =>
    rw [hx] at h1; cases h1
    simp only [h2]; rw [chainFrom_set_later ls i _ c j h3 h5 _ h3]; simp

/-- The hops read from a path backwards, before those of the labels after it (R90, R91). -/
theorem traceHops_path (req : FindReq) (ls : List Label) (i : Nat) (path : List Label) (h : pathTo ls i path)
    (acc : List Hop) :
    ∀ slot x, ls[i]? = some x → ∀ rest : List Label, slot = slotFor req (lastOfSegment x rest).mask →
      hopsAlong (slotFor req) rest = acc →
      traceHops req path.reverse slot acc = hopsAlong (slotFor req) (path ++ rest) := by
  induction h generalizing acc with
  | start i x h1 h2 h3 h4 =>
    intro slot x' hx' rest hs hacc
    rw [h1] at hx'; cases hx'
    simp [traceHops, h3, h4, hopsAlong, hacc]
  | hop i j x y a c h1 h2 h3 h4 h5 h6 h7 h8 _ _ ih =>
    intro slot x' hx' rest hs hacc
    rw [h1] at hx'; cases hx'
    rw [List.reverse_append, List.reverse_singleton, List.singleton_append]
    simp only [traceHops, h8, h6, Bool.false_eq_true, if_false]
    rw [List.append_assoc, List.singleton_append]
    refine ih _ slot y h4 (x :: rest) ?_ ?_
    · rw [hs]; simp [lastOfSegment, h8]
    · simp only [hopsAlong, h6]; rw [hacc, hs]
  | regeneration i j x y c h1 h2 h3 h4 h5 h6 h7 h8 _ _ ih =>
    intro slot x' hx' rest hs hacc
    rw [h1] at hx'; cases hx'
    rw [List.reverse_append, List.reverse_singleton, List.singleton_append]
    simp only [traceHops, h8, if_true]
    rw [List.append_assoc, List.singleton_append]
    obtain ⟨c', y', hc, hy⟩ := pathTo_last _ _ _ h5
    rw [h4] at hy; cases hy
    have : (((c.reverse.head?.map fun p => slotFor req p.mask)).getD slot) = slotFor req y.mask := by
      rw [hc]; simp
    rw [this]
    refine ih _ _ y h4 (x :: rest) ?_ ?_
    · simp [lastOfSegment, h8]
    · simp only [hopsAlong, h6]; exact hacc

end Sys2Proof.Machine
end

