-- ==== Sys2Proof/Laws/Records.lean ====
section
/-! SUPPORT. The laws of the lightpath records: reading after replacing, the list of non-FREE records, tags, freeing and
filling. -/

namespace Sys2Proof.Machine

/-- Replacing a record in the table. -/
theorem State.recordAt_setRecord (s : State) (i j : Nat) (r : LpRecord) :
    (s.setRecord i r).recordAt j = if i = j ∧ j < s.records.length then r else s.recordAt j := by
  simp only [State.recordAt, State.setRecord_records, List.getD_eq_getElem?_getD, setAt_get]
  split <;> simp

theorem State.recordAt_setLightpath (s : State) (i j : Nat) (p : Lightpath) :
    (s.setLightpath i p).recordAt j =
      if i = j ∧ j < s.records.length then { s.recordAt i with path := some p } else s.recordAt j :=
  State.recordAt_setRecord s i j _

/-- A record that is not FREE lies in the table. -/
theorem State.lightpathAt_lt (s : State) (i : Nat) (p : Lightpath) (h : s.lightpathAt i = some p) :
    i < s.records.length := by
  by_contra hn
  have : s.records[i]? = none := List.getElem?_eq_none (by omega)
  simp [State.lightpathAt, State.recordAt, List.getD_eq_getElem?_getD, this, LpRecord.fresh] at h

/-- The list of non-FREE records has exactly the records that are not FREE. -/
theorem State.mem_lightpaths (s : State) (i : Nat) (p : Lightpath) :
    (i, p) ∈ s.lightpaths ↔ s.lightpathAt i = some p := by
  simp only [State.lightpaths, State.lightpathAt, State.recordAt, List.mem_filterMap, Prod.exists,
    List.mem_zipIdx_iff_getElem?, Option.map_eq_some_iff, Prod.mk.injEq]
  constructor
  · rintro ⟨r, j, h, q, hq, rfl, rfl⟩
    simp [List.getD, h, hq]
  · intro h
    rcases hr : s.records[i]? with _ | r
    · simp [List.getD, hr, LpRecord.fresh] at h
    · refine ⟨r, i, hr, p, ?_, rfl, rfl⟩
      simpa [List.getD, hr] using h

/-- The list of non-FREE records is in strictly ascending index order. -/
theorem State.lightpaths_ascending (s : State) : (s.lightpaths.map (·.1)).Pairwise (· < ·) := by
  have h : ((s.records.zipIdx).map (·.2)).Pairwise (· < ·) := by
    rw [List.zipIdx_map_snd]
    exact List.pairwise_lt_range'
  have key : ∀ l : List (LpRecord × Nat), (l.map (·.2)).Pairwise (· < ·) →
      ((l.filterMap fun (r, i) => r.path.map fun p => (i, p)).map (·.1)).Pairwise (· < ·) := by
    intro l
    induction l with
    | nil => intro _; exact List.Pairwise.nil
    | cons e t ih =>
      intro hl
      simp only [List.map_cons, List.pairwise_cons] at hl
      rw [List.filterMap_cons]
      split
      · exact ih hl.2
      · rename_i b hb
        simp only [List.map_cons, List.pairwise_cons]
        refine ⟨?_, ih hl.2⟩
        intro a ha
        simp only [Option.map_eq_some_iff] at hb
        obtain ⟨p, _, rfl⟩ := hb
        simp only [List.mem_map, List.mem_filterMap, Option.map_eq_some_iff] at ha
        obtain ⟨x, ⟨y, hy, q, _, rfl⟩, rfl⟩ := ha
        exact hl.1 _ (List.mem_map.mpr ⟨y, hy, rfl⟩)
  exact key _ h

/-- What a tag names (R107). -/
theorem State.named_eq_some (s : State) (tag i : Nat) (p : Lightpath) :
    s.named tag = some (i, p) ↔ i = tag % 128 ∧ (s.recordAt i).gen = tag / 128 ∧ s.lightpathAt i = some p := by
  unfold State.named
  constructor
  · intro h
    split at h
    · rename_i hg
      simp only [Option.map_eq_some_iff, Prod.mk.injEq] at h
      obtain ⟨q, hq, rfl, rfl⟩ := h
      exact ⟨rfl, hg, hq⟩
    · cases h
  · rintro ⟨rfl, hg, hp⟩
    simp [hg, hp]

/-- A tag that names a record is the record's tag. -/
theorem State.recordTag_of_named (s : State) (tag i : Nat) (p : Lightpath) (h : s.named tag = some (i, p)) :
    s.recordTag i = tag := by
  obtain ⟨rfl, hg, _⟩ := (s.named_eq_some tag i p).mp h
  unfold State.recordTag tagOf
  rw [hg]
  exact Nat.div_add_mod' tag 128

/-- The partner of a freed record loses its partner tag, and no record changes otherwise (R111). -/
theorem State.dropPartner_recordAt (s : State) (q : Option Nat) (j : Nat) :
    ((s.dropPartner q).recordAt j).gen = (s.recordAt j).gen ∧
    ((s.dropPartner q).lightpathAt j = s.lightpathAt j ∨
      ∃ x, s.lightpathAt j = some x ∧ (s.dropPartner q).lightpathAt j = some { x with partner := none }) := by
  unfold State.dropPartner
  split
  · exact ⟨rfl, .inl rfl⟩
  · rename_i i p h
    simp only [Option.bind_eq_some_iff] at h
    obtain ⟨tag, _, h⟩ := h
    obtain ⟨_, _, hp⟩ := (s.named_eq_some tag i p).mp h
    unfold State.lightpathAt
    rw [State.recordAt_setLightpath]
    split
    · rename_i hij
      obtain ⟨rfl, _⟩ := hij
      exact ⟨rfl, .inr ⟨p, hp, rfl⟩⟩
    · exact ⟨rfl, .inl rfl⟩

theorem State.updateNodeOf_records (s : State) (id : NodeId) (f : Node → Node) :
    (s.updateNodeOf id f).records = s.records := by
  unfold State.updateNodeOf
  split <;> rfl

theorem State.takeRegens_records (s : State) (ids : List NodeId) : (s.takeRegens ids).records = s.records := by
  unfold State.takeRegens
  induction ids generalizing s with
  | nil => rfl
  | cons a t ih => rw [List.foldl_cons, ih, State.updateNodeOf_records]

theorem State.returnRegens_records (s : State) (ids : List NodeId) : (s.returnRegens ids).records = s.records := by
  unfold State.returnRegens
  induction ids generalizing s with
  | nil => rfl
  | cons a t ih => rw [List.foldl_cons, ih, State.updateNodeOf_records]

/-- Filling a record (R110, R113, R121): its fields are set, its generation stays, no other record changes. -/
theorem State.fillRecord_recordAt (s : State) (i j : Nat) (p : Lightpath) :
    (s.fillRecord i p).recordAt j =
      if i = j ∧ j < s.records.length then { s.recordAt i with path := some p } else s.recordAt j := by
  have h : (s.fillRecord i p).records = (s.setLightpath i p).records := State.takeRegens_records _ _
  have : (s.fillRecord i p).recordAt j = (s.setLightpath i p).recordAt j := by
    unfold State.recordAt; rw [h]
  rw [this, State.recordAt_setLightpath]

/-- Freeing a record (R111): it is FREE with the next generation, and another record changes at most its partner tag. -/
theorem State.freeRecord_self (s : State) (i : Nat) (p : Lightpath) (h : i < s.records.length) :
    (s.freeRecord i p).recordAt i = { gen := nextGeneration i (s.recordAt i).gen, path := none } := by
  unfold State.freeRecord
  simp only
  rw [State.recordAt_setRecord, if_pos]
  refine ⟨rfl, ?_⟩
  have h1 : ∀ (u : State) (q : Option Nat), (u.dropPartner q).records.length = u.records.length := by
    intro u q
    unfold State.dropPartner
    split
    · rfl
    · simp [setAt_length]
  rw [h1, State.returnRegens_records]
  exact h

theorem State.freeRecord_other (s : State) (i j : Nat) (p : Lightpath) (h : j ≠ i) :
    ((s.freeRecord i p).recordAt j).gen = (s.recordAt j).gen ∧
    ((s.freeRecord i p).lightpathAt j = s.lightpathAt j ∨
      ∃ x, s.lightpathAt j = some x ∧ (s.freeRecord i p).lightpathAt j = some { x with partner := none }) := by
  have h1 : (s.freeRecord i p).recordAt j = ((s.returnRegens p.route.regens).dropPartner p.partner).recordAt j := by
    unfold State.freeRecord
    simp only
    rw [State.recordAt_setRecord, if_neg]
    rintro ⟨rfl, _⟩
    exact h rfl
  have h2 := State.dropPartner_recordAt (s.returnRegens p.route.regens) p.partner j
  have h3 : (s.returnRegens p.route.regens).recordAt j = s.recordAt j := by
    unfold State.recordAt; rw [State.returnRegens_records]
  unfold State.lightpathAt at *
  rw [h1]
  rw [h3] at h2
  exact h2

end Sys2Proof.Machine
end

