-- ==== Sys2Proof/Laws/Routes.lean ====
section
/-! SUPPORT. The laws of hops and holds (R27, R109): when a hop names its link, when a direction is in service, which
slots are held, when a route stands. -/

namespace Sys2Proof.Machine

/-- When a hop names its link (R109). -/
theorem State.namesLink_iff (s : State) (h : Hop) (n : NodeId) : s.namesLink h n = true ↔ s.hopNames h n := by
  unfold State.namesLink State.hopNames
  cases hl : s.linkAt h.link with
  | none => simp
  | some l =>
    simp only [State.idAt, Option.some.injEq, exists_and_left, exists_eq_left']
    cases s.nodeAt (l.endAt (opposite h.dir)).node <;> cases s.nodeAt (l.endAt h.dir).node <;>
      simp [and_assoc]

/-- When a direction is in service (R27). -/
theorem State.inService_iff (s : State) (k : Nat) (d : Dir) : s.inService k d = true ↔ s.serving k d := by
  unfold State.inService State.serving
  cases hl : s.linkAt k with
  | none => simp
  | some l =>
    simp only [Direction.carries, State.fitAt, Option.some.injEq, exists_and_left, exists_eq_left']
    cases s.nodeAt l.end0.node <;> cases s.nodeAt l.end1.node <;>
      simp [and_assoc, Node.fit]

theorem hasSlot_slotBit (g h : Nat) (hg : g < 80) : hasSlot (slotBit g) h = true ↔ g = h := by
  unfold hasSlot slotBit
  rw [BitVec.getLsbD_ofNat, Nat.shiftLeft_eq, Nat.one_mul, Nat.testBit_two_pow]
  simp; omega

/-- The slots that a route holds on a direction (R109). -/
theorem State.hasSlot_routeHolds (s : State) (r : Route) (k : Nat) (d : Dir) (g : Nat) (hg : g < 80) :
    hasSlot (s.routeHolds r k d) g = true ↔
      ∃ h n, (h, n) ∈ r.received ∧ h.link = k ∧ h.dir = d ∧ h.slot = g ∧ s.hopNames h n := by
  have main : ∀ (l : List (Hop × NodeId)) (x : SlotSet), hasSlot (l.foldl (fun x (h, n) =>
      if h.link == k && h.dir == d && s.namesLink h n then x ||| slotBit h.slot else x) x) g = true ↔
      hasSlot x g = true ∨ ∃ h n, (h, n) ∈ l ∧ h.link = k ∧ h.dir = d ∧ h.slot = g ∧ s.hopNames h n := by
    intro l
    induction l with
    | nil => simp
    | cons e t ih =>
      intro x
      obtain ⟨h, n⟩ := e
      rw [List.foldl_cons, ih]
      dsimp only
      by_cases hc : (h.link == k && h.dir == d && s.namesLink h n) = true
      · rw [if_pos hc]
        simp only [Bool.and_eq_true, beq_iff_eq, State.namesLink_iff] at hc
        obtain ⟨⟨h1, h2⟩, h3⟩ := hc
        have hb : hasSlot (x ||| slotBit h.slot) g = true ↔ hasSlot x g = true ∨ h.slot = g := by
          have := @hasSlot_slotBit h.slot g
          by_cases hs : h.slot < 80
          · rw [← this hs]; simp [hasSlot]
          · have : hasSlot (slotBit h.slot) g = false := by
              unfold hasSlot slotBit
              rw [BitVec.getLsbD_ofNat, Nat.shiftLeft_eq, Nat.one_mul, Nat.testBit_two_pow]
              simp; omega
            have h' : h.slot ≠ g := by omega
            simp only [h', or_false]
            unfold hasSlot at *
            rw [BitVec.getLsbD_or, this, Bool.or_false]
        rw [hb]
        constructor
        · rintro ((h4 | h4) | ⟨h', n', h4, h5⟩)
          · exact .inl h4
          · exact .inr ⟨h, n, by simp, h1, h2, h4, h3⟩
          · exact .inr ⟨h', n', by simp [h4], h5⟩
        · rintro (h4 | ⟨h', n', h4, h5⟩)
          · exact .inl (.inl h4)
          · rcases List.mem_cons.mp h4 with h4 | h4
            · cases h4; exact .inl (.inr h5.2.2.1)
            · exact .inr ⟨h', n', h4, h5⟩
      · rw [if_neg hc]
        simp only [Bool.and_eq_true, beq_iff_eq, State.namesLink_iff] at hc
        constructor
        · rintro (h4 | ⟨h', n', h4, h5⟩)
          · exact .inl h4
          · exact .inr ⟨h', n', by simp [h4], h5⟩
        · rintro (h4 | ⟨h', n', h4, h5⟩)
          · exact .inl h4
          · rcases List.mem_cons.mp h4 with h4 | h4
            · cases h4; exact absurd ⟨⟨h5.1, h5.2.1⟩, h5.2.2.2⟩ hc
            · exact .inr ⟨h', n', h4, h5⟩
  unfold State.routeHolds
  rw [main]; simp [hasSlot]

/-- The slots that the records hold on a direction (R109). -/
theorem State.hasSlot_heldOn (s : State) (k : Nat) (d : Dir) (g : Nat) (hg : g < 80) :
    hasSlot (s.heldOn k d) g = true ↔ s.slotHeld k d g := by
  have main : ∀ (l : List (Nat × Lightpath)) (x : SlotSet),
      hasSlot (l.foldl (fun x (_, p) => x ||| s.routeHolds p.route k d) x) g = true ↔
      hasSlot x g = true ∨ ∃ i p, (i, p) ∈ l ∧ hasSlot (s.routeHolds p.route k d) g = true := by
    intro l
    induction l with
    | nil => simp
    | cons e t ih =>
      intro x
      rw [List.foldl_cons, ih]
      have : hasSlot (x ||| s.routeHolds e.2.route k d) g = true ↔
        hasSlot x g = true ∨ hasSlot (s.routeHolds e.2.route k d) g = true := by simp [hasSlot]
      rw [this]
      obtain ⟨i, p⟩ := e
      constructor
      · rintro ((h4 | h4) | ⟨i', p', h4, h5⟩)
        · exact .inl h4
        · exact .inr ⟨i, p, by simp, h4⟩
        · exact .inr ⟨i', p', by simp [h4], h5⟩
      · rintro (h4 | ⟨i', p', h4, h5⟩)
        · exact .inl (.inl h4)
        · rcases List.mem_cons.mp h4 with h4 | h4
          · cases h4; exact .inl (.inr h5)
          · exact .inr ⟨i', p', h4, h5⟩
  unfold State.heldOn State.slotHeld
  rw [main]
  simp only [State.mem_lightpaths, State.hasSlot_routeHolds _ _ _ _ _ hg]
  constructor
  · rintro (h | ⟨i, p, h, h', n, h1⟩)
    · simp [hasSlot] at h
    · exact ⟨i, p, h', n, h, h1⟩
  · rintro ⟨i, p, h', n, h, h1⟩
    exact .inr ⟨i, p, h, h', n, h1⟩

end Sys2Proof.Machine
end

