-- ==== Sys2Proof/Laws/Search.lean ====
section
/-! SUPPORT. The law of the label that a search step closes (R81): it is OPEN and comes first by cost, noise, hop count
and index. -/

namespace Sys2Proof.Machine

/-- Label a comes before label b: by cost, then noise, then hop count. -/
theorem Label.before_iff (a b : Label) :
    a.before b = true ↔ a.cost < b.cost ∨ a.cost = b.cost ∧ (a.noise < b.noise ∨ a.noise = b.noise ∧ a.hops < b.hops) := by
  simp [Label.before]

/-- The search for the first OPEN label among numbered labels. -/
theorem firstOpenFrom_spec (ls : List Label) (i : Nat) (best : Option (Nat × Label))
    (hi : ∀ b, best = some b → b.1 ≤ i) :
    (firstOpenFrom ls i best = none → best = none ∧ ∀ l ∈ ls, l.closed = true) ∧
    ∀ k x, firstOpenFrom ls i best = some (k, x) →
      (best = some (k, x) ∨ ∃ j, k = i + j ∧ ls[j]? = some x ∧ x.closed = false ∧
        ∀ b, best = some b → x.before b.2 = true) ∧
      (∀ b, best = some b → b.2.before x = false) ∧
      ∀ j y, ls[j]? = some y → y.closed = false → y.before x = false ∧ (x.before y = true ∨ k ≤ i + j) := by
  induction ls generalizing i best with
  | nil =>
    refine ⟨fun h => ⟨h, by simp⟩, ?_⟩
    intro k x h
    simp only [firstOpenFrom] at h
    refine ⟨.inl h, ?_, by simp⟩
    intro b hb
    rw [hb] at h
    cases h
    rw [← Bool.not_eq_true, Label.before_iff]
    simp only
    omega
  | cons l t ih =>
    simp only [firstOpenFrom]
    by_cases hc : l.closed = true
    · simp only [hc, if_true]
      obtain ⟨h1, h2⟩ := ih (i + 1) best (fun b hb => Nat.le_succ_of_le (hi b hb))
      refine ⟨fun h => ⟨(h1 h).1, by simpa [hc] using (h1 h).2⟩, ?_⟩
      intro k x h
      obtain ⟨h3, h4, h5⟩ := h2 k x h
      refine ⟨?_, h4, ?_⟩
      · rcases h3 with h3 | ⟨j, rfl, hj, hx, hb⟩
        · exact .inl h3
        · exact .inr ⟨j + 1, by omega, by simpa using hj, hx, hb⟩
      · intro j y hj hy
        cases j with
        | zero => simp only [List.getElem?_cons_zero, Option.some.injEq] at hj; subst hj; rw [hc] at hy; cases hy
        | succ j =>
          obtain ⟨h6, h7⟩ := h5 j y (by simpa using hj) hy
          exact ⟨h6, h7.imp id (by omega)⟩
    · have hc' : l.closed = false := by simpa using hc
      simp only [hc', Bool.false_eq_true, if_false]
      cases best with
      | none =>
        obtain ⟨h1, h2⟩ := ih (i + 1) (some (i, l)) (by rintro _ ⟨⟩; exact Nat.le_succ i)
        refine ⟨fun h => absurd (h1 h).1 (by simp), ?_⟩
        intro k x h
        obtain ⟨h3, h4, h5⟩ := h2 k x h
        have h6 := h4 (i, l) rfl
        refine ⟨.inr ?_, by simp, ?_⟩
        · rcases h3 with h3 | ⟨j, rfl, hj, hx, hb⟩
          · simp only [Option.some.injEq, Prod.mk.injEq] at h3
            obtain ⟨rfl, rfl⟩ := h3
            exact ⟨0, by simp, by simp, hc', by simp⟩
          · exact ⟨j + 1, by omega, by simpa using hj, hx, by simp⟩
        · intro j y hj hy
          cases j with
          | zero =>
            simp only [List.getElem?_cons_zero, Option.some.injEq] at hj
            subst hj
            refine ⟨h6, ?_⟩
            rcases h3 with h3 | ⟨j, rfl, _, _, hb⟩
            · simp only [Option.some.injEq, Prod.mk.injEq] at h3
              exact .inr (by omega)
            · exact .inl (hb _ rfl)
          | succ j =>
            obtain ⟨h7, h8⟩ := h5 j y (by simpa using hj) hy
            exact ⟨h7, h8.imp id (by omega)⟩
      | some b =>
        obtain ⟨jb, b⟩ := b
        by_cases hb : l.before b = true
        · simp only [hb, if_true]
          obtain ⟨h1, h2⟩ := ih (i + 1) (some (i, l)) (by rintro _ ⟨⟩; exact Nat.le_succ i)
          refine ⟨fun h => absurd (h1 h).1 (by simp), ?_⟩
          intro k x h
          obtain ⟨h3, h4, h5⟩ := h2 k x h
          have h6 := h4 (i, l) rfl
          rw [Label.before_iff] at hb
          have hxb : x.before b = true := by
            rcases h3 with h3 | ⟨j, _, _, _, hbb⟩
            · simp only [Option.some.injEq, Prod.mk.injEq] at h3
              obtain ⟨_, rfl⟩ := h3
              rwa [Label.before_iff]
            · have := hbb _ rfl
              rw [Label.before_iff] at this ⊢
              simp only at this
              omega
          refine ⟨.inr ?_, ?_, ?_⟩
          · rcases h3 with h3 | ⟨j, rfl, hj, hx, _⟩
            · simp only [Option.some.injEq, Prod.mk.injEq] at h3
              obtain ⟨rfl, rfl⟩ := h3
              exact ⟨0, by simp, by simp, hc', by simpa using hxb⟩
            · exact ⟨j + 1, by omega, by simpa using hj, hx, by simpa using hxb⟩
          · intro b' hb'
            cases hb'
            rw [← Bool.not_eq_true, Label.before_iff]
            rw [Label.before_iff] at hxb
            simp only at *
            omega
          · intro j y hj hy
            cases j with
            | zero =>
              simp only [List.getElem?_cons_zero, Option.some.injEq] at hj
              subst hj
              refine ⟨h6, ?_⟩
              rcases h3 with h3 | ⟨j, rfl, _, _, hbb⟩
              · simp only [Option.some.injEq, Prod.mk.injEq] at h3
                exact .inr (by omega)
              · exact .inl (hbb _ rfl)
            | succ j =>
              obtain ⟨h7, h8⟩ := h5 j y (by simpa using hj) hy
              exact ⟨h7, h8.imp id (by omega)⟩
        · have hb' : l.before b = false := by simpa using hb
          simp only [hb', Bool.false_eq_true, if_false]
          obtain ⟨h1, h2⟩ := ih (i + 1) (some (jb, b)) (fun c hc => Nat.le_succ_of_le (hi c hc))
          refine ⟨fun h => absurd (h1 h).1 (by simp), ?_⟩
          intro k x h
          obtain ⟨h3, h4, h5⟩ := h2 k x h
          have h6 := h4 (jb, b) rfl
          have hlx : l.before x = false := by
            rw [← Bool.not_eq_true, Label.before_iff] at hb' h6 ⊢
            simp only at h6
            rcases h3 with h3 | ⟨j, rfl, _, _, hbb⟩
            · simp only [Option.some.injEq, Prod.mk.injEq] at h3
              obtain ⟨_, rfl⟩ := h3
              exact hb'
            · have := hbb _ rfl
              rw [Label.before_iff] at this
              simp only at this
              omega
          refine ⟨?_, h4, ?_⟩
          · rcases h3 with h3 | ⟨j, rfl, hj, hx, hbb⟩
            · exact .inl h3
            · exact .inr ⟨j + 1, by omega, by simpa using hj, hx, hbb⟩
          · intro j y hj hy
            cases j with
            | zero =>
              simp only [List.getElem?_cons_zero, Option.some.injEq] at hj
              subst hj
              refine ⟨hlx, ?_⟩
              rcases h3 with h3 | ⟨j, rfl, _, _, hbb⟩
              · simp only [Option.some.injEq, Prod.mk.injEq] at h3
                have := hi _ rfl
                simp only at this
                exact .inr (by omega)
              · left
                have := hbb _ rfl
                rw [← Bool.not_eq_true, Label.before_iff] at hb'
                rw [Label.before_iff] at this ⊢
                simp only at this
                omega
            | succ j =>
              obtain ⟨h7, h8⟩ := h5 j y (by simpa using hj) hy
              exact ⟨h7, h8.imp id (by omega)⟩

/-- The label that a search step closes (R81): none when every label is CLOSED; otherwise the OPEN label that comes
first by cost, noise and hop count, of equal ones the one of lower index. -/
theorem firstOpen_spec (ls : List Label) :
    (firstOpen ls = none → ∀ l ∈ ls, l.closed = true) ∧
    ∀ k x, firstOpen ls = some (k, x) → ls[k]? = some x ∧ x.closed = false ∧
      ∀ j y, ls[j]? = some y → y.closed = false → y.before x = false ∧ (x.before y = true ∨ k ≤ j) := by
  obtain ⟨h1, h2⟩ := firstOpenFrom_spec ls 0 none (by simp)
  refine ⟨fun h => (h1 h).2, ?_⟩
  intro k x h
  obtain ⟨h3, _, h5⟩ := h2 k x h
  rcases h3 with h3 | ⟨j, rfl, hj, hx, _⟩
  · cases h3
  · refine ⟨by simpa using hj, hx, ?_⟩
    intro j' y hj' hy
    simpa using h5 j' y hj' hy

end Sys2Proof.Machine
end

