-- ==== Sys2Proof/Laws/Staging.lean ====
section
/-! SUPPORT. The laws of stagings (R168, R169): what a merge, a completion and a completed record are, byte by byte. -/

namespace Sys2Proof.Machine

theorem setAt_eq_set {α : Type} (l : List α) (n : Nat) (y : α) : setAt l n y = l.set n y := by
  induction l generalizing n with
  | nil => rfl
  | cons a t ih => cases n <;> simp [setAt, ih]

/-- Two words with the same four bytes are the same. -/
theorem word_ext_bytes (x y : Word) (h : ∀ j, j < 4 → byteOf x j = byteOf y j) : x = y := by
  apply BitVec.eq_of_getLsbD_eq
  intro i hi
  have := congrArg (fun b : Byte => b.getLsbD (i % 8)) (h (i / 8) (by omega))
  simp only [byteOf, BitVec.getLsbD_ofNat, Nat.testBit_shiftRight] at this
  have hm : i % 8 < 8 := by omega
  have he : 8 * (i / 8) + i % 8 = i := by omega
  simp only [hm, decide_true, Bool.true_and, he] at this
  simpa [BitVec.getLsbD] using this

/-- Two byte masks with the same four bytes are the same. -/
theorem mask_ext (x y : ByteMask) (h : ∀ j, j < 4 → (x.getLsbD j = true ↔ y.getLsbD j = true)) : x = y := by
  apply BitVec.eq_of_getLsbD_eq
  intro i hi
  exact Bool.eq_iff_iff.mpr (h i hi)

theorem maskBits_getLsbD (m : ByteMask) (i : Nat) (hi : i < 32) : (maskBits m).getLsbD i = m.getLsbD (i / 8) := by
  have : ∀ m : ByteMask, ∀ i : Fin 32, (maskBits m).getLsbD i = m.getLsbD (i / 8) := by decide
  exact this m ⟨i, hi⟩

/-- A merge, byte by byte. -/
theorem byteOf_mergeWord (x d : Word) (e : ByteMask) (j : Nat) (hj : j < 4) :
    byteOf (mergeWord x d e) j = if e.getLsbD j = true then byteOf d j else byteOf x j := by
  apply BitVec.eq_of_getLsbD_eq
  intro i hi
  have hb : ∀ w : Word, (byteOf w j).getLsbD i = w.getLsbD (8 * j + i) := by
    intro w
    simp only [byteOf, BitVec.getLsbD_ofNat, hi, decide_true, Bool.true_and, Nat.testBit_shiftRight]
    rfl
  have h1 : (8 * j + i) / 8 = j := by omega
  split
  · rename_i h
    rw [hb, hb, mergeWord, BitVec.getLsbD_or, BitVec.getLsbD_and, BitVec.getLsbD_and, BitVec.getLsbD_not,
      maskBits_getLsbD _ _ (by omega), h1, h]
    simp
  · rename_i h
    rw [hb, hb, mergeWord, BitVec.getLsbD_or, BitVec.getLsbD_and, BitVec.getLsbD_and, BitVec.getLsbD_not,
      maskBits_getLsbD _ _ (by omega), h1]
    simp [h]; omega

/-- What a host write makes of a staging (R168). -/
theorem mergedInto_iff (old ws : List StagedWord) (k : Nat) (d : Word) (e : ByteMask) :
    mergedInto old ws k d e ↔ ws = mergeStaged old k d e := by
  constructor
  · rintro ⟨h1, h2, h3⟩
    apply List.ext_getElem?
    intro j
    unfold mergeStaged
    by_cases hj : j = k
    · subst hj
      cases ho : old[j]? with
      | none =>
        rw [List.getElem?_eq_none_iff] at ho
        simp only
        rw [List.getElem?_eq_none (by omega), List.getElem?_eq_none (by omega)]
      | some x =>
        have hlt : j < old.length := (List.getElem?_eq_some_iff.mp ho).1
        obtain ⟨y, hy⟩ : ∃ y, ws[j]? = some y := ⟨ws[j]'(by omega), List.getElem?_eq_getElem _⟩
        simp only
        rw [setAt_eq_set, List.getElem?_set_self hlt, hy]
        congr 1
        have hi : y.image = mergeWord x.image d e := word_ext_bytes _ _ fun i hi => by
          rw [byteOf_mergeWord _ _ _ _ hi]; exact (h3 x y i ho hy hi).1
        have hv : y.valid = x.valid ||| e := mask_ext _ _ fun i hi => by
          rw [(h3 x y i ho hy hi).2]; simp
        cases y; simp_all
    · rw [h2 j hj]
      split
      · rfl
      · rw [setAt_eq_set, List.getElem?_set_ne (Ne.symm hj)]
  · rintro rfl
    unfold mergeStaged
    split
    · rename_i h
      exact ⟨rfl, fun _ _ => rfl, fun x y j hx => by simp [h] at hx⟩
    · rename_i x hx
      rw [setAt_eq_set]
      refine ⟨by simp, fun j hj => by rw [List.getElem?_set_ne (Ne.symm hj)], ?_⟩
      intro x' y j hx' hy hj
      rw [hx] at hx'
      cases hx'
      rw [List.getElem?_set_self (List.getElem?_eq_some_iff.mp hx).1] at hy
      cases hy
      exact ⟨byteOf_mergeWord _ _ _ _ hj, by simp⟩

/-- When a write completes a record (R169). -/
theorem closesRecord_iff (ws : List StagedWord) (k last : Nat) :
    closesRecord ws k last ↔ completes ws k last = true := by
  unfold closesRecord completes StagedWord.whole
  have : ∀ m : ByteMask, (∀ j, j < 4 → m.getLsbD j = true) ↔ m = allBytes := by decide
  cases ws[last]? <;> simp [this]

/-- The record that a completed staging makes (R169). -/
theorem recordOf_iff (ws : List StagedWord) (last len : Nat) (r : Record) :
    recordOf ws last len r ↔ r = completedRecord ws last len := by
  have hc : ((ws[last]?.map (·.image)).getD 0#32) = wordAt (ws.map (·.image)) last := by
    simp [wordAt]
  have key : ∀ L, ((ws.take (min (L - 1) last)).any (fun x => !x.whole) = true ↔
      ∃ i y, i + 1 < L ∧ i < last ∧ ws[i]? = some y ∧ y.valid ≠ 0xF#4) := by
    intro L
    rw [List.any_eq_true]
    constructor
    · rintro ⟨y, hy, hw⟩
      obtain ⟨i, hi, rfl⟩ := List.mem_iff_getElem.mp hy
      simp at hi
      refine ⟨i, _, by omega, by omega, List.getElem?_eq_getElem (by omega), ?_⟩
      simpa [StagedWord.whole, allBytes] using hw
    · rintro ⟨i, y, h1, h2, h3, h4⟩
      refine ⟨y, ?_, by simpa [StagedWord.whole, allBytes] using h4⟩
      apply List.mem_of_getElem? (i := i)
      rw [List.getElem?_take_of_lt (by omega)]; exact h3
  constructor
  · rintro ⟨h1, h2⟩
    obtain ⟨rw', inc⟩ := r
    simp only at h1
    subst h1
    simp only [completedRecord, Record.mk.injEq, true_and]
    rw [hc]
    exact Bool.eq_iff_iff.mpr (h2.trans (key _).symm)
  · rintro rfl
    refine ⟨rfl, ?_⟩
    simp only [completedRecord, Record.word]
    rw [hc]
    exact key _

end Sys2Proof.Machine
end

