-- ==== Sys2Proof/Laws/Store.lean ====
section
/-! SUPPORT. The laws of the Topology Store: the lowest free index, reading a node, a link or a direction after an
update, and the parts of a link. -/

namespace Sys2Proof.Machine

theorem lowestFreeFrom_ge {α : Type} (t : List (Nat × α)) (n : Nat) : n ≤ lowestFreeFrom t n := by
  induction t generalizing n with
  | nil => exact le_refl n
  | cons e t ih =>
    obtain ⟨i, x⟩ := e
    simp only [lowestFreeFrom]
    split
    · exact Nat.le_of_succ_le (ih (n + 1))
    · exact le_refl n

/-- The lowest free index is not in use (R1, R17). -/
theorem lowestFree_unused {α : Type} (t : List (Nat × α)) (h : risingTable t = true) :
    tableGet t (lowestFree t) = none := by
  have key : ∀ (t : List (Nat × α)) (n : Nat), (tableKeys t).Pairwise (· < ·) → (∀ a ∈ tableKeys t, n ≤ a) →
      tableGet t (lowestFreeFrom t n) = none := by
    intro t
    induction t with
    | nil => intros; rfl
    | cons e t ih =>
      intro n hp hn
      obtain ⟨i, x⟩ := e
      simp only [tableKeys, List.map_cons, List.pairwise_cons] at hp
      simp only [lowestFreeFrom]
      split
      · rename_i hi
        have h1 : ∀ a ∈ tableKeys t, n + 1 ≤ a := fun a ha => by
          have := hp.1 a ha
          omega
        have h2 := ih (n + 1) hp.2 h1
        have h3 := lowestFreeFrom_ge t (n + 1)
        simp only [tableGet]
        rw [if_neg (by omega)]
        exact h2
      · rename_i hi
        have h1 : ∀ j, j < i → tableGet t j = none := by
          intro j hj
          by_contra hne
          obtain ⟨y, hy⟩ := Option.ne_none_iff_exists'.mp hne
          have := hp.1 j (List.mem_map.mpr ⟨_, tableGet_mem t j y hy, rfl⟩)
          omega
        have h2 := hn i (by simp [tableKeys])
        simp only [tableGet, if_neg hi]
        exact h1 n (by omega)
  exact key t 0 ((risingTable_iff t).mp h) (by simp)

/-- Reading a table whose entries were all changed by one function. -/
theorem tableGet_map {α : Type} (t : List (Nat × α)) (f : α → α) (k : Nat) :
    tableGet (t.map fun e => (e.1, f e.2)) k = (tableGet t k).map f := by
  induction t with
  | nil => rfl
  | cons e t ih =>
    simp only [List.map_cons, tableGet]
    split
    · rfl
    · exact ih

theorem State.nodeAt_updateNode (s : State) (i j : Nat) (f : Node → Node) :
    (s.updateNode i f).nodeAt j = if j = i then (s.nodeAt i).map f else s.nodeAt j := by
  unfold State.nodeAt
  rw [State.updateNode_store]
  split
  · rename_i h
    subst h
    exact tableGet_update_self _ _ _
  · rename_i h
    exact tableGet_update_other _ _ _ _ h

theorem State.linkAt_updateLink (s : State) (k j : Nat) (f : Link → Link) :
    (s.updateLink k f).linkAt j = if j = k then (s.linkAt k).map f else s.linkAt j := by
  unfold State.linkAt
  rw [State.updateLink_store]
  split
  · rename_i h
    subst h
    exact tableGet_update_self _ _ _
  · rename_i h
    exact tableGet_update_other _ _ _ _ h

@[simp] theorem Link.withDirection_end0 (l : Link) (d : Dir) (x : Direction) :
    (l.withDirection d x).end0 = l.end0 := by cases d <;> rfl

@[simp] theorem Link.withDirection_end1 (l : Link) (d : Dir) (x : Direction) :
    (l.withDirection d x).end1 = l.end1 := by cases d <;> rfl

@[simp] theorem Link.withDirection_risks (l : Link) (d : Dir) (x : Direction) :
    (l.withDirection d x).risks = l.risks := by cases d <;> rfl

@[simp] theorem Link.withDirection_endAt (l : Link) (d e : Dir) (x : Direction) :
    (l.withDirection d x).endAt e = l.endAt e := by cases d <;> cases e <;> rfl

theorem Link.direction_withDirection (l : Link) (d e : Dir) (x : Direction) :
    (l.withDirection d x).direction e = if e = d then x else l.direction e := by
  cases d <;> cases e <;> simp [Link.withDirection, Link.direction]

/-- Reading a direction after one was replaced. -/
theorem State.directionAt_setDirection (s : State) (k j : Nat) (d e : Dir) (x : Direction) :
    (s.setDirection k d x).directionAt j e =
      if j = k ∧ e = d then (s.linkAt k).map fun _ => x else s.directionAt j e := by
  unfold State.directionAt State.setDirection
  rw [State.linkAt_updateLink]
  by_cases hj : j = k
  · subst hj
    rw [if_pos rfl, Option.map_map]
    by_cases he : e = d
    · subst he
      rw [if_pos ⟨rfl, rfl⟩]
      congr 1
      funext l
      simp [Link.direction_withDirection]
    · rw [if_neg (by simp [he])]
      congr 1
      funext l
      simp [Link.direction_withDirection, he]
  · rw [if_neg hj, if_neg (by simp [hj])]

/-- Replacing a direction changes no end of a link. -/
theorem State.linkAt_setDirection (s : State) (k j : Nat) (d : Dir) (x : Direction) :
    (s.setDirection k d x).linkAt j =
      if j = k then (s.linkAt k).map fun l => l.withDirection d x else s.linkAt j := by
  unfold State.setDirection
  exact State.linkAt_updateLink s k j _

/-- What every read of the store depends on: the store alone. -/
theorem State.idAt_congr (s t : State) (h : t.store.nodes = s.store.nodes) (i : Nat) : t.idAt i = s.idAt i := by
  unfold State.idAt State.nodeAt
  rw [h]

/-- That the tables of the Topology Store agree is a matter of the store alone. -/
theorem State.topologyConsistent_of_store {s t : State} (h : t.store = s.store) (hs : s.topologyConsistent) :
    t.topologyConsistent := by
  have hp : ∀ i p, t.portAt i p = s.portAt i p := fun i p => by simp only [State.portAt, State.nodeAt, h]
  have hc : ∀ i p, t.claimAt i p = s.claimAt i p := fun i p => by simp only [State.claimAt, h]
  have hl : ∀ k, t.linkAt k = s.linkAt k := fun k => by simp only [State.linkAt, h]
  constructor
  · rw [h]; exact hs.nodesRising
  · rw [h]; exact hs.linksRising
  · unfold State.idsUnique; rw [h]; exact hs.ids
  · unfold State.claimsDistinct; rw [h]; exact hs.claims
  · rw [h]; exact hs.portsRising
  · rw [h]; intro c hc'; rw [hp]; exact hs.claimPort c hc'
  · intro i p; rw [hp, hc]; exact hs.portClaim i p
  · intro k l d; rw [hl, hp]; exact hs.endPort k l d
  · intro i p k d; rw [hp, hl]; exact hs.portEnd i p k d

/-- Reading a table that has one entry for each index below a bound. -/
theorem tableGet_range {α : Type} (n : Nat) (f : Nat → α) (k : Nat) :
    tableGet ((List.range n).map fun i => (i, f i)) k = if k < n then some (f k) else none := by
  have key : ∀ m a, tableGet ((List.range' a m).map fun i => (i, f i)) k =
      if a ≤ k ∧ k < a + m then some (f k) else none := by
    intro m
    induction m with
    | zero => intro a; rw [if_neg (by omega)]; rfl
    | succ m ih =>
      intro a
      rw [List.range'_succ, List.map_cons, tableGet, ih]
      by_cases h : a = k
      · rw [if_pos h, if_pos (by omega), h]
      · rw [if_neg h]
        exact if_congr (by omega) rfl rfl
  rw [List.range_eq_range', key]
  exact if_congr (by omega) rfl rfl

/-- Such a table is rising. -/
theorem risingTable_range {α : Type} (n : Nat) (f : Nat → α) :
    risingTable ((List.range n).map fun i => (i, f i)) = true := by
  rw [risingTable_iff]
  simpa [tableKeys, Function.comp_def] using List.pairwise_lt_range

/-- A port entry of node i has its claim or its link end (R9). -/
def State.portSound (s : State) (i : Nat) (e : Nat × PortRef) : Bool :=
  match e.2 with
  | .claim => (s.claimAt i e.1).isSome
  | .linkEnd k d => (s.linkAt k).map (fun l => l.endAt d) == some { node := i, port := e.1 }

/-- The ends of a link have their port entries (R9, R17). -/
def State.endsSound (s : State) (e : Nat × Link) : Bool :=
  s.portAt e.2.end0.node e.2.end0.port == some (.linkEnd e.1 .zero) &&
  s.portAt e.2.end1.node e.2.end1.port == some (.linkEnd e.1 .one)

/-- The agreement of the tables of the Topology Store, as a finite test. -/
def State.topologyCheck (s : State) : Bool :=
  risingTable s.store.nodes && risingTable s.store.links &&
  decide (s.store.nodes.map fun e => e.2.id).Nodup && decide (s.store.claims.map fun c => (c.claimant, c.port)).Nodup &&
  s.store.nodes.all (fun e => risingTable e.2.ports && decide (e.2.ports.length ≤ portCapacity) &&
    e.2.ports.all (s.portSound e.1)) &&
  s.store.claims.all (fun c => s.portAt c.claimant c.port == some .claim) && s.store.links.all s.endsSound

/-- A port entry that is read stands in the port table of a node of the node table. -/
theorem State.portAt_mem {s : State} {i p : Nat} {r : PortRef} (h : s.portAt i p = some r) :
    ∃ n, (i, n) ∈ s.store.nodes ∧ (p, r) ∈ n.ports := by
  unfold State.portAt State.nodeAt at h
  obtain ⟨n, hn, hp⟩ := Option.bind_eq_some_iff.mp h
  exact ⟨n, tableGet_mem _ _ _ hn, tableGet_mem _ _ _ hp⟩

/-- The finite test gives the agreement of the tables. -/
theorem State.topologyConsistent_of_check {s : State} (h : s.topologyCheck = true) : s.topologyConsistent := by
  simp only [State.topologyCheck, Bool.and_eq_true, decide_eq_true_eq, List.all_eq_true, beq_iff_eq] at h
  obtain ⟨⟨⟨⟨⟨⟨hn, hl⟩, hi⟩, hc⟩, hp⟩, hcp⟩, he⟩ := h
  have entry : ∀ {i p : Nat} {r : PortRef}, s.portAt i p = some r → s.portSound i (p, r) = true := by
    intro i p r h
    obtain ⟨n, hm, hr⟩ := State.portAt_mem h
    exact (hp _ hm).2 _ hr
  constructor
  · exact hn
  · exact hl
  · exact hi
  · exact hc
  · exact fun e h => (hp e h).1
  · exact hcp
  · exact fun i p h => entry h
  · intro k l d h
    have := he _ (tableGet_mem _ _ _ h)
    simp only [State.endsSound, Bool.and_eq_true, beq_iff_eq] at this
    cases d
    · exact this.1
    · exact this.2
  · intro i p k d h
    have := entry h
    simpa only [State.portSound, beq_iff_eq, Option.map_eq_some_iff] using this

/-- A reference by index, direction and ends refers to the link at the index exactly when that link has these ends
(R17). -/
theorem State.stillNames_iff (s : State) (k : Nat) (d : Dir) (a b : EndName) :
    s.stillNames k d a b = true ↔
      ∃ l, s.linkAt k = some l ∧ s.endName (l.endAt (opposite d)) = a ∧ s.endName (l.endAt d) = b := by
  unfold State.stillNames
  cases s.linkAt k <;> simp

end Sys2Proof.Machine
end

