-- ==== Sys2Proof/Laws/Timers.lean ====
section
/-! SUPPORT. The laws of the timers (R187): when a timer has come to its last one-second event, and what an event makes
of it. -/

namespace Sys2Proof.Machine

/-- A running timer has expired exactly when its count is 0. -/
theorem countExpired_iff (n : Nat) : countExpired n = true ↔ n = 0 := by simp [countExpired]

/-- A timer that may be stopped has expired exactly when it runs and its count is 0. -/
theorem timerExpired_iff (t : Option Nat) : timerExpired t = true ↔ t = some 0 := by
  cases t <;> simp [timerExpired, countExpired]

/-- A timer comes to its last event when it runs with a count of at most 1. -/
theorem expiring_iff (t : Option Nat) : expiring t = true ↔ ∃ n, t = some n ∧ n ≤ 1 := by
  cases t <;> simp [expiring, lastCount]

/-- A timer whose expiry is queued at an event has expired after that event. -/
theorem timerExpired_countDown (t : Option Nat) (h : expiring t = true) : timerExpired (countDown t) = true := by
  obtain ⟨n, rfl, hn⟩ := (expiring_iff t).1 h
  rw [timerExpired_iff]
  simp only [countDown, Option.map_some, Option.some.injEq]
  omega

/-- A load attempt is due after a one-second event exactly when the port waited for it or it was due already (R182). -/
theorem PortOp.tick_eq_due (op : PortOp) : op.tick = .load .due ↔ op = .load .waiting ∨ op = .load .due := by
  unfold PortOp.tick
  split <;> simp_all

/-- Nothing but a load that waits changes at a one-second event (R182). -/
theorem PortOp.tick_eq_self (op : PortOp) (h : op ≠ .load .waiting) : op.tick = op := by
  unfold PortOp.tick
  split
  · exact absurd rfl h
  · rfl

end Sys2Proof.Machine
end

