-- ==== Sys2Proof/Laws/Words.lean ====
section
/-! SUPPORT. The law of the words that the part writes field by field (R188): fields placed one above the other are read
back, and every bit outside them is 0. -/

namespace Sys2Proof.Machine

/-- A word spells fields when each is read back and the bits outside them are 0. -/
theorem spells_intro (w : Word) (fs : List (Nat × Nat × Nat))
    (h1 : ∀ e ∈ fs, bits w e.1 e.2.1 = e.2.2 % 2 ^ e.2.1)
    (h2 : ∀ j, j < 32 → (∀ e ∈ fs, j < e.1 ∨ e.1 + e.2.1 ≤ j) → w.toNat / 2 ^ j % 2 = 0) :
    spells w fs := by
  refine ⟨fun lo len x h => h1 _ h, fun j hj h => ?_⟩
  have := h2 j hj (fun e he => h _ _ _ he)
  rw [BitVec.getLsbD, Nat.testBit_eq_decide_div_mod_eq]
  simpa using this

/-- A flag is a field of one bit. -/
theorem flag_field (b : Bool) (lo : Nat) : flag b lo = field b.toNat lo 1 := by
  cases b <;> simp [flag, field]

/-- A flag that stands for a proposition. -/
theorem flag_prop (p : Prop) [Decidable p] (lo : Nat) : flag (decide p) lo = field (if p then 1 else 0) lo 1 := by
  by_cases h : p <;> simp [flag, field, h]

theorem field_eq (a lo len : Nat) : field a lo len = a % 2 ^ len * 2 ^ lo := by simp [field, Nat.shiftLeft_eq]

/-- Fields stand one above the other from bit top on, and within a word. -/
def ascendingFields : Nat → List (Nat × Nat × Nat) → Prop
  | top, [] => top ≤ 32
  | top, (lo, len, _) :: t => top ≤ lo ∧ ascendingFields (lo + len) t

/-- The number that some fields make. -/
def sumFields (fs : List (Nat × Nat × Nat)) : Nat := (fs.map fun e => field e.2.2 e.1 e.2.1).sum

/-- What is read of the number that ascending fields make. -/
theorem sumFields_spec (fs : List (Nat × Nat × Nat)) (top : Nat) (h : ascendingFields top fs) :
    2 ^ top ∣ sumFields fs ∧ sumFields fs < 2 ^ 32 ∧
    (∀ e ∈ fs, sumFields fs / 2 ^ e.1 % 2 ^ e.2.1 = e.2.2 % 2 ^ e.2.1 ∧ top ≤ e.1) ∧
    (∀ j, (∀ e ∈ fs, j < e.1 ∨ e.1 + e.2.1 ≤ j) → sumFields fs / 2 ^ j % 2 = 0) := by
  induction fs generalizing top with
  | nil => simp [sumFields]
  | cons e t ih =>
    obtain ⟨lo, len, x⟩ := e
    obtain ⟨h1, h2⟩ := h
    obtain ⟨i1, i2, i3, i4⟩ := ih _ h2
    have ht : sumFields ((lo, len, x) :: t) = x % 2 ^ len * 2 ^ lo + sumFields t := by simp [sumFields, field_eq]
    obtain ⟨q, hq⟩ := i1
    have hx : x % 2 ^ len < 2 ^ len := Nat.mod_lt _ (by positivity)
    have hp : 2 ^ (lo + len) = 2 ^ len * 2 ^ lo := by rw [Nat.pow_add, Nat.mul_comm]
    have hlt : x % 2 ^ len * 2 ^ lo < 2 ^ (lo + len) := by
      rw [hp]; exact Nat.mul_lt_mul_of_pos_right hx (by positivity)
    have hle : lo + len ≤ 32 := by
      clear ih i2 i3 i4 ht hq hx hp hlt
      generalize lo + len = m at h2
      induction t generalizing m with
      | nil => exact h2
      | cons e t ih => obtain ⟨a, b, c⟩ := e; obtain ⟨h3, h4⟩ := h2; have := ih _ h4; omega
    refine ⟨?_, ?_, ?_, ?_⟩
    · rw [ht]
      refine Nat.dvd_add ?_ ?_
      · exact Dvd.dvd.mul_left (pow_dvd_pow 2 h1) _
      · rw [hq]; exact Dvd.dvd.mul_right (pow_dvd_pow 2 (by omega)) _
    · rw [ht]
      have : 2 ^ (lo + len) ∣ 2 ^ 32 := pow_dvd_pow 2 hle
      obtain ⟨m, hm⟩ := this
      rw [hq, hm]
      rw [hq, hm] at i2
      have : q < m := by
        by_contra hc; exact absurd i2 (Nat.not_lt.mpr (Nat.mul_le_mul_left _ (by omega)))
      calc x % 2 ^ len * 2 ^ lo + 2 ^ (lo + len) * q < 2 ^ (lo + len) + 2 ^ (lo + len) * q := by omega
        _ = 2 ^ (lo + len) * (q + 1) := by ring
        _ ≤ 2 ^ (lo + len) * m := Nat.mul_le_mul_left _ (by omega)
    · intro e he
      rcases List.mem_cons.mp he with rfl | he
      · refine ⟨?_, h1⟩
        simp only
        rw [ht, hq, hp, Nat.mul_right_comm, Nat.mul_comm (2 ^ len * q), Nat.mul_comm (x % 2 ^ len),
          ← Nat.mul_add, Nat.mul_div_cancel_left _ (by positivity), Nat.add_mul_mod_self_left, Nat.mod_mod]
      · obtain ⟨a, b⟩ := i3 e he
        refine ⟨?_, by omega⟩
        rw [← a, ht]
        obtain ⟨r, hr⟩ : 2 ^ (lo + len) ∣ 2 ^ e.1 := pow_dvd_pow 2 b
        congr 1
        rw [hr, ← Nat.div_div_eq_div_mul, ← Nat.div_div_eq_div_mul, hq,
          Nat.add_mul_div_left _ _ (by positivity), Nat.div_eq_of_lt hlt, Nat.zero_add,
          Nat.mul_div_cancel_left _ (by positivity)]
    · intro j hj
      have j1 := hj _ (List.mem_cons_self)
      have j2 := i4 j fun e he => hj e (List.mem_cons_of_mem _ he)
      simp only at j1
      rw [ht]
      rcases j1 with j1 | j1
      · have d1 : 2 ^ (j + 1) ∣ x % 2 ^ len * 2 ^ lo := Dvd.dvd.mul_left (pow_dvd_pow 2 j1) _
        have d2 : 2 ^ (j + 1) ∣ sumFields t := by rw [hq]; exact Dvd.dvd.mul_right (pow_dvd_pow 2 (by omega)) _
        obtain ⟨u, hu⟩ := Nat.dvd_add d1 d2
        rw [hu, pow_succ, Nat.mul_assoc, Nat.mul_div_cancel_left _ (by positivity)]
        omega
      · rw [← j2]
        obtain ⟨r, hr⟩ : 2 ^ (lo + len) ∣ 2 ^ j := pow_dvd_pow 2 j1
        congr 1
        rw [hr, ← Nat.div_div_eq_div_mul, ← Nat.div_div_eq_div_mul, hq,
          Nat.add_mul_div_left _ _ (by positivity), Nat.div_eq_of_lt hlt, Nat.zero_add,
          Nat.mul_div_cancel_left _ (by positivity)]

/-- A word made of ascending fields spells them. -/
theorem spells_sumFields (fs : List (Nat × Nat × Nat)) (h : ascendingFields 0 fs) :
    spells (word (sumFields fs)) fs := by
  obtain ⟨_, h1, h2, h3⟩ := sumFields_spec fs 0 h
  refine spells_intro _ _ ?_ ?_
  · intro e he
    rw [bits, word, BitVec.toNat_ofNat, Nat.mod_eq_of_lt h1, Nat.shiftRight_eq_div_pow]
    exact (h2 e he).1
  · intro j _ hj
    rw [word, BitVec.toNat_ofNat, Nat.mod_eq_of_lt h1]
    exact h3 j hj

/-- Three words that are those of a slot set are its map (R188). -/
theorem mapsSlots_slotWords (x : SlotSet) (ws : List Word) (b : Nat)
    (h : ∀ i, i < 3 → wordAt ws (b + i) = slotWord x i) : mapsSlots ws b fun g => hasSlot x g = true := by
  have hb : ∀ g, g < 96 → (wordAt ws (b + g / 32)).getLsbD (g % 32) = hasSlot x g := by
    intro g hg
    rw [h _ (by omega)]
    unfold slotWord word hasSlot
    rw [BitVec.getLsbD_ofNat, Nat.testBit_shiftRight]
    have : 32 * (g / 32) + g % 32 = g := by omega
    rw [this, show decide (g % 32 < 32) = true by simp; omega, Bool.true_and]
    rfl
  refine ⟨fun g hg => by rw [hb g (by omega)], fun g h1 h2 => ?_⟩
  rw [hb g h2]; unfold hasSlot; exact BitVec.getLsbD_of_ge _ _ h1

end Sys2Proof.Machine
end

