-- ==== Sys2Proof/Tests/Slice0.lean ====
section
/-! SUPPORT. Tests: the smoke test of WellFormed, values that the spec works out, and for each statement of
Certificates/Slice0/Obligations.lean that has hypotheses the witnesses that meet them. -/

namespace Sys2Proof.Tests

open Sys2Proof.Machine

set_option Elab.async false

/-! ### WellFormed refuses -/

theorem test_wellFormed_hostWrite : (Instr.hostWrite 2#32 0#32 0xF#4 .ok).wellFormed = false := by decide
theorem test_wellFormed_hostRead :
    (Instr.hostRead { addr := 1#32, enables := 0xF#4 } .ok).wellFormed = false := by decide
theorem test_wellFormed_report : (Instr.hostWriteReportSlot 3#32 0#32 0xF#4 .ok).wellFormed = false := by decide
theorem test_wellFormed_query : (Instr.hostWriteQuerySlot 5#32 0#32 0xF#4 .ok).wellFormed = false := by decide
theorem test_wellFormed_consumer : (Instr.consumerIndexWrite 6#32 0#32 0xF#4 .ok).wellFormed = false := by decide
theorem test_wellFormed_load : (Instr.loadReadEnd (List.replicate 513 0#8)).wellFormed = false := by decide +kernel
theorem test_wellFormed_reload : (Instr.reloadReadEnd (List.replicate 513 0#8)).wellFormed = false := by
  decide +kernel
theorem test_wellFormed_save : (Instr.saveEnd (List.replicate 513 0#8)).wellFormed = false := by decide +kernel
theorem test_wellFormed_node : (Instr.nodeHoldExpiry 256).wellFormed = false := by decide
theorem test_wellFormed_claimant : (Instr.claimHoldExpiry 256 0).wellFormed = false := by decide
theorem test_wellFormed_port : (Instr.claimHoldExpiry 0 65536).wellFormed = false := by decide
theorem test_wellFormed_link : (Instr.holdoffExpiry 1024 .zero).wellFormed = false := by decide
theorem test_wellFormed_record : (Instr.reservationExpiry 128).wellFormed = false := by decide

/-! ### Small states -/

/-- The default image, without its CRC, which no unit reads. -/
def img : List Byte := defaultImageBody ++ [0#8, 0#8]

/-- A part that runs under the default image. -/
def base : State :=
  State.reset.setPort { image := some img, source := some .defaulted, changed := false, op := .idle, attempts := 8 }

/-- A LIVE node under profile 0 with add and drop noise 1049 and express noise 526. -/
def node (id : NodeId) (ports : List (Nat × PortRef)) : Node :=
  { newNode id 0 with refresh := 10, hold := 30, addNoise := 1049, dropNoise := 1049, expressNoise := 526
                      ports := ports }

/-- A direction that is UP. -/
def upDir (noise cost : Nat) (lit : SlotSet) : Direction :=
  { freshDirection with cond := .up, noise := noise, cost := cost, lit := lit }

/-- A link between two ports, both directions alike. -/
def join (a p b q : Nat) (x : Direction) : Link :=
  { end0 := { node := a, port := p }, end1 := { node := b, port := q }, risks := [], dir0 := x, dir1 := x }

/-- Nodes 0x10 and 0x20 with link 0 between their ports 1, its directions as given. -/
def netWith (x : Direction) : State :=
  base.setStore
    { nodes := [(0, node 0x10#32 [(1, .linkEnd 0 .zero)]), (1, node 0x20#32 [(1, .linkEnd 0 .one)])]
      claims := [], links := [(0, join 0 1 1 1 x)] }

/-- Two nodes and a link that is UP both ways. -/
def net : State := netWith (upDir 2092 10 0#80)

/-- The ports of the network: port 1 of each node is an end of link 0. -/
theorem netWith_portAt {x : Direction} {i p : Nat} {r : PortRef} (h : (netWith x).portAt i p = some r) :
    p = 1 ∧ (i = 0 ∧ r = .linkEnd 0 .zero ∨ i = 1 ∧ r = .linkEnd 0 .one) := by
  simp only [State.portAt, State.nodeAt, netWith, State.setStore, tableGet, Option.bind_eq_some_iff] at h
  obtain ⟨n, hn, hp⟩ := h
  split at hn
  · cases hn
    simp only [node, newNode, tableGet] at hp
    split at hp
    · cases hp
      exact ⟨by omega, .inl ⟨by omega, rfl⟩⟩
    · cases hp
  · split at hn
    · cases hn
      simp only [node, newNode, tableGet] at hp
      split at hp
      · cases hp
        exact ⟨by omega, .inr ⟨by omega, rfl⟩⟩
      · cases hp
    · cases hn

theorem netWith_consistent (x : Direction) : (netWith x).topologyConsistent where
  nodesRising := rfl
  linksRising := rfl
  ids := by
    show (([0x10#32, 0x20#32] : List NodeId)).Nodup
    decide
  claims := List.nodup_nil
  portsRising := by
    intro e he
    simp only [netWith, State.setStore, List.mem_cons, List.not_mem_nil, or_false] at he
    rcases he with rfl | rfl <;> decide
  claimPort := fun c hc => absurd hc List.not_mem_nil
  portClaim := by
    intro i p h
    obtain ⟨-, ⟨-, h⟩ | ⟨-, h⟩⟩ := netWith_portAt h <;> cases h
  endPort := by
    intro k l d h
    simp only [State.linkAt, netWith, State.setStore, tableGet] at h
    split at h
    · cases h
      subst k
      cases d <;> rfl
    · cases h
  portEnd := by
    intro i p k d h
    obtain ⟨rfl, ⟨rfl, h⟩ | ⟨rfl, h⟩⟩ := netWith_portAt h <;> cases h <;> exact ⟨_, rfl, rfl⟩

/-- A hop from node 0x10 to node 0x20 at slot 3. -/
def hop : Hop := { link := 0, dir := .one, slot := 3, sender := 0x10#32, port := 1 }

/-- A route of one hop. -/
def route : Route := { source := 0x10#32, dest := 0x20#32, hops := [hop], regens := [] }

/-- A lightpath on the route. -/
def lightpath (st : LpState) : Lightpath :=
  { state := st, origin := .computed, route := route, budget := 10486, lastMargin := 6296, noticeMargin := 6296
    timer := some 0, partner := none }

/-- The network with record 5, generation 2, holding the lightpath; its tag is 261. -/
def held (st : LpState) : State := net.setRecord 5 { gen := 2, path := some (lightpath st) }

/-- A query of a kind, without notice. -/
def query (kind : Nat) (b : QueryBody) : Query :=
  { tag := 7, kind := kind, high := false, notify := true, clamped := false, provisional := false, body := b }

/-- A state with one QUEUED query in slot 2. -/
def queued (s : State) (q : Query) : State := (s.setSlot 2 (.queued q)).enqueue 2 q.high

/-- A query of slot 2 handed to the Lightpath Table. -/
def toTable (s : State) (q : Query) : State :=
  (s.setSlot 2 (.inService .table none)).setHandoffs { s.handoffs with toTable := [{ slot := some 2, query := q }] }

/-- A query of slot 2 handed to the Sweep Unit. -/
def toSweep (s : State) (a : SweepAction) : State :=
  (s.setSlot 2 (.inService .sweep none)).setHandoffs
    { s.handoffs with toSweep := [{ slot := some 2, query := query 9 (.sweep a) }] }

/-- A FIND from node 0x10 to a destination. -/
def findReq (dest : NodeId) : FindReq :=
  { source := 0x10#32, dest := dest, reserve := true, nodeDisjoint := false, policy := .first, preferred := 0
    hold := 0, lo := 0, hi := 79, hopLimit := 24, regenMax := 0, q := 180, m := 20, exNodes := [], exRisks := [] }

/-- The context of that FIND in slot 2. -/
def context (dest : NodeId) : Context :=
  { slot := 2, query := query 1 (.find (findReq dest)), req := findReq dest, pair := false
    budget := budgetOf 180 20, restarts := 0, phase := .primary, labelsUsed := 0 }

/-- A report record: four words and its kind, length and format 1 in the closing word. -/
def report (w0 w1 w2 w3 : Word) (kind len : Nat) : Record :=
  { words := [w0, w1, w2, w3] ++ List.replicate 11 0#32 ++
      [word (field len 16 8 + field kind 24 4 + field 1 29 3)], incomplete := false }

/-- A state whose ingest queue holds one record. -/
def reported (s : State) (r : Record) : State := s.setIntake { s.intake with queue := [r] }

/-- A state whose Span Conditioner has one observation of direction 1 of link 0 to take. -/
def observed (s : State) (isUp : Bool) : State :=
  s.setHandoffs { s.handoffs with observations := [{ link := 0, dir := .one, up := isUp }] }

/-- A state with one answer waiting. -/
def answering (s : State) : State :=
  (s.setSlot 2 (.inService .answered none)).offer
    (answerTo 2 .dispatcher (query 3 (.activate 261)) .notFound 0#32 261 .none)

/-- What a command answers, as a state; the state given where it stops. -/
def after (c : Instr) (s : State) : State :=
  match exec c s with
  | .next t => t
  | _ => s

/-! ### Values that the spec works out -/

/-- The check value that published tables give for this CRC (initial value of ones, no inversion). -/
theorem test_crc_check_value :
    crc16 [0x31#8, 0x32#8, 0x33#8, 0x34#8, 0x35#8, 0x36#8, 0x37#8, 0x38#8, 0x39#8] = 0x29B1 := by decide +kernel

/-- R182, 12 section 12.7: default global parameters. -/
theorem test_default_globals : (globalsOf defaultImage).settle = 20 ∧ (globalsOf defaultImage).sweepInterval = 60 ∧
    (globalsOf defaultImage).recover = 256 ∧ (globalsOf defaultImage).linkChange = 1024 ∧
    (globalsOf defaultImage).marginDrift = 512 := by decide +kernel

/-- 04 sections 4.7.1 to 4.7.4: table entries. -/
theorem test_decibel_entries : decibel 300 = 1049 ∧ decibel 330 = 526 ∧ decibel 320 = 662 ∧ decibel 250 = 3316 ∧
    decibel 270 = 2092 ∧ budgetOf 180 20 = 10486 ∧ budgetOf 220 0 = 6616 ∧ budgetOf 590 30 = 1 := by
  decide +kernel

/-- 04 section 4.7.5: noise words under OSNR_TENTHS with calibration +4. -/
theorem test_noise_at_limits : let p := { profileAt img 0 with calibration := 4 }
    convertNoise p 0x1234FFC4#32 = (1048576, true) ∧ convertNoise p 620#32 = (1, true) ∧
    convertNoise p 596#32 = (1, false) ∧ convertNoise p 0xFFFC#32 = (1048576, false) := by decide +kernel

/-- 04 section 4.7.5: the LINEAR rows and the costs. -/
theorem test_linear_and_costs : let p := { profileAt img 0 with form := .linear, multiplier := 2 }
    convertNoise p 2000000#32 = (1048576, true) ∧ convertNoise p 0#32 = (0, false) ∧
    directionCost p 0 = 2 ∧ directionCost p 40000 = 65535 ∧ regenerationCost p 0 = 0 := by decide +kernel

/-- 04 section 4.7.2: channels 5 and 6 under DESCENDING 79 map to 74 and 73; channels 0 and 75 under ASCENDING 10 map to
10 and off the grid. -/
theorem test_channel_maps :
    mapLit { profileAt img 0 with base := 79, channelDir := .descending } 0x60#80 = slotBit 74 ||| slotBit 73 ∧
    mapLit { profileAt img 0 with base := 10 } (slotBit 0 ||| slotBit 75) = slotBit 10 := by decide +kernel

/-- 06 section 6.10: record 0 with generation 3 has the tag 0x0180; generation 510 of record 127 is followed by 0. -/
theorem test_tags : tagOf 3 0 = 0x0180 ∧ tagOf 7 1 = 0x0381 ∧ nextGeneration 127 510 = 0 ∧
    nextGeneration 126 511 = 0 ∧ nextGeneration 126 510 = 511 := by decide

/-- 05, the worked search: nodes S, A, B, D (indexes 0 to 3) and links S-A, S-B, A-B, A-D, B-D. -/
def diamond : State :=
  base.setStore
    { nodes := [(0, node 0x1#32 [(1, .linkEnd 0 .zero), (2, .linkEnd 1 .zero)]),
        (1, node 0xA#32 [(1, .linkEnd 0 .one), (2, .linkEnd 2 .zero), (3, .linkEnd 3 .zero)]),
        (2, node 0xB#32 [(1, .linkEnd 1 .one), (2, .linkEnd 2 .one), (3, .linkEnd 4 .zero)]),
        (3, node 0xD#32 [(1, .linkEnd 3 .one), (2, .linkEnd 4 .one)])]
      claims := []
      links := [(0, join 0 1 1 1 (upDir 2092 10 0#80)), (1, join 0 2 2 1 (upDir 1049 15 (slotBit 25))),
        (2, join 1 2 2 2 (upDir 526 3 0#80)), (3, join 1 3 3 1 (upDir 3316 10 (slotRange 20 23))),
        (4, join 2 3 3 2 (upDir 2092 12 (slotRange 20 21)))] }

/-- A label of the worked search, as its tables show it; it comes from another over a link. -/
def row (n : NodeId) (mask : SlotSet) (cost noise hops : Nat) (closed : Bool) (source : Option (Nat × Arrival)) :
    Label :=
  { node := n, mask := mask, cost := cost, noise := noise, hops := hops, regens := 0, parent := source.map (·.1)
    arrival := source.map (·.2), regenHere := false, closed := closed }

/-- An arrival over direction 1 of a link from a port. -/
def arrivedOver (k : Nat) (id : NodeId) (port : Nat) : Arrival := { link := k, dir := .one, sender := id, port := port }

/-- The label store of the worked search after step 3. -/
def diamondLabels : List Label :=
  [row 0x1#32 (slotRange 20 29) 0 1049 0 true none,
   row 0xA#32 (slotRange 20 29) 10 3141 1 true (some (0, arrivedOver 0 0x1#32 1)),
   row 0xB#32 (slotRange 20 24 ||| slotRange 26 29) 15 2098 1 false (some (0, arrivedOver 1 0x1#32 2)),
   row 0xB#32 (slotRange 20 29) 13 4193 2 true (some (1, arrivedOver 2 0xA#32 2)),
   row 0xD#32 (slotRange 24 29) 20 6983 2 false (some (1, arrivedOver 3 0xA#32 3)),
   row 0xD#32 (slotRange 22 29) 25 6811 3 false (some (3, arrivedOver 4 0xB#32 3))]

/-- The worked search after step 3, on Engine 0. -/
def diamondSearch : State :=
  let req := { findReq 0xD#32 with source := 0x1#32, lo := 20, hi := 29, q := 192, m := 20 }
  diamond.setEngine .e0 (.searching { context 0xD#32 with req := req, budget := budgetOf 192 20 } diamondLabels)

theorem diamond_path0 : pathTo diamondLabels 0 [diamondLabels[0]] := .start 0 _ rfl rfl rfl rfl rfl rfl

theorem diamond_path1 : pathTo diamondLabels 1 ([diamondLabels[0]] ++ [diamondLabels[1]]) :=
  .hop 1 0 _ _ _ _ rfl rfl (by decide) rfl diamond_path0 rfl rfl rfl rfl rfl

theorem diamond_path3 : pathTo diamondLabels 3 ([diamondLabels[0]] ++ [diamondLabels[1]] ++ [diamondLabels[3]]) :=
  .hop 3 1 _ _ _ _ rfl rfl (by decide) rfl diamond_path1 rfl rfl rfl rfl rfl

/-- Each label of the worked search has its path. -/
theorem diamond_traced (i : Nat) (x : Label) (h : diamondLabels[i]? = some x) :
    ∃ path, pathTo diamondLabels i path := by
  match i, h with
  | 0, _ => exact ⟨_, diamond_path0⟩
  | 1, _ => exact ⟨_, diamond_path1⟩
  | 2, _ => exact ⟨_, .hop 2 0 _ _ _ _ rfl rfl (by decide) rfl diamond_path0 rfl rfl rfl rfl rfl⟩
  | 3, _ => exact ⟨_, diamond_path3⟩
  | 4, _ => exact ⟨_, .hop 4 1 _ _ _ _ rfl rfl (by decide) rfl diamond_path1 rfl rfl rfl rfl rfl⟩
  | 5, _ => exact ⟨_, .hop 5 3 _ _ _ _ rfl rfl (by decide) rfl diamond_path3 rfl rfl rfl rfl rfl⟩
  | _ + 6, h => cases h

/-- What the tables of the worked search show of a label. -/
def labelRow (l : Label) : NodeId × SlotSet × Nat × Nat × Nat := (l.node, l.mask, l.cost, l.noise, l.hops)

/-- 05, the worked search, step 4: label 2 is closed, the candidate at A is dropped and label 6 at D is made. -/
theorem test_worked_search_step : let ls := (after (.searchStep .e0) diamondSearch).engine0.labels
    ls.map labelRow =
      [(0x1#32, slotRange 20 29, 0, 1049, 0), (0xA#32, slotRange 20 29, 10, 3141, 1),
       (0xB#32, slotRange 20 24 ||| slotRange 26 29, 15, 2098, 1), (0xB#32, slotRange 20 29, 13, 4193, 2),
       (0xD#32, slotRange 24 29, 20, 6983, 2), (0xD#32, slotRange 22 29, 25, 6811, 3),
       (0xD#32, slotRange 22 24 ||| slotRange 26 29, 27, 4716, 2)] ∧
    ls.map (·.closed) = [true, true, true, true, false, false, false] := by decide +kernel

/-- R7, R187: a node whose hold timer has come to its last event and whose record is taken first stays; the expiry that
was queued does nothing. -/
theorem test_record_before_expiry :
    let s := (net.updateNode 0 fun n => { n with liveness := .stale, hold := 0 }).setIntake
      { net.intake with queue := [{ words := [0x10#32, 0xA00#32] ++ List.replicate 13 0#32 ++ [0x21070000#32]
                                    incomplete := false }] }
    ((after (.nodeHoldExpiry 0) s).nodeAt 0).isNone = true ∧
    ((after (.nodeHoldExpiry 0) (after .intakeTakeRecord s)).nodeAt 0).map (fun n => (n.liveness, n.hold)) =
      some (.live, 30) := by decide +kernel

/-! ### Witnesses: the queue, outcomes, time -/

theorem test_hyps_StepRunsFrontCommand : ({ base with pending := [.sweepStep, .commit .e0] } : State).pending =
    .sweepStep :: [.commit .e0] := by decide

theorem test_hyps_ExecKeepsTheQueue : exec .loadAttemptStart { base with pending := [.stop] } =
    .next { base with pending := [.stop] } := rfl

theorem test_hyps_CommandsComplete :
    (Instr.hostRead { addr := 0xFFFFFFFC#32, enables := 0#4 } .ok).wellFormed = true ∧
    (Instr.loadReadEnd (List.replicate 512 0#8)).wellFormed = true ∧ (Instr.nodeHoldExpiry 255).wellFormed = true ∧
    (1#32 : Word).toNat % 4 ≠ 0 ∧ (0xFFFFFFFF#32 : Word).toNat % 4 ≠ 0 := by decide +kernel

/-- The record with a reservation timer of 1 s. -/
def reservedFor (n : Nat) : State :=
  net.setRecord 5 { gen := 2, path := some { lightpath .reserved with timer := some n } }

/-- R187: a reservation of 1 s expires at the first one-second event, one of 2 s does not. -/
theorem test_hyps_OneSecondEvent : (reservedFor 1).pending = [] ∧
    dueCommands (reservedFor 1) = [.reservationExpiry 5] ∧ dueCommands (reservedFor 2) = [] ∧
    ((after (.reservationExpiry 5) (reservedFor 1).oneSecond).lightpathAt 5).isNone = true ∧
    ((after (.reservationExpiry 5) (reservedFor 2).oneSecond).lightpathAt 5).isSome = true := by decide +kernel

/-! ### Witnesses: arithmetic -/

/-- R61: the last sixteen entries are 1, the one before is not. -/
theorem test_hyps_DecibelTableNearest : (profileAt img 0).form = .osnrTenths ∧ 0 ≤ 600 ∧ 585 ≤ 600 ∧
    decibel 584 = 2 ∧ decibel 585 = 1 := by decide +kernel

theorem test_hyps_NoiseConversions : (profileAt img 0).form = .osnrTenths ∧ -50 ≤ (profileAt img 0).calibration ∧
    (profileAt img 0).calibration ≤ 50 ∧ signedHalf 0x8000#32 = -32768 ∧ signedHalf 0x7FFF#32 = 32767 ∧
    ({ profileAt img 0 with form := .linear } : Profile).form = .linear := by decide +kernel

/-- R68: the bounds of the base and of the channels. -/
theorem test_hyps_ChannelsAndUsableSlots :
    ({ profileAt img 0 with base := 79 } : Profile).base ≤ 79 ∧
    slotOfChannel { profileAt img 0 with base := 79 } 0 = some 79 ∧
    slotOfChannel { profileAt img 0 with base := 79, channelDir := .descending } 79 = some 0 ∧
    net.linkAt 0 = some (join 0 1 1 1 (upDir 2092 10 0#80)) ∧ hasSlot ((held .active).usable 0 .one) 3 = false ∧
    hasSlot ((held .active).usable 0 .one) 79 = true := by decide +kernel

theorem test_hyps_SegmentNoiseBudgetMargin : budgetOf 0 0 ≤ 1048576 ∧ net.routeNoises route = [4190] ∧
    marginOf 4190 (net.worstNoise route) = 0 := by decide +kernel

/-! ### Witnesses: power-on, load, bus reset, SAVE, RELOAD -/

/-- A part in a phase of the load, with an attempt count. -/
def loading (x : LoadPhase) (attempts : Nat) : State :=
  State.reset.setPort { State.reset.port with op := .load x, attempts := attempts }

/-- A part that loads and holds nothing else is as R176 and R182 leave it, while its count fits the phase. -/
theorem loading_quiet (x : LoadPhase) (n : Nat)
    (h : (x = .begun → n = 0) ∧ (x = .reading → 1 ≤ n ∧ n ≤ 8) ∧
      (x = .waiting ∨ x = .due → 1 ≤ n ∧ n ≤ 7)) :
    (loading x n).loadQuiet where
  loads := ⟨fun _ => rfl, fun _ => ⟨x, rfl⟩⟩
  quiet := fun _ p _ hp => by cases p <;> first | exact absurd rfl hp | rfl
  begun := fun hx => h.1 (by simpa [loading, State.setPort] using hx)
  reading := fun hx => h.2.1 (by simpa [loading, State.setPort] using hx)
  waiting := fun hx => h.2.2 (by simpa [loading, State.setPort] using hx)

theorem test_hyps_PowerOnAndLoadStart : State.reset.port.op = .load .begun ∧
    (loading .waiting 7).port.op = .load .waiting ∧ (loading .due 7).port.op = .load .due := by decide

/-- R182, R187: an attempt does not begin before the one-second event after a failed one. -/
theorem test_attempt_paced : (after .loadAttemptStart (loading .waiting 1)).port.attempts = 1 ∧
    ((loading .waiting 1).oneSecond).pending = [.loadAttemptStart] ∧
    (after .loadAttemptStart (loading .waiting 1).oneSecond).port.attempts = 2 := by decide +kernel

theorem test_hyps_ValidLoad : (loading .reading 8).port.op = .load .reading ∧
    State.reset.port.op = .load .begun ∧ defaultImage.length = 512 ∧
    crc16 (defaultImage.take 510) = imageHalf defaultImage 510 ∧ windowsSound defaultImage = true ∧
    valuesInRange defaultImage = true := by decide +kernel

theorem test_hyps_ValidLoad_quiet : (loading .reading 8).loadQuiet ∧ (loading .begun 0).loadQuiet :=
  ⟨loading_quiet _ _ (by decide), loading_quiet _ _ (by decide)⟩

/-- R176, R184: the buffer holds the producer word of 0 as the load ends. -/
theorem test_load_hands_producer_word :
    (after (.loadReadEnd defaultImage) State.reset).tap.buffer =
      [{ addr := 0x0F910004, value := 0#32, mask := 0xF#4 }] ∧
    (after (.loadReadEnd defaultImage) State.reset).port.attempts = 1 := by decide +kernel

/-- 512 zero bytes with the CRC of 510 of them. -/
def zeroImage : List Byte := List.replicate 510 0#8 ++ [0xB7#8, 0x44#8]

/-- The default image with a cost multiplier of 0 in profile 0. -/
def lowImage : List Byte := (spliceImage img 67 1 [0#8]).take 510 ++ [0xCB#8, 0x22#8]

/-- The default image with its NOTICE window elsewhere. -/
def movedImage : List Byte := (spliceImage img 24 8 (windowBytes 0x0F920000 4 13)).take 510 ++ [0x9B#8, 0xCF#8]

/-- Each reason of R181, before the eighth attempt and at it. -/
theorem test_hyps_FailedLoad : (loading .reading 7).port.attempts < 8 ∧
    (loading .reading 8).port.attempts = 8 ∧ State.reset.port.attempts + 1 < 8 ∧
    (List.replicate 511 0#8).length ≠ 512 ∧ img.length = 512 ∧ crc16 (img.take 510) ≠ imageHalf img 510 ∧
    zeroImage.length = 512 ∧ crc16 (zeroImage.take 510) = imageHalf zeroImage 510 ∧
    windowsSound zeroImage = false ∧ lowImage.length = 512 ∧
    crc16 (lowImage.take 510) = imageHalf lowImage 510 ∧ windowsSound lowImage = true ∧
    valuesInRange lowImage = false := by decide +kernel

theorem test_hyps_BusResetEvents : net.busReset = false ∧ net.port.image = some img ∧
    ({ net with busReset := true } : State).busReset = true ∧ net.port.image.isSome = true ∧
    State.reset.port.image = none ∧ State.reset.busReset = false ∧
    ({ State.reset with busReset := true } : State).busReset = true := by decide +kernel

/-- A SAVE of slot 2 in flight. -/
def saving : State :=
  (net.setSlot 2 (.inService .port none)).setPort
    { net.port with op := .save 2 (query 11 .save) img false }

/-- R182: the built-in default image passes R181. -/
theorem test_default_image_valid : judgeImage defaultImage = none := by
  obtain ⟨_, _, h1, h2, h3, h4⟩ := test_hyps_ValidLoad
  simp [judgeImage, h1, h2, h3, h4]

/-- A RELOAD of slot 2 in flight under an image, with an open staging. -/
def reloading (x : List Byte) : State :=
  ((net.setSlot 2 (.inService .port none)).setPort
    { net.port with image := some x, op := .reload 2 (query 12 .reload) }).openReport 0x0F800000

theorem test_hyps_SaveAndReloadEnd : saving.running = true ∧
    saving.port.op = .save 2 (query 11 .save) img false ∧ img.length = 512 ∧ [] ≠ img ∧
    (reloading img).running = true ∧ (reloading img).port.op = .reload 2 (query 12 .reload) ∧
    judgeImage [] = some .noAnswer := by
  decide +kernel

/-- A reload of the image in force. -/
theorem test_hyps_SaveAndReloadEnd_same : judgeImage defaultImage = none ∧
    windowEntries (reloading defaultImage).image = windowEntries defaultImage ∧
    windowOf (reloading defaultImage).image .notice = windowOf defaultImage .notice ∧
    ∀ e ∈ (reloading defaultImage).store.nodes,
      profileAt (reloading defaultImage).image e.2.profile = profileAt defaultImage e.2.profile :=
  ⟨test_default_image_valid, rfl, rfl, fun _ _ => rfl⟩

/-- A reload that moves the NOTICE window. -/
theorem test_hyps_SaveAndReloadEnd_moved : judgeImage movedImage = none ∧
    windowEntries (reloading img).image ≠ windowEntries movedImage ∧
    windowOf (reloading img).image .notice ≠ windowOf movedImage .notice := by decide +kernel

/-- A valid image in which the profile of both nodes has another reuse level. -/
def reprofiledImage : List Byte :=
  placeCrc ((ConfigTarget.profile 0).place img (spliceImage (defaultProfileBytes.take 10) 8 1 [50#8]))

theorem test_hyps_SaveAndReloadEnd_profile : (reloading img).topologyConsistent ∧
    judgeImage reprofiledImage = none ∧ profileAt (reloading img).image 0 ≠ profileAt reprofiledImage 0 ∧
    windowOf (reloading img).image .notice = windowOf reprofiledImage .notice :=
  ⟨State.topologyConsistent_of_store (s := net) rfl (netWith_consistent _), by decide +kernel, by decide +kernel,
    by decide +kernel⟩

/-! ### Witnesses: the Memory Bus Tap -/

/-- Buffer entries of all four bytes at word addresses, as many as asked for. -/
def entries (n : Nat) : List WriteEntry :=
  (List.range n).map fun i => { addr := 4096 + 4 * i, value := word i, mask := 0xF#4 }

/-- The network with a number of buffer entries. -/
def buffered (n : Nat) : State := net.setTap { net.tap with buffer := entries n }

/-- An entry of which one byte has been cancelled. -/
def partEntry : WriteEntry := { addr := 64, value := 0x11223344#32, mask := 0x7#4 }

/-- The network with that entry in the buffer. -/
def partBuffered : State := net.setTap { net.tap with buffer := [partEntry] }

theorem test_hyps_HostAccessesAnswered : (0x0F7FFFFC#32 : Word).toNat % 4 = 0 ∧
    ¬ ((buffered 32).tap.buffer.length ≥ 32 ∧ (buffered 32).tap.turn = .buffered) ∧
    windowAt (buffered 32).image (0x0F7FFFFC#32 : Word).toNat = none ∧
    State.reset.running = false ∧ ¬ (State.reset.tap.buffer.length ≥ 32 ∧ State.reset.tap.turn = .buffered) := by
  decide +kernel

/-- Writes into the RESULT window and into the NOTICE window beyond its first word; a full buffer whose turn is a
buffered write's. -/
theorem test_hyps_HostAccessesAnswered_windows : net.running = true ∧
    windowAt net.image (0x0F904000#32 : Word).toNat = some { kind := .result, base := 0x0F904000, size := 16384 } ∧
    (0x0F904000#32 : Word).toNat % 4 = 0 ∧
    windowAt net.image (0x0F910004#32 : Word).toNat = some { kind := .notice, base := 0x0F910000, size := 4096 } ∧
    (0x0F910004#32 : Word).toNat ≠ 0x0F910000 ∧
    32 ≤ ((buffered 32).setTurn .buffered).tap.buffer.length ∧
    ((buffered 32).setTurn .buffered).tap.turn = .buffered ∧
    entryAt ((buffered 32).setTurn .buffered).tap.buffer 64 = none := by decide +kernel

/-- R173: with a full buffer the head is drained before a host write whose turn it is not, and with the turn the host's
the write passes first and leaves the turn to a buffered write. -/
theorem test_full_buffer_turns : let f := fun x => after (.hostWrite 64#32 5#32 0xF#4 .ok) ((buffered 32).setTurn x)
    (f .buffered).tap.buffer.length = 31 ∧ (f .buffered).tap.turn = .host ∧
    (f .host).tap.buffer.length = 32 ∧ (f .host).tap.turn = .buffered := by decide +kernel

/-- R174, R175: byte 3 comes from memory, which holds 0x55 there. -/
theorem test_hyps_HostAccessesAnswered_read : (64#32 : Word).toNat % 4 = 0 ∧
    entryAt (buffered 32).tap.buffer 4220 = some { addr := 4220, value := 31#32, mask := 0xF#4 } ∧
    entryAt partBuffered.tap.buffer (64#32 : Word).toNat = some partEntry ∧ partEntry.mask ≠ 0xF#4 ∧
    ¬ (partBuffered.tap.buffer.length ≥ 32 ∧ partBuffered.tap.turn = .buffered) ∧
    entryAt partBuffered.tap.buffer (68#32 : Word).toNat = none ∧
    mergeWord 0x55667788#32 partEntry.value partEntry.mask = 0x55223344#32 := by decide +kernel

/-- R166: a read passes downstream with the address and the byte enables it arrived with, and a byte that it does not
enable is a free value (assumption log 34). -/
theorem test_read_enables : let f := fun e => after (.hostRead { addr := 68#32, enables := e } .ok) partBuffered
    (f 0x3#4).downstream = .read 68 0x3#4 ∧ (f 0x3#4).freeCount = 1 ∧ (f 0xF#4).downstream = .read 68 0xF#4 ∧
    (f 0xF#4).freeCount = 0 := by decide +kernel

theorem test_hyps_ReadsReturnLatestWrite : (buffered 31).bufferSound ∧
    exec (.hostWrite 64#32 5#32 0x5#4 .ok) (buffered 31) =
      .next (after (.hostWrite 64#32 5#32 0x5#4 .ok) (buffered 31)) ∧
    (buffered 31).handWord .noticeUnit 8 1#32 = some ((buffered 31).appendWord .noticeUnit 8 1#32) ∧
    exec (.writeBufferDrain .ok) (buffered 31) = .next (after (.writeBufferDrain .ok) (buffered 31)) ∧
    changesReads .noticeTake = false ∧ exec .noticeTake (buffered 31) = .next (buffered 31) :=
  ⟨⟨by decide +kernel, by unfold State.bufferAddressesDistinct; decide +kernel⟩, by rfl, by rfl, by rfl, rfl, by rfl⟩

/-- A report slot at the base of the REPORT window, its staging open with some words, behind others. -/
def staged (ws : List StagedWord) (others : Nat) : State :=
  net.setTap { net.tap with reportStagings :=
    { slot := 0x0F800000, words := ws } ::
      (List.range others).map fun i => { slot := 0x0F800040 + 64 * i, words := freshStaging 16 } }

/-- A staging whose first word is valid. -/
def firstWord : List StagedWord := mergeStaged (freshStaging 16) 0 0x10#32 0xF#4

/-- The three cases: a staging open, none open with 7 others, none open with 8. -/
theorem test_hyps_ReportSlotWrite : net.running = true ∧ (0x0F80003C#32 : Word).toNat % 4 = 0 ∧
    windowAt net.image 0x0F80003C = some { kind := .report, base := 0x0F800000, size := 65536 } ∧
    (0x0F80003C - 0x0F800000) % 64 / 4 = 15 ∧
    (staged firstWord 7).reportStaging 0x0F800000 = some { slot := 0x0F800000, words := firstWord } ∧
    completes (mergeStaged firstWord 15 1#32 0x7#4) 15 15 = false ∧
    windowAt net.image 0x0F80FFFC = some { kind := .report, base := 0x0F800000, size := 65536 } ∧
    (staged firstWord 6).reportStaging 0x0F80FFC0 = none ∧ (staged firstWord 6).tap.reportStagings.length = 7 ∧
    completes (mergeStaged (freshStaging 16) 15 1#32 0x7#4) 15 15 = false ∧
    (staged firstWord 7).reportStaging 0x0F80FFC0 = none ∧
    (staged firstWord 7).tap.reportStagings.tail.length = 7 := by decide +kernel

/-- A write of three bytes of the closing word, into an open staging and into a fresh one, and one with no byte enabled
(assumption log 40). -/
theorem test_hyps_ReportSlotWrite_merge :
    mergedInto firstWord (mergeStaged firstWord 15 1#32 0x7#4) 15 1#32 0x7#4 ∧
    ¬ closesRecord (mergeStaged firstWord 15 1#32 0x7#4) 15 15 ∧
    mergedInto (freshStaging 16) (mergeStaged (freshStaging 16) 15 1#32 0x7#4) 15 1#32 0x7#4 ∧
    ¬ closesRecord (mergeStaged (freshStaging 16) 15 1#32 0x7#4) 15 15 ∧
    mergedInto (freshStaging 16) (freshStaging 16) 0 1#32 0#4 ∧ ¬ closesRecord (freshStaging 16) 0 15 := by
  simp only [mergedInto_iff, closesRecord_iff]
  decide +kernel

/-- Assumption log 40: a write with no byte enabled opens a staging, and its abandonment reports 0 valid bytes. -/
theorem test_no_byte_enabled :
    (after (.hostWriteReportSlot 0x0F80FFC0#32 5#32 0#4 .ok) net).tap.reportStagings.map (·.slot) = [0x0F80FFC0] ∧
    (after (.hostWriteReportSlot 0x0F80FFC0#32 5#32 0#4 .ok) (staged (freshStaging 16) 7)).notices.inbox.map
      (fun n => (n.event, n.detail)) = [(.stagingAbandoned, 0#32)] := by decide +kernel

/-- A closing word of length 2 completes a staging of which word 0 alone is written. -/
def closingWords : List StagedWord := mergeStaged firstWord 15 0x23020000#32 0xF#4

/-- A staging with word 0 missing. -/
def missingWords : List StagedWord := mergeStaged (freshStaging 16) 15 0x23020000#32 0xF#4

theorem test_hyps_ReportCompletion : (staged firstWord 0).running = true ∧
    (staged firstWord 0).reportStaging 0x0F800000 = some { slot := 0x0F800000, words := firstWord } ∧
    completes closingWords 15 15 = true ∧ (completedRecord closingWords 15 8).incomplete = false ∧
    completes missingWords 15 15 = true ∧ (completedRecord missingWords 15 8).incomplete = true ∧
    bits (wordAt (closingWords.map (·.image)) 15) 16 8 = 2 ∧
    (missingWords[0]?.map (·.valid)) = some 0#4 ∧ (staged firstWord 0).intake.queue.length < 16 ∧
    16 ≤ ((staged firstWord 0).setIntake { net.intake with
      queue := List.replicate 16 (report 0#32 0#32 0#32 0#32 1 7) }).intake.queue.length := by decide +kernel

/-- The merges and the completed records, whole and incomplete. -/
theorem test_hyps_ReportCompletion_merge :
    mergedInto firstWord closingWords 15 0x23020000#32 0xF#4 ∧ closesRecord closingWords 15 15 ∧
    recordOf closingWords 15 8 (completedRecord closingWords 15 8) ∧
    mergedInto (freshStaging 16) missingWords 15 0x23020000#32 0xF#4 ∧ closesRecord missingWords 15 15 ∧
    recordOf missingWords 15 8 (completedRecord missingWords 15 8) := by
  simp only [mergedInto_iff, closesRecord_iff, recordOf_iff]
  decide +kernel

/-- The closing word alone, at a slot without an open staging: with 7 others open, and with 8. -/
theorem test_hyps_ReportCompletion_closing : completes missingWords 15 15 = true ∧
    missingWords = mergeStaged (freshStaging 16) 15 0x23020000#32 0xF#4 ∧
    (staged firstWord 6).reportStaging 0x0F80FFC0 = none ∧ (staged firstWord 6).tap.reportStagings.length < 8 ∧
    (staged firstWord 7).reportStaging 0x0F80FFC0 = none ∧
    (staged firstWord 7).tap.reportStagings =
      { slot := 0x0F800000, words := firstWord } :: (staged firstWord 7).tap.reportStagings.tail ∧
    (staged firstWord 7).tap.reportStagings.tail.length = 7 := by decide +kernel

/-- R170, R169: the eighth other staging is abandoned as a closing word alone completes a record. -/
theorem test_closing_word_alone :
    let t := after (.hostWriteReportSlot 0x0F80FFFC#32 0x23020000#32 0xF#4 .ok) (staged firstWord 7)
    t.tap.reportStagings.length = 7 ∧ t.tap.abandoned = 1 ∧ t.intake.queue.map (·.incomplete) = [true] := by
  decide +kernel

/-- A query slot's words: an ACTIVATE of tag 261 in word 0, its closing word still to come. -/
def queryStaged : State :=
  net.setTap { net.tap with queryStagings := [(31, mergeStaged (freshStaging 64) 0 261#32 0xF#4)] }

/-- The ACTIVATE with its closing word (tag 7, length 2, kind 3, format 1); an unknown kind 15. -/
def queryRecord (closing : Word) : Record :=
  completedRecord (mergeStaged (mergeStaged (freshStaging 64) 0 261#32 0xF#4) 63 closing 0xF#4) 63 7

theorem test_hyps_QuerySlotWrite : queryStaged.running = true ∧ (0x0F901FFC#32 : Word).toNat % 4 = 0 ∧
    windowAt queryStaged.image 0x0F901FFC = some { kind := .query, base := 0x0F900000, size := 8192 } ∧
    (0x0F901FFC - 0x0F900000) / 256 = 31 ∧ (0x0F901FFC - 0x0F900000) % 256 / 4 = 63 ∧
    completes (mergeStaged (freshStaging 64) 63 0x23020007#32 0xE#4) 63 63 = false ∧
    completes (mergeStaged (queryStaged.queryWords 31) 63 0x23020007#32 0xF#4) 63 63 = true ∧
    tableGet queryStaged.dispatcher.slots 31 = none ∧
    judgeQuery (queryRecord 0x33020007#32) = .good (query 3 (.activate 261)) ∧
    judgeQuery (queryRecord 0x2F020007#32) = .bad .kind false := by decide +kernel

/-- Three bytes of the closing word leave the record open. -/
theorem test_hyps_QuerySlotWrite_merge :
    mergedInto ((tableGet net.tap.queryStagings 31).getD (freshStaging 64))
      (mergeStaged (freshStaging 64) 63 0x23020007#32 0xE#4) 63 0x23020007#32 0xE#4 ∧
    ¬ closesRecord (mergeStaged (freshStaging 64) 63 0x23020007#32 0xE#4) 63 63 :=
  ⟨(mergedInto_iff _ _ _ _ _).mpr rfl, by rw [closesRecord_iff]; decide +kernel⟩

/-- The whole closing word completes the record, a good one and a bad one. -/
theorem test_hyps_QuerySlotWrite_closing (w : Word) :
    mergedInto ((tableGet queryStaged.tap.queryStagings 31).getD (freshStaging 64))
      (mergeStaged (queryStaged.queryWords 31) 63 w 0xF#4) 63 w 0xF#4 ∧
    closesRecord (mergeStaged (queryStaged.queryWords 31) 63 w 0xF#4) 63 63 ∧
    recordOf (mergeStaged (queryStaged.queryWords 31) 63 w 0xF#4) 63 7 (queryRecord w) :=
  ⟨(mergedInto_iff _ _ _ _ _).mpr rfl, (closesRecord_iff _ _ _).mpr rfl, (recordOf_iff _ _ _ _).mpr rfl⟩

/-- A FIND record of given words 2 and 3 (policy and channel range), of a length and completeness. -/
def findRecord (w2 w3 : Word) (len : Nat) (incomplete : Bool) : Record :=
  { words := [0x10#32, 0x20#32, w2, w3] ++ List.replicate 59 0#32 ++ [word (7 + len * 65536 + 0x21000000)]
    incomplete := incomplete }

/-- R129, R130: each reason, by the first test that fails; a lo of 80 meets hi clamped to 79; a hop limit of 0 and a hi
of 80 are clamped. -/
theorem test_hyps_QuerySlotWrite_rows : (findRecord 0x100#32 0x184F00#32 14 false).words.length = 64 ∧
    judgeQuery { words := List.replicate 64 0#32, incomplete := true } = .bad .format false ∧
    judgeQuery (queryRecord 0x2F020007#32) = .bad .kind false ∧
    judgeQuery (findRecord 0#32 0x184F00#32 13 true) = .bad .length false ∧
    judgeQuery (findRecord 0#32 0x184F00#32 14 true) = .bad .incomplete false ∧
    judgeQuery (findRecord 0#32 0x184F00#32 14 false) = .bad .range false ∧
    judgeQuery (findRecord 0x100#32 0x185A50#32 14 false) = .bad .range true ∧
    (match judgeQuery (findRecord 0x100#32 0x184F4F#32 14 false) with
      | .good q => !q.clamped
      | .bad _ _ => false) = true ∧
    (match judgeQuery (findRecord 0x100#32 0x5000#32 14 false) with
      | .good { clamped := true, body := .find r, .. } => r.hi == 79 && r.hopLimit == 1
      | _ => false) = true := by decide +kernel

/-- A slot taken by a query, its staging open with an ACTIVATE of tag 261. -/
def rewriting (x : SlotQuery) : State := queryStaged.setSlot 31 x

/-- The slot QUEUED at low or high priority; served by an engine, the table, the Sweep Unit or the port; answered. -/
theorem test_hyps_QueryRewrite : (rewriting (.queued (query 13 .flush))).running = true ∧
    (0x0F901FFC - 0x0F900000) % 256 / 4 = 63 ∧
    tableGet (rewriting (.queued (query 13 .flush))).dispatcher.slots 31 = some (.queued (query 13 .flush)) ∧
    (query 3 (.activate 261)).high = (query 13 .flush).high ∧
    (query 3 (.activate 261)).high ≠ ({ query 13 .flush with high := true } : Query).high ∧
    [Serving.engine .e1, .table, .sweep, .port, .answered].all (fun v =>
      decide (tableGet (rewriting (.inService v none)).dispatcher.slots 31 = some (.inService v none))) = true := by
  decide +kernel

/-- R131: a good query of the same priority keeps the place. -/
theorem test_rewrite_keeps_place :
    let s := ((rewriting (.queued (query 13 .flush))).enqueue 31 false).enqueue 2 false
    (after (.hostWriteQuerySlot 0x0F901FFC#32 0x33020007#32 0xF#4 .ok) s).dispatcher.low = [31, 2] ∧
    (after (.hostWriteQuerySlot 0x0F901FFC#32 0x2F020007#32 0xF#4 .ok) s).dispatcher.low = [2] := by decide +kernel

theorem test_hyps_NoticeRing_consumer : net.running = true ∧ (0x0F910000#32 : Word).toNat % 4 = 0 ∧
    windowAt net.image 0x0F910000 = some { kind := .notice, base := 0x0F910000, size := 4096 } ∧
    (254#32 : Word).toNat < ringCapacity net.image ∧ ringCapacity net.image ≤ (255#32 : Word).toNat := by
  decide +kernel

/-- R163: one unconsumed LINK notice asserts line A under the default routing. -/
theorem test_notice_line : let s := net.setNotices { net.notices with
      producer := 1, published := 1, shadow := [(0, .link)] }
    s.lineA = true ∧ s.lineB = false := by decide +kernel

theorem test_hyps_WriteBuffer : (buffered 32).running = true ∧
    (buffered 32).tap.buffer = { addr := 4096, value := 0#32, mask := 0xF#4 } :: (buffered 32).tap.buffer.tail ∧
    entryAt (buffered 32).tap.buffer 4096 = some { addr := 4096, value := 0#32, mask := 0xF#4 } ∧
    entryAt (buffered 31).tap.buffer 0 = none ∧ (buffered 31).tap.buffer.length < 32 ∧
    (buffered 31).tap.waiting.head? = none ∧ entryAt (buffered 32).tap.buffer 0 = none ∧
    32 ≤ (buffered 32).tap.buffer.length := by decide +kernel

/-- An answer being written with some words left. -/
def writing (s : State) (todo : List (Nat × Word)) : State :=
  let a := answerTo 2 .dispatcher (query 3 (.activate 261)) .notFound 0#32 261 .none
  s.setWriter { answers := [], writing := some { base := 0x0F904400, answer := a, todo := some todo } }

theorem test_hyps_WordHandoffs : (writing (buffered 31) [(0x0F9045FC, 1#32)]).running = true ∧
    (writing (buffered 31) [(0x0F9045FC, 1#32)]).writer.writing.bind (·.todo) = some [(0x0F9045FC, 1#32)] ∧
    ((writing (buffered 31) [(0x0F9045FC, 1#32)]).handWord .resultWriter 0x0F9045FC 1#32).isSome = true ∧
    ((writing (buffered 31) [(0x0F904400, 1#32), (0x0F9045FC, 1#32)]).handWord .resultWriter 0x0F904400
      1#32).isSome = true ∧
    (writing (buffered 32) [(0x0F9045FC, 1#32)]).handWord .resultWriter 0x0F9045FC 1#32 = none := by decide +kernel

/-- The Notice Unit with the producer word to hand on. -/
def noticing (n : Nat) : State :=
  (buffered n).setNotices { net.notices with producer := 1, out := [producerWord 0x0F910000 1 (some 1)] }

theorem test_hyps_WordHandoffs_notice : (noticing 31).running = true ∧
    (noticing 31).notices.out = producerWord 0x0F910000 1 (some 1) :: [] ∧
    ((noticing 31).handWord .noticeUnit 0x0F910004 1#32).isSome = true ∧
    (noticing 32).handWord .noticeUnit 0x0F910004 1#32 = none := by decide +kernel

/-- A notice at the Notice Unit, the ring with some producer and consumer. -/
def told (n : Notice) (producer consumer : Nat) (x : List Byte) : State :=
  (net.setPort { net.port with image := some x }).setNotices
    { net.notices with inbox := [n], producer := producer, consumer := consumer }

/-- The three cases: a disabled class, a full ring of 254 notices, the last position free. -/
theorem test_hyps_NoticeRing : (told (notice .saved 0#32 0#32) 254 0 img).running = true ∧
    ((told (notice .saved 0#32 0#32) 0 0 (spliceImage img 454 1 [0#8])).routing .config).ring = false ∧
    ((told (notice .saved 0#32 0#32) 254 0 img).routing .config).ring = true ∧
    (254 + 1) % (told (notice .saved 0#32 0#32) 254 0 img).capacity = 0 ∧
    (254 + 1) % (told (notice .saved 0#32 0#32) 254 1 img).capacity ≠ 1 := by decide +kernel

/-- Assumption log 41: with the consumer index at the producer index, ahead of the published producer, the taking of a
LINK notice raises line A; with the consumer index at the published producer it does not. -/
theorem test_notice_line_at_taking : let n := notice .formed 0#32 0#32
    (told n 3 3 img).lineA = false ∧ (after .noticeTake (told n 3 3 img)).lineA = true ∧
    (after .noticeTake (told n 3 0 img)).lineA = false := by decide +kernel

/-! ### Witnesses: Report Intake and the Topology Store -/

/-- A NODE_ANNOUNCE of an id: profile 0, refresh interval 10, noises 300 (04 section 4.7.1). -/
def announce (id : NodeId) : Record :=
  { words := [id, 0xA00#32, 0#32, 300#32, 300#32, 330#32] ++ List.replicate 9 0#32 ++ [0x21070000#32]
    incomplete := false }

theorem test_hyps_IntakeCountsOnce : (reported net (announce 0x30#32)).running = true ∧
    (reported net (announce 0x30#32)).handoffs.observations = [] ∧
    (reported net (announce 0x30#32)).intake.queue = announce 0x30#32 :: [] := by decide +kernel

/-- A record of format 2, one from an unknown node, one that a filter entry does not pass, one from a quarantined
node. -/
theorem test_hyps_IntakeCountsOnce_dropped : let r := report 0x10#32 1#32 0x20#32 1#32 3 5
    let odd : Record := { words := List.replicate 15 0#32 ++ [0x40000000#32], incomplete := true }
    odd.reportFormat = 2 ∧ net.globals.unknownFormat = 0 ∧ r.reportFormat = 1 ∧ malformed r = none ∧
    reportKind r.reportKindCode = some .adjacencyClaim ∧ filterPasses img .adjacencyClaim r.reporter = true ∧
    filterPasses (spliceImage img 328 2 [1#8, 0#8]) .adjacencyClaim r.reporter = false ∧
    base.nodeOf r.reporter = none ∧ (net.nodeOf r.reporter).isSome = true ∧
    ((net.updateNode 0 fun n => { n with quarantined := true }).nodeOf r.reporter).map (·.quarantined) = some true := by
  decide +kernel

/-- R47 to R49: records of 16 words, each reason by the first test that fails; a shared-risk count of 5 is tested before
the length, and 4 needs length 9. -/
theorem test_hyps_IntakeCountsOnce_reasons : (report 0x10#32 0#32 0#32 0#32 0 1).words.length = 16 ∧
    malformed { report 0#32 0#32 0#32 0#32 6 1 with incomplete := true } = some .kind ∧
    malformed { report 0#32 0x05000000#32 0#32 0#32 4 1 with incomplete := true } = some .range ∧
    malformed { report 0#32 0x04000000#32 0#32 0#32 4 8 with incomplete := true } = some .length ∧
    malformed { report 0#32 0x04000000#32 0#32 0#32 4 9 with incomplete := true } = some .incomplete ∧
    malformed (report 0x10#32 0x00010000#32 0#32 0#32 4 5) = none ∧
    malformed (report 0x10#32 0x01010000#32 0#32 0#32 4 6) = some .range ∧
    malformed (report 0x10#32 0x10#32 0#32 0#32 1 7) = some .range ∧
    malformed (report 0x10#32 0#32 0x10#32 0#32 3 5) = some .range ∧
    malformed (report 0x10#32 0x10000#32 0x10#32 0#32 3 5) = none := by decide +kernel

/-- 04 section 4.7.1: node X stores 1049, 1049 and 526 for 300, 300 and 330 tenths. -/
theorem test_announce_stores : let s := after .intakeTakeRecord (reported net (announce 0x30#32))
    (s.nodeAt 2).map (fun n => (n.addNoise, n.dropNoise, n.expressNoise, n.hold)) = some (1049, 1049, 526, 30) ∧
    s.intake.counters.accepted = 1 := by decide +kernel

/-- A node's fault score set. -/
def scored (n : Nat) : State := net.updateNode 0 fun m => { m with faultScore := n }

/-- A SPAN_CONDITION that is too short: score 22 stays below the threshold 24, score 23 reaches it. -/
theorem test_hyps_MalformedRecordScores : let r := report 0x10#32 0x10001#32 0#32 0#32 4 2
    (reported (scored 22) r).running = true ∧ (reported (scored 22) r).handoffs.observations = [] ∧
    (reported (scored 22) r).intake.queue = r :: [] ∧ r.reportFormat = 1 ∧ malformed r = some .length ∧
    ((scored 22).nodeEntry r.reporter).map (fun e => (e.2.quarantined, e.2.faultScore,
      ((scored 22).profileOf e.2).faultThreshold)) = some (false, 22, 24) ∧
    ((scored 23).nodeEntry r.reporter).map (fun e => (e.2.quarantined, min (e.2.faultScore + 1) 63)) =
      some (false, 24) := by decide +kernel

/-- The same from an unknown reporter and from a quarantined one, and a record of format 2 under FAULT handling. -/
theorem test_hyps_MalformedRecordScores_more : let r := report 0x10#32 0x10001#32 0#32 0#32 4 2
    let odd : Record := { words := 0x10#32 :: List.replicate 14 0#32 ++ [0x40000000#32], incomplete := false }
    let x := spliceImage img 459 1 [1#8]
    (reported base r).running = true ∧ base.nodeEntry r.reporter = none ∧
    ((net.updateNode 0 fun n => { n with quarantined := true }).nodeEntry r.reporter).map (·.2.quarantined) =
      some true ∧
    odd.reportFormat ≠ 1 ∧ (net.setPort { net.port with image := some x }).globals.unknownFormat = 1 ∧
    (net.nodeEntry odd.reporter).isSome = true := by decide +kernel

/-- A node table with some number of nodes. -/
def crowd (n : Nat) : State :=
  base.setStore { nodes := (List.range n).map fun i => (i, node (word (i + 4096)) []), claims := [], links := [] }

theorem test_hyps_AnnounceCreatesNode : let r := announce 0x30#32
    (reported (crowd 255) r).running = true ∧ (reported (crowd 255) r).handoffs.observations = [] ∧
    (reported (crowd 255) r).intake.queue = r :: [] ∧ r.reportFormat = 1 ∧ malformed r = none ∧
    reportKind r.reportKindCode = some .nodeAnnounce ∧
    filterPasses (reported (crowd 255) r).image .nodeAnnounce r.reporter = true ∧
    (crowd 255).nodeEntry r.reporter = none ∧ (crowd 255).store.nodes.length < 256 ∧
    (crowd 256).nodeEntry r.reporter = none ∧ 256 ≤ (crowd 256).store.nodes.length := by decide +kernel

/-- Nodes 0x10 and 0x20, the first with a stored claim at port 1 that hears port 1 of the second. -/
def claimed : State :=
  base.setStore
    { nodes := [(0, node 0x10#32 [(1, .claim)]), (1, node 0x20#32 [])]
      claims := [{ claimant := 0, port := 1, heardId := 0x20#32, heardPort := 1, timer := 30 }], links := [] }

theorem claimed_consistent : claimed.topologyConsistent := State.topologyConsistent_of_check (by decide +kernel)

theorem test_hyps_MatchingClaimFormsLink : let r := report 0x20#32 1#32 0x10#32 1#32 3 5
    (reported claimed r).running = true ∧ (reported claimed r).handoffs.observations = [] ∧
    (reported claimed r).intake.queue = r :: [] ∧ r.reportFormat = 1 ∧ malformed r = none ∧
    reportKind r.reportKindCode = some .adjacencyClaim ∧
    filterPasses (reported claimed r).image .adjacencyClaim r.reporter = true ∧
    (claimed.nodeEntry r.reporter).map (fun e => (e.1, e.2.quarantined, e.2.liveness, e.2.ports.length)) =
      some (1, false, .live, 0) ∧
    bit (r.word 1) 16 = false ∧ bits (r.word 1) 0 16 = 1 ∧ bits (r.word 3) 0 16 = 1 ∧
    claimed.indexOf (r.word 2) = some 0 ∧
    claimed.claimAt 0 1 = some { claimant := 0, port := 1, heardId := r.reporter, heardPort := 1, timer := 30 } ∧
    claimed.portAt 1 1 = none ∧ claimed.store.links.length < 1024 := by decide +kernel

/-- A record that a state accepts from node i. -/
theorem reported_accepts {s : State} {r : Record} {kind : ReportKind} {i : Nat} {n : Node}
    (hs : s.topologyConsistent)
    (h : s.running = true ∧ s.handoffs.observations = [] ∧ r.reportFormat = 1 ∧ malformed r = none ∧
      reportKind r.reportKindCode = some kind ∧ filterPasses s.image kind r.reporter = true ∧
      s.nodeEntry r.reporter = some (i, n) ∧ (n.quarantined = false ∨ kind = .nodeWithdraw)) :
    accepts (reported s r) r [] kind i n where
  running := h.1
  free := h.2.1
  head := rfl
  format := h.2.2.1
  wellFormed := h.2.2.2.1
  code := h.2.2.2.2.1
  filter := h.2.2.2.2.2.1
  store := State.topologyConsistent_of_store (s := s) rfl hs
  reporter := h.2.2.2.2.2.2.1
  sound := h.2.2.2.2.2.2.2

/-- A record that the network accepts from node 0. -/
theorem net_accepts {r : Record} {kind : ReportKind} {n : Node}
    (h : r.reportFormat = 1 ∧ malformed r = none ∧ reportKind r.reportKindCode = some kind ∧
      filterPasses img kind r.reporter = true ∧ net.nodeEntry r.reporter = some (0, n) ∧
      (n.quarantined = false ∨ kind = .nodeWithdraw)) : accepts (reported net r) r [] kind 0 n :=
  reported_accepts (netWith_consistent _) ⟨rfl, rfl, h⟩

/-- The port table of node i of the packed network: below 64 the ends 0 of its links, below 128 the ends 1, below 145
claims. -/
def packedPorts (links claims i : Nat) : List (Nat × PortRef) :=
  if i < 64 then (List.range (min 16 (links - 16 * i))).map fun p => (p, .linkEnd (16 * i + p) .zero)
  else if i < 128 then
    (List.range (min 16 (links - 16 * (i - 64)))).map fun p => (p, .linkEnd (16 * (i - 64) + p) .one)
  else if i < 145 then (List.range (min 16 (claims - 16 * (i - 128)))).map fun p => (p, .claim)
  else []

/-- Claim m of the packed network: port m mod 16 of one of the nodes from 128 on hears port m of node 145. -/
def packedClaim (m : Nat) : Claim :=
  { claimant := 128 + m / 16, port := m % 16, heardId := word (145 + 4096), heardPort := m, timer := 30 }

/-- A network of 146 nodes with some number of links and of claims; node i has the id 4096 + i. -/
def packed (links claims : Nat) : State :=
  base.setStore
    { nodes := (List.range 146).map fun i => (i, node (word (i + 4096)) (packedPorts links claims i))
      claims := (List.range claims).map packedClaim
      links := (List.range links).map fun m => (m, join (m / 16) (m % 16) (64 + m / 16) (m % 16) freshDirection) }

theorem packed_portAt (links claims i p : Nat) : (packed links claims).portAt i p =
    if i < 146 then tableGet (packedPorts links claims i) p else none := by
  show Option.bind (tableGet
    ((List.range 146).map fun i => (i, node (word (i + 4096)) (packedPorts links claims i))) i) _ = _
  rw [tableGet_range]
  split <;> rfl

theorem packedPorts_get (links claims i p : Nat) : tableGet (packedPorts links claims i) p =
    if i < 64 then (if p < min 16 (links - 16 * i) then some (.linkEnd (16 * i + p) .zero) else none)
    else if i < 128 then
      (if p < min 16 (links - 16 * (i - 64)) then some (.linkEnd (16 * (i - 64) + p) .one) else none)
    else if i < 145 then (if p < min 16 (claims - 16 * (i - 128)) then some .claim else none)
    else none := by
  unfold packedPorts
  split
  · exact tableGet_range _ _ _
  · split
    · exact tableGet_range _ _ _
    · split
      · exact tableGet_range _ _ _
      · rfl

theorem packed_linkAt (links claims k : Nat) : (packed links claims).linkAt k =
    if k < links then some (join (k / 16) (k % 16) (64 + k / 16) (k % 16) freshDirection) else none :=
  tableGet_range _ _ _

theorem packed_consistent {links claims : Nat} (hl : links ≤ 1024) (hc : claims ≤ 272) :
    (packed links claims).topologyConsistent where
  nodesRising := risingTable_range _ _
  linksRising := risingTable_range _ _
  ids := by
    show ((((List.range 146).map fun i => (i, node (word (i + 4096)) (packedPorts links claims i))).map
      fun e => e.2.id)).Nodup
    rw [List.map_map]
    refine List.Nodup.map_on ?_ List.nodup_range
    intro a ha b hb h
    have := congrArg BitVec.toNat h
    simp only [List.mem_range] at ha hb
    simp only [Function.comp, node, newNode, word, BitVec.toNat_ofNat] at this
    omega
  claims := by
    show (((List.range claims).map packedClaim).map fun c => (c.claimant, c.port)).Nodup
    rw [List.map_map]
    refine List.Nodup.map_on ?_ List.nodup_range
    intro a _ b _ h
    simp only [Function.comp, packedClaim, Prod.mk.injEq] at h
    omega
  portsRising := by
    intro e he
    obtain ⟨i, -, rfl⟩ := List.mem_map.mp he
    show risingTable (packedPorts links claims i) = true ∧ (packedPorts links claims i).length ≤ 16
    unfold packedPorts
    split
    · exact ⟨risingTable_range _ _, by simp⟩
    · split
      · exact ⟨risingTable_range _ _, by simp⟩
      · split
        · exact ⟨risingTable_range _ _, by simp⟩
        · exact ⟨rfl, by simp⟩
  claimPort := by
    intro c h
    obtain ⟨m, hm, rfl⟩ := List.mem_map.mp h
    rw [List.mem_range] at hm
    simp only [packed_portAt, packedPorts_get, packedClaim]
    rw [if_pos (by omega), if_neg (by omega), if_neg (by omega), if_pos (by omega), if_pos (by omega)]
  portClaim := by
    intro i p h
    rw [packed_portAt, packedPorts_get] at h
    split at h <;> [skip; cases h]
    split at h
    · split at h <;> cases h
    · split at h
      · split at h <;> cases h
      · split at h <;> [skip; cases h]
        split at h <;> [skip; cases h]
        refine List.find?_isSome.mpr
          ⟨packedClaim (16 * (i - 128) + p), List.mem_map.mpr ⟨_, List.mem_range.mpr ?_, rfl⟩, ?_⟩
        · omega
        · simp only [Claim.isAt, packedClaim, Bool.and_eq_true, beq_iff_eq]
          omega
  endPort := by
    intro k l d h
    rw [packed_linkAt] at h
    split at h <;> cases h
    cases d
    · show (packed links claims).portAt (k / 16) (k % 16) = _
      rw [packed_portAt, packedPorts_get, if_pos (by omega), if_pos (by omega), if_pos (by omega)]
      congr 2
      omega
    · show (packed links claims).portAt (64 + k / 16) (k % 16) = _
      rw [packed_portAt, packedPorts_get, if_pos (by omega), if_neg (by omega), if_pos (by omega), if_pos (by omega)]
      congr 2
      omega
  portEnd := by
    intro i p k d h
    rw [packed_portAt, packedPorts_get] at h
    split at h <;> [skip; cases h]
    split at h
    · split at h <;> cases h
      refine ⟨_, (packed_linkAt _ _ _).trans (if_pos (by omega)), ?_⟩
      simp only [join, Link.endAt, LinkEnd.mk.injEq]
      omega
    · split at h
      · split at h <;> cases h
        refine ⟨_, (packed_linkAt _ _ _).trans (if_pos (by omega)), ?_⟩
        simp only [join, Link.endAt, LinkEnd.mk.injEq]
        omega
      · split at h <;> [skip; cases h]
        split at h <;> cases h

/-- An ADJACENCY_CLAIM of a node about its port, hearing a port of another node, with its withdraw flag. -/
def claim (id : NodeId) (port : Nat) (heard : NodeId) (far : Nat) (withdraw : Bool) : Record :=
  report id (word (port + if withdraw then 65536 else 0)) heard (word far) 3 5

/-- Claims about a link's end: withdrawn, confirmed, heard at another port and at another node; at a port with no entry:
withdrawn and stored. -/
theorem test_hyps_ClaimOutcomes : ([(1, 0x20#32, 1, true), (1, 0x20#32, 1, false), (1, 0x20#32, 2, false),
      (1, 0x30#32, 1, false), (2, 0x20#32, 1, true), (2, 0x30#32, 1, false)] : List (Nat × NodeId × Nat × Bool)).all
      (fun (p, heard, far, w) => bit ((claim 0x10#32 p heard far w).word 1) 16 == w) = true ∧
    (∀ x ∈ ([(1, 0x20#32, 1, true), (1, 0x20#32, 1, false), (1, 0x20#32, 2, false), (1, 0x30#32, 1, false),
        (2, 0x20#32, 1, true), (2, 0x30#32, 1, false)] : List (Nat × NodeId × Nat × Bool)),
      accepts (reported net (claim 0x10#32 x.1 x.2.1 x.2.2.1 x.2.2.2)) (claim 0x10#32 x.1 x.2.1 x.2.2.1 x.2.2.2) []
        .adjacencyClaim 0 (node 0x10#32 [(1, .linkEnd 0 .zero)])) ∧
    net.portAt 0 1 = some (.linkEnd 0 .zero) ∧ net.portAt 0 2 = none ∧
    net.idAt ((join 0 1 1 1 freshDirection).endAt (opposite .zero)).node = 0x20#32 := by
  refine ⟨by decide +kernel, ?_, by decide +kernel, by decide +kernel, by decide +kernel⟩
  simp only [List.forall_mem_cons]
  exact ⟨net_accepts (by decide +kernel), net_accepts (by decide +kernel), net_accepts (by decide +kernel),
    net_accepts (by decide +kernel), net_accepts (by decide +kernel), net_accepts (by decide +kernel),
    fun _ h => absurd h List.not_mem_nil⟩

/-- Claims at a port with a stored claim: withdrawn and replaced. -/
theorem test_hyps_ClaimOutcomes_claim (w : Bool) :
    accepts (reported claimed (claim 0x10#32 1 0x30#32 1 w)) (claim 0x10#32 1 0x30#32 1 w) [] .adjacencyClaim 0
      (node 0x10#32 [(1, .claim)]) ∧ claimed.portAt 0 1 = some .claim :=
  ⟨reported_accepts claimed_consistent (by cases w <;> decide +kernel), by decide +kernel⟩

/-- A seventeenth port refused and a sixteenth taken; an unmatched claim with 255 and with 256 claims stored; a match
with 1023 and with 1024 links. -/
theorem test_hyps_ClaimOutcomes_full :
    accepts (reported (packed 1024 256) (claim 4096#32 16 4241#32 0 false)) (claim 4096#32 16 4241#32 0 false) []
      .adjacencyClaim 0 (node 4096#32 (packedPorts 1024 256 0)) ∧
    (packed 1024 256).portAt 0 16 = none ∧ (packed 1024 256).portCount 0 = 16 ∧
    accepts (reported (packed 1023 255) (claim 4159#32 15 4241#32 0 false)) (claim 4159#32 15 4241#32 0 false) []
      .adjacencyClaim 63 (node 4159#32 (packedPorts 1023 255 63)) ∧
    (packed 1023 255).portCount 63 = 15 ∧
    accepts (reported (packed 1024 256) (claim 4241#32 0 4097#32 99 false)) (claim 4241#32 0 4097#32 99 false) []
      .adjacencyClaim 145 (node 4241#32 []) ∧
    (packed 1024 256).evicted 145 0 (packed 1024 256).store.claims = some (packedClaim 0) ∧
    (packed 1024 255).evicted 145 0 (packed 1024 255).store.claims = none ∧
    accepts (reported (packed 1024 256) (claim 4241#32 5 4224#32 5 false)) (claim 4241#32 5 4224#32 5 false) []
      .adjacencyClaim 145 (node 4241#32 []) ∧
    (packed 1024 256).indexOf 4224#32 = some 128 ∧ (packed 1024 256).claimAt 128 5 = some (packedClaim 5) ∧
    (packed 1024 256).store.links.length = 1024 ∧ (packed 1023 256).store.links.length = 1023 :=
  ⟨reported_accepts (packed_consistent (by decide) (by decide)) (by decide +kernel), by decide +kernel,
    by decide +kernel, reported_accepts (packed_consistent (by decide) (by decide)) (by decide +kernel),
    by decide +kernel, reported_accepts (packed_consistent (by decide) (by decide)) (by decide +kernel),
    by decide +kernel, by decide +kernel,
    reported_accepts (packed_consistent (by decide) (by decide)) (by decide +kernel), by decide +kernel,
    by decide +kernel, by decide +kernel, by decide +kernel⟩

/-- R15: the oldest claim other than the match is evicted, and its notice comes first (assumption log 11). -/
theorem test_link_table_full :
    let t := after .intakeTakeRecord (reported (packed 1024 256) (claim 4241#32 0 4224#32 0 false))
    t.notices.inbox.map (fun n => (n.event, n.subject, n.port)) =
      [(.claimEvicted, 4224#32, 1), (.linkTableFull, 4241#32, 0)] ∧ t.store.claims.length = 256 := by decide +kernel

/-- A SPAN_CONDITION of node 0x10 about port 1: UP, 250 tenths, cost 10; a CHANNEL_STATE with channel 79 lit. -/
def spanReport : Record := report 0x10#32 0x10001#32 250#32 10#32 4 5

/-- A CHANNEL_STATE of node 0x10 about port 1. -/
def channelReport : Record := report 0x10#32 1#32 1#32 0#32 5 6

theorem test_hyps_SpanAndChannelReports :
    accepts (reported net spanReport) spanReport [] .spanCondition 0 (node 0x10#32 [(1, .linkEnd 0 .zero)]) ∧
    accepts (reported net channelReport) channelReport [] .channelState 0 (node 0x10#32 [(1, .linkEnd 0 .zero)]) ∧
    (reported net spanReport).describedDirection 0 spanReport.localPort = some (0, .zero) ∧
    (reported net channelReport).describedDirection 0 channelReport.localPort = some (0, .zero) ∧
    (reported net spanReport).linkAt 0 = some (join 0 1 1 1 (upDir 2092 10 0#80)) ∧
    (reported net spanReport).inService 0 .zero = true ∧
    (convertNoise (profileAt img 0) (spanReport.word 2)).1 = 2092 + 1224 ∧ (globalsOf img).linkChange = 1024 :=
  ⟨net_accepts (by decide +kernel),
    net_accepts (by decide +kernel), by decide +kernel,
    by decide +kernel, by decide +kernel, by decide +kernel, by decide +kernel, by decide +kernel⟩

/-- The same reports about port 2, which has no entry, and about the port of a stored claim. -/
theorem test_hyps_SpanAndChannelReports_no_link :
    accepts (reported net (report 0x10#32 0x10002#32 250#32 10#32 4 5)) (report 0x10#32 0x10002#32 250#32 10#32 4 5) []
      .spanCondition 0 (node 0x10#32 [(1, .linkEnd 0 .zero)]) ∧ net.describedDirection 0 2 = none ∧
    accepts (reported claimed channelReport) channelReport [] .channelState 0 (node 0x10#32 [(1, .claim)]) ∧
    claimed.describedDirection 0 channelReport.localPort = none :=
  ⟨net_accepts (by decide +kernel), by decide +kernel, reported_accepts claimed_consistent (by decide +kernel),
    by decide +kernel⟩

/-- A NODE_ANNOUNCE of a known node with its own profile and with another; a NODE_WITHDRAW. -/
theorem test_hyps_RefreshAndWithdraw :
    accepts (reported net (announce 0x10#32)) (announce 0x10#32) [] .nodeAnnounce 0
      (node 0x10#32 [(1, .linkEnd 0 .zero)]) ∧
    bits ((announce 0x10#32).word 1) 0 8 = (node 0x10#32 []).profile ∧
    accepts (reported net (report 0x10#32 0xF#32 0#32 0#32 1 7)) (report 0x10#32 0xF#32 0#32 0#32 1 7) []
      .nodeAnnounce 0 (node 0x10#32 [(1, .linkEnd 0 .zero)]) ∧
    bits ((report 0x10#32 0xF#32 0#32 0#32 1 7).word 1) 0 8 ≠ (node 0x10#32 []).profile ∧
    accepts (reported net (report 0x10#32 0#32 0#32 0#32 2 2)) (report 0x10#32 0#32 0#32 0#32 2 2) []
      .nodeWithdraw 0 (node 0x10#32 [(1, .linkEnd 0 .zero)]) :=
  ⟨net_accepts (by decide +kernel), by decide +kernel,
    net_accepts (by decide +kernel), by decide +kernel,
    net_accepts (by decide +kernel)⟩

/-- R22: at a threshold of 1024 a change of 1224 in a direction in service is significant. -/
theorem test_significant_change : ((after .intakeTakeRecord (reported (held .active) spanReport)).notices.inbox.map
    (·.event) = [.significantChange]) ∧
    (after .intakeTakeRecord (reported (held .active) spanReport)).sweep.pendingSet = [] := by decide +kernel

/-- A node of the network with its hold timer at 0. -/
def due (x : Liveness) : State := net.updateNode 1 fun n => { n with liveness := x, hold := 0 }

theorem test_hyps_NodeHoldExpiry : (due .live).running = true ∧
    ((due .live).nodeAt 1).map (fun n => (n.liveness, n.hold)) = some (.live, 0) ∧
    ((due .stale).nodeAt 1).map (fun n => (n.liveness, n.hold)) = some (.stale, 0) ∧
    (net.nodeAt 1).map (·.hold) = some 30 := by decide +kernel

/-- A direction in HOLDOFF whose timer has some events left. -/
def heldOff (n : Nat) : Direction := { freshDirection with cond := .holdoff, holdoff := some n }

/-- The stored claim with its timer at a count, the settle timer at a count. -/
def waitingFor (n : Nat) : State :=
  (claimed.setClaims [{ claimant := 0, port := 1, heardId := 0x20#32, heardPort := 1, timer := n }]).setDispatcher
    { net.dispatcher with settle := some n }

/-- Each timer at its last event, and with one left. -/
theorem test_hyps_Expiries : (waitingFor 0).running = true ∧ ((waitingFor 0).claimAt 0 1).map (·.timer) = some 0 ∧
    ((waitingFor 1).claimAt 0 1).map (·.timer) = some 1 ∧ (waitingFor 0).dispatcher.settle = some 0 ∧
    (waitingFor 1).dispatcher.settle ≠ some 0 ∧ (netWith (heldOff 0)).running = true ∧
    (netWith (heldOff 0)).directionAt 0 .one = some (heldOff 0) ∧ (heldOff 0).holdoff = some 0 ∧
    (netWith (heldOff 1)).directionAt 0 .one = some (heldOff 1) ∧ (heldOff 1).holdoff ≠ some 0 ∧
    (held .broken).lightpathAt 5 = some (lightpath .broken) ∧ (lightpath .broken).timer = some 0 ∧
    ((reservedFor 1).lightpathAt 5).map (·.timer) = some (some 1) := by decide +kernel

/-! ### Witnesses: the Span Conditioner -/

/-- R29, R34, R36: the default profile confirms UP at 2 and lifts suppression at 32. -/
theorem test_hyps_ObservationUp : let x : Direction := { upDir 2092 10 0#80 with suppressed := true, flap := 33 }
    (observed (netWith x) true).running = true ∧
    (observed (netWith x) true).handoffs.observations = { link := 0, dir := .one, up := true } :: [] ∧
    (netWith x).linkAt 0 = some (join 0 1 1 1 x) ∧
    (netWith x).receiverProfile (join 0 1 1 1 x) .one = profileAt img 0 ∧ (profileAt img 0).upPersistence = 2 ∧
    (profileAt img 0).reuse = 32 ∧ x.flap - 1 = 32 := by decide +kernel

theorem test_observation_up_lifts :
    ((after .observationUp (observed (netWith { upDir 2092 10 0#80 with suppressed := true, flap := 33 })
      true)).directionAt 0 .one).map (fun y => (y.suppressed, y.flap)) = some (false, 32) := by decide +kernel

/-- R30, R31, R35: the default profile confirms a failure at 2, and 48 + 16 reaches the suppress threshold 64. -/
theorem test_hyps_ObservationDown : let x : Direction := { upDir 2092 10 0#80 with
      cond := .falling, count := 1, flap := 48 }
    (observed (netWith x) false).running = true ∧
    (observed (netWith x) false).handoffs.observations = { link := 0, dir := .one, up := false } :: [] ∧
    (netWith x).linkAt 0 = some (join 0 1 1 1 x) ∧
    (netWith x).receiverProfile (join 0 1 1 1 x) .one = profileAt img 0 ∧
    (profileAt img 0).downPersistence = x.count + 1 ∧ (profileAt img 0).suppress = min (x.flap + 16) 255 := by
  decide +kernel

theorem test_observation_down_confirms :
    ((after .observationDown (observed (netWith { upDir 2092 10 0#80 with cond := .falling, count := 1, flap := 48 })
      false)).directionAt 0 .one).map (fun y => (y.cond, y.holdoff, y.suppressed)) =
    some (.holdoff, some 5, true) := by decide +kernel

/-! ### Witnesses: queries, engines, commits -/

theorem test_hyps_DispatchChoosesOldest : (queued net (query 13 .flush)).nextSlot = some 2 ∧ net.nextSlot = none ∧
    net.running = true ∧ (queued net (query 13 .flush)).servable 2 = true := by decide +kernel

/-- R133: with both engines busy a FIND in the high queue waits, a lookup in the low queue is taken, and with the FIND
alone nothing is. -/
theorem test_waiting_search_lets_lookup_pass :
    let busy := (net.setEngine .e0 (.answering (context 0x20#32))).setEngine .e1 (.answering (context 0x20#32))
    let s := queued busy { query 1 (.find (findReq 0x20#32)) with high := true }
    s.nextSlot = none ∧ s.servable 2 = false ∧
    ((s.setSlot 9 (.queued (query 6 (.lookupNode 0x10#32)))).enqueue 9 false).nextSlot = some 9 := by decide +kernel

/-- A FIND to a destination queued in slot 2. -/
def finding (source dest : NodeId) : State :=
  queued net (query 1 (.find { findReq dest with source := source }))

/-- An assignment, an unknown source, an unknown destination, equal endpoints. -/
theorem test_hyps_SearchAssigned : (finding 0x10#32 0x20#32).running = true ∧
    (finding 0x10#32 0x20#32).nextSlot = some 2 ∧
    (finding 0x10#32 0x20#32).queuedQuery 2 = some (query 1 (.find (findReq 0x20#32))) ∧
    (finding 0x10#32 0x20#32).fitNode 0x10#32 = true ∧ (finding 0x10#32 0x20#32).fitNode 0x20#32 = true ∧
    (finding 0x30#32 0x20#32).nextSlot = some 2 ∧ (finding 0x30#32 0x20#32).fitNode 0x30#32 = false ∧
    (finding 0x10#32 0x30#32).nextSlot = some 2 ∧ (finding 0x10#32 0x10#32).nextSlot = some 2 := by decide +kernel

theorem test_hyps_FlushEmpties : (queued (held .active) (query 13 .flush)).running = true ∧
    (queued (held .active) (query 13 .flush)).nextSlot = some 2 ∧
    (queued (held .active) (query 13 .flush)).queuedQuery 2 = some (query 13 .flush) := by decide +kernel

/-- R104, R140: the answer of Engine 0 not yet taken is replaced in its place, Engine 1 is answered after it, and the
FLUSH last. -/
theorem test_flush_answers :
    let ctx := { context 0x20#32 with slot := 9 }
    let s := ((net.setEngine .e0 (.answering ctx)).setEngine .e1 (.searching (context 0x20#32) [])).offer
      (ctx.answer .e0 .noPath 0xFFFF (ctx.routeless 5))
    (after .dispatchQuery ((s.setSlot 31 (.queued (query 13 .flush))).enqueue 31 false)).writer.answers.map
      (fun a => (a.slot, a.status, a.provisional)) =
      [(9, .flushed, false), (2, .flushed, false), (31, .done, false)] := by decide +kernel

/-- Each kind of query that changes no table, taken from slot 2. -/
theorem test_hyps_DispatchServes : ([QueryBody.lookupNode 0x10#32, .lookupNode 0x30#32, .lookupLink 0x10#32 1,
      .lookupLink 0x10#32 65535, .lookupLink 0#32 0, .status true, .status false, .activate 261, .release 261,
      .adopt 0 0 0 [], .sweep .stop, .save, .reload].all fun b =>
    decide ((queued net (query 6 b)).running = true ∧ (queued net (query 6 b)).nextSlot = some 2 ∧
      (queued net (query 6 b)).queuedQuery 2 = some (query 6 b) ∧ b.isSearch = false)) = true ∧
    (queued net (query 11 .save)).port.op.isSave = false ∧ saving.port.op.isSave = true ∧
    (queued claimed (query 7 (.lookupLink 0x10#32 1))).nextSlot = some 2 := by decide +kernel

theorem test_hyps_DispatchServes_claim : claimed.indexOf 0x10#32 = some 0 ∧ claimed.portAt 0 1 = some .claim ∧
    (claimed.claimAt 0 1).isSome = true ∧ claimed.portAt 0 0 = none := by decide +kernel

/-- A STATUS queued in slot 2: the slots and the capacities are in order. -/
theorem test_hyps_DispatchServes_status (clear : Bool) :
    (queued net (query 8 (.status clear))).slotsServed ∧ (queued net (query 8 (.status clear))).withinCapacity := by
  have slots : ∀ n, tableGet (queued net (query 8 (.status clear))).dispatcher.slots n =
      if n = 2 then some (.queued (query 8 (.status clear))) else none := by
    intro n
    have h : (queued net (query 8 (.status clear))).dispatcher.slots = [(2, .queued (query 8 (.status clear)))] := rfl
    rw [h]
    simp only [tableGet, eq_comm]
  have places : (queued net (query 8 (.status clear))).servedPlaces = [] := rfl
  refine ⟨⟨rfl, ?_, ?_, ?_, ?_, ?_, ?_, ?_, ?_⟩, ⟨rfl, ?_, ?_, ?_, ?_, ?_, ?_, ?_, ?_, ?_, ?_, ?_, ?_, ?_⟩⟩
  · cases clear <;> decide +kernel
  · cases clear <;> decide +kernel
  · intro n
    rw [slots, show (queued net (query 8 (.status clear))).dispatcher.high = [] from rfl]
    split_ifs <;> simp [query]
  · intro n
    rw [slots, show (queued net (query 8 (.status clear))).dispatcher.low = [2] from rfl]
    split_ifs with h <;> simp [h, query]
  · rw [places]
    exact List.nodup_nil
  · intro n v
    rw [slots, places]
    split_ifs <;> simp
  · intro e
    cases e <;> rfl
  · intro n v x
    rw [slots]
    split_ifs <;> simp
  all_goals try (cases clear <;> decide +kernel)
  refine ⟨by cases clear <;> decide +kernel, fun n v x h => ?_⟩
  rw [slots] at h
  split_ifs at h
  cases h

/-- A NODE_CLEAR of a suppressed network; a CONFIG_SET that changes the reuse level, one that changes nothing. -/
theorem test_hyps_DispatchChanges :
    let s := netWith { upDir 2092 10 0#80 with suppressed := true, flap := 40 }
    let v := spliceImage (defaultProfileBytes.take 10) 8 1 [50#8]
    (queued s (query 14 (.nodeClear 0x10#32))).nextSlot = some 2 ∧
    ((queued s (query 14 (.nodeClear 0x10#32))).nodeEntry 0x10#32).map (·.1) = some 0 ∧
    (queued s (query 14 (.nodeClear 0x30#32))).nodeEntry 0x30#32 = none ∧
    (queued s (query 10 (.configSet (.profile 0) v))).nextSlot = some 2 ∧
    (ConfigTarget.profile 0).read ((ConfigTarget.profile 0).place img v) ≠ (ConfigTarget.profile 0).read img ∧
    (ConfigTarget.profile 0).read ((ConfigTarget.profile 0).place img (defaultProfileBytes.take 10)) =
      (ConfigTarget.profile 0).read img := by decide +kernel

theorem test_hyps_DispatchChanges_store (x : Direction) (q : Query) :
    (queued (netWith x) q).topologyConsistent :=
  State.topologyConsistent_of_store (s := netWith x) rfl (netWith_consistent x)

/-- 02 section 2.7: a reuse level of 50 lifts the suppression of a score of 50, and one of 49 does not. -/
theorem test_config_set_lifts : let s := netWith { upDir 2092 10 0#80 with suppressed := true, flap := 50 }
    let f := fun b => ((after .dispatchQuery (queued s (query 10 (.configSet (.profile 0)
      (spliceImage (defaultProfileBytes.take 10) 8 1 [b]))))).directionAt 0 .one).map (·.suppressed)
    f 50#8 = some false ∧ f 49#8 = some true := by decide +kernel

theorem test_hyps_WriterTakesAnswer : (answering net).running = true ∧ (answering net).writer.writing = none ∧
    (answering net).writer.answers.map (·.slot) = [2] ∧ (answering net).successorOf 2 = none ∧
    ((answering net).setSlot 2 (.inService .port (some { record := queryRecord 0x33020007#32, settling := false
                                                        }))).successorOf 2 =
      some { record := queryRecord 0x33020007#32, settling := false } := by decide +kernel

/-- A label at a node, at the start of a search or arrived over the link. -/
def labelAt (n : NodeId) (noise : Nat) (closed : Bool) : Label :=
  { node := n, mask := slotRange 0 79, cost := 0, noise := noise, hops := 0, regens := 0, parent := none
    arrival := none, regenHere := false, closed := closed }

/-- Engine 1 searching with one label. -/
def searching (l : Label) : State := net.setEngine .e1 (.searching (context 0x20#32) [l])

/-- The only label, OPEN, is the one that a search step closes. -/
theorem closesNext_single (l : Label) (h : l.closed = false) : closesNext [l] 0 l where
  stored := rfl
  isOpen := h
  first := by
    intro j y hy _
    obtain ⟨hj, rfl⟩ := List.getElem?_eq_some_iff.mp hy
    simp only [List.length_singleton] at hj
    obtain rfl : j = 0 := by omega
    exact .inr ⟨rfl, .inr ⟨rfl, .inr ⟨rfl, le_refl _⟩⟩⟩

/-- An OPEN label at an intermediate node, whose node is known or has left the table. -/
theorem test_hyps_SearchExtends : (searching (labelAt 0x10#32 1049 false)).running = true ∧
    (searching (labelAt 0x10#32 1049 false)).engine .e1 =
      .searching (context 0x20#32) [labelAt 0x10#32 1049 false] ∧
    closesNext [labelAt 0x10#32 1049 false] 0 (labelAt 0x10#32 1049 false) ∧
    (labelAt 0x10#32 1049 false).node ≠ (context 0x20#32).req.dest ∧
    (labelAt 0x30#32 1049 false).node ≠ (context 0x20#32).req.dest ∧
    net.nodeOf 0x30#32 = none ∧ (net.nodeOf 0x10#32).isSome = true :=
  ⟨by decide +kernel, by decide +kernel, closesNext_single _ rfl, by decide, by decide, by decide +kernel,
    by decide +kernel⟩

/-- No OPEN label; one at the destination that is too noisy by 1. -/
theorem test_hyps_SearchStep : (searching (labelAt 0x10#32 1049 true)).running = true ∧
    (searching (labelAt 0x10#32 1049 true)).engine .e1 =
      .searching (context 0x20#32) [labelAt 0x10#32 1049 true] ∧
    (∀ l ∈ [labelAt 0x10#32 1049 true], l.closed = true) ∧
    closesNext [labelAt 0x20#32 9438 false] 0 (labelAt 0x20#32 9438 false) ∧
    (labelAt 0x20#32 9438 false).node = (context 0x20#32).req.dest ∧
    (context 0x20#32).budget < min (9438 + net.dropNoise 0x20#32) 16777215 ∧
    (context 0x20#32).budget = 9437 + net.dropNoise 0x20#32 :=
  ⟨by decide +kernel, by decide +kernel, by decide +kernel, closesNext_single _ rfl, by decide, by decide +kernel,
    by decide +kernel⟩

/-- A label at the destination with its path, of the worked search and alone. -/
theorem test_hyps_SearchStep_path :
    pathTo diamondLabels 4 ([diamondLabels[0]] ++ [diamondLabels[1]] ++ [diamondLabels[4]]) ∧
    diamondLabels[4].node = (context 0xD#32).req.dest ∧
    pathTo [labelAt 0x20#32 9437 false] 0 [labelAt 0x20#32 9437 false] :=
  ⟨.hop 4 1 _ _ _ _ rfl rfl (by decide) rfl diamond_path1 rfl rfl rfl rfl rfl, rfl,
    .start 0 _ rfl rfl rfl rfl rfl rfl⟩

/-- A FIND_PAIR in its SECONDARY phase, without the reserve flag. -/
def pairContext (restarts : Nat) : Context :=
  { context 0x20#32 with
    req := { findReq 0x20#32 with reserve := false }, pair := true, restarts := restarts
    phase := .secondary { route := route, labels := 1, exRisks := [], exNodes := [] } }

/-- The primary of a pair validated and not; a label at the destination exactly at B; the routes validated and not. -/
theorem test_hyps_SearchStep_ends : net.validated 10486 [route] = true ∧
    (netWith freshDirection).validated 10486 [route] = false ∧ (pairContext 1).restarts < 2 ∧
    2 ≤ (pairContext 2).restarts ∧
    min (9437 + net.dropNoise 0x20#32) 16777215 ≤ (context 0x20#32).budget ∧
    (context 0x20#32).req.reserve = true ∧ (pairContext 0).req.reserve = false ∧ (pairContext 0).pair = true := by
  decide +kernel

/-- The candidate over the link from node 0x10 that R83 and R84 allow. -/
theorem test_hyps_SearchExtends_candidate : let x := labelAt 0x10#32 1049 false
    let closed := [{ x with closed := true }]
    (net.nodeOf 0x10#32).map (·.ports) = some [(1, .linkEnd 0 (opposite .one))] ∧ net.inService 0 .one = true ∧
    0x20#32 ∉ (chainOf closed 0).map (·.node) ∧ excludedBy (context 0x20#32).excludedNodes 0x20#32 = false ∧
    net.primaryLink (context 0x20#32) 0 = false ∧ x.hops + 1 ≤ (context 0x20#32).req.hopLimit ∧
    x.mask &&& (net.usable 0 .one &&& ~~~ net.primaryHolds (context 0x20#32) 0 .one) ≠ 0#80 ∧
    min (min (1049 + 0) 16777215 + net.noiseOf 0 .one) 16777215 ≤ (context 0x20#32).budget := by decide +kernel

/-- A regenerator that a label at node 0x10 may take on its way from node 0x40. -/
theorem test_hyps_SearchExtends_regenerator : let ctx := { context 0x20#32 with
      req := { findReq 0x20#32 with source := 0x40#32, regenMax := 1 } }
    let s := net.updateNode 0 fun n => { n with regenTotal := 1 }
    (s.nodeOf 0x10#32).map (fun n => (n.id != ctx.req.source, n.regenInUse + ctx.primaryRegens n.id, n.regenTotal)) =
      some (true, 0, 1) ∧ (labelAt 0x10#32 9437 false).regens < ctx.req.regenMax ∧
    min (9437 + s.dropNoise 0x10#32) 16777215 = ctx.budget := by decide +kernel

/-- A candidate beyond 2048 stored labels ends the phase. -/
theorem test_labels_exhausted :
    let ls := [labelAt 0x10#32 1049 false] ++ List.replicate 2047 (labelAt 0x30#32 0 true)
    (after (.searchStep .e1) (net.setEngine .e1 (.searching (context 0x20#32) ls))).writer.answers.map (·.status) =
      [.labelsExhausted] := by decide +kernel

/-- A commit request for the route. -/
def commitRequest : CommitRequest :=
  { first := route, second := none, budget := 10486, hold := 0, tag := 7, slot := 2 }

/-- Engine 0 committing in a state, with some restarts used. -/
def committing (s : State) (restarts : Nat) : State :=
  s.setEngine .e0 (.committing { context 0x20#32 with restarts := restarts } [labelAt 0x10#32 1049 true] commitRequest)

/-- A request of two routes at different slots. -/
def pairRequest : CommitRequest :=
  { commitRequest with second := some { route with hops := [{ hop with slot := 79 }] } }

/-- The network with every record but some filled at slot 0. -/
def crowded (free : Nat) : State :=
  { net with records :=
    List.replicate (128 - free) { gen := 0, path := some { lightpath .active with
      route := { route with hops := [{ hop with slot := 0 }] } } } ++ List.replicate free LpRecord.fresh }

/-- An accepted request; one on a direction that is not in service; one whose slot record 5 holds; the last restart used
and one left. -/
theorem test_hyps_CommitOutcomes : (committing net 0).running = true ∧
    (committing net 0).engine .e0 = .committing (context 0x20#32) [labelAt 0x10#32 1049 true] commitRequest ∧
    net.routeWhole route = true ∧ net.routeUnlit route = true ∧ net.routeFeasible 10486 route = true ∧
    net.routeUnheld route = true ∧ net.regensSuffice route.regens = true ∧
    net.freeIndexes = 0 :: (List.range 127).map (· + 1) ∧
    (committing (netWith freshDirection) 1).validRoutes 10486 commitRequest.routes = false ∧
    (committing (held .active) 1).validRoutes 10486 commitRequest.routes = true ∧
    (committing (held .active) 2).holdableRoutes commitRequest.routes = false := by decide +kernel

/-- A pair with two FREE records and with one; a single route with none. -/
theorem test_hyps_CommitOutcomes_pair : pairRequest.second = some { route with hops := [{ hop with slot := 79 }] } ∧
    (crowded 2).routeValid 10486 route = true ∧
    (crowded 2).routeValid 10486 { route with hops := [{ hop with slot := 79 }] } = true ∧
    (crowded 2).routeUnheld route = true ∧
    (crowded 2).routeUnheld { route with hops := [{ hop with slot := 79 }] } = true ∧
    (crowded 2).regensSuffice (route.regens ++ route.regens) = true ∧ (crowded 2).freeIndexes = [126, 127] ∧
    (crowded 1).validRoutes 10486 pairRequest.routes = true ∧
    (crowded 1).holdableRoutes pairRequest.routes = true ∧ (crowded 1).freeIndexes.length < 2 ∧
    (crowded 0).freeIndexes.length < commitRequest.routes.length := by decide +kernel

/-- With every record FREE no slot is held. -/
theorem net_lightpathAt (i : Nat) : net.lightpathAt i = none := by
  have h : ∀ i, i < 128 → (net.records.getD i LpRecord.fresh).path = none := by decide +kernel
  by_cases hi : i < 128
  · exact h i hi
  · have : net.records.length = 128 := by decide +kernel
    simp [State.lightpathAt, State.recordAt, List.getD_eq_getElem?_getD,
      List.getElem?_eq_none_iff.2 (show net.records.length ≤ i by omega), LpRecord.fresh]

theorem test_hyps_HoldsStayExclusive : (committing net 0).slotsHeldOnce ∧
    exec (.commit .e0) (committing net 0) = .next (after (.commit .e0) (committing net 0)) ∧
    commitRequest.second = none ∧ net.slotsHeldOnce ∧ exec .adopt net = .next net := by
  have h : net.slotsHeldOnce := fun _ _ _ i _ _ _ hp => by simp [net_lightpathAt i] at hp
  exact ⟨h, by rfl, rfl, h, by rfl⟩

/-! ### Witnesses: the Lightpath Table -/

/-- Tag 261 names record 5; 133, of generation 1, names none. -/
theorem test_hyps_ActivateAndRelease : (toTable (held .reserved) (query 3 (.activate 261))).running = true ∧
    ((toTable (held .reserved) (query 3 (.activate 261))).handoffs.toTable.map (·.slot)) = [some 2] ∧
    (toTable (held .reserved) (query 3 (.activate 133))).named 133 = none ∧
    (toTable (held .reserved) (query 4 (.release 133))).named 133 = none ∧
    (toTable (held .reserved) (query 3 (.activate 261))).named 261 = some (5, lightpath .reserved) ∧
    (toTable (held .broken) (query 3 (.activate 261))).named 261 = some (5, lightpath .broken) ∧
    (toTable (held .broken) (query 4 (.release 261))).named 261 = some (5, lightpath .broken) := by decide +kernel

/-- An entry of a hop list without the regeneration flag. -/
def entry (id : NodeId) (port slot : Nat) : AdoptEntry := { node := id, port := port, slot := slot, regen := false }

/-- A network with an ADOPT of some entries with the Lightpath Table. -/
def adopting (s : State) (es : List AdoptEntry) : State := toTable s (query 5 (.adopt 180 20 es.length es))

/-- The route that an entry of node 0x10 gives at a slot. -/
def routeAt (slot : Nat) : Route := { route with hops := [{ hop with slot := slot }] }

/-- In a network with link 0 the entry of node 0x10 names its hop. -/
theorem adopting_adopts (s : State) (slot : Nat) (h : s.indexOf 0x10#32 = some 0 ∧
    s.portAt 0 1 = some (.linkEnd 0 .zero) ∧ s.linkAt 0 = some (join 0 1 1 1 (upDir 2092 10 0#80)) ∧
    s.idAt 1 = 0x20#32) : s.adopts [entry 0x10#32 1 slot] (routeAt slot) where
  source := ⟨_, rfl, rfl⟩
  length := rfl
  hops := by
    intro i g hg
    match i, hg with
    | 0, hg =>
      cases hg
      refine ⟨0x20#32, ⟨⟨_, _, _, _, _, rfl, h.1, h.2.1, h.2.2.1, h.2.2.2.symm, rfl⟩, ?_, ?_⟩, fun _ => rfl⟩
      · intro f hf
        cases hf
      · intro _ f hf
        obtain rfl := List.mem_singleton.mp hf
        have : (0x10#32 : NodeId) ≠ 0x20#32 := by decide
        exact this
    | _ + 1, hg => cases hg
  regens := rfl

/-- An ADOPT of the route at slot 79; every record filled at slot 0; hop counts 0 and 25. -/
theorem test_hyps_AdoptEntersRecord : (adopting net [entry 0x10#32 1 79]).running = true ∧
    (adopting net [entry 0x10#32 1 79]).handoffs.toTable.length = 1 ∧ 24 < 25 ∧
    (∀ i, ¬ entryFaulty [entry 0x10#32 1 79] i) ∧
    (adopting net [entry 0x10#32 1 79]).adopts [entry 0x10#32 1 79] (routeAt 79) ∧
    (∀ g ∈ (routeAt 79).hops, ¬ (adopting net [entry 0x10#32 1 79]).slotHeld g.link g.dir g.slot) ∧
    (adopting net [entry 0x10#32 1 79]).lightpathAt 0 = none ∧
    (crowded 0).adopts [entry 0x10#32 1 79] (routeAt 79) ∧
    (∀ g ∈ (routeAt 79).hops, ¬ (crowded 0).slotHeld g.link g.dir g.slot) ∧
    ∀ i, i < (crowded 0).records.length → (crowded 0).lightpathAt i ≠ none := by
  refine ⟨by decide +kernel, by decide +kernel, by decide, (entryFault_iff _).2.mp (by decide +kernel),
    adopting_adopts _ _ (by decide +kernel), ?_, by decide +kernel, adopting_adopts _ _ (by decide +kernel), ?_,
    by decide +kernel⟩ <;>
  · intro g hg
    obtain rfl := List.mem_singleton.mp hg
    rw [← State.hasSlot_heldOn _ _ _ _ (by decide)]
    decide +kernel

/-- ADOPTs that are refused: a faulty first and a faulty second entry, a port without a link, a slot that record 5
holds. -/
theorem test_hyps_AdoptEntersRecord_refused :
    (entryFaulty [entry 0x10#32 1 80] 0 ∧ ∀ j, j < 0 → ¬ entryFaulty [entry 0x10#32 1 80] j) ∧
    (entryFaulty [entry 0x10#32 1 3, entry 0x10#32 1 3] 1 ∧
      ∀ j, j < 1 → ¬ entryFaulty [entry 0x10#32 1 3, entry 0x10#32 1 3] j) ∧
    (∀ i, ¬ entryFaulty [entry 0x10#32 2 3] i) ∧
    (0 < [entry 0x10#32 2 3].length ∧ (∀ g far, ¬ net.namesHop [entry 0x10#32 2 3] 0 g far) ∧
      ∀ j, j < 0 → ∃ g far, net.namesHop [entry 0x10#32 2 3] j g far) ∧
    (adopting (held .active) [entry 0x10#32 1 3]).adopts [entry 0x10#32 1 3] (routeAt 3) ∧
    (adopting (held .active) [entry 0x10#32 1 3]).slotHeld 0 .one 3 :=
  ⟨((entryFault_iff _).1 0).mp (by decide +kernel), ((entryFault_iff _).1 1).mp (by decide +kernel),
    (entryFault_iff _).2.mp (by decide +kernel), ((net.adoptLinkFault_iff _).1 0).mp (by decide +kernel),
    adopting_adopts _ _ (by decide +kernel), (State.hasSlot_heldOn _ _ _ _ (by decide)).mp (by decide +kernel)⟩

/-- The lit check of direction 1 of link 0 that a CHANNEL_STATE of node 0x20 raises. -/
def litCheck : StoreEvent := .litCheck 0 .one { node := 0x10#32, port := 1 } { node := 0x20#32, port := 1 }

/-- The lightpath of record 5 with its slot lit, and the link's lit check to take. -/
def litNet : State :=
  ((netWith (upDir 2092 10 (slotBit 3))).setRecord 5 { gen := 2, path := some (lightpath .reserved) }).raiseStore
    litCheck

theorem test_hyps_LitChecksAndLostHops : litNet.running = true ∧ litNet.handoffs.storeToTable = litCheck :: [] ∧
    litNet.stillNames 0 .one { node := 0x10#32, port := 1 } { node := 0x20#32, port := 1 } = true ∧
    litNet.lightpathAt 5 = some (lightpath .reserved) ∧ litNet.routeOn route 0 .one = true ∧
    litNet.routeLit route = true := by decide +kernel

/-- R17, R116: the check activates the record; with another link at the index by then it activates none. -/
theorem test_lit_check_of_removed_link :
    let s := litNet.setStore { litNet.store with links := [(0, join 0 2 1 1 (upDir 2092 10 (slotBit 3)))] }
    ((after .litCheck litNet).lightpathAt 5).map (·.state) = some .active ∧
    s.stillNames 0 .one { node := 0x10#32, port := 1 } { node := 0x20#32, port := 1 } = false ∧
    ((after .litCheck s).lightpathAt 5).map (·.state) = some .reserved := by decide +kernel

/-- A hop-lost event that selects record 5. -/
def lost : HopLost := { subject := .direction 0 .one 0x10#32 1, cause := .confirmedDown }

theorem test_hyps_LitChecksAndLostHops_lost : (held .active).running = true ∧
    ((held .active).raiseStore (.hopLost lost)).handoffs.storeToTable = .hopLost lost :: [] ∧
    ((held .active).raiseConditioner lost).handoffs.conditionerToTable = lost :: [] ∧
    ((held .active).raiseIntake lost).handoffs.intakeToTable = lost :: [] ∧
    lost.subject.selects (lightpath .active) = true := by decide +kernel

/-- A sweep result on tag 261. -/
def swept (st : LpState) (x : Finding) : State :=
  (held st).setSweep { (held st).sweep with outstanding := some { tag := 261, finding := x } }

theorem test_hyps_SweepResultApplied : (swept .reserved .lost).running = true ∧
    (swept .reserved .lost).named 261 = some (5, lightpath .reserved) ∧ (swept .active .lost).named 389 = none ∧
    (swept .active .lost).named 261 = some (5, lightpath .active) ∧
    (swept .degraded (.whole 256)).named 261 = some (5, lightpath .degraded) ∧
    (swept .active (.whole (-1))).sweep.outstanding = some { tag := 261, finding := .whole (-1) } ∧
    (swept .degraded (.whole 0)).globals.recover = 256 ∧
    (swept .active (.whole 0)).globals.marginDrift = 512 := by decide +kernel

/-- R124: a BROKEN record whose route stands, with its timer running and with it stopped, and one whose route does not.
-/
def mended (timer : Option Nat) (x : Direction) (margin : Int) : State :=
  ((netWith x).setRecord 5 { gen := 2, path := some { lightpath .broken with timer := timer } }).setSweep
    { net.sweep with outstanding := some { tag := 261, finding := .whole margin } }

theorem test_hyps_SweepResultApplied_broken : let up := upDir 2092 10 0#80
    (mended none up 0).named 261 = some (5, { lightpath .broken with timer := none }) ∧
    (mended none up 0).routeStands route = true ∧ (mended none freshDirection 0).routeStands route = false ∧
    (mended none up 256).globals.recover = 256 := by decide +kernel

/-- R124, the rows of BROKEN. -/
theorem test_broken_rows : let up := upDir 2092 10 0#80
    let f := fun s => ((after .sweepResult s).lightpathAt 5).map fun p => (p.state, p.timer, p.lastMargin)
    f (mended none up 256) = some (.active, none, 256) ∧ f (mended none up 255) = some (.degraded, none, 255) ∧
    f (mended (some 9) up 0) = some (.reserved, some 9, 0) ∧ f (mended none up (-1)) = some (.broken, none, -1) ∧
    f (mended none freshDirection 256) = some (.broken, none, 6296) := by decide +kernel

/-- R124: margin 256 restores a DEGRADED record at recover level 256, 255 does not. -/
theorem test_sweep_result_recovers :
    ((after .sweepResult (swept .degraded (.whole 256))).lightpathAt 5).map (·.state) = some .active ∧
    ((after .sweepResult (swept .degraded (.whole 255))).lightpathAt 5).map (·.state) = some .degraded := by
  decide +kernel

/-! ### Witnesses: the Sweep Unit -/

/-- The Sweep Unit with a pass at a position, or none. -/
def passing (s : State) (pos : Option Nat) (pend : List Nat) : State :=
  s.setSweep { s.sweep with pass := pos, pendingSet := pend }

theorem test_hyps_SweepStartsAndStops : (toSweep net .startSingle).running = true ∧
    (toSweep net .startCyclic).handoffs.toSweep.length = 1 ∧ (toSweep net .stop).handoffs.toSweep.length = 1 ∧
    (net.setSweep { net.sweep with timer := some 0 }).sweep.timer = some 0 ∧ net.sweep.timer ≠ some 0 ∧
    net.sweep.alarmRef = false ∧ net.sweep.pass = none ∧ (passing net (some 128) []).sweep.pass.isSome = true := by
  decide +kernel

/-- A pending record, a pending FREE record, a walk that finds record 5 at its position, a walk past it. -/
theorem test_hyps_SweepStep : (passing (held .broken) (some 5) [5]).running = true ∧
    (passing (held .broken) (some 5) [5]).sweep.outstanding = none ∧
    (held .broken).lightpathAt 5 = some (lightpath .broken) ∧ (lightpath .broken).state ≠ .reserved ∧
    (held .broken).lightpathAt 127 = none ∧ (passing (held .broken) (some 5) []).sweep.pass = some 5 ∧
    (passing net (some 128) []).sweep.pass = some 128 := by decide +kernel

/-- A result outstanding; nothing to do. -/
theorem test_hyps_SweepStep_waits : (swept .active .lost).running = true ∧
    (swept .active .lost).sweep.outstanding = some { tag := 261, finding := .lost } ∧
    net.sweep.outstanding = none ∧ net.sweep.pendingSet = [] ∧ net.sweep.pass = none := by decide +kernel

theorem test_hyps_SweepStep_end (j : Nat) : (passing net (some 128) []).lightpathAt j = none := net_lightpathAt j

/-! ### Witnesses: invariants -/

/-- The network with an ACTIVE lightpath, one byte of memory, and a LIT_CHECK waiting. -/
def live : State := { held .active with memory := [(4, 0x5A#8)], pending := [.litCheck] }

theorem live_step : step live = .next { live with pending := [] } := by rfl

theorem test_hyps_MemoryAndGenerations : memoryWf live.memory = true ∧ live.generationsLegal ∧
    live.records.length = 128 :=
  ⟨by decide, by unfold State.generationsLegal; decide +kernel, by decide +kernel⟩

theorem test_hyps_RegeneratorCountsAgree : live.regensCounted :=
  ⟨by decide +kernel, by unfold State.idsUnique; decide +kernel, by decide +kernel⟩

theorem live_image : live.imageInForceSound := by
  intro x h
  cases h
  decide +kernel

theorem test_hyps_DirectionFieldsFit : live.directionsConditioned ∧ live.nodesInRange := by
  constructor
  · intro e he
    simp only [live, held, net, netWith, State.setRecord, State.setStore, List.mem_singleton] at he
    subst he
    constructor <;> constructor <;> decide
  · intro e he
    simp only [live, held, net, netWith, State.setRecord, State.setStore, List.mem_cons, List.not_mem_nil,
      or_false] at he
    rcases he with rfl | rfl <;> constructor <;> decide

/-- R36: a suppressed direction with a score of 33, one above the reuse level of the default profile. -/
def suppressed : State := netWith { upDir 2092 10 0#80 with suppressed := true, flap := 33 }

theorem test_hyps_DirectionFieldsFit_suppression : suppressed.suppressionHeld ∧ suppressed.nodesInRange ∧
    suppressed.topologyConsistent ∧ suppressed.imageInForceSound ∧ suppressed.configQueriesSound ∧
    suppressed.loadQuiet ∧ step suppressed = .next suppressed.oneSecond := by
  refine ⟨?_, ?_, netWith_consistent _, ?_, fun slot q t values h => ?_, ?_, by rfl⟩
  · intro k l d h _ _
    simp only [State.linkAt, suppressed, netWith, State.setStore, tableGet] at h
    split at h
    · cases h
      cases d <;> decide +kernel
    · cases h
  · intro e he
    simp only [suppressed, netWith, State.setStore, List.mem_cons, List.not_mem_nil, or_false] at he
    rcases he with rfl | rfl <;> constructor <;> decide
  · intro x h
    cases h
    decide +kernel
  · simp [suppressed, netWith, base, State.reset, State.setPort, State.setStore, Dispatcher.empty, tableGet] at h
  · constructor <;> simp [suppressed, netWith, base, State.setPort, State.setStore]

theorem live_capacity : live.withinCapacity where
  records := by decide +kernel
  nodes := by decide +kernel
  ports := by decide +kernel
  links := by decide +kernel
  claims := by decide +kernel
  ingest := by decide +kernel
  reportStagings := by decide +kernel
  queryStagings := by decide +kernel
  buffer := by decide +kernel
  queries := by decide +kernel
  answers := by decide +kernel
  evaluations := by decide +kernel
  reportWords := by decide +kernel
  queryWords := ⟨by decide +kernel, fun _ _ _ h => nomatch h⟩

theorem test_hyps_CapacitiesKept : live.withinCapacity ∧ live.claimsDistinct ∧ live.bufferAddressesDistinct ∧
    live.topologyConsistent :=
  ⟨live_capacity, by unfold State.claimsDistinct; decide +kernel,
    by unfold State.bufferAddressesDistinct; decide +kernel,
    State.topologyConsistent_of_store (s := net) rfl (netWith_consistent _)⟩

/-- An ACTIVATE of slot 2 is with the Lightpath Table, slot 31 is QUEUED, and LIT_CHECK waits. -/
def serving : State :=
  { ((toTable live (query 3 (.activate 261))).setSlot 31 (.queued (query 13 .flush))).enqueue 31 false with
    pending := [.litCheck] }

theorem serving_slots (n : Nat) : tableGet serving.dispatcher.slots n =
    if n = 2 then some (.inService .table none) else if n = 31 then some (.queued (query 13 .flush)) else none := by
  have h : serving.dispatcher.slots = [(2, .inService .table none), (31, .queued (query 13 .flush))] := by rfl
  rw [h]
  simp only [tableGet, eq_comm]

theorem test_hyps_CapacitiesKept_slots : serving.slotsServed where
  rising := by decide +kernel
  range := by decide +kernel
  queues := by decide +kernel
  high := by
    intro n
    rw [serving_slots, show serving.dispatcher.high = [] from rfl]
    split_ifs <;> simp [query]
  low := by
    intro n
    rw [serving_slots, show serving.dispatcher.low = [31] from rfl]
    by_cases h : n = 2
    · subst h
      simp
    · by_cases h' : n = 31 <;> simp [h, h', query]
  once := by decide +kernel
  served := by
    intro n v
    rw [serving_slots, show serving.servedPlaces = [(2, .table)] from rfl]
    by_cases h : n = 2
    · subst h
      simp [eq_comm]
    · by_cases h' : n = 31 <;> simp [h, h']
  engines := by intro e; cases e <;> decide +kernel
  successors := by
    intro n v x
    rw [serving_slots]
    split_ifs <;> simp

theorem serving_step : step serving = .next { serving with pending := [] } := by rfl

theorem test_hyps_CapacitiesKept_image : live.imageInForceSound := live_image

/-- An answer half written and the words of a notice to hand on. -/
def handing : State :=
  { (writing (buffered 31) [(0x0F904404, 1#32), (0x0F9045FC, 1#32)]).setNotices
      { net.notices with out := [producerWord 0x0F910000 1 (some 1)] } with pending := [.resultWordHandoff] }

theorem test_hyps_BufferStaysSound : handing.bufferSound ∧ handing.writesAligned ∧ handing.imageInForceSound := by
  refine ⟨⟨by decide +kernel, by unfold State.bufferAddressesDistinct; decide +kernel⟩, ⟨?_, ?_, by decide +kernel⟩, ?_⟩
  · intro w h
    cases h
    decide
  · intro w ws h h'
    cases h
    cases h'
    decide
  · intro x h
    cases h
    decide +kernel

theorem handing_step : step handing = .next (after .resultWordHandoff { handing with pending := [] }) := by rfl

/-- R176, R182: the load is quiet at reset. -/
theorem test_hyps_ImageInForceSound_load : State.reset.loadQuiet ∧ (loading .waiting 7).loadQuiet ∧
    (loading .due 7).loadQuiet :=
  ⟨loading_quiet .begun 0 (by decide), loading_quiet _ _ (by decide), loading_quiet _ _ (by decide)⟩

theorem test_hyps_TopologyStaysConsistent : claimed.topologyConsistent ∧ step claimed = .next claimed.oneSecond :=
  ⟨claimed_consistent, by rfl⟩

/-- A CONFIG_SET of profile 15 queued. -/
def configuring : State :=
  queued net (query 10 (.configSet (.profile 15) (defaultProfileBytes.take 10)))

theorem test_hyps_ImageInForceSound : configuring.imageInForceSound ∧ configuring.configQueriesSound := by
  constructor
  · intro x h
    cases h
    decide +kernel
  · intro slot q t values h hb
    have hs : configuring.dispatcher.slots = [(2, .queued (query 10 (.configSet (.profile 15)
      (defaultProfileBytes.take 10))))] := by rfl
    rw [hs] at h
    simp only [tableGet] at h
    split at h
    · cases h
      cases hb
      decide +kernel
    · cases h

theorem configuring_step : step configuring = .next configuring.oneSecond := by rfl

theorem diamondSearch_step : step { diamondSearch with pending := [.searchStep .e0] } =
    .next (after (.searchStep .e0) diamondSearch) := by rfl

theorem test_hyps_ClosingCostsNeverDecrease : diamondSearch.searchOrdered where
  order := by intro e; cases e <;> (unfold closedBeforeOpen; decide +kernel)
  costs := by intro e; cases e <;> decide +kernel
  bound := by intro e; cases e <;> decide +kernel
  traced := by
    intro e i x h
    cases e
    · exact diamond_traced i x h
    · cases h

end Sys2Proof.Tests
end

