-- ==== Sys2Proof/Proofs/DirectionEffects.lean ====
section
/-! SUPPORT. What the operations of the Span Conditioner do to one direction (R28 to R41), and what a run of them over
several directions does: the record, the notices, the hop-lost events, and the evaluations of returns to service. -/

namespace Sys2Proof.Machine

/-! ### Links and their ends -/

/-- The two ends of a link. -/
def Link.ends (l : Link) : LinkEnd × LinkEnd := (l.end0, l.end1)

@[simp] theorem Link.ends_withDirection (l : Link) (d : Dir) (x : Direction) : (l.withDirection d x).ends = l.ends := by
  cases d <;> rfl

@[simp] theorem Link.withDirection_direction (l : Link) (d : Dir) : l.withDirection d (l.direction d) = l := by
  cases d <;> rfl

@[simp] theorem Link.withDirection_withDirection (l : Link) (d : Dir) (x y : Direction) :
    (l.withDirection d x).withDirection d y = l.withDirection d y := by
  cases d <;> rfl

@[simp] theorem Link.direction_withDirection_self (l : Link) (d : Dir) (x : Direction) :
    (l.withDirection d x).direction d = x := by
  cases d <;> rfl

/-- Links with the same ends have the same end of each side. -/
theorem Link.endAt_of_ends {l m : Link} (h : l.ends = m.ends) (d : Dir) : l.endAt d = m.endAt d := by
  obtain ⟨h0, h1⟩ := Prod.mk.inj h
  cases d
  · exact h0
  · exact h1

/-- Links with the same ends touch the same nodes. -/
theorem Link.touches_of_ends {l m : Link} (h : l.ends = m.ends) (i : Nat) : l.touches i = m.touches i := by
  obtain ⟨h0, h1⟩ := Prod.mk.inj h
  unfold Link.touches
  rw [h0, h1]

/-- The node ids and the ends of the links are the same in two states. -/
structure sameEnds (s t : State) : Prop where
  ids : ∀ i, (t.nodeAt i).map (·.id) = (s.nodeAt i).map (·.id)
  ends : ∀ k, (t.linkAt k).map Link.ends = (s.linkAt k).map Link.ends

theorem sameEnds.refl (s : State) : sameEnds s s := ⟨fun _ => rfl, fun _ => rfl⟩

theorem sameEnds.trans {s t u : State} (h : sameEnds s t) (h' : sameEnds t u) : sameEnds s u :=
  ⟨fun i => (h'.ids i).trans (h.ids i), fun k => (h'.ends k).trans (h.ends k)⟩

theorem sameEnds.idAt {s t : State} (h : sameEnds s t) (i : Nat) : t.idAt i = s.idAt i := by
  unfold State.idAt
  rw [h.ids]

theorem sameEnds.nodeAt_isSome {s t : State} (h : sameEnds s t) (i : Nat) :
    (t.nodeAt i).isSome = (s.nodeAt i).isSome := by
  simpa using congrArg Option.isSome (h.ids i)

/-- A link that stands in one state stands in the other, with the same ends. -/
theorem sameEnds.linkAt {s t : State} (h : sameEnds s t) {k : Nat} {l : Link} (hl : t.linkAt k = some l) :
    ∃ m, s.linkAt k = some m ∧ l.ends = m.ends := by
  have := h.ends k
  rw [hl] at this
  obtain ⟨m, hm, he⟩ := Option.map_eq_some_iff.mp this.symm
  exact ⟨m, hm, he.symm⟩

theorem sameEnds.linkAt_none {s t : State} (h : sameEnds s t) {k : Nat} (hl : t.linkAt k = none) :
    s.linkAt k = none := by
  have := h.ends k
  rw [hl] at this
  exact Option.map_eq_none_iff.mp this.symm

/-- Whether a hop names its link is a matter of ids and ends (R109). -/
theorem sameEnds.namesLink {s t : State} (h : sameEnds s t) (g : Hop) (n : NodeId) :
    t.namesLink g n = s.namesLink g n := by
  unfold State.namesLink
  cases hl : t.linkAt g.link with
  | none => rw [h.linkAt_none hl]
  | some l =>
    obtain ⟨m, hm, he⟩ := h.linkAt hl
    simp only [hm, h.idAt, h.nodeAt_isSome, Link.endAt_of_ends he]

theorem sameEnds.routeOn {s t : State} (h : sameEnds s t) (r : Route) (k : Nat) (d : Dir) :
    t.routeOn r k d = s.routeOn r k d := by
  unfold State.routeOn
  simp only [h.namesLink]

theorem sameEnds.directionNotice {s t : State} (h : sameEnds s t) (l : Link) (d : Dir) (e : NoticeEvent) (n : Nat) :
    t.directionNotice l d e n = s.directionNotice l d e n := by
  unfold State.directionNotice
  rw [h.idAt]

theorem sameEnds.directionSubject {s t : State} (h : sameEnds s t) (l : Link) (k : Nat) (d : Dir) :
    t.directionSubject l k d = s.directionSubject l k d := by
  unfold State.directionSubject
  rw [h.idAt]

/-- Whether a direction is in service is a matter of the nodes, the link's ends and its own record (R27). -/
theorem State.inService_congr {s t : State} {k : Nat} {d : Dir} (hn : t.store.nodes = s.store.nodes)
    (hl : (t.linkAt k).map (fun l => (l.ends, l.direction d)) = (s.linkAt k).map fun l => (l.ends, l.direction d)) :
    t.inService k d = s.inService k d := by
  have hf : ∀ i, t.fitAt i = s.fitAt i := fun i => by simp only [State.fitAt, State.nodeAt, hn]
  unfold State.inService
  cases ht : t.linkAt k with
  | none =>
    rw [ht] at hl
    rw [Option.map_eq_none_iff.mp hl.symm]
  | some l =>
    rw [ht] at hl
    obtain ⟨m, hm, he⟩ := Option.map_eq_some_iff.mp hl.symm
    obtain ⟨h1, h2⟩ := Prod.mk.inj he
    obtain ⟨h3, h4⟩ := Prod.mk.inj h1
    simp only [hm, hf, ← h2, ← h3, ← h4]

/-! ### Evaluations of returns to service (R39) -/

/-- The records that some evaluations add to an ascending list. -/
theorem mem_foldl_insertAscending {α : Type} (f : α → Nat) (es : List α) (x : List Nat) (i : Nat) :
    i ∈ es.foldl (fun x e => insertAscending x (f e)) x ↔ i ∈ x ∨ ∃ e ∈ es, f e = i := by
  induction es generalizing x with
  | nil => simp
  | cons e es ih =>
    rw [List.foldl_cons, ih, mem_insertAscending]
    simp only [List.mem_cons, exists_eq_or_imp]
    rw [eq_comm (a := i)]
    tauto

/-- The pending-evaluation set with the records on one direction added. -/
theorem State.mem_evaluateDirection (s : State) (k : Nat) (d : Dir) (i : Nat) :
    i ∈ (s.evaluateDirection k d).sweep.pendingSet ↔
      i ∈ s.sweep.pendingSet ∨ ∃ p, s.lightpathAt i = some p ∧ s.routeOn p.route k d = true := by
  simp only [State.evaluateDirection_sweep, State.addEvaluations_sweep, mem_foldl_insertAscending, List.mem_filter,
    Prod.exists, State.mem_lightpaths]
  grind

/-- The directions of a list evaluated one after the other. -/
def State.evaluateDirections (s : State) (ds : List (Nat × Dir)) : State :=
  ds.foldl (fun x (k, d) => x.evaluateDirection k d) s

theorem State.evaluateDirections_frame (s : State) (ds : List (Nat × Dir)) :
    sameBut [.sweep] s (s.evaluateDirections ds) :=
  sameBut_foldl _ (fun x (e : Nat × Dir) => x.evaluateDirection_frame e.1 e.2) ds s

theorem State.evaluateDirections_sweep (s : State) (ds : List (Nat × Dir)) :
    (s.evaluateDirections ds).sweep =
      { s.sweep with pendingSet := (s.evaluateDirections ds).sweep.pendingSet } := by
  induction ds generalizing s with
  | nil => rfl
  | cons e ds ih => exact (ih (s.evaluateDirection e.1 e.2)).trans rfl

/-- The pending-evaluation set with the records on the directions of a list added. -/
theorem State.mem_evaluateDirections (s : State) (ds : List (Nat × Dir)) (i : Nat) :
    i ∈ (s.evaluateDirections ds).sweep.pendingSet ↔ i ∈ s.sweep.pendingSet ∨
      ∃ p k d, (k, d) ∈ ds ∧ s.lightpathAt i = some p ∧ s.routeOn p.route k d = true := by
  induction ds generalizing s with
  | nil => simp [State.evaluateDirections]
  | cons e ds ih =>
    obtain ⟨k, d⟩ := e
    have hstep : s.evaluateDirections ((k, d) :: ds) = (s.evaluateDirection k d).evaluateDirections ds := rfl
    have hpath : ∀ j, (s.evaluateDirection k d).lightpathAt j = s.lightpathAt j := fun _ => rfl
    have hroute : ∀ r j e, (s.evaluateDirection k d).routeOn r j e = s.routeOn r j e := fun _ _ _ => rfl
    simp only [hstep, ih, State.mem_evaluateDirection, hpath, hroute, List.mem_cons, Prod.mk.injEq]
    grind

/-- A state that differs from s in its store, with the directions that have returned to service evaluated. -/
theorem returnsEvaluated_evaluateDirections {s u : State} (ds : List (Nat × Dir)) (hs : u.sweep = s.sweep)
    (hr : u.records = s.records) (he : sameEnds s u)
    (hd : ∀ k d, (k, d) ∈ ds ↔ s.inService k d = false ∧ u.inService k d = true) :
    returnsEvaluated s (u.evaluateDirections ds) := by
  have hpath : ∀ i, u.lightpathAt i = s.lightpathAt i := fun i => by
    simp only [State.lightpathAt, State.recordAt, hr]
  have hserv : ∀ k d, (u.evaluateDirections ds).inService k d = u.inService k d := fun k d => by
    have hst := (u.evaluateDirections_frame ds).2 .store (by decide)
    exact State.inService_congr (congrArg Store.nodes hst)
      (by simp only [State.linkAt, show (u.evaluateDirections ds).store = u.store from hst])
  constructor
  · intro i
    simp only [State.mem_evaluateDirections, hs, hpath, he.routeOn, hd, hserv]
    grind
  · rw [State.evaluateDirections_sweep, hs]

/-- Two changes one after the other, neither undoing what the other does to the service of a direction. -/
theorem returnsEvaluated_trans {s t u : State} (h : returnsEvaluated s t) (h' : returnsEvaluated t u)
    (hr : t.records = s.records) (he : sameEnds s t)
    (hd : ∀ k d, t.inService k d = s.inService k d ∨ u.inService k d = t.inService k d) : returnsEvaluated s u := by
  have hpath : ∀ i, t.lightpathAt i = s.lightpathAt i := fun i => by
    simp only [State.lightpathAt, State.recordAt, hr]
  constructor
  · intro i
    rw [h'.1, h.1]
    simp only [hpath, he.routeOn]
    constructor
    · rintro ((hi | ⟨p, k, d, hp, hon, h0, h1⟩) | ⟨p, k, d, hp, hon, h0, h1⟩)
      · exact .inl hi
      · refine .inr ⟨p, k, d, hp, hon, h0, ?_⟩
        rcases hd k d with hk | hk
        · rw [hk, h0] at h1; cases h1
        · rw [hk, h1]
      · refine .inr ⟨p, k, d, hp, hon, ?_, h1⟩
        rcases hd k d with hk | hk
        · rw [← hk, h0]
        · rw [hk, h0] at h1; cases h1
    · rintro (hi | ⟨p, k, d, hp, hon, h0, h1⟩)
      · exact .inl (.inl hi)
      · rcases hd k d with hk | hk
        · exact .inr ⟨p, k, d, hp, hon, hk.trans h0, h1⟩
        · exact .inl (.inr ⟨p, k, d, hp, hon, h0, hk.symm.trans h1⟩)
  · rw [h'.2, h.2]

/-! ### One direction changed -/

/-- Between s and t the record of direction d of link k has become y, the notices ns have been handed on and the
hop-lost events hs raised; the Sweep Unit aside, nothing else has changed. -/
structure directionChanged (s t : State) (k : Nat) (d : Dir) (y : Direction) (ns : List Notice) (hs : List HopLost) :
    Prop where
  frame : sameBut [.store, .handoffs, .notices, .sweep] s t
  nodes : t.store.nodes = s.store.nodes
  claims : t.store.claims = s.store.claims
  links : ∀ j, t.linkAt j = if j = k then (s.linkAt k).map fun l => l.withDirection d y else s.linkAt j
  told : handedNotices s t ns
  lost : t.handoffs = { s.handoffs with conditionerToTable := s.handoffs.conditionerToTable ++ hs }

namespace directionChanged

variable {s t : State} {k : Nat} {d : Dir} {y : Direction} {ns : List Notice} {hs : List HopLost}

theorem sameEnds (h : directionChanged s t k d y ns hs) : sameEnds s t := by
  refine ⟨fun i => by simp only [State.nodeAt, h.nodes], fun j => ?_⟩
  rw [h.links]
  split
  · rename_i hj
    subst hj
    cases s.linkAt j <;> simp
  · rfl

theorem linkAt_self (h : directionChanged s t k d y ns hs) {l : Link} (hl : s.linkAt k = some l) :
    t.linkAt k = some (l.withDirection d y) := by
  rw [h.links, if_pos rfl, hl]
  rfl

theorem linkAt_other (h : directionChanged s t k d y ns hs) {j : Nat} (hj : j ≠ k) : t.linkAt j = s.linkAt j := by
  rw [h.links, if_neg hj]

theorem records (h : directionChanged s t k d y ns hs) : t.records = s.records := h.frame.2 .records (by decide)

theorem port (h : directionChanged s t k d y ns hs) : t.port = s.port := h.frame.2 .port (by decide)

/-- The change of one direction leaves the service of the others (R27). -/
theorem inService_other (h : directionChanged s t k d y ns hs) {j : Nat} {e : Dir} (hj : (j, e) ≠ (k, d)) :
    t.inService j e = s.inService j e := by
  refine State.inService_congr h.nodes ?_
  rw [h.links]
  split
  · rename_i hk
    subst hk
    have he : e ≠ d := fun he => hj (by rw [he])
    cases s.linkAt j <;> simp [Link.direction_withDirection, he]
  · rfl

/-- The service of the direction changed goes by its new record (R27). -/
theorem inService_self (h : directionChanged s t k d y ns hs) {l : Link} (hl : s.linkAt k = some l) :
    t.inService k d = (y.carries && s.fitAt l.end0.node && s.fitAt l.end1.node) := by
  have hf : ∀ i, t.fitAt i = s.fitAt i := fun i => by simp only [State.fitAt, State.nodeAt, h.nodes]
  unfold State.inService
  rw [h.linkAt_self hl]
  simp [hf]

/-- A direction set to the record that it has. -/
theorem refl {l : Link} (hl : s.linkAt k = some l) : directionChanged s s k d (l.direction d) [] [] := by
  refine ⟨sameBut_refl _ _, rfl, rfl, fun j => ?_, by simp [handedNotices], by simp⟩
  split
  · rename_i hj
    subst hj
    simp [hl]
  · rfl

theorem setDirection (h : directionChanged s t k d y ns hs) (z : Direction) :
    directionChanged s (t.setDirection k d z) k d z ns hs := by
  refine ⟨sameBut_trans h.frame (sameBut_mono (t.setDirection_frame k d z) (by decide)), h.nodes, h.claims,
    fun j => ?_, h.told, h.lost⟩
  rw [State.linkAt_setDirection, h.links, h.links]
  split
  · rw [if_pos rfl, Option.map_map]
    cases s.linkAt k <;> simp
  · rfl

theorem hand (h : directionChanged s t k d y ns hs) (n : Notice) :
    directionChanged s (t.hand n) k d y (ns ++ [n]) hs := by
  refine ⟨sameBut_trans h.frame (sameBut_mono (t.hand_frame n) (by decide)), h.nodes, h.claims, h.links, ?_, h.lost⟩
  have htold := h.told
  unfold handedNotices at *
  rw [State.hand_notices, htold]
  simp

theorem raise (h : directionChanged s t k d y ns hs) (x : HopLost) :
    directionChanged s (t.raiseConditioner x) k d y ns (hs ++ [x]) := by
  refine ⟨sameBut_trans h.frame (sameBut_mono (t.raiseConditioner_frame x) (by decide)), h.nodes, h.claims, h.links,
    h.told, ?_⟩
  rw [State.raiseConditioner_handoffs, h.lost]
  simp

theorem returned (h : directionChanged s t k d y ns hs) (b : Bool) :
    directionChanged s (t.returned k d b) k d y ns hs := by
  have hf := t.returned_frame k d b
  have hst : (t.returned k d b).store = t.store := hf.2 .store (by decide)
  refine ⟨sameBut_trans h.frame (sameBut_mono hf (by decide)), ?_, ?_, fun j => ?_, ?_, ?_⟩
  · rw [hst, h.nodes]
  · rw [hst, h.claims]
  · rw [← h.links]
    simp only [State.linkAt, hst]
  · exact (hf.2 .notices (by decide)).trans h.told
  · exact (hf.2 .handoffs (by decide)).trans h.lost

end directionChanged

/-- One direction replaced. -/
theorem State.setDirection_changes (s : State) (k : Nat) (d : Dir) (y : Direction) :
    directionChanged s (s.setDirection k d y) k d y [] [] :=
  ⟨sameBut_mono (s.setDirection_frame k d y) (by decide), rfl, rfl, fun j => s.linkAt_setDirection k j d y,
    by simp [handedNotices], by simp⟩

/-- The evaluation of a direction that may have returned, as the evaluation of a list of directions. -/
theorem State.returned_eq (s : State) (k : Nat) (d : Dir) (b : Bool) :
    s.returned k d b = s.evaluateDirections (if !b && s.inService k d then [(k, d)] else []) := by
  unfold State.returned
  split <;> rfl

/-- A direction that was changed and then evaluated if it has returned (R39). -/
theorem directionChanged.returned_evaluated {s t : State} {k : Nat} {d : Dir} {y : Direction} {ns : List Notice}
    {hs : List HopLost} (h : directionChanged s t k d y ns hs) (hsw : t.sweep = s.sweep) :
    returnsEvaluated s (t.returned k d (s.inService k d)) := by
  rw [State.returned_eq]
  refine returnsEvaluated_evaluateDirections _ hsw h.records h.sameEnds fun j e => ?_
  by_cases hj : (j, e) = (k, d)
  · obtain ⟨rfl, rfl⟩ := Prod.mk.inj hj
    cases s.inService j e <;> cases t.inService j e <;> simp
  · rw [h.inService_other hj]
    cases s.inService j e <;> cases (!s.inService k d && t.inService k d) <;> simp [hj]

/-- A direction that was changed and has not returned needs no evaluation (R39). -/
theorem directionChanged.nothing_returned {s t : State} {k : Nat} {d : Dir} {y : Direction} {ns : List Notice}
    {hs : List HopLost} (h : directionChanged s t k d y ns hs) (hsw : t.sweep = s.sweep) {l : Link}
    (hl : s.linkAt k = some l) (hc : y.carries = true → (l.direction d).carries = true) : returnsEvaluated s t := by
  have hserv : t.inService k d = true → s.inService k d = true := by
    have hself := (directionChanged.refl (d := d) hl).inService_self hl
    rw [h.inService_self hl, hself]
    simp only [Bool.and_eq_true]
    exact fun ⟨⟨h1, h2⟩, h3⟩ => ⟨⟨hc h1, h2⟩, h3⟩
  have := h.returned_evaluated hsw
  rwa [State.returned_eq, if_neg, State.evaluateDirections, List.foldl_nil] at this
  simp only [Bool.and_eq_true, Bool.not_eq_true', not_and]
  intro h0 h1
  rw [hserv h1] at h0
  cases h0

end Sys2Proof.Machine
end

