-- ==== Sys2Proof/Proofs/Observations.lean ====
section
/-! SUPPORT. What an observation makes of a direction (R29 to R36), and the settlement of OBSERVATION_UP and
OBSERVATION_DOWN. -/

namespace Sys2Proof.Machine

theorem State.setHandoffs_frame (s : State) (x : Handoffs) : sameBut [.handoffs] s (s.setHandoffs x) :=
  ⟨rfl, fun p hp => by cases p <;> first | exact absurd (by decide) hp | rfl⟩

/-! ### Suppression set and lifted (R35, R36) -/

/-- The hop-lost event of a suppression set: raised while the direction is UP or FALLING (R35). -/
def State.suppressLost (s : State) (k : Nat) (d : Dir) (l : Link) (x : Direction) : List HopLost :=
  if x.cond = .up ∨ x.cond = .falling then [{ subject := s.directionSubject l k d, cause := .suppressed }] else []

/-- Suppression set on a direction that has been changed. -/
theorem directionChanged.suppress {s t : State} {k : Nat} {d : Dir} {y : Direction} {ns : List Notice}
    {hs : List HopLost} (h : directionChanged s t k d y ns hs) (l : Link) (x : Direction) (p : Profile) :
    directionChanged s (t.suppress k d l x p) k d { x with suppressed := true, latched := p.latch }
      (ns ++ [s.directionNotice l d .suppressed x.flap]) (hs ++ s.suppressLost k d l x) := by
  have hmarked := h.setDirection { x with suppressed := true, latched := p.latch }
  rw [← h.sameEnds.directionNotice, State.suppressLost]
  by_cases hc : x.cond = .up ∨ x.cond = .falling
  · rw [if_pos hc, ← h.sameEnds.directionSubject]
    simp only [State.suppress, hc, if_true]
    exact (hmarked.raise _).hand _
  · rw [if_neg hc, List.append_nil]
    simp only [State.suppress, hc, if_false]
    exact hmarked.hand _

/-- Suppression lifted from a direction that has been changed. -/
theorem directionChanged.unsuppress {s t : State} {k : Nat} {d : Dir} {y : Direction} {ns : List Notice}
    {hs : List HopLost} (h : directionChanged s t k d y ns hs) (l : Link) (x : Direction) :
    directionChanged s (t.unsuppress k d l x) k d { x with suppressed := false }
      (ns ++ [s.directionNotice l d .unsuppressed x.flap]) hs := by
  rw [← h.sameEnds.directionNotice]
  exact ((h.setDirection _).hand _).returned _

/-- Suppression lifted, and the direction evaluated if it has returned (R36, R39). -/
theorem directionChanged.unsuppress_evaluated {s t : State} {k : Nat} {d : Dir} {y : Direction} {ns : List Notice}
    {hs : List HopLost} (h : directionChanged s t k d y ns hs) (hsw : t.sweep = s.sweep)
    (hb : t.inService k d = s.inService k d) (l : Link) (x : Direction) :
    returnsEvaluated s (t.unsuppress k d l x) := by
  unfold State.unsuppress
  simp only [hb]
  exact ((h.setDirection { x with suppressed := false }).hand _).returned_evaluated hsw

/-! ### Observations of UP (R29, R33, R34, R36) -/

/-- The direction enters UP (R33). -/
theorem State.enterUp_changes (s : State) (k : Nat) (d : Dir) (l : Link) (x : Direction) :
    directionChanged s (s.enterUp k d l x) k d { x with cond := .up, count := 0 }
      [s.directionNotice l d .up x.flap] [] :=
  ((s.setDirection_changes k d _).hand _).returned _

theorem State.enterUp_evaluated (s : State) (k : Nat) (d : Dir) (l : Link) (x : Direction) :
    returnsEvaluated s (s.enterUp k d l x) :=
  ((s.setDirection_changes k d { x with cond := .up, count := 0 }).hand _).returned_evaluated rfl

/-- A direction after a clean refresh (R34, R36). -/
def Direction.refreshed (x : Direction) (p : Profile) : Direction :=
  if x.suppressed = true ∧ x.latched = false ∧ x.flap - 1 ≤ p.reuse then
    { x with flap := x.flap - 1, suppressed := false }
  else { x with flap := x.flap - 1 }

/-- A clean refresh (R34): the score falls by 1, and at the reuse level an unlatched suppression is lifted (R36). -/
theorem State.cleanRefresh_changes (s : State) (k : Nat) (d : Dir) (l : Link) (hl : s.linkAt k = some l) (p : Profile) :
    directionChanged s (s.cleanRefresh k d l (l.direction d) p) k d ((l.direction d).refreshed p)
      (if (l.direction d).suppressed = true ∧ ((l.direction d).refreshed p).suppressed = false then
        [s.directionNotice l d .unsuppressed ((l.direction d).flap - 1)] else []) [] ∧
    returnsEvaluated s (s.cleanRefresh k d l (l.direction d) p) := by
  generalize hx : l.direction d = x
  have hfall := s.setDirection_changes k d { x with flap := x.flap - 1 }
  unfold State.cleanRefresh Direction.refreshed
  by_cases hc : x.suppressed = true ∧ x.latched = false ∧ x.flap - 1 ≤ p.reuse
  · have hserv : (s.setDirection k d { x with flap := x.flap - 1 }).inService k d = s.inService k d := by
      rw [hfall.inService_self hl, (directionChanged.refl (d := d) hl).inService_self hl, hx]
      rfl
    have hnotice := hfall.unsuppress l { x with flap := x.flap - 1 }
    have hreturns := hfall.unsuppress_evaluated rfl hserv l { x with flap := x.flap - 1 }
    simp only [hc, and_self, if_true, Bool.false_eq_true, not_false_eq_true] at hnotice hreturns ⊢
    exact ⟨hnotice, hreturns⟩
  · have hreturns := hfall.nothing_returned rfl hl (by rw [hx]; exact id)
    have hsup : ¬ (x.suppressed = true ∧ x.suppressed = false) := by simp
    simp only [Bool.not_eq_true, hc, if_false, hsup]
    exact ⟨hfall, hreturns⟩

/-- A direction after an UP observation, by its condition state (R29). -/
def Direction.afterUp (x : Direction) (p : Profile) : Direction :=
  match x.cond with
  | .unknown | .down =>
    if p.upPersistence ≤ 1 then { x with cond := .up, count := 0 } else { x with cond := .rising, count := 1 }
  | .rising =>
    if p.upPersistence ≤ x.count + 1 then { x with cond := .up, count := 0 } else { x with count := x.count + 1 }
  | .up => x.refreshed p
  | .falling => { x with cond := .up, count := 0 }
  | .holdoff => x

/-- The notice of an UP observation: UP entered, or suppression lifted (R33, R36). -/
def State.upNotices (s : State) (l : Link) (d : Dir) (x y : Direction) : List Notice :=
  if y.cond = .up ∧ (x.cond = .unknown ∨ x.cond = .rising ∨ x.cond = .down) then
    [s.directionNotice l d .up x.flap]
  else if x.suppressed = true ∧ y.suppressed = false then [s.directionNotice l d .unsuppressed (x.flap - 1)]
  else []

/-- The score's fall leaves the condition state. -/
theorem Direction.refreshed_cond (x : Direction) (p : Profile) : (x.refreshed p).cond = x.cond := by
  unfold Direction.refreshed
  split <;> rfl

/-- An UP observation that does not confirm UP leaves the direction out of service, without a notice. -/
theorem State.setDirection_quiet (s : State) (k : Nat) (d : Dir) (l : Link) (hl : s.linkAt k = some l) (y : Direction)
    (hsup : y.suppressed = (l.direction d).suppressed)
    (hup : y.cond = .up → (l.direction d).cond = .up ∨ (l.direction d).cond = .falling) (hfall : y.cond ≠ .falling) :
    directionChanged s (s.setDirection k d y) k d y (s.upNotices l d (l.direction d) y) [] ∧
      returnsEvaluated s (s.setDirection k d y) := by
  have hnone : s.upNotices l d (l.direction d) y = [] := by
    unfold State.upNotices
    rw [if_neg, if_neg]
    · rw [hsup]; simp
    · rintro ⟨h, hc⟩
      rcases hup h with h | h <;> rw [h] at hc <;> simp at hc
  rw [hnone]
  refine ⟨s.setDirection_changes k d y, (s.setDirection_changes k d y).nothing_returned rfl hl ?_⟩
  unfold Direction.carries
  simp only [Bool.and_eq_true, Bool.or_eq_true, beq_iff_eq, hsup]
  exact fun ⟨hc, h⟩ => ⟨hc.elim hup fun h => absurd h hfall, h⟩

/-- An UP observation of a direction of a link that stands (R29). -/
theorem State.observeUp_changes (s : State) (k : Nat) (d : Dir) (l : Link) (hl : s.linkAt k = some l) :
    directionChanged s (s.observeUp k d) k d ((l.direction d).afterUp (s.receiverProfile l d))
      (s.upNotices l d (l.direction d) ((l.direction d).afterUp (s.receiverProfile l d))) [] ∧
    returnsEvaluated s (s.observeUp k d) := by
  have hquiet := s.setDirection_quiet k d l hl
  have henter : (l.direction d).cond = .unknown ∨ (l.direction d).cond = .rising ∨ (l.direction d).cond = .down →
      directionChanged s (s.enterUp k d l (l.direction d)) k d { l.direction d with cond := .up, count := 0 }
        (s.upNotices l d (l.direction d) { l.direction d with cond := .up, count := 0 }) [] ∧
      returnsEvaluated s (s.enterUp k d l (l.direction d)) := fun hc => by
    have htold : s.upNotices l d (l.direction d) { l.direction d with cond := .up, count := 0 } =
        [s.directionNotice l d .up (l.direction d).flap] := if_pos ⟨rfl, hc⟩
    rw [htold]
    exact ⟨s.enterUp_changes k d l _, s.enterUp_evaluated k d l _⟩
  have hrefresh := s.cleanRefresh_changes k d l hl (s.receiverProfile l d)
  have hself := directionChanged.refl (d := d) hl
  unfold State.observeUp Direction.afterUp
  simp only [hl]
  generalize hx : l.direction d = x at *
  generalize s.receiverProfile l d = p at *
  cases hc : x.cond with
  | unknown | down =>
    simp only [hc] at hquiet henter ⊢
    split
    · exact henter (by simp)
    · exact hquiet _ rfl (by simp) (by simp)
  | rising =>
    simp only [hc] at hquiet henter ⊢
    split
    · exact henter (by simp)
    · exact hquiet _ rfl (by simp) (by simp)
  | up =>
    simp only [hc, State.upNotices, Direction.refreshed_cond]
    simpa using hrefresh
  | falling => exact hquiet _ rfl (by simp [hc]) (by simp)
  | holdoff =>
    have hnone : s.upNotices l d x x = [] := by simp [State.upNotices, hc]
    simp only [hnone]
    exact ⟨hself, hself.nothing_returned rfl hl (by rw [hx]; exact id)⟩

/-! ### Observations of DOWN (R30, R31, R35) -/

/-- A direction after a confirmed failure, before a suppression (R31). -/
def Direction.failed (x : Direction) (p : Profile) : Direction :=
  { x with
    flap := min (x.flap + 16) 255
    cond := if 0 < p.holdoff then .holdoff else .down
    holdoff := if 0 < p.holdoff then some p.holdoff else none
    count := 0 }

/-- A confirmed failure that sets no suppression (R31). -/
theorem State.confirmFailure_changes (s : State) (k : Nat) (d : Dir) (l : Link) (x : Direction) (p : Profile)
    (hc : ¬ (x.suppressed = false ∧ p.suppress ≤ (x.failed p).flap)) :
    directionChanged s (s.confirmFailure k d l x p) k d (x.failed p)
      [s.directionNotice l d .confirmedDown (x.failed p).flap]
      [{ subject := s.directionSubject l k d, cause := .confirmedDown }] := by
  have htold := ((s.setDirection_changes k d (x.failed p)).raise
    { subject := s.directionSubject l k d, cause := .confirmedDown }).hand
    (s.directionNotice l d .confirmedDown (x.failed p).flap)
  unfold State.confirmFailure
  have hc' : ¬ (¬ (x.failed p).suppressed = true ∧ p.suppress ≤ (x.failed p).flap) := by
    simpa [Direction.failed] using hc
  exact (if_neg hc').symm ▸ htold

/-- A confirmed failure that sets the suppression (R31, R35): the direction is no longer UP, so only the failure raises
a hop-lost event. -/
theorem State.confirmFailure_suppresses (s : State) (k : Nat) (d : Dir) (l : Link) (x : Direction) (p : Profile)
    (hc : x.suppressed = false ∧ p.suppress ≤ (x.failed p).flap) :
    directionChanged s (s.confirmFailure k d l x p) k d { x.failed p with suppressed := true, latched := p.latch }
      [s.directionNotice l d .confirmedDown (x.failed p).flap, s.directionNotice l d .suppressed (x.failed p).flap]
      [{ subject := s.directionSubject l k d, cause := .confirmedDown }] := by
  have htold := (((s.setDirection_changes k d (x.failed p)).raise
    { subject := s.directionSubject l k d, cause := .confirmedDown }).hand
    (s.directionNotice l d .confirmedDown (x.failed p).flap)).suppress l (x.failed p) p
  have hlost : s.suppressLost k d l (x.failed p) = [] := by
    unfold State.suppressLost Direction.failed
    by_cases hp : 0 < p.holdoff <;> simp [hp]
  rw [hlost] at htold
  unfold State.confirmFailure
  have hc' : ¬ (x.failed p).suppressed = true ∧ p.suppress ≤ (x.failed p).flap := by
    simpa [Direction.failed] using hc
  exact (if_pos hc').symm ▸ htold

/-- A direction after a DOWN observation that confirms no failure, by its condition state (R30). -/
def Direction.afterDown (x : Direction) : Direction :=
  match x.cond with
  | .unknown | .rising => { x with cond := .down, count := 0 }
  | .up => { x with cond := .falling, count := 1 }
  | .falling => { x with count := x.count + 1 }
  | .holdoff | .down => x

/-- A DOWN observation confirms a failure (R30, R31). -/
def Direction.confirmsDown (x : Direction) (p : Profile) : Prop :=
  x.cond = .up ∧ p.downPersistence ≤ 1 ∨ x.cond = .falling ∧ p.downPersistence ≤ x.count + 1

/-- A DOWN observation that confirms a failure. -/
theorem State.observeDown_confirmed (s : State) (k : Nat) (d : Dir) (l : Link) (hl : s.linkAt k = some l)
    (hc : (l.direction d).confirmsDown (s.receiverProfile l d)) :
    s.observeDown k d = s.confirmFailure k d l (l.direction d) (s.receiverProfile l d) := by
  unfold State.observeDown
  rcases hc with ⟨hc, hp⟩ | ⟨hc, hp⟩
  · simp [hl, hc, hp]
  · simp [hl, hc, hp]

/-- A DOWN observation that confirms no failure. -/
theorem State.observeDown_changes (s : State) (k : Nat) (d : Dir) (l : Link) (hl : s.linkAt k = some l)
    (hn : ¬ (l.direction d).confirmsDown (s.receiverProfile l d)) :
    directionChanged s (s.observeDown k d) k d (l.direction d).afterDown [] [] := by
  have hself := directionChanged.refl (d := d) hl
  have hset := s.setDirection_changes k d
  unfold State.observeDown Direction.afterDown
  unfold Direction.confirmsDown at hn
  simp only [hl]
  generalize l.direction d = x at *
  cases hc : x.cond with
  | unknown | rising => exact hset _
  | up =>
    have hp : ¬ (s.receiverProfile l d).downPersistence ≤ 1 := fun hp => hn (.inl ⟨hc, hp⟩)
    simp only [if_neg hp]
    exact hset _
  | falling =>
    have hp : ¬ (s.receiverProfile l d).downPersistence ≤ x.count + 1 := fun hp => hn (.inr ⟨hc, hp⟩)
    simp only [if_neg hp]
    simpa only [hc] using hset { x with count := x.count + 1 }
  | holdoff | down => exact hself

/-! ### The two commands -/

/-- The observation at the head of the inbox is taken (R28). -/
theorem exec_observationUp (s : State) (k : Nat) (d : Dir) (rest : List Observation) (hr : s.running = true)
    (ho : s.handoffs.observations = { link := k, dir := d, up := true } :: rest) :
    exec .observationUp s = .next (s.popObservation.observeUp k d) := by
  simp [exec, execObservationUp, hr, ho]

theorem exec_observationDown (s : State) (k : Nat) (d : Dir) (rest : List Observation) (hr : s.running = true)
    (ho : s.handoffs.observations = { link := k, dir := d, up := false } :: rest) :
    exec .observationDown s = .next (s.popObservation.observeDown k d) := by
  simp [exec, execObservationDown, hr, ho]

/-- The inbox without the observation taken. -/
theorem popObservation_handoffs (s : State) (o : Observation) (rest : List Observation)
    (ho : s.handoffs.observations = o :: rest) :
    s.popObservation.handoffs = { s.handoffs with observations := rest } := by
  simp [State.popObservation, ho]

/-- Settles O34: by the condition state of the direction (`Direction.afterUp`). -/
theorem observationUp : Obligations.ObservationUp := by
  unfold Obligations.ObservationUp
  rintro s k d rest l x p hrun hobs hl rfl rfl
  obtain ⟨hc, hreturns⟩ := s.popObservation.observeUp_changes k d l hl
  have hpop : sameBut [.handoffs] s s.popObservation := s.setHandoffs_frame _
  have hframe := sameBut_then hpop (s.popObservation.observeUp_frame k d) (rs := [.handoffs, .store, .notices, .sweep])
    (by decide) (by decide)
  refine ⟨_, _, exec_observationUp s k d rest hrun hobs, hframe, ?_, hreturns, hc.linkAt_self hl,
    fun j => hc.linkAt_other, hc.nodes, hc.claims, ?_⟩
  · rw [hc.lost, popObservation_handoffs s _ rest hobs]
    simp
  · have hp : s.popObservation.receiverProfile l d = s.receiverProfile l d := rfl
    refine ⟨fun h => ?_, fun h => ?_, fun h => ?_, fun h => ?_, fun h => ?_, hc.told⟩
    · rcases h with h | h <;> simp only [Direction.afterUp, h, hp]
    · simp only [Direction.afterUp, h, hp]
    · simp only [Direction.afterUp, h, hp, Direction.refreshed]
    · simp only [Direction.afterUp, h]
    · simp only [Direction.afterUp, h]

/-- Settles O35: whether the failure is confirmed, then whether it sets the suppression. -/
theorem observationDown : Obligations.ObservationDown := by
  unfold Obligations.ObservationDown
  rintro s k d rest l x p confirmed hrun hobs hl rfl rfl hconf
  have hpop : sameBut [.handoffs] s s.popObservation := s.setHandoffs_frame _
  have hframe := sameBut_then hpop (s.popObservation.observeDown_frame k d) (rs := [.handoffs, .store, .notices])
    (by decide) (by decide)
  have hexec := exec_observationDown s k d rest hrun hobs
  have hbox := popObservation_handoffs s _ rest hobs
  by_cases hc : (l.direction d).confirmsDown (s.receiverProfile l d)
  · rw [s.popObservation.observeDown_confirmed k d l hl hc] at hframe hexec
    by_cases hsup : (l.direction d).suppressed = false ∧
        (s.receiverProfile l d).suppress ≤ ((l.direction d).failed (s.receiverProfile l d)).flap
    · have h := s.popObservation.confirmFailure_suppresses k d l _ _ hsup
      refine ⟨_, _, hexec, hframe, h.linkAt_self hl, fun j => h.linkAt_other, h.nodes, h.claims,
        fun hn => absurd (hconf.mpr hc) hn, fun _ => ⟨?_, rfl, fun _ => ⟨rfl, rfl, h.told⟩, fun hn => absurd hsup hn⟩⟩
      exact h.lost.trans (by rw [hbox]; rfl)
    · have h := s.popObservation.confirmFailure_changes k d l _ _ hsup
      refine ⟨_, _, hexec, hframe, h.linkAt_self hl, fun j => h.linkAt_other, h.nodes, h.claims,
        fun hn => absurd (hconf.mpr hc) hn, fun _ => ⟨?_, rfl, fun hn => absurd hn hsup, fun _ => ⟨rfl, rfl, h.told⟩⟩⟩
      exact h.lost.trans (by rw [hbox]; rfl)
  · have h := s.popObservation.observeDown_changes k d l hl hc
    refine ⟨_, _, hexec, hframe, h.linkAt_self hl, fun j => h.linkAt_other, h.nodes, h.claims,
      fun _ => ⟨?_, h.told, ?_⟩, fun hy => absurd (hconf.mp hy) hc⟩
    · rw [h.lost, hbox]
      simp
    · refine ⟨fun hx => ?_, fun hx => ?_, fun hx => ?_, fun hx => ?_⟩
      · rcases hx with hx | hx <;> simp only [Direction.afterDown, hx]
      · simp only [Direction.afterDown, hx]
      · simp only [Direction.afterDown, hx]
      · rcases hx with hx | hx <;> simp only [Direction.afterDown, hx]

end Sys2Proof.Machine
end

