-- ==== Sys2Proof/Proofs/SweepSteps.lean ====
section
/-! SUPPORT. When a route stands (R150), what the walk of a pass meets (R151, R152), and the settlement of
SWEEP_STEP. -/

namespace Sys2Proof.Machine

/-! ### When a route stands (R27, R150) -/

/-- A node of a route is fit: in the table, LIVE and not quarantined. -/
theorem State.fitNode_iff (s : State) (id : NodeId) :
    s.fitNode id = true ↔ ∃ n, s.nodeOf id = some n ∧ n.liveness = .live ∧ n.quarantined = false := by
  unfold State.fitNode
  cases s.nodeOf id <;> simp [Node.fit]

/-- Every hop of a route names its link and is in service. -/
theorem State.routeWhole_iff (s : State) (r : Route) :
    s.routeWhole r = true ↔ ∀ h n, (h, n) ∈ r.received → s.hopNames h n ∧ s.serving h.link h.dir := by
  simp only [State.routeWhole, List.all_eq_true, Prod.forall, Bool.and_eq_true, State.namesLink_iff,
    State.inService_iff]

/-- Every node of a route is fit. -/
theorem State.nodesFit_iff (s : State) (r : Route) :
    s.nodesFit r = true ↔
      ∀ id, id = r.source ∨ id = r.dest ∨ (∃ h ∈ r.hops, id = h.sender) ∨ id ∈ r.regens → s.fitNode id = true := by
  simp only [State.nodesFit, Bool.and_eq_true, List.all_eq_true]
  constructor
  · rintro ⟨⟨⟨hsource, hdest⟩, hhops⟩, hregens⟩ id (rfl | rfl | ⟨h, hh, rfl⟩ | hid)
    · exact hsource
    · exact hdest
    · exact hhops h hh
    · exact hregens id hid
  · exact fun h => ⟨⟨⟨h _ (.inl rfl), h _ (.inr (.inl rfl))⟩, fun g hg => h _ (.inr (.inr (.inl ⟨g, hg, rfl⟩)))⟩,
      fun id hid => h _ (.inr (.inr (.inr hid)))⟩

theorem State.routeStands_iff (s : State) (r : Route) :
    s.routeStands r = true ↔
      (∀ h n, (h, n) ∈ r.received → s.hopNames h n ∧ s.serving h.link h.dir) ∧
      ∀ id, id = r.source ∨ id = r.dest ∨ (∃ h ∈ r.hops, id = h.sender) ∨ id ∈ r.regens →
        ∃ n, s.nodeOf id = some n ∧ n.liveness = .live ∧ n.quarantined = false := by
  simp only [State.routeStands, Bool.and_eq_true, State.routeWhole_iff, State.nodesFit_iff, State.fitNode_iff]

/-! ### Evaluation and walk (R150, R151) -/

theorem Lightpath.evaluated_iff (p : Lightpath) : p.evaluated = true ↔ p.state ≠ .reserved := by
  simp [Lightpath.evaluated]

/-- The segment noises of a route go by the store alone (R72). -/
theorem segmentNoises_of_store {s t : State} (h : t.store = s.store) (regens : List NodeId) (acc : Nat)
    (hops : List (Hop × NodeId)) : segmentNoises t regens acc hops = segmentNoises s regens acc hops := by
  have hnode : ∀ id, t.nodeOf id = s.nodeOf id := fun id => by simp only [State.nodeOf, State.nodeEntry, h]
  have hnoise : ∀ k d, t.noiseOf k d = s.noiseOf k d := fun k d => by
    simp only [State.noiseOf, State.directionAt, State.linkAt, h]
  induction hops generalizing acc with
  | nil => rfl
  | cons e hops ih =>
    cases hops with
    | nil => simp only [segmentNoises, hnoise, State.dropNoise, hnode]
    | cons f hops => simp only [segmentNoises, hnoise, State.dropNoise, State.addNoise, State.expressNoise, hnode, ih]

/-- The finding on a record does not depend on the Sweep Unit (R150). -/
theorem State.findingOf_setSweep (s : State) (x : Sweep) (p : Lightpath) :
    (s.setSweep x).findingOf p = s.findingOf p := by
  have hnoise : (s.setSweep x).worstNoise p.route = s.worstNoise p.route :=
    congrArg greatest (segmentNoises_of_store (s := s) (t := s.setSweep x) rfl _ _ _)
  have hstands : (s.setSweep x).routeStands p.route = s.routeStands p.route := rfl
  unfold State.findingOf
  rw [hnoise, hstands]

/-- An ACTIVE, DEGRADED or BROKEN record is evaluated after a change of the Sweep Unit, and the result waits for the
table. -/
theorem State.evaluate_record (s : State) (x : Sweep) (i : Nat) (p : Lightpath) (hp : s.lightpathAt i = some p)
    (hs : p.state ≠ .reserved) :
    (s.setSweep x).evaluate i = s.setSweep { x with
      outstanding := some { tag := s.recordTag i, finding := s.findingOf p } } := by
  have hp' : (s.setSweep x).lightpathAt i = some p := hp
  unfold State.evaluate
  simp only [hp', p.evaluated_iff.mpr hs, if_true, State.findingOf_setSweep]
  rfl

/-- A FREE or RESERVED record is not evaluated. -/
theorem State.evaluate_nothing (s : State) (x : Sweep) (i : Nat)
    (h : s.lightpathAt i = none ∨ ∃ p, s.lightpathAt i = some p ∧ p.state = .reserved) :
    (s.setSweep x).evaluate i = s.setSweep x := by
  have hp : (s.setSweep x).lightpathAt i = s.lightpathAt i := rfl
  unfold State.evaluate
  rcases h with h | ⟨p, h, hs⟩
  · simp only [hp, h]
  · simp [hp, h, Lightpath.evaluated, hs]

/-- The walk meets the evaluated record of lowest index at or above its position. -/
theorem State.nextToWalk_eq_some (s : State) (pos i : Nat) (p : Lightpath) (hi : pos ≤ i)
    (hp : s.lightpathAt i = some p) (hs : p.state ≠ .reserved)
    (hlow : ∀ j x, pos ≤ j → j < i → s.lightpathAt j = some x → x.state = .reserved) : s.nextToWalk pos = some i := by
  obtain ⟨before, rest, hsplit⟩ := List.append_of_mem ((s.mem_lightpaths i p).mpr hp)
  have hasc := s.lightpaths_ascending
  rw [hsplit, List.map_append, List.pairwise_append] at hasc
  obtain ⟨_, _, hbelow⟩ := hasc
  have hskip : ∀ e ∈ before, ¬ (decide (pos ≤ e.1) && e.2.evaluated) = true := by
    rintro ⟨j, x⟩ he hj
    simp only [Bool.and_eq_true, decide_eq_true_eq, Lightpath.evaluated_iff] at hj
    have hx : s.lightpathAt j = some x := (s.mem_lightpaths j x).mp (by rw [hsplit]; exact List.mem_append_left _ he)
    exact hj.2 (hlow j x hj.1 (hbelow j (List.mem_map_of_mem he) i (by simp)) hx)
  unfold State.nextToWalk
  rw [hsplit, List.find?_append, List.find?_eq_none.mpr hskip, Option.none_or,
    List.find?_cons_of_pos (by simp [hi, p.evaluated_iff.mpr hs])]
  rfl

/-- Past the last evaluated record the walk meets none. -/
theorem State.nextToWalk_eq_none (s : State) (pos : Nat)
    (h : ∀ j x, pos ≤ j → s.lightpathAt j = some x → x.state = .reserved) : s.nextToWalk pos = none := by
  unfold State.nextToWalk
  rw [Option.map_eq_none_iff, List.find?_eq_none]
  rintro ⟨j, x⟩ he hj
  simp only [Bool.and_eq_true, decide_eq_true_eq, Lightpath.evaluated_iff] at hj
  exact hj.2 (h j x hj.1 ((s.mem_lightpaths j x).mp he))

/-- What follows the end of a pass (R152): a re-run, or what the mode asks for. -/
theorem Sweep.afterPass_eq (x : Sweep) (interval : Nat) :
    x.afterPass interval = if x.rerun then { x with rerun := false, pass := some 0, walkCount := 0, timer := none }
      else { x with
        pass := none
        walkCount := 0
        mode := if x.mode = .cyclic then .cyclic else .stopped
        timer := if x.mode = .cyclic then some interval else x.timer } := by
  unfold Sweep.afterPass Sweep.startPass
  split
  · rfl
  · cases hm : x.mode <;> simp

/-! ### The command -/

/-- SWEEP_STEP with a pending index, which is served before the walk. -/
theorem exec_sweepStep_pending (s : State) (i : Nat) (rest : List Nat) (hr : s.running = true)
    (ho : s.sweep.outstanding = none) (hp : s.sweep.pendingSet = i :: rest) :
    exec .sweepStep s = .next ((s.setSweep { s.sweep with pendingSet := rest }).evaluate i) := by
  simp [exec, execSweepStep, hr, ho, hp]

/-- SWEEP_STEP with a pass and no pending index. -/
theorem exec_sweepStep_walk (s : State) (pos : Nat) (hr : s.running = true) (ho : s.sweep.outstanding = none)
    (hp : s.sweep.pendingSet = []) (hpass : s.sweep.pass = some pos) : exec .sweepStep s = .next (s.walk pos) := by
  simp [exec, execSweepStep, hr, ho, hp, hpass]

/-- Settles O51: in service and standing by their laws, then the branches of the step. -/
theorem sweepStep : Obligations.SweepStep := by
  unfold Obligations.SweepStep
  refine ⟨State.inService_iff, State.routeStands_iff, ?_, ?_, ?_⟩
  · intro s x hr ho
    simp [exec, execSweepStep, ho]
  · intro s hr ho hset hpass
    simp [exec, execSweepStep, hset, hpass]
  · intro s hr ho
    refine ⟨?_, ?_, ?_, ?_⟩
    · intro i rest p hset hp hs
      rw [exec_sweepStep_pending s i rest hr ho hset, s.evaluate_record _ i p hp hs]
      rfl
    · intro i rest hset hp
      rw [exec_sweepStep_pending s i rest hr ho hset, s.evaluate_nothing _ i hp]
      rfl
    · intro pos i p hset hpass hi hp hs hlow
      rw [exec_sweepStep_walk s pos hr ho hset hpass, State.walk, s.nextToWalk_eq_some pos i p hi hp hs hlow]
      simp only
      rw [s.evaluate_record _ i p hp hs]
      rfl
    · intro pos hset hpass hlow
      have hwalk : s.walk pos = s.endPass := by rw [State.walk, s.nextToWalk_eq_none pos hlow]
      refine ⟨_, exec_sweepStep_walk s pos hr ho hset hpass, s.walk_frame pos, ?_, ?_⟩
      · rw [hwalk]
        rfl
      · rw [hwalk]
        exact Sweep.afterPass_eq _ _

end Sys2Proof.Machine
end

