-- ==== Sys2Proof/Proofs/DirectionRuns.lean ====
section
/-! SUPPORT. Operations of the Span Conditioner that act on several directions, one after the other (R38, R41): what a
run of them over a list of directions makes of the state. -/

namespace Sys2Proof.Machine

/-! ### A run over a list of directions -/

/-- What an operation makes of one direction: its record, the notice that it hands on, and the hop-lost event that it
raises. -/
structure DirectionEffect where
  record : Direction
  told : Option Notice
  lost : Option HopLost

/-- An effect on each direction of a link goes by that direction's own record, whatever the other one of the link. -/
def effectLocal (eff : Nat → Link → Dir → DirectionEffect) : Prop :=
  ∀ k l d e y, e ≠ d → eff k (l.withDirection e y) d = eff k l d

/-- A state that a run from b goes through: b's nodes, profiles and links, with other direction records. -/
structure sameNetwork (b x : State) : Prop where
  nodes : x.store.nodes = b.store.nodes
  port : x.port = b.port
  ends : sameEnds b x

theorem sameNetwork.refl (b : State) : sameNetwork b b := ⟨rfl, rfl, sameEnds.refl b⟩

theorem directionChanged.network {b s t : State} {k : Nat} {d : Dir} {y : Direction} {ns : List Notice}
    {hs : List HopLost} (h : directionChanged s t k d y ns hs) (hb : sameNetwork b s) : sameNetwork b t :=
  ⟨h.nodes.trans hb.nodes, h.port.trans hb.port, hb.ends.trans h.sameEnds⟩

/-- The profile in force for a receiving node is the same throughout a run. -/
theorem sameNetwork.receiverProfile {b x : State} (h : sameNetwork b x) (l : Link) (d : Dir) :
    x.receiverProfile l d = b.receiverProfile l d := by
  simp only [State.receiverProfile, State.nodeAt, State.image, h.nodes, h.port]

/-- On the states of a run from b, an operation has a given effect on each direction of a link that stands. -/
structure hasEffect (b : State) (op : State → Nat → Dir → State) (eff : Nat → Link → Dir → DirectionEffect) : Prop where
  absent : ∀ x k d, x.linkAt k = none → op x k d = x
  present : ∀ x k d l, sameNetwork b x → x.linkAt k = some l →
    directionChanged x (op x k d) k d (eff k l d).record (eff k l d).told.toList (eff k l d).lost.toList
  isLocal : effectLocal eff

/-- A link after a run over a list of directions. -/
def linkAfter (eff : Nat → Link → Dir → DirectionEffect) (ds : List (Nat × Dir)) (k : Nat) (l : Link) : Link :=
  { l with
    dir0 := if (k, .zero) ∈ ds then (eff k l .zero).record else l.dir0
    dir1 := if (k, .one) ∈ ds then (eff k l .one).record else l.dir1 }

/-- Between s and t each direction of a list of distinct ones has had its effect, the Sweep Unit aside. -/
structure directionsChanged (s t : State) (ds : List (Nat × Dir)) (eff : Nat → Link → Dir → DirectionEffect) :
    Prop where
  frame : sameBut [.store, .handoffs, .notices, .sweep] s t
  nodes : t.store.nodes = s.store.nodes
  claims : t.store.claims = s.store.claims
  links : ∀ k, t.linkAt k = (s.linkAt k).map (linkAfter eff ds k)
  told : handedNotices s t (ds.filterMap fun e => (s.linkAt e.1).bind fun l => (eff e.1 l e.2).told)
  lost : t.handoffs = { s.handoffs with
    conditionerToTable := s.handoffs.conditionerToTable ++
      ds.filterMap fun e => (s.linkAt e.1).bind fun l => (eff e.1 l e.2).lost }

/-- The change of one direction leaves what the run makes of the other directions. -/
theorem effect_after {s t : State} {k : Nat} {d : Dir} {l : Link} {ns : List Notice} {hs : List HopLost}
    {eff : Nat → Link → Dir → DirectionEffect} {β : Type} (f : DirectionEffect → Option β)
    (h : directionChanged s t k d (eff k l d).record ns hs) (hl : s.linkAt k = some l) (hloc : effectLocal eff)
    {e : Nat × Dir} (he : e ≠ (k, d)) :
    ((t.linkAt e.1).bind fun m => f (eff e.1 m e.2)) = (s.linkAt e.1).bind fun m => f (eff e.1 m e.2) := by
  obtain ⟨j, c⟩ := e
  by_cases hj : j = k
  · subst hj
    have hc : d ≠ c := fun hc => he (by rw [hc])
    simp [h.linkAt_self hl, hl, hloc j l c d _ hc]
  · rw [h.linkAt_other hj]

/-- A link after one direction has had its effect and a run over others follows. -/
theorem linkAfter_withDirection {eff : Nat → Link → Dir → DirectionEffect} (hloc : effectLocal eff)
    (ds : List (Nat × Dir)) (k : Nat) (d : Dir) (l : Link) (hd : (k, d) ∉ ds) :
    linkAfter eff ds k (l.withDirection d (eff k l d).record) = linkAfter eff ((k, d) :: ds) k l := by
  have hone := hloc k l .one .zero (eff k l .zero).record (by simp)
  have hzero := hloc k l .zero .one (eff k l .one).record (by simp)
  cases d with
  | zero => simp only [linkAfter, hone, List.mem_cons, hd, if_false]; simp [Link.withDirection]
  | one => simp only [linkAfter, hzero, List.mem_cons, hd, if_false]; simp [Link.withDirection]

theorem linkAfter_cons_other (eff : Nat → Link → Dir → DirectionEffect) (ds : List (Nat × Dir)) (k j : Nat) (d : Dir)
    (hj : j ≠ k) : linkAfter eff ((k, d) :: ds) j = linkAfter eff ds j := by
  funext l
  simp [linkAfter, hj]

theorem filterMap_cons_toList {α β : Type} (f : α → Option β) (a : α) (l : List α) :
    (a :: l).filterMap f = (f a).toList ++ l.filterMap f := by
  cases h : f a <;> simp [h]

/-- A run over a list of distinct directions. -/
theorem directionsChanged_foldl {b : State} {op : State → Nat → Dir → State}
    {eff : Nat → Link → Dir → DirectionEffect} (h : hasEffect b op eff) (ds : List (Nat × Dir)) :
    ∀ s, sameNetwork b s → ds.Nodup → directionsChanged s (ds.foldl (fun x e => op x e.1 e.2) s) ds eff := by
  induction ds with
  | nil =>
    refine fun s _ _ => ⟨sameBut_refl _ _, rfl, rfl, fun k => ?_, by simp [handedNotices], by simp⟩
    cases hl : s.linkAt k <;> simp [hl, linkAfter]
  | cons e ds ih =>
    intro s hb hds
    obtain ⟨k, d⟩ := e
    obtain ⟨hd, hds⟩ := List.nodup_cons.mp hds
    simp only [List.foldl_cons]
    cases hl : s.linkAt k with
    | none =>
      rw [h.absent s k d hl]
      obtain ⟨hframe, hnodes, hclaims, hlinks, htold, hlost⟩ := ih s hb hds
      refine ⟨hframe, hnodes, hclaims, fun j => ?_, by simpa [hl] using htold, by simpa [hl] using hlost⟩
      rw [hlinks]
      by_cases hj : j = k
      · rw [hj, hl]; rfl
      · rw [linkAfter_cons_other eff ds k j d hj]
    | some l =>
      have hone := h.present s k d l hb hl
      obtain ⟨hframe, hnodes, hclaims, hlinks, htold, hlost⟩ := ih _ (hone.network hb) hds
      have hafter : ∀ {β : Type} (f : DirectionEffect → Option β),
          (ds.filterMap fun e => ((op s k d).linkAt e.1).bind fun m => f (eff e.1 m e.2)) =
            ds.filterMap fun e => (s.linkAt e.1).bind fun m => f (eff e.1 m e.2) := fun f =>
        List.filterMap_congr fun e he => effect_after f hone hl h.isLocal fun hek => hd (hek ▸ he)
      refine ⟨sameBut_trans hone.frame hframe, hnodes.trans hone.nodes, hclaims.trans hone.claims, fun j => ?_, ?_, ?_⟩
      · rw [hlinks]
        by_cases hj : j = k
        · subst hj
          simp only [hone.linkAt_self hl, hl, Option.map_some, linkAfter_withDirection h.isLocal ds j d l hd]
        · rw [hone.linkAt_other hj, linkAfter_cons_other eff ds k j d hj]
      · have htold' := hone.told
        rw [hafter] at htold
        unfold handedNotices at *
        simp [htold, htold', filterMap_cons_toList, hl]
      · simp [hlost, hafter, hone.lost, filterMap_cons_toList, hl]

namespace directionsChanged

variable {s t : State} {ds : List (Nat × Dir)} {eff : Nat → Link → Dir → DirectionEffect}

theorem sameEnds (h : directionsChanged s t ds eff) : sameEnds s t := by
  refine ⟨fun i => by simp only [State.nodeAt, h.nodes], fun k => ?_⟩
  rw [h.links]
  cases s.linkAt k <;> simp [linkAfter, Link.ends]

/-- A run leaves the service of the directions that it does not act on (R27). -/
theorem inService_other (h : directionsChanged s t ds eff) {k : Nat} {d : Dir} (hd : (k, d) ∉ ds) :
    t.inService k d = s.inService k d := by
  refine State.inService_congr h.nodes ?_
  rw [h.links]
  cases s.linkAt k with
  | none => rfl
  | some l => cases d <;> simp [linkAfter, Link.ends, Link.direction, hd]

end directionsChanged

/-- A run of operations each of which evaluates what it returns to service (R39) evaluates what the run returns. -/
theorem returnsEvaluated_foldl {b : State} {op : State → Nat → Dir → State}
    {eff : Nat → Link → Dir → DirectionEffect} (h : hasEffect b op eff)
    (hret : ∀ x k d, sameNetwork b x → returnsEvaluated x (op x k d)) (ds : List (Nat × Dir)) :
    ∀ s, sameNetwork b s → ds.Nodup → returnsEvaluated s (ds.foldl (fun x e => op x e.1 e.2) s) := by
  induction ds with
  | nil => exact fun s _ _ => returnsEvaluated_evaluateDirections [] rfl rfl (sameEnds.refl s) (by simp)
  | cons e ds ih =>
    intro s hb hds
    obtain ⟨k, d⟩ := e
    obtain ⟨hd, hds⟩ := List.nodup_cons.mp hds
    simp only [List.foldl_cons]
    cases hl : s.linkAt k with
    | none =>
      rw [h.absent s k d hl]
      exact ih s hb hds
    | some l =>
      have hone := h.present s k d l hb hl
      have hb' := hone.network hb
      refine returnsEvaluated_trans (hret s k d hb) (ih _ hb' hds) hone.records hone.sameEnds fun j e => ?_
      by_cases hj : (j, e) = (k, d)
      · refine .inr ((directionsChanged_foldl h ds _ hb' hds).inService_other ?_)
        rwa [hj]
      · exact .inl (hone.inService_other hj)

/-! ### The directions of all links (assumption log 14) -/

/-- Each direction of a link table in its canonical form is listed once. -/
theorem State.directions_nodup (s : State) (h : risingTable s.store.links = true) : s.directions.Nodup := by
  rw [risingTable_iff] at h
  unfold State.directions
  generalize s.store.links = t at h
  induction t with
  | nil => simp
  | cons e t ih =>
    obtain ⟨hlow, ht⟩ := List.pairwise_cons.mp h
    rw [List.flatMap_cons, List.nodup_append]
    refine ⟨by simp, ih ht, ?_⟩
    rintro ⟨j, c⟩ hj ⟨j', c'⟩ hj' heq
    obtain ⟨f, hf, hjf⟩ := List.mem_flatMap.mp hj'
    have hlt : e.1 < f.1 := hlow f.1 (List.mem_map_of_mem hf)
    simp only [List.mem_cons, Prod.mk.injEq, List.not_mem_nil, or_false] at hj hjf heq
    omega

/-- Both directions of a link that stands are listed. -/
theorem State.mem_directions (s : State) {k : Nat} {l : Link} (hl : s.linkAt k = some l) (d : Dir) :
    (k, d) ∈ s.directions := by
  refine List.mem_flatMap.mpr ⟨(k, l), tableGet_mem _ _ _ hl, ?_⟩
  cases d <;> simp

/-- A run over all directions acts on both directions of each link. -/
theorem linkAfter_directions (s : State) {eff : Nat → Link → Dir → DirectionEffect} {k : Nat} {l : Link}
    (hl : s.linkAt k = some l) :
    linkAfter eff s.directions k l = { l with dir0 := (eff k l .zero).record, dir1 := (eff k l .one).record } := by
  simp [linkAfter, s.mem_directions hl]

end Sys2Proof.Machine
end

