-- ==== Sys2Proof/Proofs/ProfileChanges.lean ====
section
/-! SUPPORT. R41: what a change of a profile makes of one direction, and of every direction whose receiving node has the
profile. -/

namespace Sys2Proof.Machine

/-! ### One direction (R41) -/

/-- The notice of a direction that R41 changes from x to y: suppression lifted or set. -/
def State.reprofileTold (s : State) (l : Link) (d : Dir) (x y : Direction) : Option Notice :=
  if x.suppressed && !y.suppressed then some (s.directionNotice l d .unsuppressed x.flap)
  else if !x.suppressed && y.suppressed then some (s.directionNotice l d .suppressed x.flap)
  else none

/-- The hop-lost event of a direction that R41 changes from x to y. -/
def State.reprofileRaised (s : State) (l : Link) (k : Nat) (d : Dir) (x y : Direction) : Option HopLost :=
  if !x.suppressed && y.suppressed && (x.cond == .up || x.cond == .falling) then
    some { subject := s.directionSubject l k d, cause := .suppressed }
  else none

/-- A direction with its latch set under the new profile, which R41 does first. -/
def Direction.relatched (x : Direction) (p : Profile) : Direction :=
  { x with latched := x.latched || (x.suppressed && p.latch) }

/-- R41 lifts the suppression. -/
def Direction.lifts (x : Direction) (p : Profile) : Prop :=
  (x.relatched p).suppressed = true ∧ ¬ (x.relatched p).latched = true ∧ (x.relatched p).flap ≤ p.reuse

/-- R41 sets the suppression. -/
def Direction.sets (x : Direction) (p : Profile) : Prop :=
  ¬ (x.relatched p).suppressed = true ∧ p.suppress ≤ (x.relatched p).flap

theorem Direction.reprofiled_of_lifts {x : Direction} {p : Profile} (h : x.lifts p) :
    x.suppressed = true ∧ x.reprofiled p = { x.relatched p with suppressed := false } := by
  obtain ⟨hsup, hlatch, hflap⟩ := h
  have hsup : x.suppressed = true := hsup
  have hlatch : (x.latched || p.latch) = false := by simpa [Direction.relatched, hsup] using hlatch
  have hreuse : ¬ p.reuse < x.flap := Nat.not_lt.mpr hflap
  exact ⟨hsup, by simp [Direction.reprofiled, Direction.relatched, hsup, hlatch, hreuse]⟩

theorem Direction.reprofiled_of_sets {x : Direction} {p : Profile} (h : x.sets p) :
    x.suppressed = false ∧ x.reprofiled p = { x.relatched p with suppressed := true, latched := p.latch } := by
  obtain ⟨hsup, hflap⟩ := h
  have hflap : p.suppress ≤ x.flap := hflap
  have hsup : x.suppressed = false := by simpa [Direction.relatched] using hsup
  exact ⟨hsup, by simp [Direction.reprofiled, Direction.relatched, hsup, hflap]⟩

/-- Where R41 neither lifts nor sets the suppression, it sets at most the latch. -/
theorem Direction.reprofiled_of_stays {x : Direction} {p : Profile} (hl : ¬ x.lifts p) (hs : ¬ x.sets p) :
    x.reprofiled p = x.relatched p := by
  unfold Direction.lifts Direction.sets at *
  unfold Direction.reprofiled
  cases hsup : x.suppressed with
  | true =>
    have hstays : (x.latched || p.latch || decide (p.reuse < x.flap)) = true := by
      by_contra hn
      simp only [Bool.or_eq_true, decide_eq_true_eq, not_or] at hn
      exact hl ⟨hsup, by simpa [Direction.relatched, hsup] using hn.1, Nat.not_lt.mp hn.2⟩
    simp [hstays, Direction.relatched, hsup]
  | false =>
    have hflap : ¬ p.suppress ≤ x.flap := fun h => hs ⟨by simp [Direction.relatched, hsup], h⟩
    have hsame : { x with suppressed := false } = x := by rw [← hsup]
    simp [hflap, Direction.relatched, hsup, hsame]

/-- R41 for one direction of a link that stands. -/
theorem State.reprofileDirection_changes (s : State) (k : Nat) (d : Dir) (l : Link) (hl : s.linkAt k = some l)
    (x y : Direction) (hx : x = l.direction d) (hy : y = x.reprofiled (s.receiverProfile l d)) :
    directionChanged s (s.reprofileDirection k d) k d y (s.reprofileTold l d x y).toList
      (s.reprofileRaised l k d x y).toList ∧
    returnsEvaluated s (s.reprofileDirection k d) := by
  subst hx
  generalize hp : s.receiverProfile l d = p at hy
  generalize hx : l.direction d = x at hy
  have hset := s.setDirection_changes k d (x.relatched p)
  have hdef : s.reprofileDirection k d =
      if (x.relatched p).suppressed = true ∧ ¬ (x.relatched p).latched = true ∧ (x.relatched p).flap ≤ p.reuse then
        (s.setDirection k d (x.relatched p)).unsuppress k d l (x.relatched p)
      else if ¬ (x.relatched p).suppressed = true ∧ p.suppress ≤ (x.relatched p).flap then
        (s.setDirection k d (x.relatched p)).suppress k d l (x.relatched p) p
      else s.setDirection k d (x.relatched p) := by
    unfold State.reprofileDirection
    rw [hl]
    subst hp hx
    rfl
  by_cases hlift : x.lifts p
  · obtain ⟨hsup, hrec⟩ := Direction.reprofiled_of_lifts hlift
    rw [hrec] at hy
    have hserv : (s.setDirection k d (x.relatched p)).inService k d = s.inService k d := by
      rw [hset.inService_self hl, (directionChanged.refl (d := d) hl).inService_self hl, hx]
      rfl
    have htold : (s.reprofileTold l d x y).toList = [s.directionNotice l d .unsuppressed x.flap] := by
      simp [State.reprofileTold, hsup, hy]
    have hraised : (s.reprofileRaised l k d x y).toList = [] := by simp [State.reprofileRaised, hsup]
    rw [hdef, if_pos (show _ ∧ _ ∧ _ from hlift), htold, hraised, hy]
    exact ⟨hset.unsuppress l _, hset.unsuppress_evaluated rfl hserv l _⟩
  · by_cases hsets : x.sets p
    · obtain ⟨hsup, hrec⟩ := Direction.reprofiled_of_sets hsets
      rw [hrec] at hy
      have htold : (s.reprofileTold l d x y).toList = [s.directionNotice l d .suppressed x.flap] := by
        simp [State.reprofileTold, hsup, hy]
      have hraised : (s.reprofileRaised l k d x y).toList = s.suppressLost k d l (x.relatched p) := by
        unfold State.reprofileRaised State.suppressLost
        by_cases hc : x.cond = .up ∨ x.cond = .falling <;> simp [hsup, hy, hc, Direction.relatched]
      have hone := hset.suppress l (x.relatched p) p
      have hsweep : ((s.setDirection k d (x.relatched p)).suppress k d l (x.relatched p) p).sweep = s.sweep :=
        (State.suppress_frame _ k d l _ p).2 .sweep (by decide)
      rw [hdef, if_neg (show ¬ (_ ∧ _ ∧ _) from hlift), if_pos (show _ ∧ _ from hsets), htold, hraised, hy]
      exact ⟨hone, hone.nothing_returned hsweep hl (by simp [Direction.carries])⟩
    · rw [Direction.reprofiled_of_stays hlift hsets] at hy
      have hsame : y.suppressed = x.suppressed := by rw [hy]; rfl
      have htold : (s.reprofileTold l d x y).toList = [] := by simp [State.reprofileTold, hsame]
      have hraised : (s.reprofileRaised l k d x y).toList = [] := by simp [State.reprofileRaised, hsame]
      rw [hdef, if_neg (show ¬ (_ ∧ _ ∧ _) from hlift), if_neg (show ¬ (_ ∧ _) from hsets), htold, hraised, hy]
      exact ⟨hset, hset.nothing_returned rfl hl (by rw [hx]; exact id)⟩

/-! ### Every direction that passes a test (R41) -/

/-- The receiving node of a direction is in the table and passes a test. -/
def State.receiverPasses (b : State) (test : Node → Bool) (k : Nat) (d : Dir) : Bool :=
  ((b.receiverIndex k d).bind b.nodeAt).any test

/-- R41 for a direction if its receiving node passes a test in state b. -/
def State.reprofileWhere (b : State) (test : Node → Bool) (x : State) (k : Nat) (d : Dir) : State :=
  if b.receiverPasses test k d then x.reprofileDirection k d else x

/-- R41 for the directions that pass a test, as a run over all directions. -/
theorem State.reprofile_eq_foldl (s : State) (test : Node → Bool) :
    s.reprofile test = s.directions.foldl (fun x e => s.reprofileWhere test x e.1 e.2) s := by
  unfold State.reprofile State.reprofileWhere State.receiverPasses
  rw [List.foldl_filter]
  congr 1
  funext x e
  cases h : (s.receiverIndex e.1 e.2).bind s.nodeAt <;> simp [h]

/-- What R41 makes of a direction, the profiles in force being b's. -/
def State.reprofileEffect (b : State) (test : Node → Bool) (k : Nat) (l : Link) (d : Dir) : DirectionEffect where
  record := b.reprofiled test l d
  told := b.reprofileTold l d (l.direction d) (b.reprofiled test l d)
  lost := b.reprofileRaised l k d (l.direction d) (b.reprofiled test l d)

theorem State.reprofileEffect_local (b : State) (test : Node → Bool) : effectLocal (b.reprofileEffect test) := by
  intro k l d e y he
  have hdir : (l.withDirection e y).direction d = l.direction d := by
    rw [Link.direction_withDirection, if_neg (Ne.symm he)]
  simp only [State.reprofileEffect, State.reprofiled, State.reprofileTold, State.reprofileRaised, State.directionNotice,
    State.directionSubject, State.receiverProfile, Link.withDirection_endAt, hdir]
  rfl

/-- Whether the receiving node passes the test, read off a link of a later state of the run. -/
theorem sameNetwork.receiverPasses {b x : State} (h : sameNetwork b x) (test : Node → Bool) {k : Nat} {l : Link}
    (hl : x.linkAt k = some l) (d : Dir) :
    b.receiverPasses test k d = (b.nodeAt (l.endAt d).node).any test := by
  obtain ⟨m, hm, he⟩ := h.ends.linkAt hl
  simp [State.receiverPasses, State.receiverIndex, hm, Link.endAt_of_ends he]

theorem State.reprofile_hasEffect (b : State) (test : Node → Bool) :
    hasEffect b (b.reprofileWhere test) (b.reprofileEffect test) := by
  refine ⟨fun x k d hl => ?_, fun x k d l hx hl => ?_, b.reprofileEffect_local test⟩
  · simp [State.reprofileWhere, State.reprofileDirection, hl]
  · have hpass := hx.receiverPasses test hl d
    unfold State.reprofileWhere State.reprofileEffect State.reprofiled
    rw [hpass]
    split
    · rw [← hx.receiverProfile]
      have hone := (x.reprofileDirection_changes k d l hl _ _ rfl rfl).1
      simpa only [State.reprofileTold, State.reprofileRaised, hx.ends.directionNotice, hx.ends.directionSubject]
        using hone
    · simpa [State.reprofileTold, State.reprofileRaised] using directionChanged.refl (d := d) hl

theorem State.reprofileWhere_evaluated (b : State) (test : Node → Bool) (x : State) (k : Nat) (d : Dir) :
    returnsEvaluated x (b.reprofileWhere test x k d) := by
  have hnone : returnsEvaluated x x := returnsEvaluated_evaluateDirections [] rfl rfl (sameEnds.refl x) (by simp)
  unfold State.reprofileWhere
  split
  · cases hl : x.linkAt k with
    | none => simpa [State.reprofileDirection, hl] using hnone
    | some l => exact (x.reprofileDirection_changes k d l hl _ _ rfl rfl).2
  · exact hnone

/-- R41 for every direction whose receiving node passes a test. -/
theorem State.reprofile_to (s : State) (test : Node → Bool) (hr : risingTable s.store.links = true) :
    reprofiledTo s (s.reprofile test) test := by
  have heff := s.reprofile_hasEffect test
  have hnodup := s.directions_nodup hr
  have h := directionsChanged_foldl heff s.directions s (sameNetwork.refl s) hnodup
  have hret := returnsEvaluated_foldl heff (fun x k d _ => s.reprofileWhere_evaluated test x k d) s.directions s
    (sameNetwork.refl s) hnodup
  rw [← State.reprofile_eq_foldl] at h hret
  refine ⟨sameBut_mono h.frame (by decide), fun k => ?_, h.nodes, h.claims, h.lost, h.told, hret⟩
  rw [h.links]
  cases hl : s.linkAt k with
  | none => rfl
  | some l => exact congrArg some (linkAfter_directions s hl)

/-- R41 hands on notices, and changes nothing else of the Notice Unit. -/
theorem State.reprofile_handed (s : State) (test : Node → Bool) : ∃ ns, handedNotices s (s.reprofile test) ns := by
  have hone : ∀ (x : State) k d, ∃ ns, handedNotices x (x.reprofileDirection k d) ns := fun x k d => by
    cases hl : x.linkAt k with
    | none => exact ⟨[], by simp [State.reprofileDirection, hl, handedNotices]⟩
    | some l => exact ⟨_, (x.reprofileDirection_changes k d l hl _ _ rfl rfl).1.told⟩
  unfold State.reprofile
  generalize List.filter _ _ = ds
  suffices h : ∀ (ds : List (Nat × Dir)) (x : State),
      ∃ ns, handedNotices x (ds.foldl (fun x (k, d) => x.reprofileDirection k d) x) ns from h ds s
  intro ds
  induction ds with
  | nil => exact fun x => ⟨[], by simp [handedNotices]⟩
  | cons e ds ih =>
    intro x
    obtain ⟨ns, hns⟩ := hone x e.1 e.2
    obtain ⟨ms, hms⟩ := ih (x.reprofileDirection e.1 e.2)
    refine ⟨ns ++ ms, ?_⟩
    unfold handedNotices at *
    rw [List.foldl_cons, hms, hns, List.append_assoc]

/-- R41 where no node passes the test. -/
theorem State.reprofile_none (s : State) (test : Node → Bool) (h : ∀ e ∈ s.store.nodes, test e.2 = false) :
    s.reprofile test = s := by
  have hpass : ∀ k d, s.receiverPasses test k d = false := fun k d => by
    unfold State.receiverPasses
    rw [Option.any_eq_false]
    intro n hn
    obtain ⟨i, _, hi⟩ := Option.bind_eq_some_iff.mp hn
    simpa using h (i, n) (tableGet_mem _ _ _ hi)
  have hfix : ∀ ds : List (Nat × Dir), ds.foldl (fun x e => s.reprofileWhere test x e.1 e.2) s = s := fun ds => by
    induction ds with
    | nil => rfl
    | cons e ds ih => rw [List.foldl_cons, State.reprofileWhere, hpass]; exact ih
  rw [State.reprofile_eq_foldl, hfix]

end Sys2Proof.Machine
end

