-- ==== Sys2Proof/Proofs/SaveAndReload.lean ====
section
/-! SUPPORT. The ends of a SAVE and of a RELOAD (R165, R179, R185, R186): the stages in which the blocks meet a reloaded
image, and the settlement of the statement about both. -/

namespace Sys2Proof.Machine

/-! ### The answer of the port (R144) -/

theorem State.setPort_frame (s : State) (x : ConfigPort) : sameBut [.port] s (s.setPort x) :=
  ⟨rfl, fun p hp => by cases p <;> first | exact absurd (by decide) hp | rfl⟩

theorem State.endPortQuery_frame (s : State) (slot : Nat) (q : Query) (st : Status) (n : Nat) :
    sameBut [.port, .writer] s (s.endPortQuery slot q st n) :=
  sameBut_then (s.setPort_frame _) (State.offer_frame _ _) (by decide) (by decide)

/-- The port ends its operation and answers after another change of the port and a notice. -/
theorem State.endPortQuery_told_frame (s : State) (x : ConfigPort) (n : Notice) (slot : Nat) (q : Query) (st : Status)
    (m : Nat) : sameBut [.port, .notices, .writer] s (((s.setPort x).hand n).endPortQuery slot q st m) :=
  sameBut_then
    (sameBut_then (s.setPort_frame x) (State.hand_frame _ n) (rs := [.port, .notices]) (by decide) (by decide))
    (State.endPortQuery_frame _ slot q st m) (by decide) (by decide)

/-! ### SAVE (R186) -/

theorem exec_saveEnd_done (s : State) (slot : Nat) (q : Query) (copy : List Byte) (altered : Bool)
    (hr : s.running = true) (hop : s.port.op = .save slot q copy altered) (hlen : copy.length = 512) :
    exec (.saveEnd copy) s = .next (s.saved slot q altered) := by
  simp [exec, execSaveEnd, hr, hop, judgeSave, hlen]

/-- The reason of a SAVE that failed: 1 for a byte unanswered, 5 for a byte read back different. -/
theorem judgeSave_failed (copy bs : List Byte) (h : bs ≠ copy) :
    ∃ reason, judgeSave copy bs = some reason ∧ word reason.code = if bs.length ≠ 512 then 1#32 else 5#32 := by
  unfold judgeSave
  by_cases hlen : bs.length ≠ 512
  · exact ⟨.noAnswer, by simp [hlen], by simp [hlen]; rfl⟩
  · exact ⟨.verify, by simp [hlen, h], by simp [hlen]; rfl⟩

theorem exec_saveEnd_failed (s : State) (slot : Nat) (q : Query) (copy bs : List Byte) (altered : Bool)
    (reason : PortReason) (hr : s.running = true) (hop : s.port.op = .save slot q copy altered)
    (hj : judgeSave copy bs = some reason) :
    exec (.saveEnd bs) s = .next ((s.hand (notice .saveFailed 0#32 (word reason.code))).endPortQuery slot q .saveFailed
      reason.code) := by
  simp [exec, execSaveEnd, hr, hop, hj]

/-! ### The stages of a RELOAD (R165, R179, R185) -/

/-- The tap and the Notice Unit have met a reloaded image that replaced an old one; R41 is still to come. -/
def State.reloadStage (s : State) (old : List Byte) : State :=
  let tapped := if windowsDiffer old s.image then s.dropStagings else s
  if windowOf old .notice ≠ windowOf s.image .notice then tapped.moveRing else tapped

theorem State.dropStagings_frame (s : State) : sameBut [.tap] s s.dropStagings :=
  ⟨rfl, fun p hp => by cases p <;> first | exact absurd (by decide) hp | rfl⟩

theorem State.moveRing_frame (s : State) : sameBut [.notices] s s.moveRing :=
  ⟨rfl, fun p hp => by cases p <;> first | exact absurd (by decide) hp | rfl⟩

theorem State.reloadStage_frame (s : State) (old : List Byte) : sameBut [.tap, .notices] s (s.reloadStage old) := by
  have htap : sameBut [.tap] s (if windowsDiffer old s.image then s.dropStagings else s) := by
    split
    · exact s.dropStagings_frame
    · exact sameBut_refl _ _
  simp only [State.reloadStage]
  split
  · exact sameBut_then htap (State.moveRing_frame _) (by decide) (by decide)
  · exact sameBut_mono htap (by decide)

theorem windowsDiffer_iff (old new : List Byte) :
    windowsDiffer old new = true ↔ windowEntries old ≠ windowEntries new := by
  simp [windowsDiffer]

/-- The tap under an unchanged window table keeps what it holds (R179). -/
theorem State.reloadStage_tap_same (s : State) (old : List Byte) (h : windowEntries old = windowEntries s.image) :
    (s.reloadStage old).tap = s.tap := by
  have hd : windowsDiffer old s.image ≠ true := fun hd => (windowsDiffer_iff _ _).mp hd h
  simp only [State.reloadStage, hd]
  split <;> rfl

/-- The tap under a changed window table discards and counts its stagings (R179). -/
theorem State.reloadStage_tap_changed (s : State) (old : List Byte) (h : windowEntries old ≠ windowEntries s.image) :
    (s.reloadStage old).tap = { s.tap with
      reportStagings := [], queryStagings := [],
      abandoned := min (s.tap.abandoned + (s.tap.reportStagings.length + s.tap.queryStagings.length)) 65535 } := by
  have hd : windowsDiffer old s.image = true := (windowsDiffer_iff _ _).mpr h
  simp only [State.reloadStage, hd]
  split <;> rfl

/-- The ring stays in an unchanged notice window. -/
theorem State.reloadStage_notices_same (s : State) (old : List Byte)
    (h : windowOf old .notice = windowOf s.image .notice) : (s.reloadStage old).notices = s.notices := by
  simp only [State.reloadStage, h, ne_eq, not_true_eq_false, if_false]
  split <;> rfl

/-- The ring starts anew in another notice window, "reloaded" before every notice not yet taken (R165). -/
theorem State.reloadStage_notices_moved (s : State) (old : List Byte)
    (h : windowOf old .notice ≠ windowOf s.image .notice) :
    (s.reloadStage old).notices =
      { s.notices.move s.noticeBase with inbox := notice .reloaded 0#32 0#32 :: s.notices.inbox } := by
  simp only [State.reloadStage, h, ne_eq, not_false_eq_true, if_true]
  split <;> rfl

theorem State.meetReload_same (s : State) (old : List Byte) (h : windowOf old .notice = windowOf s.image .notice) :
    s.meetReload old = ((s.reloadStage old).reprofileFrom old).hand (notice .reloaded 0#32 0#32) := by
  simp only [State.meetReload, State.reloadStage, h, ne_eq, not_true_eq_false, if_false]

theorem State.meetReload_moved (s : State) (old : List Byte) (h : windowOf old .notice ≠ windowOf s.image .notice) :
    s.meetReload old = (s.reloadStage old).reprofileFrom old := by
  simp only [State.meetReload, State.reloadStage, h, ne_eq, not_false_eq_true, if_true]

/-- R41 is the last stage but for the notice "reloaded" of an unmoved ring. -/
theorem State.meetReload_after (s : State) (old : List Byte) :
    sameBut [.notices] ((s.reloadStage old).reprofileFrom old) (s.meetReload old) := by
  by_cases h : windowOf old .notice = windowOf s.image .notice
  · rw [s.meetReload_same old h]
    exact State.hand_frame _ _
  · rw [s.meetReload_moved old h]
    exact sameBut_refl _ _

/-! ### A valid image (R185) -/

/-- The state with a reloaded image in force, before the blocks meet it. -/
def State.withReloaded (s : State) (bs : List Byte) : State :=
  s.setPort { s.port with image := some bs, source := some .reloaded, changed := false }

theorem State.withReloaded_image (s : State) (bs : List Byte) : (s.withReloaded bs).image = bs := rfl

theorem State.reloaded_eq (s : State) (slot : Nat) (q : Query) (bs : List Byte) :
    s.reloaded slot q bs = ((s.withReloaded bs).meetReload s.image).endPortQuery slot q .done 0 := rfl

/-- The stage before R41, against the state at the end of the read. -/
theorem State.reloadStage_withReloaded_frame (s : State) (bs : List Byte) :
    sameBut [.port, .tap, .notices] s ((s.withReloaded bs).reloadStage s.image) :=
  sameBut_then (s.setPort_frame _) (State.reloadStage_frame _ _) (by decide) (by decide)

/-- The stage after R41, against the end of the event. -/
theorem State.reloaded_after (s : State) (slot : Nat) (q : Query) (bs : List Byte) :
    sameBut [.port, .notices, .writer] (((s.withReloaded bs).reloadStage s.image).reprofileFrom s.image)
      (s.reloaded slot q bs) :=
  sameBut_then (State.meetReload_after _ _) (State.endPortQuery_frame _ slot q .done 0) (by decide) (by decide)

/-- The profiles that R41 compares are those of the old and of the reloaded image. -/
theorem State.reprofileFrom_reloadStage (s : State) (bs : List Byte) :
    ((s.withReloaded bs).reloadStage s.image).reprofileFrom s.image =
      ((s.withReloaded bs).reloadStage s.image).reprofile
        fun n => profileAt s.image n.profile != profileAt bs n.profile := by
  have hport : ((s.withReloaded bs).reloadStage s.image).port = (s.withReloaded bs).port :=
    (State.reloadStage_frame _ _).2 .port (by decide)
  have himage : ((s.withReloaded bs).reloadStage s.image).image = bs :=
    congrArg (fun x : ConfigPort => x.image.getD []) hport
  unfold State.reprofileFrom
  rw [himage]

/-- What a valid image makes of the port, the answer queue and the parts that no stage changes. -/
theorem State.reloaded_frame (s : State) (slot : Nat) (q : Query) (bs : List Byte) :
    sameBut [.port, .tap, .store, .handoffs, .sweep, .notices, .writer] s (s.reloaded slot q bs) :=
  sameBut_then (s.reloadStage_withReloaded_frame bs)
    (sameBut_then (State.reprofile_frame _ _) (s.reloaded_after slot q bs)
      (rs := [.port, .store, .handoffs, .sweep, .notices, .writer]) (by decide) (by decide)) (by decide) (by decide)

/-- A part that R41 and the later stages leave is as in the stage before R41. -/
theorem State.reloaded_agree (s : State) (slot : Nat) (q : Query) (bs : List Byte) (p : Part)
    (hp : p ∉ [Part.store, .handoffs, .sweep, .port, .notices, .writer]) :
    agree ((s.withReloaded bs).reloadStage s.image) (s.reloaded slot q bs) p :=
  (sameBut_then (State.reprofile_frame _ _) (s.reloaded_after slot q bs)
    (rs := [.store, .handoffs, .sweep, .port, .notices, .writer]) (by decide) (by decide)).2 p hp

theorem State.reloaded_port (s : State) (slot : Nat) (q : Query) (bs : List Byte) :
    (s.reloaded slot q bs).port =
      { s.port with image := some bs, source := some .reloaded, changed := false, op := .idle } := by
  have h : ((s.withReloaded bs).meetReload s.image).port = (s.withReloaded bs).port :=
    agree_trans (p := .port) ((State.reloadStage_frame (s.withReloaded bs) s.image).2 .port (by decide))
      (agree_trans (p := .port) ((State.reprofile_frame _ _).2 .port (by decide))
        ((State.meetReload_after _ _).2 .port (by decide)))
  rw [State.reloaded_eq]
  show { ((s.withReloaded bs).meetReload s.image).port with op := .idle } = _
  rw [h]
  rfl

theorem State.reloaded_answer (s : State) (slot : Nat) (q : Query) (bs : List Byte) :
    offeredAnswer s (s.reloaded slot q bs) (answerTo slot .port q .done 0#32 0xFFFF .none) := by
  have h : ((s.withReloaded bs).meetReload s.image).writer = s.writer :=
    agree_trans (p := .writer) ((s.reloadStage_withReloaded_frame bs).2 .writer (by decide))
      (agree_trans (p := .writer) ((State.reprofile_frame _ _).2 .writer (by decide))
        ((State.meetReload_after _ _).2 .writer (by decide)))
  unfold offeredAnswer
  rw [← h]
  rfl

/-- The notices of a RELOAD in an unchanged notice window: those of R41, then "reloaded". -/
theorem State.reloaded_notices_same (s : State) (slot : Nat) (q : Query) (bs : List Byte)
    (h : windowOf s.image .notice = windowOf bs .notice) :
    handedNotices (((s.withReloaded bs).reloadStage s.image).reprofileFrom s.image) (s.reloaded slot q bs)
      [notice .reloaded 0#32 0#32] := by
  rw [State.reloaded_eq, State.meetReload_same (s.withReloaded bs) s.image h]
  rfl

/-- The notices of a RELOAD that moves the ring: "reloaded" before the rest, then those of R41. -/
theorem State.reloaded_notices_moved (s : State) (slot : Nat) (q : Query) (bs : List Byte)
    (h : windowOf s.image .notice ≠ windowOf bs .notice) :
    (s.reloaded slot q bs).notices =
      (((s.withReloaded bs).reloadStage s.image).reprofileFrom s.image).notices := by
  rw [State.reloaded_eq, State.meetReload_moved (s.withReloaded bs) s.image h]
  exact (State.endPortQuery_frame _ slot q .done 0).2 .notices (by decide)

theorem exec_reloadReadEnd_valid (s : State) (slot : Nat) (q : Query) (bs : List Byte) (hr : s.running = true)
    (hop : s.port.op = .reload slot q) (hj : judgeImage bs = none) :
    exec (.reloadReadEnd bs) s = .next (s.reloaded slot q bs) := by
  simp [exec, execReloadReadEnd, hr, hop, hj]

theorem exec_reloadReadEnd_invalid (s : State) (slot : Nat) (q : Query) (bs : List Byte) (reason : PortReason)
    (hr : s.running = true) (hop : s.port.op = .reload slot q) (hj : judgeImage bs = some reason) :
    exec (.reloadReadEnd bs) s = .next ((s.hand (notice .loadFailed 0#32 (word reason.code))).endPortQuery slot q
      .loadFailed reason.code) := by
  simp [exec, execReloadReadEnd, hr, hop, hj]

/-- Settles O14: the SAVE by its judgement; the RELOAD by its stages, R41 between the state after the tap and the ring
(u) and the state before the last notice and the answer (v). -/
theorem saveAndReloadEnd : Obligations.SaveAndReloadEnd := by
  unfold Obligations.SaveAndReloadEnd
  have hfailed : ∀ (s : State) (n : Notice) slot q st m,
      sameBut [.port, .notices, .writer] s ((s.hand n).endPortQuery slot q st m) := fun s n slot q st m =>
    s.endPortQuery_told_frame s.port n slot q st m
  refine ⟨fun s slot q copy bs altered hr hop hlen => ⟨?_, fun hne => ?_⟩, fun s slot q bs hr hop => ⟨?_, fun hj => ?_⟩⟩
  · rintro rfl
    exact ⟨_, exec_saveEnd_done s slot q bs altered hr hop hlen, s.endPortQuery_told_frame _ _ slot q .done 0,
      rfl, rfl, rfl⟩
  · obtain ⟨reason, hj, hcode⟩ := judgeSave_failed copy bs hne
    rw [← hcode]
    exact ⟨_, exec_saveEnd_failed s slot q copy bs altered reason hr hop hj, hfailed s _ slot q _ _, rfl, rfl, rfl⟩
  · intro reason hj
    exact ⟨_, exec_reloadReadEnd_invalid s slot q bs reason hr hop hj, hfailed s _ slot q _ _, rfl, rfl, rfl⟩
  · have hstage := s.reloadStage_withReloaded_frame bs
    have hafter := s.reloaded_after slot q bs
    have htap : agree _ _ .tap := s.reloaded_agree slot q bs .tap (by decide)
    obtain ⟨ns, hns⟩ := State.reprofile_handed ((s.withReloaded bs).reloadStage s.image)
      fun n => profileAt s.image n.profile != profileAt bs n.profile
    rw [← State.reprofileFrom_reloadStage] at hns
    refine ⟨_, exec_reloadReadEnd_valid s slot q bs hr hop hj, s.reloaded_frame slot q bs, s.reloaded_port slot q bs,
      s.reloaded_answer slot q bs, fun hw => ?_, fun hw => ?_, fun hn => ?_, fun hc => ?_, fun hw => ?_, fun hw => ?_⟩
    · exact htap.trans (State.reloadStage_tap_same (s.withReloaded bs) s.image hw)
    · refine ⟨ns, ?_⟩
      have hlast := s.reloaded_notices_same slot q bs hw
      have hfirst := State.reloadStage_notices_same (s.withReloaded bs) s.image hw
      unfold handedNotices at *
      rw [hlast, hns, hfirst, List.append_assoc]
      rfl
    · have hnone : ((s.withReloaded bs).reloadStage s.image).reprofileFrom s.image =
          (s.withReloaded bs).reloadStage s.image := by
        have hstore : ((s.withReloaded bs).reloadStage s.image).store = s.store := hstage.2 .store (by decide)
        rw [State.reprofileFrom_reloadStage]
        refine State.reprofile_none _ _ fun e he => ?_
        rw [hstore] at he
        simp [hn e he]
      rw [hnone] at hafter
      have hall := sameBut_then hstage hafter (rs := [.port, .tap, .notices, .writer]) (by decide) (by decide)
      exact ⟨hall.2 .store (by decide), hall.2 .handoffs (by decide), hall.2 .sweep (by decide)⟩
    · have hlinks : risingTable ((s.withReloaded bs).reloadStage s.image).store.links = true := by
        have hstore : ((s.withReloaded bs).reloadStage s.image).store = s.store := hstage.2 .store (by decide)
        rw [hstore]
        exact hc.linksRising
      have hport : agree _ _ .port := (State.reloadStage_frame (s.withReloaded bs) s.image).2 .port (by decide)
      refine ⟨_, _, hstage, ?_, htap.symm, ?_, hafter.2 .store (by decide), hafter.2 .handoffs (by decide),
        hafter.2 .sweep (by decide), fun hw => ⟨State.reloadStage_notices_same (s.withReloaded bs) s.image hw,
          s.reloaded_notices_same slot q bs hw⟩, fun hw => ⟨?_, s.reloaded_notices_moved slot q bs hw⟩⟩
      · rw [State.reloaded_port]
        exact hport
      · rw [State.reprofileFrom_reloadStage]
        exact State.reprofile_to _ _ hlinks
      · rw [State.reloadStage_notices_moved (s.withReloaded bs) s.image hw]
        rfl
    · exact htap.trans (State.reloadStage_tap_changed (s.withReloaded bs) s.image hw)
    · have hmoved := State.reloadStage_notices_moved (s.withReloaded bs) s.image hw
      have hall : (s.reloaded slot q bs).notices = _ := (s.reloaded_notices_moved slot q bs hw).trans hns
      rw [hmoved] at hall
      rw [hall]
      exact ⟨rfl, rfl, rfl, rfl, rfl, rfl, rfl, ⟨_, rfl⟩, rfl⟩

end Sys2Proof.Machine
end

