-- ==== Sys2Proof/Proofs/DispatchedChanges.lean ====
section
/-! SUPPORT. NODE_CLEAR and CONFIG_SET as the dispatcher serves them (R38, R39, R41, R58, R141, R143), and the
settlement of the statement about both. -/

namespace Sys2Proof.Machine

/-! ### The dispatcher takes and answers a query (R133) -/

/-- DISPATCH_QUERY of a query that is no search: it is served without the PROVISIONAL flag (R135). -/
theorem exec_dispatchQuery (s : State) (slot : Nat) (q x : Query) (hr : s.running = true)
    (hn : s.nextSlot = some slot) (hq : s.queuedQuery slot = some q) (hx : x = { q with provisional := false })
    (hs : x.body.isSearch = false) : exec .dispatchQuery s = .next ((s.dequeue slot).serve slot x) := by
  have htaken : s.takenQuery q = x := by
    subst hx
    have hs : q.body.isSearch = false := hs
    simp [State.takenQuery, hs]
  simp [exec, execDispatchQuery, hr, hn, hq, htaken]

theorem State.serve_nodeClear (s : State) (slot : Nat) (q : Query) {id : NodeId} (h : q.body = .nodeClear id) :
    s.serve slot q = s.serveNodeClear slot q id := by
  simp only [State.serve, h]

theorem State.serve_configSet (s : State) (slot : Nat) (q : Query) {target : ConfigTarget} {values : List Byte}
    (h : q.body = .configSet target values) :
    s.serve slot q = s.serveConfigSet slot q target values := by
  simp only [State.serve, h]

/-- The dispatcher once it has answered a query that it took. -/
theorem State.respond_dispatcher {s u : State} {slot : Nat} (h : u.dispatcher = (s.dequeue slot).dispatcher) (q : Query)
    (st : Status) (n : Nat) (body : AnswerBody) :
    (u.respond slot q st n body).dispatcher = s.readied slot .answered := by
  simp [State.respond, State.setSlot, State.offer, h, State.dequeue, State.readied]

theorem State.respond_answer {s u : State} (h : u.writer = s.writer) (slot : Nat) (q : Query) (st : Status) (n : Nat)
    (body : AnswerBody) :
    offeredAnswer s (u.respond slot q st n body) (answerTo slot .dispatcher q st (word n) 0xFFFF body) := by
  simp [offeredAnswer, State.respond, State.setSlot, State.offer, h, noTag]

/-- A query that is answered at once changes the dispatcher and the answer queue. -/
theorem State.respond_only (s : State) (slot : Nat) (q : Query) (st : Status) (n : Nat) (body : AnswerBody) :
    sameBut [.dispatcher, .writer] s ((s.dequeue slot).respond slot q st n body) :=
  sameBut_then (s.dequeue_frame slot) (State.respond_frame _ slot q st n body) (by decide) (by decide)

/-! ### What an answer leaves of the changes before it -/

/-- The evaluations of returns do not depend on the dispatcher and the answer queue. -/
theorem returnsEvaluated_of_answered {s t u : State} (h : returnsEvaluated s t)
    (hf : sameBut [.dispatcher, .writer] t u) : returnsEvaluated s u := by
  have hstore : u.store = t.store := hf.2 .store (by decide)
  have hsweep : u.sweep = t.sweep := hf.2 .sweep (by decide)
  have hserv : ∀ k d, u.inService k d = t.inService k d := fun k d =>
    State.inService_congr (congrArg Store.nodes hstore) (by simp only [State.linkAt, hstore])
  unfold returnsEvaluated
  simp only [hsweep, hserv]
  exact h

/-- R41 and an answer after it. -/
theorem reprofiledTo_of_answered {s t u : State} {test : Node → Bool} (h : reprofiledTo s t test)
    (hf : sameBut [.dispatcher, .writer] t u) : reprofiledTo s u test := by
  have hstore : u.store = t.store := hf.2 .store (by decide)
  refine ⟨sameBut_trans h.frame (sameBut_mono hf (by decide)), fun k => ?_, ?_, ?_, ?_, ?_,
    returnsEvaluated_of_answered h.returns hf⟩
  · rw [← h.links]
    simp only [State.linkAt, hstore]
  · rw [hstore, h.nodes]
  · rw [hstore, h.claims]
  · exact (hf.2 .handoffs (by decide)).trans h.events
  · exact (hf.2 .notices (by decide)).trans h.told

/-- R41 after a change of the dispatcher. -/
theorem reprofiledTo_of_setDispatcher {s t : State} {test : Node → Bool} {x : Dispatcher}
    (h : reprofiledTo (s.setDispatcher x) t test) : reprofiledTo s t test := by
  have hx : sameBut [.dispatcher] s (s.setDispatcher x) :=
    ⟨rfl, fun p hp => by cases p <;> first | exact absurd (by decide) hp | rfl⟩
  exact ⟨sameBut_trans (sameBut_mono hx (by decide)) h.frame, h.links, h.nodes, h.claims, h.events, h.told, h.returns⟩

/-! ### The flap scores of a node's links cleared (R38) -/

/-- R38 for one direction of a link that stands. -/
theorem State.clearFlap_changes (s : State) (k : Nat) (d : Dir) (l : Link) (hl : s.linkAt k = some l) :
    directionChanged s (s.clearFlap k d) k d (l.direction d).cleared
      (if (l.direction d).suppressed then [s.directionNotice l d .unsuppressed 0] else []) [] := by
  have hset := s.setDirection_changes k d (l.direction d).cleared
  unfold State.clearFlap
  simp only [hl]
  split
  · exact hset.hand _
  · exact hset

/-- The link at an index has an end at the node at an index. -/
def State.linkTouches (b : State) (i k : Nat) : Bool := (b.linkAt k).any fun l => l.touches i

/-- R38 for a direction if its link touches node i in state b. -/
def State.clearWhere (b : State) (i : Nat) (x : State) (k : Nat) (d : Dir) : State :=
  if b.linkTouches i k then x.clearFlap k d else x

/-- What R38 makes of a direction, the node cleared being at index i. -/
def State.clearEffect (b : State) (i _k : Nat) (l : Link) (d : Dir) : DirectionEffect where
  record := if l.touches i then (l.direction d).cleared else l.direction d
  told := if l.touches i && (l.direction d).suppressed then some (b.directionNotice l d .unsuppressed 0) else none
  lost := none

theorem State.clearEffect_local (b : State) (i : Nat) : effectLocal (b.clearEffect i) := by
  intro k l d e y he
  have hdir : (l.withDirection e y).direction d = l.direction d := by
    rw [Link.direction_withDirection, if_neg (Ne.symm he)]
  simp only [State.clearEffect, State.directionNotice, Link.withDirection_endAt, hdir,
    Link.touches_of_ends (l.ends_withDirection e y)]

theorem State.clear_hasEffect (b : State) (i : Nat) : hasEffect b (b.clearWhere i) (b.clearEffect i) := by
  refine ⟨fun x k d hl => ?_, fun x k d l hx hl => ?_, b.clearEffect_local i⟩
  · simp [State.clearWhere, State.clearFlap, hl]
  · obtain ⟨m, hm, he⟩ := hx.ends.linkAt hl
    have htouch : b.linkTouches i k = l.touches i := by
      simp [State.linkTouches, hm, Link.touches_of_ends he]
    unfold State.clearWhere State.clearEffect
    rw [htouch]
    cases l.touches i with
    | true =>
      have hone := x.clearFlap_changes k d l hl
      rw [hx.ends.directionNotice] at hone
      cases hsup : (l.direction d).suppressed <;> simpa [hsup] using hone
    | false => simpa using directionChanged.refl (d := d) hl

theorem State.mem_directionsAt (s : State) (i k : Nat) (d : Dir) :
    (k, d) ∈ s.directionsAt i ↔ (k, d) ∈ s.directions ∧ s.linkTouches i k = true := by
  unfold State.directionsAt State.linkTouches
  rw [List.mem_filter]
  cases hl : s.linkAt k <;> simp [hl, Link.touches]

/-- The directions of the links at node i, as those of all links that touch it. -/
theorem State.directionsAt_eq_filter (s : State) (i : Nat) :
    s.directionsAt i = s.directions.filter fun e => s.linkTouches i e.1 := by
  unfold State.directionsAt State.linkTouches
  refine List.filter_congr fun e _ => ?_
  cases hl : s.linkAt e.1 <;> simp [hl, Link.touches]

/-- R38 for the directions of the links at node i, one after the other. -/
def State.clearFlaps (b : State) (i : Nat) : State :=
  (b.directionsAt i).foldl (fun x (k, d) => x.clearFlap k d) b

theorem State.clearFlaps_frame (b : State) (i : Nat) : sameBut [.store, .notices] b (b.clearFlaps i) :=
  sameBut_foldl _ (fun x (e : Nat × Dir) => x.clearFlap_frame e.1 e.2) _ b

theorem State.clearFlaps_changes (b : State) (i : Nat) (hr : risingTable b.store.links = true) :
    directionsChanged b (b.clearFlaps i) b.directions (b.clearEffect i) := by
  have h := directionsChanged_foldl (b.clear_hasEffect i) b.directions b (sameNetwork.refl b) (b.directions_nodup hr)
  have hfold : b.clearFlaps i = b.directions.foldl (fun x e => b.clearWhere i x e.1 e.2) b := by
    unfold State.clearFlaps
    rw [State.directionsAt_eq_filter, List.foldl_filter]
    rfl
  rwa [hfold]

/-- A link after the scores of the links at node i are cleared. -/
theorem linkAfter_clearEffect (b : State) (i : Nat) {k : Nat} {l : Link} (hl : b.linkAt k = some l) :
    linkAfter (b.clearEffect i) b.directions k l =
      if l.touches i then { l with dir0 := l.dir0.cleared, dir1 := l.dir1.cleared } else l := by
  rw [linkAfter_directions b hl]
  unfold State.clearEffect
  split <;> rfl

/-- The notices of R38 for the links at node i. -/
def State.clearNotices (s : State) (i : Nat) : List Notice := s.directions.filterMap fun e => s.clearNotice i e.1 e.2

/-- The suppressed directions at node i are those with a notice (R38, R141). -/
theorem State.suppressedAmong_directionsAt (s : State) (i : Nat) :
    s.suppressedAmong (s.directionsAt i) = (s.clearNotices i).length := by
  unfold State.clearNotices
  rw [State.directionsAt_eq_filter, List.length_filterMap_eq_countP]
  unfold State.suppressedAmong
  rw [List.filter_filter, ← List.countP_eq_length_filter]
  refine List.countP_congr fun e _ => ?_
  unfold State.linkTouches State.clearNotice State.directionAt
  cases hl : s.linkAt e.1 with
  | none => simp
  | some l => cases ht : l.touches i <;> cases hs : (l.direction e.2).suppressed <;> simp [hl, ht, hs]

/-! ### NODE_CLEAR (R141) -/

theorem tableGet_of_mem {α : Type} (t : List (Nat × α)) (h : risingTable t = true) (i : Nat) (x : α)
    (hm : (i, x) ∈ t) : tableGet t i = some x := by
  rw [risingTable_iff] at h
  induction t with
  | nil => cases hm
  | cons e t ih =>
    obtain ⟨hlow, ht⟩ := List.pairwise_cons.mp h
    rcases List.mem_cons.mp hm with rfl | hm
    · simp [tableGet]
    · have hlt : e.1 < i := hlow i (List.mem_map_of_mem hm)
      rw [tableGet, if_neg (by omega)]
      exact ih ht hm

/-- The entry of the node map stands in the node table at its index (R1). -/
theorem State.nodeAt_of_nodeEntry (s : State) (hr : risingTable s.store.nodes = true) {id : NodeId} {i : Nat} {n : Node}
    (h : s.nodeEntry id = some (i, n)) : s.nodeAt i = some n :=
  tableGet_of_mem _ hr i n (List.mem_of_find?_eq_some h)

theorem State.liftQuarantine_ends (s : State) (i : Nat) : sameEnds s (s.liftQuarantine i) := by
  refine ⟨fun j => ?_, fun _ => rfl⟩
  unfold State.liftQuarantine
  rw [State.nodeAt_updateNode]
  split
  · rename_i h
    subst h
    cases s.nodeAt j <;> rfl
  · rfl

/-- The state with node i's quarantine lifted and the scores at it cleared, before the evaluations. -/
def State.nodeCleared (s : State) (i : Nat) : State := (s.liftQuarantine i).clearFlaps i

/-- NODE_CLEAR of node i served, before its answer. -/
def State.nodeServed (s : State) (i : Nat) : State := (s.nodeCleared i).evaluateReturned s (s.directionsAt i)

theorem State.serveNodeClear_known (s : State) (slot : Nat) (q : Query) {id : NodeId} {i : Nat} {n : Node}
    (h : s.nodeEntry id = some (i, n)) :
    s.serveNodeClear slot q id =
      (s.nodeServed i).respond slot q .done (if n.quarantined then 1 else 0)
        (.words [word n.faultScore, word (s.clearNotices i).length]) := by
  rw [← State.suppressedAmong_directionsAt]
  unfold State.serveNodeClear
  rw [h]
  rfl

theorem State.nodeCleared_frame (s : State) (i : Nat) : sameBut [.store, .notices] s (s.nodeCleared i) :=
  sameBut_then (s.updateNode_frame i _) (State.clearFlaps_frame _ i) (by decide) (by decide)

theorem State.nodeServed_frame (s : State) (i : Nat) : sameBut [.store, .notices, .sweep] s (s.nodeServed i) :=
  sameBut_then (s.nodeCleared_frame i) (State.evaluateReturned_frame _ _ _) (by decide) (by decide)

section
variable (s : State) (i : Nat) (hr : risingTable s.store.links = true)
include hr

theorem State.nodeCleared_changes :
    directionsChanged (s.liftQuarantine i) (s.nodeCleared i) s.directions ((s.liftQuarantine i).clearEffect i) :=
  (s.liftQuarantine i).clearFlaps_changes i hr

theorem State.nodeCleared_nodeAt (j : Nat) :
    (s.nodeCleared i).nodeAt j =
      if j = i then (s.nodeAt i).map fun n => { n with quarantined := false, faultScore := 0 } else s.nodeAt j := by
  rw [← State.nodeAt_updateNode]
  unfold State.nodeAt
  rw [(s.nodeCleared_changes i hr).nodes]
  rfl

theorem State.nodeCleared_linkAt (k : Nat) :
    (s.nodeCleared i).linkAt k = (s.linkAt k).map fun l =>
      if l.touches i then { l with dir0 := l.dir0.cleared, dir1 := l.dir1.cleared } else l := by
  rw [(s.nodeCleared_changes i hr).links]
  cases hl : s.linkAt k with
  | none => exact congrArg _ hl
  | some l =>
    have hl' : (s.liftQuarantine i).linkAt k = some l := hl
    rw [hl']
    exact congrArg some (linkAfter_clearEffect (s.liftQuarantine i) i hl')

theorem State.nodeCleared_told :
    handedNotices s (s.nodeCleared i) (s.clearNotices i) := by
  have h := (s.nodeCleared_changes i hr).told
  have hnotice : ∀ e : Nat × Dir, ((s.liftQuarantine i).linkAt e.1).bind (fun l =>
      ((s.liftQuarantine i).clearEffect i e.1 l e.2).told) = s.clearNotice i e.1 e.2 := fun e => by
    simp only [State.clearEffect, (s.liftQuarantine_ends i).directionNotice]
    rfl
  simp only [hnotice] at h
  exact h

/-- A direction whose link does not touch the node stays in service or out of it. -/
theorem State.nodeCleared_inService_other {k : Nat} {d : Dir} (hk : s.linkTouches i k = false) :
    (s.nodeCleared i).inService k d = s.inService k d := by
  unfold State.inService
  rw [s.nodeCleared_linkAt i hr]
  cases hl : s.linkAt k with
  | none => rfl
  | some l =>
    have ht : l.touches i = false := by simpa [State.linkTouches, hl] using hk
    have hfit : ∀ j, j ≠ i → (s.nodeCleared i).fitAt j = s.fitAt j := fun j hj => by
      unfold State.fitAt
      rw [s.nodeCleared_nodeAt i hr, if_neg hj]
    have hends : l.end0.node ≠ i ∧ l.end1.node ≠ i := by simpa [Link.touches] using ht
    simp [ht, hfit _ hends.1, hfit _ hends.2]

/-- The directions that NODE_CLEAR returns to service are among those of the node's links, and are evaluated (R39). -/
theorem State.nodeServed_evaluated : returnsEvaluated s (s.nodeServed i) := by
  have hframe := s.nodeCleared_frame i
  have hends := (s.liftQuarantine_ends i).trans (s.nodeCleared_changes i hr).sameEnds
  refine returnsEvaluated_evaluateDirections _ (hframe.2 .sweep (by decide)) (hframe.2 .records (by decide)) hends
    fun k d => ?_
  rw [List.mem_filter, State.mem_directionsAt]
  simp only [Bool.and_eq_true, Bool.not_eq_true']
  refine ⟨fun h => h.2, fun ⟨h0, h1⟩ => ⟨?_, h0, h1⟩⟩
  cases hl : (s.nodeCleared i).linkAt k with
  | none => simp [State.inService, hl] at h1
  | some m =>
    obtain ⟨l, hl', _⟩ := hends.linkAt hl
    refine ⟨s.mem_directions hl' d, ?_⟩
    by_contra ht
    rw [s.nodeCleared_inService_other i hr (by simpa using ht), h0] at h1
    cases h1

end

/-- Between s and t node n, at index i, has been cleared: its quarantine and score, and the scores, suppression and
latch of its links' directions, with the notices and the returns to service (R38, R39, R58). -/
structure nodeClearedTo (s t : State) (i : Nat) (n : Node) : Prop where
  node : t.nodeAt i = some { n with quarantined := false, faultScore := 0 }
  others : ∀ j, j ≠ i → t.nodeAt j = s.nodeAt j
  claims : t.store.claims = s.store.claims
  links : ∀ k, t.linkAt k = (s.linkAt k).map fun l =>
    if l.touches i then { l with dir0 := l.dir0.cleared, dir1 := l.dir1.cleared } else l
  returns : returnsEvaluated s t
  told : handedNotices s t (s.clearNotices i)

theorem State.nodeServed_to (s : State) (i : Nat) (n : Node) (hr : risingTable s.store.links = true)
    (hn : s.nodeAt i = some n) : nodeClearedTo s (s.nodeServed i) i n := by
  have hframe : sameBut [.sweep] (s.nodeCleared i) (s.nodeServed i) := State.evaluateReturned_frame _ _ _
  have hstore : (s.nodeServed i).store = (s.nodeCleared i).store := hframe.2 .store (by decide)
  have hnode : ∀ j, (s.nodeServed i).nodeAt j = (s.nodeCleared i).nodeAt j := fun j => by
    simp only [State.nodeAt, hstore]
  refine ⟨?_, fun j hj => ?_, ?_, fun k => ?_, s.nodeServed_evaluated i hr, ?_⟩
  · rw [hnode, s.nodeCleared_nodeAt i hr, if_pos rfl, hn]
    rfl
  · rw [hnode, s.nodeCleared_nodeAt i hr, if_neg hj]
  · rw [hstore]
    exact (s.nodeCleared_changes i hr).claims
  · rw [← s.nodeCleared_linkAt i hr]
    simp only [State.linkAt, hstore]
  · exact (hframe.2 .notices (by decide)).trans (s.nodeCleared_told i hr)

/-- NODE_CLEAR and its answer. -/
theorem nodeClearedTo_of_answered {s t u : State} {i : Nat} {n : Node} (h : nodeClearedTo s t i n)
    (hf : sameBut [.dispatcher, .writer] t u) : nodeClearedTo s u i n := by
  have hstore : u.store = t.store := hf.2 .store (by decide)
  have hnode : ∀ j, u.nodeAt j = t.nodeAt j := fun j => by simp only [State.nodeAt, hstore]
  refine ⟨(hnode i).trans h.node, fun j hj => (hnode j).trans (h.others j hj), ?_, fun k => ?_,
    returnsEvaluated_of_answered h.returns hf, (hf.2 .notices (by decide)).trans h.told⟩
  · rw [hstore, h.claims]
  · rw [← h.links]
    simp only [State.linkAt, hstore]

/-- NODE_CLEAR after its query has left the queue. -/
theorem nodeClearedTo_of_dequeue {s t : State} {slot i : Nat} {n : Node} (h : nodeClearedTo (s.dequeue slot) t i n) :
    nodeClearedTo s t i n :=
  ⟨h.node, h.others, h.claims, h.links, h.returns, h.told⟩

/-! ### CONFIG_SET (R143) -/

/-- The parts that a CONFIG_SET changes before its answer. -/
theorem State.configure_frame (s : State) (target : ConfigTarget) (values : List Byte) :
    sameBut [.port, .store, .handoffs, .notices, .sweep] s (s.configure target values) := by
  have hset : sameBut [.port] s (s.setValues (target.place s.image values)) := s.setPort_frame _
  have hkeep := sameBut_mono (qs := [.port, .store, .handoffs, .notices, .sweep]) hset (by decide)
  cases target with
  | profile n => exact sameBut_then hset (State.reprofile_frame _ _) (by decide) (by decide)
  | filter n => exact hkeep
  | routing => exact hkeep
  | globals => exact hkeep

/-- A CONFIG_SET of another target than a profile changes the image in force alone. -/
theorem State.configure_other (s : State) (target : ConfigTarget) (values : List Byte)
    (h : ∀ n, target ≠ .profile n) : s.configure target values = s.setValues (target.place s.image values) := by
  cases target with
  | profile n => exact absurd rfl (h n)
  | filter n => rfl
  | routing => rfl
  | globals => rfl

/-- A SAVE in flight takes note of the change; another operation stays (R186). -/
theorem PortOp.altered_of_not_save {op : PortOp} (h : op.isSave = false) : op.altered = op := by
  cases op with
  | save => simp [PortOp.isSave] at h
  | idle => rfl
  | load => rfl
  | reload => rfl

/-! ### The command -/

/-- NODE_CLEAR of a node in the table, as it is dispatched. -/
theorem dispatch_nodeClear (s : State) (slot : Nat) (x : Query) {id : NodeId} {i : Nat} {n : Node}
    (hc : s.topologyConsistent) (he : s.nodeEntry id = some (i, n)) (t : State)
    (ht : t = (s.dequeue slot).serveNodeClear slot x id) :
    nodeClearedTo s t i n ∧ t.dispatcher = s.readied slot .answered ∧
    offeredAnswer s t (answerTo slot .dispatcher x .done (if n.quarantined then 1#32 else 0#32) 0xFFFF
      (.words [word n.faultScore, word (s.clearNotices i).length])) := by
  have hcode : (if n.quarantined then 1#32 else 0#32) = word (if n.quarantined then 1 else 0) := by
    cases n.quarantined <;> rfl
  have hserved := (s.dequeue slot).nodeServed_to i n hc.linksRising (s.nodeAt_of_nodeEntry hc.nodesRising he)
  have hframe := (s.dequeue slot).nodeServed_frame i
  rw [State.serveNodeClear_known (s.dequeue slot) slot x he] at ht
  rw [ht, hcode]
  exact ⟨nodeClearedTo_of_answered (nodeClearedTo_of_dequeue hserved) (State.respond_frame _ slot x _ _ _),
    State.respond_dispatcher (hframe.2 .dispatcher (by decide)) x _ _ _,
    State.respond_answer (hframe.2 .writer (by decide)) slot x _ _ _⟩

/-- CONFIG_SET that changes a value, as it is dispatched: u is the state with the new image, t the one after R41 and the
answer. -/
theorem dispatch_configSet (s : State) (slot : Nat) (x : Query) (target : ConfigTarget) (values : List Byte)
    (hr : risingTable s.store.links = true) (u t : State) (hu : u = s.setValues (target.place s.image values))
    (ht : t = ((s.dequeue slot).configure target values).respond slot x .done 0 .none) :
    t.dispatcher = s.readied slot .answered ∧
    offeredAnswer s t (answerTo slot .dispatcher x .done 0#32 0xFFFF .none) ∧
    (∀ n, target = .profile n → reprofiledTo u t fun m => m.profile == n) ∧
    ((∀ n, target ≠ .profile n) → sameBut [.dispatcher, .writer] u t) := by
  have hframe := (s.dequeue slot).configure_frame target values
  have hanswer := State.respond_frame ((s.dequeue slot).configure target values) slot x .done 0 .none
  have hmoved : (s.dequeue slot).setValues (target.place (s.dequeue slot).image values) =
      u.setDispatcher (s.dequeue slot).dispatcher := by
    rw [hu]
    rfl
  have hdispatch : sameBut [.dispatcher] u (u.setDispatcher (s.dequeue slot).dispatcher) :=
    ⟨rfl, fun p hp => by cases p <;> first | exact absurd (by decide) hp | rfl⟩
  subst ht
  refine ⟨State.respond_dispatcher (hframe.2 .dispatcher (by decide)) x _ _ _,
    State.respond_answer (hframe.2 .writer (by decide)) slot x _ _ _, fun n hn => ?_, fun hn => ?_⟩
  · have hlinks : risingTable (u.setDispatcher (s.dequeue slot).dispatcher).store.links = true := by rw [hu]; exact hr
    have hconf : (s.dequeue slot).configure target values =
        (u.setDispatcher (s.dequeue slot).dispatcher).reprofile fun m => m.profile == n := by
      rw [← hmoved, hn]
      rfl
    rw [hconf] at hanswer ⊢
    exact reprofiledTo_of_answered (reprofiledTo_of_setDispatcher (State.reprofile_to _ _ hlinks)) hanswer
  · rw [(s.dequeue slot).configure_other target values hn, hmoved] at hanswer ⊢
    exact sameBut_then hdispatch hanswer (by decide) (by decide)

/-- Settles O40: NODE_CLEAR by whether the node is in the table, CONFIG_SET by whether a value changes. -/
theorem dispatchChanges : Obligations.DispatchChanges := by
  unfold Obligations.DispatchChanges
  rintro s slot q x ready hr hnext hq hx hc rfl
  have hidle : (s.dequeue slot).dispatcher = (s.dequeue slot).dispatcher := rfl
  refine ⟨fun id hb => ?_, fun target values hb => ?_⟩
  · have hbody : x.body = .nodeClear id := by rw [hx]; exact hb
    have hexec := exec_dispatchQuery s slot q x hr hnext hq hx (by rw [hbody]; rfl)
    rw [State.serve_nodeClear _ _ _ hbody] at hexec
    refine ⟨fun he => ?_, fun i n told he htold => ?_⟩
    · have hnone : (s.dequeue slot).serveNodeClear slot x id = (s.dequeue slot).respond slot x .notFound 0 .none := by
        have he' : (s.dequeue slot).nodeEntry id = none := he
        simp only [State.serveNodeClear, he']
      rw [hnone] at hexec
      exact ⟨_, hexec, s.respond_only slot _ _ _ _, State.respond_dispatcher hidle _ _ _ _,
        State.respond_answer rfl slot _ _ _ _⟩
    · subst htold
      have hframe := sameBut_then (s.dequeue_frame slot) ((s.dequeue slot).serveNodeClear_frame slot x id)
        (rs := [.store, .sweep, .notices, .dispatcher, .writer]) (by decide) (by decide)
      obtain ⟨hcleared, hdispatcher, hanswer⟩ := dispatch_nodeClear s slot x hc he _ rfl
      exact ⟨_, hexec, hframe, hdispatcher, hcleared.node, hcleared.others, hcleared.claims, hcleared.links,
        hcleared.returns, hcleared.told, hanswer⟩
  · have hbody : x.body = .configSet target values := by rw [hx]; exact hb
    have hexec := exec_dispatchQuery s slot q x hr hnext hq hx (by rw [hbody]; rfl)
    have himage : (s.dequeue slot).image = s.image := rfl
    rw [State.serve_configSet _ _ _ hbody, State.serveConfigSet, himage] at hexec
    refine ⟨fun hsame => ?_, fun hdiff => ?_⟩
    · rw [if_pos hsame] at hexec
      exact ⟨_, hexec, s.respond_only slot _ _ _ _, State.respond_dispatcher hidle _ _ _ _,
        State.respond_answer rfl slot _ _ _ _⟩
    · rw [if_neg hdiff] at hexec
      obtain ⟨hdispatcher, hanswer, hprofile, hother⟩ :=
        dispatch_configSet s slot x target values hc.linksRising _ _ rfl rfl
      refine ⟨_, s.setValues (target.place s.image values), hexec, s.setPort_frame _, rfl, fun a b c f hop => ?_,
        fun hop => PortOp.altered_of_not_save hop, hdispatcher, hanswer, hprofile, hother⟩
      show s.port.op.altered = _
      rw [hop]
      rfl

end Sys2Proof.Machine
end

