-- ==== Sys2Proof/Proofs/ReportCompletions.lean ====
section
/-! SUPPORT. Host writes to a report slot (R166 to R170): what a host write does before and after the tap looks at it,
the opening of a staging, and the settlement of the statement about the write that completes a record (R44, R169). -/

namespace Sys2Proof.Machine

/-! ### What a host write does around the tap's look (R166, R173, R175) -/

/-- The state in which the tap looks at a host write: the access has had its turn, has reached memory, is answered, and
has cancelled the buffered bytes that it overlaps. -/
def State.passedWrite (s : State) (addr : Nat) (data : Word) (enables : ByteMask) (resp : Response) : State :=
  ((s.grantHost.writeMemory addr data enables resp).answerWrite resp).cancel addr enables

theorem State.hostWrite_eq (s : State) (addr : Nat) (data : Word) (enables : ByteMask) (resp : Response) :
    s.hostWrite addr data enables resp =
      ((s.passedWrite addr data enables resp).look addr data enables).afterHost := rfl

/-- A host write at an aligned address does not fault (assumption log 22). -/
theorem State.hostWriteAt_aligned (s : State) (a d : Word) (e : ByteMask) (r : Response) (h : a.toNat % 4 = 0) :
    s.hostWriteAt a d e r = .next (s.hostWrite a.toNat d e r) := by
  simp [State.hostWriteAt, wordAligned, h]

theorem State.setTap_frame (s : State) (x : Tap) : sameBut [.tap] s (s.setTap x) :=
  ⟨rfl, fun p hp => by cases p <;> first | exact absurd (by decide) hp | rfl⟩

theorem State.grantHost_frame (s : State) : sameBut [.freeCount, .memory, .downstream, .tap] s s.grantHost := by
  unfold State.grantHost
  split
  · exact s.drainHead_frame .ok
  · exact sameBut_refl _ _

theorem State.answerWrite_frame (s : State) (resp : Response) : sameBut [.upstream] s (s.answerWrite resp) :=
  ⟨rfl, fun p hp => by cases p <;> first | exact absurd (by decide) hp | rfl⟩

theorem State.passedWrite_frame (s : State) (addr : Nat) (data : Word) (enables : ByteMask) (resp : Response) :
    sameBut [.freeCount, .memory, .upstream, .downstream, .tap] s (s.passedWrite addr data enables resp) := by
  have hmemory := sameBut_then s.grantHost_frame (s.grantHost.writeMemory_frame addr data enables resp)
    (rs := [.freeCount, .memory, .downstream, .tap]) (by decide) (by decide)
  have hanswer := sameBut_then hmemory (State.answerWrite_frame _ resp)
    (rs := [.freeCount, .memory, .upstream, .downstream, .tap]) (by decide) (by decide)
  exact sameBut_then hanswer (State.setTap_frame _ _) (by decide) (by decide)

theorem State.afterHost_frame (s : State) : sameBut [.tap] s s.afterHost := s.setTap_frame _

/-- The stagings and the count of those abandoned are the same in two states. -/
structure sameStagings (s t : State) : Prop where
  reports : t.tap.reportStagings = s.tap.reportStagings
  queries : t.tap.queryStagings = s.tap.queryStagings
  abandoned : t.tap.abandoned = s.tap.abandoned

theorem sameStagings.reportStaging {s t : State} (h : sameStagings s t) (slot : Nat) :
    t.reportStaging slot = s.reportStaging slot := by
  unfold State.reportStaging
  rw [h.reports]

theorem State.grantHost_stagings (s : State) : sameStagings s s.grantHost := by
  unfold State.grantHost State.drainHead
  split
  · split
    · exact ⟨rfl, rfl, rfl⟩
    · exact ⟨rfl, rfl, rfl⟩
  · exact ⟨rfl, rfl, rfl⟩

/-- A host write leaves the stagings as they are until the tap looks at it. -/
theorem State.passedWrite_stagings (s : State) (addr : Nat) (data : Word) (enables : ByteMask) (resp : Response) :
    sameStagings s (s.passedWrite addr data enables resp) := by
  have hgrant := s.grantHost_stagings
  have htap := s.grantHost.writeMemory_tap addr data enables resp
  exact ⟨(congrArg Tap.reportStagings htap).trans hgrant.reports,
    (congrArg Tap.queryStagings htap).trans hgrant.queries, (congrArg Tap.abandoned htap).trans hgrant.abandoned⟩

theorem State.afterHost_stagings (s : State) : sameStagings s s.afterHost := ⟨rfl, rfl, rfl⟩

/-- Whether the part runs, and the image in force, go by the port and the bus reset input (R176, R178). -/
theorem State.running_congr {s t : State} (hp : t.port = s.port) (hb : t.busReset = s.busReset) :
    t.running = s.running := by
  simp only [State.running, hp, hb]

theorem State.image_congr {s t : State} (hp : t.port = s.port) : t.image = s.image := by
  simp only [State.image, hp]

/-- The tap looks at a write in a report window (R167). -/
theorem State.look_report (s : State) (addr : Nat) (data : Word) (enables : ByteMask) (w : Window)
    (hr : s.running = true) (hw : windowAt s.image addr = some w) (hk : w.kind = .report) :
    s.look addr data enables =
      s.writeReport (w.base + (addr - w.base) / 64 * 64) ((addr - w.base) % 64 / 4) data enables := by
  simp [State.look, State.matchWrite, hr, hw, hk]

/-! ### Opening a staging (R168, R170) -/

/-- Between s and t the staging of a slot is open and holds words; the stagings of the other slots are those of kept,
count stagings are abandoned so far, and the notices told have been handed on. -/
structure stagingOpened (s t : State) (slot : Nat) (words : List StagedWord) (kept : List ReportStaging)
    (told : List Notice) (count : Nat) : Prop where
  staging : ∃ x, t.reportStaging slot = some x ∧ x.words = words
  others : t.tap.reportStagings.filter (fun y => y.slot != slot) = kept.filter fun y => y.slot != slot
  queries : t.tap.queryStagings = s.tap.queryStagings
  abandoned : t.tap.abandoned = count
  told : handedNotices s t told

/-- The staging of the slot is open already. -/
theorem State.openReport_found (s : State) (slot : Nat) (x : ReportStaging) (h : s.reportStaging slot = some x) :
    stagingOpened s (s.openReport slot) slot x.words s.tap.reportStagings [] s.tap.abandoned := by
  have hopen : s.openReport slot = s := by simp only [State.openReport, h]
  rw [hopen]
  exact ⟨⟨x, h, rfl⟩, rfl, rfl, rfl, by simp [handedNotices]⟩

/-- The youngest staging is the slot's own where no older one is. -/
theorem find?_append_staging (l : List ReportStaging) (slot : Nat) (ws : List StagedWord)
    (h : l.find? (fun x => x.slot == slot) = none) :
    (l ++ [ReportStaging.mk slot ws]).find? (fun x => x.slot == slot) = some { slot := slot, words := ws } := by
  simp [List.find?_append, h]

theorem filter_append_staging (l : List ReportStaging) (slot : Nat) (ws : List StagedWord) :
    (l ++ [ReportStaging.mk slot ws]).filter (fun y => y.slot != slot) = l.filter fun y => y.slot != slot := by
  simp

/-- A staging opens while fewer than 8 are open (R168). -/
theorem State.openReport_fresh (s : State) (slot : Nat) (h : s.reportStaging slot = none)
    (hlen : s.tap.reportStagings.length < 8) :
    stagingOpened s (s.openReport slot) slot (freshStaging 16) s.tap.reportStagings [] s.tap.abandoned := by
  have hevict : s.evictStaging = s := by
    unfold State.evictStaging
    split
    · rfl
    · exact if_pos hlen
  simp only [State.openReport, h, hevict]
  exact ⟨⟨_, find?_append_staging _ slot _ h, rfl⟩, filter_append_staging _ slot _, rfl, rfl, by simp [handedNotices]⟩

/-- A ninth staging abandons the oldest of eight as it opens (R170). -/
theorem State.openReport_evicts (s : State) (slot : Nat) (y : ReportStaging) (kept : List ReportStaging)
    (h : s.reportStaging slot = none) (hy : s.tap.reportStagings = y :: kept) (hlen : kept.length = 7) :
    stagingOpened s (s.openReport slot) slot (freshStaging 16) kept
      [notice .stagingAbandoned (word y.slot) (word (validBytes y.words))] (min (s.tap.abandoned + 1) 65535) := by
  have hevict : s.evictStaging =
      (s.setTap { s.tap with reportStagings := kept, abandoned := countUp s.tap.abandoned 1 }).hand
        (notice .stagingAbandoned (word y.slot) (word (validBytes y.words))) := by
    unfold State.evictStaging
    simp [hy, hlen, stagingCapacity]
  have hkept : kept.find? (fun x => x.slot == slot) = none := by
    unfold State.reportStaging at h
    rw [hy] at h
    exact List.find?_eq_none.mpr fun x hx => List.find?_eq_none.mp h x (List.mem_cons_of_mem _ hx)
  simp only [State.openReport, h, hevict]
  exact ⟨⟨_, find?_append_staging _ slot _ hkept, rfl⟩, filter_append_staging _ slot _, rfl, rfl, rfl⟩

/-! ### Completion (R44, R169) -/

/-- One more notice handed on. -/
theorem handedNotices.hand {s t : State} {ns : List Notice} (h : handedNotices s t ns) (n : Notice) :
    handedNotices s (t.hand n) (ns ++ [n]) := by
  unfold handedNotices at *
  rw [State.hand_notices, h, List.append_assoc]

theorem State.closeReport_frame (s : State) (slot : Nat) : sameBut [.tap] s (s.closeReport slot) := s.setTap_frame _

/-- A write that completes a record closes the staging and sends the record on (R169). -/
theorem State.writeReport_completes {s : State} {slot count : Nat} {words : List StagedWord}
    {kept : List ReportStaging} {told : List Notice} (d : Word) (e : ByteMask)
    (h : stagingOpened s (s.openReport slot) slot words kept told count)
    (hc : completes (mergeStaged words 15 d e) 15 15 = true) :
    s.writeReport slot 15 d e = ((s.openReport slot).closeReport slot).arriveReport slot
      (completedRecord (mergeStaged words 15 d e) 15 8) := by
  obtain ⟨x, hx, rfl⟩ := h.staging
  simp only [State.writeReport, hx, hc, if_true]

theorem State.arriveReport_room (s : State) (slot : Nat) (r : Record) (h : s.intake.queue.length < 16) :
    s.arriveReport slot r = s.setIntake { s.intake with queue := s.intake.queue ++ [r] } :=
  if_pos h

/-- With 16 records waiting the record is lost (R44). -/
theorem State.arriveReport_full (s : State) (slot : Nat) (r : Record) (h : 16 ≤ s.intake.queue.length) :
    s.arriveReport slot r = (s.count fun c => { c with overruns := min (c.overruns + 1) 65535 }).hand
      (notice .overrun r.reporter (word slot)) :=
  if_neg (Nat.not_lt.mpr h)

/-- Between s and v the staging of a slot has been closed, the record it completes being still to arrive. -/
structure stagingClosed (s v : State) (slot : Nat) (kept : List ReportStaging) (told : List Notice) (count : Nat) :
    Prop where
  frame : sameBut [.freeCount, .memory, .upstream, .downstream, .tap, .notices] s v
  reports : v.tap.reportStagings = kept.filter fun y => y.slot != slot
  queries : v.tap.queryStagings = s.tap.queryStagings
  abandoned : v.tap.abandoned = count
  told : handedNotices s v told

/-- HOST_WRITE_REPORT_SLOT that completes a record: the staging closes, the record arrives, and the arbiter sets its
next turn. -/
theorem exec_hostWriteReportSlot_completes {s : State} {a d : Word} {e : ByteMask} {r : Response} {w : Window}
    {slot count : Nat} {words : List StagedWord} {kept : List ReportStaging} {told : List Notice}
    (hr : s.running = true) (ha : a.toNat % 4 = 0) (hw : windowAt s.image a.toNat = some w) (hk : w.kind = .report)
    (hslot : slot = w.base + (a.toNat - w.base) / 64 * 64) (hlast : (a.toNat - w.base) % 64 = 60)
    (hopen : ∀ u, sameStagings s u → stagingOpened u (u.openReport slot) slot words kept told count)
    (hc : completes (mergeStaged words 15 d e) 15 15 = true) :
    ∃ v, exec (.hostWriteReportSlot a d e r) s =
        .next ((v.arriveReport slot (completedRecord (mergeStaged words 15 d e) 15 8)).afterHost) ∧
      stagingClosed s v slot kept told count := by
  have hpass := s.passedWrite_frame a.toNat d e r
  have hsame := s.passedWrite_stagings a.toNat d e r
  have hexec : exec (.hostWriteReportSlot a d e r) s = .next (s.hostWrite a.toNat d e r) :=
    s.hostWriteAt_aligned a d e r ha
  rw [State.hostWrite_eq] at hexec
  generalize s.passedWrite a.toNat d e r = u at hpass hsame hexec
  have hu := hopen u hsame
  have hport : u.port = s.port := hpass.2 .port (by decide)
  have hrun : u.running = true := (State.running_congr hport (hpass.2 .busReset (by decide))).trans hr
  have hwin : windowAt u.image a.toNat = some w := by rw [State.image_congr hport, hw]
  rw [u.look_report a.toNat d e w hrun hwin hk, ← hslot, hlast, State.writeReport_completes d e hu hc] at hexec
  have hclose := sameBut_then (u.openReport_frame slot) ((u.openReport slot).closeReport_frame slot)
    (rs := [.tap, .notices]) (by decide) (by decide)
  have hnotices : u.notices = s.notices := hpass.2 .notices (by decide)
  refine ⟨_, hexec, sameBut_then hpass hclose (by decide) (by decide), hu.others, hu.queries.trans hsame.queries,
    hu.abandoned, ?_⟩
  have htold : handedNotices u (u.openReport slot) told := hu.told
  unfold handedNotices at htold ⊢
  rw [hnotices] at htold
  exact htold

/-- Settles O18: by whether the staging is open, opens, or opens in the place of the oldest, then by whether the ingest
queue has room. -/
theorem reportCompletion : Obligations.ReportCompletion := by
  unfold Obligations.ReportCompletion
  rintro s a d e r w o slot count words ws kept told rec hr ha hw hk rfl hslot hlast hcase hmerged hcloses hrec
  obtain rfl := (mergedInto_iff _ _ _ _ _).mp hmerged
  obtain rfl := (recordOf_iff _ _ _ _).mp hrec
  have hopen : ∀ u, sameStagings s u → stagingOpened u (u.openReport slot) slot words kept told count := by
    intro u hu
    have hstaging := hu.reportStaging slot
    rcases hcase with ⟨x, hx, rfl, rfl, rfl, rfl⟩ | ⟨hnone, rfl, ⟨hlen, rfl, rfl, rfl⟩ | ⟨y, hy, hlen, rfl, rfl⟩⟩
    · have h := u.openReport_found slot x (hstaging.trans hx)
      rwa [hu.reports, hu.abandoned] at h
    · have h := u.openReport_fresh slot (hstaging.trans hnone) (by rwa [hu.reports])
      rwa [hu.reports, hu.abandoned] at h
    · have h := u.openReport_evicts slot y kept (hstaging.trans hnone) (hu.reports.trans hy) hlen
      rwa [hu.abandoned] at h
  obtain ⟨v, hexec, hv⟩ := exec_hostWriteReportSlot_completes (r := r) hr ha hw hk hslot hlast hopen
    ((closesRecord_iff _ _ _).mp hcloses)
  generalize completedRecord (mergeStaged words 15 d e) 15 8 = rec at hexec ⊢
  have hintake : v.intake = s.intake := hv.frame.2 .intake (by decide)
  have hframe := sameBut_then
    (sameBut_then hv.frame (v.arriveReport_frame slot rec)
      (rs := [.freeCount, .memory, .upstream, .downstream, .tap, .intake, .notices]) (by decide) (by decide))
    (State.afterHost_frame _) (rs := [.freeCount, .memory, .upstream, .downstream, .tap, .intake, .notices])
    (by decide) (by decide)
  refine ⟨fun hroom => ?_, fun hfull => ?_⟩
  · rw [v.arriveReport_room slot rec (by rwa [hintake])] at hexec hframe
    exact ⟨_, hexec, hframe, hv.reports, hv.abandoned, hv.queries, hv.told, by rw [← hintake]; rfl⟩
  · rw [v.arriveReport_full slot rec (by rwa [hintake])] at hexec hframe
    have htold : handedNotices s (v.count fun c => { c with overruns := min (c.overruns + 1) 65535 }) told := hv.told
    exact ⟨_, hexec, hframe, hv.reports, hv.abandoned, hv.queries, by rw [← hintake]; rfl,
      htold.hand (notice .overrun rec.reporter (word slot))⟩

end Sys2Proof.Machine
end

