-- ==== Sys2Proof/Proofs/RecordTests.lean ====
section
/-! SUPPORT. The tests on a report record: the kinds and their codes (R47), what makes a record of format 1 malformed
(R47 to R49), and what the acceptance filter passes (R52). -/

namespace Sys2Proof.Machine

/-! ### Report kinds (R47) -/

/-- A kind's code is one above its bit in a kind set (12 sections 12.2 and 12.7). -/
theorem reportKind_eq_some (code : Nat) (k : ReportKind) : reportKind code = some k ↔ code = k.filterBit + 1 := by
  constructor
  · unfold reportKind
    intro h
    split_ifs at h with h1 h2 h3 h4 h5 <;> cases h <;> assumption
  · rintro rfl
    cases k <;> rfl

theorem reportKind_eq_none (code : Nat) : reportKind code = none ↔ ¬ (1 ≤ code ∧ code ≤ 5) := by
  constructor
  · unfold reportKind
    intro h
    split_ifs at h
    omega
  · intro h
    cases hk : reportKind code with
    | none => rfl
    | some k =>
      have hcode := (reportKind_eq_some code k).mp hk
      cases k <;> simp only [ReportKind.filterBit] at hcode <;> omega

/-! ### Malformed records (R47 to R49) -/

theorem ReportKind.isSpan_iff (k : ReportKind) : k = .spanCondition ↔ k.filterBit + 1 = 4 := by
  cases k <;> simp [ReportKind.filterBit]

/-- The length that a kind needs, by its code. -/
theorem reportNeed_eq (k : ReportKind) (r : Record) : reportNeed k r = reportNeeds (k.filterBit + 1) r.riskCount := by
  cases k <;> rfl

/-- One of the shared-risk ids of a record of 16 words is 0. -/
theorem Record.riskIds_any_zero (r : Record) (hlen : 16 ≤ r.words.length) (hcount : r.riskCount ≤ 4) :
    r.riskIds.any (· == 0#32) = true ↔ ∃ i, i < r.riskCount ∧ r.word (4 + i) = 0#32 := by
  have hget : ∀ i, i < r.riskCount → (r.riskIds[i]? = some (r.word (4 + i))) := by
    intro i hi
    rw [Record.riskIds, List.getElem?_take_of_lt hi, List.getElem?_drop, Record.word, wordAt,
      List.getD_eq_getElem?_getD, List.getElem?_eq_getElem (by omega), Option.getD_some]
  have hbound : r.riskIds.length ≤ r.riskCount := List.length_take_le _ _
  simp only [List.any_eq_true, beq_iff_eq]
  constructor
  · rintro ⟨x, hx, rfl⟩
    obtain ⟨i, hi, hxi⟩ := List.mem_iff_getElem.mp hx
    have hword := hget i (by omega)
    rw [List.getElem?_eq_getElem hi, hxi] at hword
    exact ⟨i, by omega, (Option.some.inj hword).symm⟩
  · rintro ⟨i, hi, hword⟩
    exact ⟨_, List.mem_of_getElem? (hget i hi), hword⟩

/-- The ranges of R49, kind by kind. -/
theorem outOfRange_iff (k : ReportKind) (r : Record) (hlen : 16 ≤ r.words.length)
    (hcount : k = .spanCondition → r.riskCount ≤ 4) :
    outOfRange k r = true ↔ r.reportOutside (k.filterBit + 1) r.riskCount := by
  unfold outOfRange Record.reportOutside Record.reporter
  cases k with
  | nodeAnnounce => simp [ReportKind.filterBit]
  | nodeWithdraw => simp [ReportKind.filterBit]
  | adjacencyClaim => simp [ReportKind.filterBit]
  | spanCondition =>
    have hrisks := r.riskIds_any_zero hlen (hcount rfl)
    simp [ReportKind.filterBit, hrisks]
  | channelState => simp [ReportKind.filterBit]

/-- A record of 16 words is malformed for the first of the tests of R47 to R49 that it fails. -/
theorem malformed_eq_some (r : Record) (hlen : 16 ≤ r.words.length) (reason : MalformReason) :
    malformed r = some reason ↔ r.failsReport r.reportKindCode r.riskCount r.reportLength reason := by
  unfold malformed
  cases hk : reportKind r.reportKindCode with
  | none =>
    have hcode := (reportKind_eq_none _).mp hk
    have hspan : r.reportKindCode ≠ 4 := fun h => hcode (by omega)
    have hsized : ¬ r.reportSized r.reportKindCode r.riskCount r.reportLength := fun h => hcode h.named
    cases reason <;> simp [Record.failsReport, hcode, hspan, hsized]
  | some k =>
    have hcode : r.reportKindCode = k.filterBit + 1 := (reportKind_eq_some _ k).mp hk
    have hnamed : 1 ≤ k.filterBit + 1 ∧ k.filterBit + 1 ≤ 5 := by cases k <;> decide
    have hout := outOfRange_iff k r hlen
    simp only [hcode, k.isSpan_iff, reportNeed_eq] at hout ⊢
    generalize k.filterBit + 1 = code at hnamed hout ⊢
    have hsized : r.reportSized code r.riskCount r.reportLength ↔ ¬ (code = 4 ∧ 4 < r.riskCount) ∧
        ¬ (r.reportLength < 2 ∨ 16 < r.reportLength ∨ r.reportLength < reportNeeds code r.riskCount) :=
      ⟨fun ⟨_, h1, h2⟩ => ⟨by omega, by omega⟩, fun ⟨h1, h2⟩ => ⟨hnamed, by omega, by omega⟩⟩
    -- A branch has failed its own test and passed those before it, which is what its reason, and no other, says.
    split_ifs with hrisks hlength hincomplete hrange
    all_goals cases reason <;> simp only [Record.failsReport, hsized] <;> grind

/-! ### The acceptance filter (R52) -/

/-- Two words agree under a mask when they agree in every bit of it. -/
theorem and_mask_eq_iff (x y m : Word) :
    x &&& m = y &&& m ↔ ∀ j, m.getLsbD j = true → x.getLsbD j = y.getLsbD j := by
  constructor
  · intro h j hj
    have hbit := congrArg (fun w : Word => w.getLsbD j) h
    simpa [hj] using hbit
  · intro h
    refine BitVec.eq_of_getLsbD_eq fun j _ => ?_
    cases hm : m.getLsbD j with
    | true => simp [h j hm]
    | false => simp [hm]

/-- A kind's bit of a kind set stands below the bits that the layout does not list. -/
theorem kindBit_eq (x : Nat) (k : ReportKind) : (x % 32) >>> k.filterBit % 2 = x / 2 ^ k.filterBit % 2 := by
  rw [Nat.shiftRight_eq_div_pow]
  cases k <;> simp only [ReportKind.filterBit] <;> omega

/-- A filter entry passes a record (R52). -/
theorem filterAt_passes (img : List Byte) (n : Nat) (k : ReportKind) (id : NodeId) :
    (filterAt img n).passes k id = true ↔
      imageByte img (328 + 16 * n) % 2 = 1 ∧ imageByte img (329 + 16 * n) / 2 ^ k.filterBit % 2 = 1 ∧
      ∀ j, (imageWord img (324 + 16 * n)).getLsbD j = true →
        id.getLsbD j = (imageWord img (320 + 16 * n)).getLsbD j := by
  have h4 : 320 + 16 * n + 4 = 324 + 16 * n := by omega
  have h8 : 320 + 16 * n + 8 = 328 + 16 * n := by omega
  have h9 : 320 + 16 * n + 9 = 329 + 16 * n := by omega
  simp only [Filter.passes, filterAt, h4, h8, h9, Bool.and_eq_true, beq_iff_eq, kindBit_eq, and_mask_eq_iff]
  tauto

/-- The filter passes a record where no entry is enabled or an enabled entry agrees (R52). -/
theorem filterPasses_iff (img : List Byte) (code : Nat) (k : ReportKind) (id : NodeId) (hk : reportKind code = some k) :
    filterPasses img k id = true ↔ passesFilter img code id := by
  obtain rfl := (reportKind_eq_some code k).mp hk
  have hoff : ∀ n, (filterAt img n).enabled = false ↔ imageByte img (328 + 16 * n) % 2 = 0 := by
    intro n
    have h8 : 320 + 16 * n + 8 = 328 + 16 * n := by omega
    simp only [filterAt, h8, beq_eq_false_iff_ne]
    omega
  simp only [filterPasses, passesFilter, Bool.or_eq_true, List.all_eq_true, List.any_eq_true, List.mem_map,
    List.mem_range, Bool.not_eq_true', Nat.add_sub_cancel, forall_exists_index, and_imp, forall_apply_eq_imp_iff₂,
    exists_exists_and_eq_and, hoff, filterAt_passes]

end Sys2Proof.Machine
end

