-- ==== Sys2Proof/Proofs/RecordIntake.lean ====
section
/-! SUPPORT. Report Intake as it takes a record (R45): what each of the five checks does to the counters, the fault
scores and the store (R46, R51 to R57, R59), and the settlement of the statements about a record taken. -/

namespace Sys2Proof.Machine

/-! ### The record taken (R45) -/

/-- The state with the record at the head of the ingest queue taken. -/
def State.withQueue (s : State) (rest : List Record) : State := s.setIntake { s.intake with queue := rest }

theorem State.withQueue_frame (s : State) (rest : List Record) : sameBut [.intake] s (s.withQueue rest) :=
  ⟨rfl, fun p hp => by cases p <;> first | exact absurd (by decide) hp | rfl⟩

/-- Intake takes a record when no observation waits (assumption log 9). -/
theorem exec_intakeTakeRecord (s : State) (r : Record) (rest : List Record) (hr : s.running = true)
    (ho : s.handoffs.observations = []) (hq : s.intake.queue = r :: rest) :
    exec .intakeTakeRecord s = .next ((s.withQueue rest).judgeRecord r) := by
  simp [exec, execIntakeTakeRecord, State.intakeFree, State.withQueue, hr, ho, hq]

/-- A record that is taken and only counted changes the intake alone (R59). -/
theorem State.withQueue_count_frame (s : State) (rest : List Record) (f : Counters → Counters) :
    sameBut [.intake] s ((s.withQueue rest).count f) :=
  sameBut_trans (s.withQueue_frame rest) (State.count_frame _ f)

/-! ### The five checks in their order (R45) -/

theorem State.judgeRecord_format (s : State) (r : Record) (h : r.reportFormat ≠ 1) :
    s.judgeRecord r = s.dropFormat r := if_pos h

theorem State.judgeRecord_malformed (s : State) (r : Record) (reason : MalformReason) (hf : r.reportFormat = 1)
    (hm : malformed r = some reason) : s.judgeRecord r = s.dropMalformed r reason := by
  simp [State.judgeRecord, hf, hm]

theorem State.judgeRecord_filtered (s : State) (r : Record) (k : ReportKind) (hf : r.reportFormat = 1)
    (hm : malformed r = none) (hk : reportKind r.reportKindCode = some k)
    (hp : filterPasses s.image k r.reporter = false) :
    s.judgeRecord r = s.count fun c => { c with filtered := countUp c.filtered 1 } := by
  simp [State.judgeRecord, hf, hm, hk, hp]

/-- Attribution and quarantine, of a record that the filter passes (R53, R54). -/
theorem State.judgeRecord_passed (s : State) (r : Record) (k : ReportKind) (hf : r.reportFormat = 1)
    (hm : malformed r = none) (hk : reportKind r.reportKindCode = some k)
    (hp : filterPasses s.image k r.reporter = true) :
    s.judgeRecord r =
      match s.nodeOf r.reporter with
      | none =>
        if k = .nodeAnnounce then s.acceptRecord k r
        else s.count fun c => { c with unattributed := countUp c.unattributed 1 }
      | some n =>
        if n.quarantined ∧ k ≠ .nodeWithdraw then
          s.count fun c => { c with quarantineDrops := countUp c.quarantineDrops 1 }
        else s.acceptRecord k r := by
  unfold State.judgeRecord
  rw [if_neg (not_not.mpr hf)]
  simp only [hm, hk, hp, if_true]
  rfl

/-- A well-formed record is of one of the kinds (R47). -/
theorem reportKind_isSome_of_wellFormed (r : Record) (hm : malformed r = none) :
    ∃ k, reportKind r.reportKindCode = some k := by
  cases hk : reportKind r.reportKindCode with
  | none => simp [malformed, hk] at hm
  | some k => exact ⟨k, rfl⟩

/-! ### The intake after a check (R46, R51, R55, R59) -/

theorem State.dropFormat_ignore (s : State) (r : Record) (h : s.globals.unknownFormat ≠ 1) :
    s.dropFormat r = s.count fun c => { c with unknownFormat := countUp c.unknownFormat 1 } := if_neg h

theorem State.dropFormat_fault (s : State) (r : Record) (h : s.globals.unknownFormat = 1) :
    s.dropFormat r = ((s.count fun c => { c with unknownFormat := countUp c.unknownFormat 1 }).hand
      (notice .malformedRecord r.reporter (word MalformReason.format.code))).scoreFault r.reporter := if_pos h

theorem State.dropFormat_intake (s : State) (r : Record) :
    (s.dropFormat r).intake = (s.count fun c => { c with unknownFormat := countUp c.unknownFormat 1 }).intake := by
  simp only [State.dropFormat]
  split
  · exact (State.scoreFault_frame _ _).2 .intake (by decide)
  · rfl

theorem State.dropMalformed_intake (s : State) (r : Record) (reason : MalformReason) :
    (s.dropMalformed r reason).intake = (s.count fun c => { c with malformed := countUp c.malformed 1 }).intake :=
  (State.scoreFault_frame _ _).2 .intake (by decide)

/-- A report about one direction that names no link (R20, R55). -/
def State.namesNoLink (s : State) (k : ReportKind) (r : Record) (i : Nat) : Prop :=
  (k = .spanCondition ∨ k = .channelState) ∧ s.describedDirection i r.localPort = none

/-- A report about no link counts as such; no other record changes a counter as it is applied (R55). -/
theorem State.applyRecord_intake (s : State) (k : ReportKind) (r : Record) (i : Nat) (n : Node) (b : Bool) :
    (s.namesNoLink k r i → (s.applyRecord k r i n b).intake = s.noLink.intake) ∧
    (¬ s.namesNoLink k r i → (s.applyRecord k r i n b).intake = s.intake) := by
  unfold State.namesNoLink
  cases k with
  | nodeAnnounce => exact ⟨by simp, fun _ => (s.refreshNode_frame r i n).2 .intake (by decide)⟩
  | nodeWithdraw => exact ⟨by simp, fun _ => (s.removeNode_frame i n).2 .intake (by decide)⟩
  | adjacencyClaim => exact ⟨by simp, fun _ => (s.applyClaim_frame r i).2 .intake (by decide)⟩
  | spanCondition =>
    cases hd : s.describedDirection i r.localPort with
    | none => simp [State.applyRecord, hd]
    | some e =>
      have happly : s.applyRecord .spanCondition r i n b = s.applySpan r n e.1 e.2 b := by
        simp only [State.applyRecord, hd]
      rw [happly]
      exact ⟨by simp, fun _ => (s.applySpan_frame r n e.1 e.2 b).2 .intake (by decide)⟩
  | channelState =>
    cases hd : s.describedDirection i r.localPort with
    | none => simp [State.applyRecord, hd]
    | some e =>
      have happly : s.applyRecord .channelState r i n b = s.applyChannels r n e.1 e.2 := by
        simp only [State.applyRecord, hd]
      rw [happly]
      exact ⟨by simp, fun _ => (s.applyChannels_frame r n e.1 e.2).2 .intake (by decide)⟩

/-- A change of a node that keeps its port table keeps what the ports refer to (R9). -/
theorem State.describedDirection_updateNode (s : State) (j : Nat) (f : Node → Node) (hf : ∀ n, (f n).ports = n.ports)
    (i port : Nat) : (s.updateNode j f).describedDirection i port = s.describedDirection i port := by
  have hport : (s.updateNode j f).portAt i port = s.portAt i port := by
    unfold State.portAt
    rw [State.nodeAt_updateNode]
    split
    · rename_i h
      subst h
      cases s.nodeAt i <;> simp [hf]
    · rfl
  simp only [State.describedDirection, hport]

theorem State.describedDirection_scoreGood (s : State) (j i port : Nat) :
    (s.scoreGood j).describedDirection i port = s.describedDirection i port := by
  refine s.describedDirection_updateNode j _ (fun n => ?_) i port
  split <;> rfl

/-- A node that proves alive keeps its port table (R5). -/
theorem State.describedDirection_proveAlive (s : State) (j : Nat) (n : Node) (i port : Nat) :
    (s.proveAlive j n).describedDirection i port = s.describedDirection i port := by
  have hrestart : (s.restartHold j).describedDirection i port = s.describedDirection i port :=
    s.describedDirection_updateNode j (fun m => { m with hold := 3 * m.refresh }) (fun _ => rfl) i port
  have hlive := (s.restartHold j).describedDirection_updateNode j (fun m => { m with liveness := .live })
    (fun _ => rfl) i port
  unfold State.proveAlive
  cases n.liveness with
  | live => exact hrestart
  | stale => exact hlive.trans hrestart

/-- An announcement that creates its node counts as accepted (R2, R55). -/
theorem State.acceptRecord_unknown_intake (s : State) (k : ReportKind) (r : Record)
    (h : s.nodeEntry r.reporter = none) :
    (s.acceptRecord k r).intake = (s.count fun c => { c with accepted := countUp c.accepted 1 }).intake := by
  simp only [State.acceptRecord, h]
  exact (State.createNode_frame _ r).2 .intake (by decide)

/-- An accepted record of a known node counts as accepted, and where it is about no link, as that too (R55). -/
theorem State.acceptRecord_known_intake (s : State) (k : ReportKind) (r : Record) (i : Nat) (n : Node)
    (h : s.nodeEntry r.reporter = some (i, n)) :
    (s.namesNoLink k r i → (s.acceptRecord k r).intake =
      (s.count fun c => { c with accepted := countUp c.accepted 1, noLink := countUp c.noLink 1 }).intake) ∧
    (¬ s.namesNoLink k r i → (s.acceptRecord k r).intake =
      (s.count fun c => { c with accepted := countUp c.accepted 1 }).intake) := by
  simp only [State.acceptRecord, h]
  generalize hcounted : (s.count fun c => { c with accepted := countUp c.accepted 1 }) = u
  have halive : ((u.scoreGood i).proveAlive i n).intake = u.intake :=
    (State.proveAlive_frame _ i n).2 .intake (by decide)
  have hnames : ((u.scoreGood i).proveAlive i n).namesNoLink k r i ↔ s.namesNoLink k r i := by
    unfold State.namesNoLink
    rw [State.describedDirection_proveAlive, State.describedDirection_scoreGood, ← hcounted]
    rfl
  generalize (u.scoreGood i).proveAlive i n = v at halive hnames ⊢
  obtain ⟨hnone, hsome⟩ := v.applyRecord_intake k r i ((v.nodeAt i).getD n) (s.describedInService i r.localPort)
  rw [hnames] at hnone hsome
  refine ⟨fun hn => (hnone hn).trans ?_, fun hn => (hsome hn).trans halive⟩
  rw [State.noLink, State.count_intake, halive, ← hcounted]
  rfl

/-! ### The outcome counters (R59) -/

/-- The intake of a state in which only a counter was raised once the record had been taken. -/
theorem intake_of_counted {s t : State} {rest : List Record} {f : Counters → Counters}
    (h : t.intake = ((s.withQueue rest).count f).intake) :
    t.intake.queue = rest ∧ t.intake.counters = f s.intake.counters := by
  rw [h]
  exact ⟨rfl, rfl⟩

/-- A record of a known reporter that is about no link, in the words of the reporter's id. -/
theorem State.namesNoLink_iff (s : State) (k : ReportKind) (r : Record) (i : Nat) (n : Node)
    (h : s.nodeEntry r.reporter = some (i, n)) :
    s.namesNoLink k r i ↔ (k = .spanCondition ∨ k = .channelState) ∧
      (s.indexOf r.reporter).bind (fun i => s.describedDirection i r.localPort) = none := by
  simp [State.namesNoLink, State.indexOf, h]

/-- Settles O25: the tests on the record, then the judgement by the five checks in their order. -/
theorem intakeCountsOnce : Obligations.IntakeCountsOnce := by
  unfold Obligations.IntakeCountsOnce
  refine ⟨malformed_eq_some, fun code k => ?_, fun img code k id => filterPasses_iff img code k id, ?_⟩
  · rw [reportKind_eq_some]
    cases k <;> simp [ReportKind.filterBit]
  rintro s r rest c hr ho hq rfl
  have hframe := sameBut_then (s.withQueue_frame rest) ((s.withQueue rest).judgeRecord_frame r)
    (rs := [.intake, .store, .handoffs, .notices, .sweep]) (by decide) (by decide)
  have honly := s.withQueue_count_frame rest
  refine ⟨_, exec_intakeTakeRecord s r rest hr ho hq, hframe, ?_⟩
  by_cases hf : r.reportFormat = 1
  case neg =>
    rw [if_pos hf, (s.withQueue rest).judgeRecord_format r hf]
    obtain ⟨hqueue, hcount⟩ := intake_of_counted ((s.withQueue rest).dropFormat_intake r)
    refine ⟨hqueue, hcount, fun hignore => ?_⟩
    have hg : (s.withQueue rest).globals.unknownFormat = 0 := hignore
    rw [(s.withQueue rest).dropFormat_ignore r (by omega)]
    exact honly _
  rw [if_neg (not_not.mpr hf)]
  cases hm : malformed r with
  | some reason =>
    rw [(s.withQueue rest).judgeRecord_malformed r reason hf hm]
    exact intake_of_counted ((s.withQueue rest).dropMalformed_intake r reason)
  | none =>
    obtain ⟨k, hk⟩ := reportKind_isSome_of_wellFormed r hm
    simp only [hk]
    cases hp : filterPasses s.image k r.reporter with
    | false =>
      rw [(s.withQueue rest).judgeRecord_filtered r k hf hm hk hp, if_pos rfl]
      exact ⟨rfl, rfl, honly _⟩
    | true =>
      have hjudged := (s.withQueue rest).judgeRecord_passed r k hf hm hk hp
      rw [if_neg (by decide)]
      cases he : s.nodeEntry r.reporter with
      | none =>
        have hn : s.nodeOf r.reporter = none := by simp [State.nodeOf, he]
        have hn' : (s.withQueue rest).nodeOf r.reporter = none := hn
        simp only [hn'] at hjudged
        simp only [hn]
        by_cases hann : k = .nodeAnnounce
        · rw [hjudged, if_pos hann, if_pos hann]
          exact intake_of_counted ((s.withQueue rest).acceptRecord_unknown_intake k r he)
        · rw [hjudged, if_neg hann, if_neg hann]
          exact ⟨rfl, rfl, honly _⟩
      | some e =>
        obtain ⟨i, n⟩ := e
        have hn : s.nodeOf r.reporter = some n := by simp [State.nodeOf, he]
        have hn' : (s.withQueue rest).nodeOf r.reporter = some n := hn
        obtain ⟨hnone, hsome⟩ := (s.withQueue rest).acceptRecord_known_intake k r i n he
        simp only [hn'] at hjudged
        simp only [hn]
        by_cases hquar : n.quarantined = true ∧ k ≠ .nodeWithdraw
        · rw [hjudged, if_pos hquar, if_pos hquar]
          exact ⟨rfl, rfl, honly _⟩
        · rw [hjudged, if_neg hquar, if_neg hquar]
          by_cases hlink : s.namesNoLink k r i
          · rw [if_pos ((s.namesNoLink_iff k r i n he).mp hlink)]
            exact intake_of_counted (hnone hlink)
          · rw [if_neg (mt (s.namesNoLink_iff k r i n he).mpr hlink)]
            exact intake_of_counted (hsome hlink)

/-! ### Faults and quarantine (R56, R57) -/

/-- No score is kept of an unknown reporter, and that of a quarantined one stays (R56). -/
theorem State.scoreFault_keeps (s : State) (id : NodeId)
    (h : s.nodeEntry id = none ∨ ∃ i n, s.nodeEntry id = some (i, n) ∧ n.quarantined = true) : s.scoreFault id = s := by
  rcases h with h | ⟨i, n, h, hq⟩
  · simp only [State.scoreFault, h]
  · simp only [State.scoreFault, h, hq, if_true]

theorem State.scoreFault_below (s : State) (id : NodeId) (i : Nat) (n : Node) (h : s.nodeEntry id = some (i, n))
    (hq : n.quarantined = false) (hlow : min (n.faultScore + 1) 63 < (s.profileOf n).faultThreshold) :
    s.scoreFault id = s.updateNode i fun m => { m with faultScore := min (n.faultScore + 1) 63 } := by
  simp only [State.scoreFault, h, hq, Bool.false_eq_true, if_false, if_neg (Nat.not_le.mpr hlow)]

/-- A score that reaches the threshold of the profile in force sets quarantine (R57). -/
theorem State.scoreFault_reaches (s : State) (id : NodeId) (i : Nat) (n : Node) (h : s.nodeEntry id = some (i, n))
    (hq : n.quarantined = false) (hhigh : (s.profileOf n).faultThreshold ≤ min (n.faultScore + 1) 63) :
    s.scoreFault id = (s.updateNode i fun m => { m with faultScore := min (n.faultScore + 1) 63 }).quarantine i id
      (min (n.faultScore + 1) 63) := by
  simp only [State.scoreFault, h, hq, Bool.false_eq_true, if_false, if_pos hhigh]

/-- Two changes of one entry of a table. -/
theorem tableUpdate_tableUpdate {α : Type} (t : List (Nat × α)) (k : Nat) (f g : α → α) :
    tableUpdate (tableUpdate t k f) k g = tableUpdate t k fun x => g (f x) := by
  unfold tableUpdate
  rw [List.map_map]
  refine List.map_congr_left fun e _ => ?_
  by_cases he : e.1 = k <;> simp [he]

/-- The node whose score has reached the threshold (R56, R57). -/
theorem State.scored_quarantine_nodes (s : State) (i : Nat) (id : NodeId) (score : Nat) :
    ((s.updateNode i fun m => { m with faultScore := score }).quarantine i id score).store.nodes =
      tableUpdate s.store.nodes i fun m => { m with faultScore := score, quarantined := true } :=
  tableUpdate_tableUpdate s.store.nodes i (fun m => { m with faultScore := score })
    fun m => { m with quarantined := true }

/-- A record has been taken and counted, and the notice "malformed record" handed on (R46, R51). -/
def State.toldMalformed (s : State) (rest : List Record) (f : Counters → Counters) (n : Notice) : State :=
  ((s.withQueue rest).count f).hand n

theorem State.toldMalformed_frame (s : State) (rest : List Record) (f : Counters → Counters) (n : Notice) :
    sameBut [.intake, .notices] s (s.toldMalformed rest f n) :=
  sameBut_then (s.withQueue_count_frame rest f) (State.hand_frame _ n) (by decide) (by decide)

/-- INTAKE_TAKE_RECORD of a record that is a fault against its reporter (R46, R51, R56). -/
theorem exec_intakeTakeRecord_fault (s : State) (r : Record) (rest : List Record) (reason : MalformReason)
    (hr : s.running = true) (ho : s.handoffs.observations = []) (hq : s.intake.queue = r :: rest)
    (hfault : r.reportFormat = 1 ∧ malformed r = some reason ∨
      r.reportFormat ≠ 1 ∧ s.globals.unknownFormat = 1 ∧ reason = .format) :
    ∃ f, exec .intakeTakeRecord s =
      .next ((s.toldMalformed rest f (notice .malformedRecord r.reporter (word reason.code))).scoreFault
        r.reporter) := by
  rw [exec_intakeTakeRecord s r rest hr ho hq]
  rcases hfault with ⟨hf, hm⟩ | ⟨hf, hg, rfl⟩
  · rw [(s.withQueue rest).judgeRecord_malformed r reason hf hm]
    exact ⟨_, rfl⟩
  · rw [(s.withQueue rest).judgeRecord_format r hf, (s.withQueue rest).dropFormat_fault r hg]
    exact ⟨_, rfl⟩

/-- Settles O26: by whether the reporter keeps a score, then by whether the score reaches the threshold. -/
theorem malformedRecordScores : Obligations.MalformedRecordScores := by
  unfold Obligations.MalformedRecordScores
  refine ⟨rfl, ?_⟩
  rintro s r rest reason hr ho hq hfault
  obtain ⟨f, hexec⟩ := exec_intakeTakeRecord_fault s r rest reason hr ho hq hfault
  have htold := s.toldMalformed_frame rest f (notice .malformedRecord r.reporter (word reason.code))
  refine ⟨fun hnone => ?_, ?_⟩
  · rw [(s.toldMalformed rest f _).scoreFault_keeps r.reporter hnone] at hexec
    exact ⟨_, hexec, htold, rfl, rfl⟩
  rintro i n score he hquar rfl
  refine ⟨fun hlow => ?_, fun hhigh => ?_⟩
  · rw [(s.toldMalformed rest f _).scoreFault_below r.reporter i n he hquar hlow] at hexec
    exact ⟨_, hexec, sameBut_then htold (State.updateNode_frame _ i _) (by decide) (by decide), rfl, rfl, rfl⟩
  · have hframe := sameBut_then htold (State.scoreFault_frame _ r.reporter)
      (rs := [.intake, .store, .handoffs, .notices]) (by decide) (by decide)
    rw [(s.toldMalformed rest f _).scoreFault_reaches r.reporter i n he hquar hhigh] at hexec hframe
    have hfirst : handedNotices s
        (s.toldMalformed rest f (notice .malformedRecord r.reporter (word reason.code))) _ := rfl
    exact ⟨_, hexec, hframe, rfl, (s.toldMalformed rest f _).scored_quarantine_nodes i r.reporter _, rfl, rfl, rfl,
      hfirst.hand (nodeNotice .quarantined r.reporter _)⟩

end Sys2Proof.Machine
end

