-- ==== Sys2Proof/Proofs/DecibelTable.lean ====
section
/-! SUPPORT. The decibel table (R61): every entry is the integer nearest to its level, which orders and bounds the
table; and the settlement of the statements about the table and about the noise conversions that read it (R62, R63). -/

namespace Sys2Proof.Machine

/-! ### The nearest integer to a level (R61) -/

/-- c is the integer nearest to 2^20 · 10^(−d/100), halves rounded up: c − 1/2 ≤ 2^20 · 10^(−d/100) < c + 1/2, each side
doubled, raised to the power 100 and multiplied by 10^d. -/
abbrev nearestToLevel (d c : Nat) : Prop :=
  1 ≤ c ∧ (2 * c - 1) ^ 100 * 10 ^ d ≤ 2 ^ 2100 ∧ 2 ^ 2100 < (2 * c + 1) ^ 100 * 10 ^ d

/-- The nearest integers fall as the levels do: were the later one greater, it would lie a whole unit above the earlier
one, and their bounds would cross. -/
theorem nearestToLevel_antitone {a b x y : Nat} (hx : nearestToLevel a x) (hy : nearestToLevel b y) (hab : a ≤ b) :
    y ≤ x := by
  obtain ⟨-, -, habove⟩ := hx
  obtain ⟨-, hbelow, -⟩ := hy
  by_contra hlt
  have hunit : 2 * x + 1 ≤ 2 * y - 1 := by omega
  have hcross : (2 * x + 1) ^ 100 * 10 ^ a ≤ (2 * y - 1) ^ 100 * 10 ^ b :=
    Nat.mul_le_mul (Nat.pow_le_pow_left hunit 100) (Nat.pow_le_pow_right (by decide) hab)
  exact absurd ((habove.trans_le hcross).trans_le hbelow) (lt_irrefl _)

/-- The entries of a list are the integers nearest to the levels from d on. -/
def nearestFrom : Nat → List Nat → Bool
  | _, [] => true
  | d, c :: cs => decide (nearestToLevel d c) && nearestFrom (d + 1) cs

theorem nearestToLevel_of_nearestFrom (cs : List Nat) (d i z : Nat) (h : nearestFrom d cs = true)
    (hi : i < cs.length) : nearestToLevel (d + i) (cs.getD i z) := by
  induction cs generalizing d i with
  | nil => exact absurd hi (Nat.not_lt_zero i)
  | cons c cs ih =>
    obtain ⟨hc, hcs⟩ := (Bool.and_eq_true _ _).mp h
    cases i with
    | zero => exact of_decide_eq_true hc
    | succ i =>
      rw [Nat.add_comm i 1, ← Nat.add_assoc, Nat.add_comm 1 i]
      exact ih (d + 1) i hcs (Nat.lt_of_succ_lt_succ hi)

/-! ### The table -/

theorem decibelTable_length : decibelTable.length = 601 := by decide +kernel

/-- The table is a fixed list, read through once. -/
theorem decibelTable_nearestFrom : nearestFrom 0 decibelTable = true := by decide +kernel

theorem decibel_min (d : Nat) : decibel (min 600 d) = decibel d := by
  unfold decibel
  rw [min_comm 600, min_assoc, min_self]

theorem decibel_nearest (d : Nat) (hd : d ≤ 600) : nearestToLevel d (decibel d) := by
  have hlt : d < decibelTable.length := by rw [decibelTable_length]; omega
  have h := nearestToLevel_of_nearestFrom decibelTable 0 d 1 decibelTable_nearestFrom hlt
  rw [Nat.zero_add] at h
  rwa [decibel, Nat.min_eq_left hd]

theorem decibel_zero : decibel 0 = 1048576 := by decide +kernel

theorem decibel_last : decibel 600 = 1 := by decide +kernel

theorem decibel_antitone {a b : Nat} (h : a ≤ b) : decibel b ≤ decibel a := by
  rw [← decibel_min a, ← decibel_min b]
  exact nearestToLevel_antitone (decibel_nearest _ (min_le_left _ _)) (decibel_nearest _ (min_le_left _ _))
    (min_le_min_left 600 h)

theorem one_le_decibel (d : Nat) : 1 ≤ decibel d := by
  rw [← decibel_min]
  exact (decibel_nearest _ (min_le_left _ _)).1

theorem decibel_le (d : Nat) : decibel d ≤ 1048576 := (decibel_antitone (Nat.zero_le d)).trans_eq decibel_zero

/-- The last sixteen entries lie between the first of them and 1. -/
theorem decibel_of_585_le {d : Nat} (h : 585 ≤ d) : decibel d = 1 :=
  le_antisymm ((decibel_antitone h).trans_eq (by decide +kernel)) (one_le_decibel d)

/-! ### Noise conversions (R62, R63) -/

/-- The low half of a word as a signed number: halves from 32768 on stand for the numbers below 0. -/
theorem signedHalf_eq (w : Word) :
    signedHalf w = if w.toNat % 65536 < 32768 then ((w.toNat % 65536 : Nat) : Int)
      else ((w.toNat % 65536 : Nat) : Int) - 65536 := by
  rw [signedHalf, BitVec.toInt_eq_toNat_cond, BitVec.toNat_ofNat]
  by_cases hlow : w.toNat % 65536 < 32768
  · rw [if_pos hlow, if_pos (by omega)]
  · rw [if_neg hlow, if_neg (by omega)]
    rfl

theorem signedHalf_bounds (w : Word) : -32768 ≤ signedHalf w ∧ signedHalf w ≤ 32767 := by
  rw [signedHalf_eq]
  split <;> omega

/-- Noise conversion under OSNR_TENTHS (R62), the three branches as one clamp. -/
theorem convertNoise_osnrTenths (p : Profile) (w : Word) (hp : p.form = .osnrTenths) :
    convertNoise p w = (decibel (max 0 (min 600 (signedHalf w + p.calibration))).toNat,
      decide (signedHalf w + p.calibration < 0 ∨ 600 < signedHalf w + p.calibration)) := by
  simp only [convertNoise, hp]
  generalize signedHalf w + p.calibration = d
  by_cases hneg : d < 0
  · rw [if_pos hneg, decide_eq_true (.inl hneg), show (max 0 (min 600 d)).toNat = 0 by omega]
  by_cases hbig : 600 < d
  · rw [if_neg hneg, if_pos hbig, decide_eq_true (.inr hbig), show (max 0 (min 600 d)).toNat = 600 by omega]
  · rw [if_neg hneg, if_neg hbig, decide_eq_false (by omega), show (max 0 (min 600 d)).toNat = d.toNat by omega]

theorem convertNoise_osnrTenths_low (p : Profile) (w : Word) (hp : p.form = .osnrTenths)
    (h : signedHalf w + p.calibration < 0) : convertNoise p w = (1048576, true) := by
  simp only [convertNoise, hp, if_pos h, decibel_zero]

theorem convertNoise_osnrTenths_high (p : Profile) (w : Word) (hp : p.form = .osnrTenths)
    (h : 600 < signedHalf w + p.calibration) : convertNoise p w = (1, true) := by
  simp only [convertNoise, hp, if_neg (show ¬ signedHalf w + p.calibration < 0 by omega), if_pos h, decibel_last]

/-- Noise conversion under LINEAR (R63). -/
theorem convertNoise_linear (p : Profile) (w : Word) (hp : p.form = .linear) :
    convertNoise p w = (min w.toNat noiseLimit, decide (noiseLimit < w.toNat)) := by
  simp only [convertNoise, hp]
  by_cases hbig : noiseLimit < w.toNat
  · rw [if_pos hbig, decide_eq_true hbig, min_eq_right hbig.le]
  · rw [if_neg hbig, decide_eq_false hbig, min_eq_left (not_lt.mp hbig)]

/-! ### The statements -/

/-- Settles O6: the nearest integers by one reading of the table; the order and the last entries follow from them. -/
theorem decibelTableNearest : Obligations.DecibelTableNearest := by
  unfold Obligations.DecibelTableNearest
  refine ⟨decibelTable_length, decibel_nearest, decibel_zero, decibel_last, fun a b => decibel_antitone,
    fun d h _ => decibel_of_585_le h, ?_, fun q m => rfl⟩
  intro p w hp
  rw [convertNoise_osnrTenths p w hp]

/-- Settles O7: the clamp under OSNR_TENTHS with both ends, and the limit under LINEAR. -/
theorem noiseConversions : Obligations.NoiseConversions := by
  unfold Obligations.NoiseConversions
  refine ⟨?_, fun p w hp => ⟨convertNoise_linear p w hp, fun c => ?_⟩⟩
  · intro p w hp hlow hhigh
    obtain ⟨hmin, hmax⟩ := signedHalf_bounds w
    refine ⟨signedHalf w, signedHalf w + p.calibration, signedHalf_eq w, hmin, hmax, rfl, by omega, by omega,
      convertNoise_osnrTenths p w hp, convertNoise_osnrTenths_low p w hp, convertNoise_osnrTenths_high p w hp, ?_⟩
    intro hend
    rw [convertNoise_osnrTenths p w hp]
    exact decide_eq_false (by omega)
  · rw [convertNoise_linear p w hp]
    exact convertNoise_linear _ w hp

end Sys2Proof.Machine
end

