-- ==== Sys2Proof/Proofs/SegmentNoise.lean ====
section
/-! SUPPORT. Segment noises as saturated exact sums (R72), the budget and the margin (R73, R74), and the settlement of
the statement about them. -/

namespace Sys2Proof.Machine

/-! ### Saturation (R72) -/

theorem satAdd_le (a b : Nat) : satAdd a b ≤ sumLimit := Nat.min_le_right _ _

/-- A sum that saturates on the way is the exact sum, saturated at the end. -/
theorem satAdd_satAdd (a b c : Nat) : satAdd (satAdd a b) c = min (a + b + c) sumLimit := by
  unfold satAdd
  omega

/-- The segment noises are the exact sums, saturated, also where the walk starts from sums that only saturate to the
same number: inside a segment the sum so far is already saturated, the exact one is not. -/
theorem segmentNoises_eq_map (s : State) (regens : List NodeId) (es : List (Hop × NodeId)) (acc exact : Nat)
    (hacc : min acc sumLimit = min exact sumLimit) :
    segmentNoises s regens acc es = (exactSegments s regens exact es).map fun x => min x sumLimit := by
  induction es generalizing acc exact with
  | nil => rfl
  | cons e es ih =>
    obtain ⟨h, n⟩ := e
    have hsum : ∀ x, satAdd (satAdd acc (s.noiseOf h.link h.dir)) x =
        min (exact + s.noiseOf h.link h.dir + x) sumLimit := by
      intro x
      rw [satAdd_satAdd]
      omega
    cases es with
    | nil => simp only [segmentNoises, exactSegments, hsum, List.map_cons, List.map_nil]
    | cons e es =>
      simp only [segmentNoises, exactSegments]
      by_cases hr : regens.contains n = true
      · rw [if_pos hr, if_pos hr, List.map_cons, hsum, ih _ _ rfl]
      · rw [if_neg hr, if_neg hr]
        exact ih _ _ (by rw [hsum, min_assoc, min_self])

theorem State.routeNoises_eq (s : State) (r : Route) :
    s.routeNoises r = (s.exactNoises r).map fun x => min x sumLimit :=
  segmentNoises_eq_map s r.regens r.received _ _ rfl

/-! ### The worst segment and the margin (R72, R74) -/

/-- The greatest of a list is within a bound exactly when every number of the list is. -/
theorem greatest_le_iff (ns : List Nat) (b : Nat) : greatest ns ≤ b ↔ ∀ x ∈ ns, x ≤ b := by
  have hfold : ∀ a, ns.foldl max a ≤ b ↔ a ≤ b ∧ ∀ x ∈ ns, x ≤ b := by
    induction ns with
    | nil => simp
    | cons n ns ih => intro a; simp [ih, and_assoc]
  rw [greatest, hfold]
  exact and_iff_right (Nat.zero_le b)

theorem State.worstNoise_le (s : State) (r : Route) : s.worstNoise r ≤ sumLimit := by
  rw [State.worstNoise, greatest_le_iff, State.routeNoises_eq, List.forall_mem_map]
  exact fun x _ => Nat.min_le_right x sumLimit

theorem marginOf_nonneg_iff (b worst : Nat) : 0 ≤ marginOf b worst ↔ worst ≤ b := by
  unfold marginOf
  omega

/-- Settles O9: the saturated sums, the budget by the order of the decibel table, the margin by its bounds. -/
theorem segmentNoiseBudgetMargin : Obligations.SegmentNoiseBudgetMargin := by
  unfold Obligations.SegmentNoiseBudgetMargin
  refine ⟨fun s r => ⟨s.routeNoises_eq r, s.worstNoise_le r⟩, ?_, fun q m => ⟨one_le_decibel _, decibel_le _⟩, ?_⟩
  · intro q m q' m' hq hm
    exact decibel_antitone (min_le_min_left 600 (Nat.add_le_add hq hm))
  · intro s r b hb
    have hworst : s.worstNoise r ≤ 16777215 := s.worstNoise_le r
    have hmargin : marginOf b (s.worstNoise r) = (b : Int) - (s.worstNoise r : Int) := rfl
    refine ⟨hmargin, by omega, by omega, ?_⟩
    rw [marginOf_nonneg_iff, State.worstNoise, greatest_le_iff]

end Sys2Proof.Machine
end

