-- ==== Sys2Proof/Proofs/ResultRecords.lean ====
section
/-! SUPPORT. The words of a result record (R146, R188, R189): the fields of its header, closing word, summaries, hop
entries and record body, the number of its words and their addresses, and the settlement of the statement about them. -/

namespace Sys2Proof.Machine

/-! ### Words of fields and flags (R188) -/

/-- A word made of the number that ascending fields make spells them. -/
theorem spells_word {n : Nat} {fs : List (Nat × Nat × Nat)} (hn : n = sumFields fs) (h : ascendingFields 0 fs) :
    spells (word n) fs := hn ▸ spells_sumFields fs h

theorem flag_eq (b : Bool) (lo : Nat) : flag b lo = b.toNat * 2 ^ lo := by
  cases b <;> simp [flag, Nat.shiftLeft_eq]

/-- The field of the flags of an answer is its three flags, one above the other. -/
theorem Answer.field_flags (a : Answer) (lo : Nat) :
    field a.flags lo 3 = field a.provisional.toNat lo 1 + field a.clamped.toNat (lo + 1) 1 +
      field a.body.marginNegative.toNat (lo + 2) 1 := by
  have hflags : a.flags = a.provisional.toNat + 2 * a.clamped.toNat + 4 * a.body.marginNegative.toNat := by
    rw [Answer.flags, flag_eq, flag_eq, flag_eq]
    omega
  have hlt : a.flags < 2 ^ 3 := by
    have := a.provisional.toNat_lt
    have := a.clamped.toNat_lt
    have := a.body.marginNegative.toNat_lt
    omega
  rw [field_eq, Nat.mod_eq_of_lt hlt, hflags, ← flag_field, ← flag_field, ← flag_field, flag_eq, flag_eq, flag_eq,
    pow_add, pow_add]
  ring

/-! ### Header and closing word (R146) -/

theorem AnswerBody.marginNegative_iff (b : AnswerBody) :
    b.marginNegative = true ↔ (∃ x r, b = .path x r ∧ x.margin < 0) ∨
      ∃ x1 r1 x2 r2, b = .pair x1 r1 x2 r2 ∧ (x1.margin < 0 ∨ x2.margin < 0) := by
  cases b <;> simp [AnswerBody.marginNegative]

theorem headerWords_spell (a : Answer) (n : Nat) :
    ∃ w0 w1 w3, headerWords a n = [w0, w1, a.detail, w3] ∧
      spells w0 [(0, 16, a.tag), (16, 8, a.kind), (24, 8, a.slot)] ∧
      spells w1 [(0, 8, a.status.code), (8, 1, a.provisional.toNat), (9, 1, a.clamped.toNat),
        (10, 1, a.body.marginNegative.toNat)] ∧
      spells w3 [(0, 32, n)] := by
  refine ⟨_, _, _, rfl, ?_, ?_, ?_⟩
  · exact spells_word (by simp [sumFields, add_assoc]) (by simp [ascendingFields])
  · exact spells_word (by simp [sumFields, a.field_flags, add_assoc]) (by simp [ascendingFields])
  · have hword : word n = word (n % 2 ^ 32) := BitVec.eq_of_toNat_eq (by simp [word])
    rw [hword]
    exact spells_word (by simp [sumFields, field_eq]) (by simp [ascendingFields])

theorem closingWord_spells (a : Answer) :
    spells (closingWord a) [(0, 16, a.tag), (16, 4, a.kind), (20, 1, a.provisional.toNat), (21, 1, a.clamped.toNat),
      (22, 1, a.body.marginNegative.toNat), (24, 8, a.status.code)] :=
  spells_word (by simp [sumFields, a.field_flags, add_assoc]) (by simp [ascendingFields])

/-! ### Summaries, hop entries and the record body (R189) -/

theorem summaryWords_spell (x : Summary) : ∃ w0 w5,
    summaryWords x = [w0, word x.cost, word x.worst, word x.budget, signedWord x.margin, w5, 0#32, 0#32] ∧
    spells w0 [(0, 8, x.hopCount), (8, 8, x.segments), (16, 8, x.restarts), (24, 1, if x.margin < 0 then 1 else 0)] ∧
    spells w5 [(0, 16, x.tag), (16, 16, x.labels)] := by
  refine ⟨_, _, rfl, ?_, ?_⟩
  · exact spells_word (by simp [sumFields, flag_prop, add_assoc]) (by simp [ascendingFields])
  · exact spells_word (by simp [sumFields]) (by simp [ascendingFields])

theorem State.addressableAtId_iff (s : State) (id : NodeId) (g : Nat) :
    s.addressableAtId id g = true ↔ ∃ x, s.nodeOf id = some x ∧ slotAddressable (s.profileOf x) g = true := by
  unfold State.addressableAtId
  cases s.nodeOf id <;> simp

/-- The second word of a hop entry; the flag of R69 is clear exactly when the slot is addressable at both ends. -/
theorem State.hopWords_spell (s : State) (regens : List NodeId) (h : Hop) (n : NodeId) (off : Bool)
    (hoff : off = false ↔ ∀ id, id = h.sender ∨ id = n →
      ∃ x, s.nodeOf id = some x ∧ slotAddressable (s.profileOf x) h.slot = true) :
    ∃ w, s.hopWords regens h n = [h.sender, w] ∧
      spells w [(0, 16, h.port), (16, 8, h.slot), (24, 1, if n ∈ regens then 1 else 0), (25, 1, off.toNat)] := by
  have hflag : off = !(s.addressableAtId h.sender h.slot && s.addressableAtId n h.slot) := by
    simp only [← State.addressableAtId_iff, forall_eq_or_imp, forall_eq, ← Bool.and_eq_true] at hoff
    rw [← Bool.not_inj_iff, Bool.not_not, Bool.eq_iff_iff, Bool.not_eq_true', hoff]
  refine ⟨_, rfl, spells_word ?_ (by simp [ascendingFields])⟩
  rw [← hflag, List.contains_eq_mem, flag_prop, flag_field]
  simp [sumFields, add_assoc]

theorem recordBody_spells (st : LpState) (o : Origin) (partner : Option Nat) (margin : Int) :
    ∃ w, recordBody st o partner margin = .words [w, signedWord margin] ∧
      spells w [(0, 8, st.code), (8, 1, if o = .adopted then 1 else 0), (16, 16, partner.getD 0xFFFF)] := by
  refine ⟨_, rfl, spells_word ?_ (by simp [ascendingFields])⟩
  rw [beq_eq_decide, flag_prop]
  simp [sumFields, add_assoc]

/-! ### The words of a path and of a body (R146, R189) -/

theorem withReceivers_length (hs : List Hop) (dest : NodeId) : (withReceivers hs dest).length = hs.length := by
  induction hs with
  | nil => rfl
  | cons h hs ih =>
    cases hs with
    | nil => rfl
    | cons g hs => exact congrArg (· + 1) ih

/-- The hop entries of a path, two words a hop. -/
theorem State.hopEntries_length (s : State) (r : Route) :
    (r.received.flatMap fun e => s.hopWords r.regens e.1 e.2).length = 2 * r.hops.length := by
  rw [List.length_flatMap]
  simp [State.hopWords, Route.received, withReceivers_length, mul_comm]

/-- Words cut off after n, with zeros behind them, are filled up with zeros. -/
theorem take_append_zeros (ws : List Word) (n : Nat) (h : ws.length ≤ n) :
    (ws ++ List.replicate n 0#32).take n = ws ++ List.replicate (n - ws.length) 0#32 := by
  rw [List.take_append, List.take_of_length_le h, List.take_replicate, min_eq_left (Nat.sub_le _ _)]

/-- The words of a path of at most 24 hops: its hop entries, and zeros to the end. -/
theorem State.routeWords_some (s : State) (r : Route) (h : r.hops.length ≤ 24) :
    s.routeWords (some r) =
      r.received.flatMap (fun e => s.hopWords r.regens e.1 e.2) ++ List.replicate (48 - 2 * r.hops.length) 0#32 := by
  have hlen := s.hopEntries_length r
  rw [← hlen]
  exact take_append_zeros _ 48 (hlen.trans_le (by omega))

theorem State.routeWords_length (s : State) (r : Option Route) : (s.routeWords r).length = 48 := by
  cases r with
  | none => exact List.length_replicate
  | some r => simp [State.routeWords]

theorem summaryWords_length (x : Summary) : (summaryWords x).length = 8 := rfl

/-! ### The words of a record with their addresses (R146) -/

theorem State.resultWords_values (s : State) (base : Nat) (a : Answer) :
    (s.resultWords base a).map (·.2) =
      headerWords a (s.bodyWords a.body).length ++ s.bodyWords a.body ++ [closingWord a] := by
  rw [State.resultWords, List.map_append, List.map_map]
  exact congrArg (· ++ [closingWord a]) (List.zipIdx_map_fst 0 _)

/-- The words of a list placed one after the other from an address on have ascending word addresses. -/
theorem zipIdx_addresses (base : Nat) (ws : List Word) :
    (ws.zipIdx.map fun e => base + 4 * e.2) = (List.range ws.length).map fun i => base + 4 * i := by
  rw [List.range_eq_range', ← List.zipIdx_map_snd 0 ws, List.map_map]
  rfl

theorem State.resultWords_addresses (s : State) (base : Nat) (a : Answer) :
    (s.resultWords base a).map (·.1) =
      (List.range (4 + (s.bodyWords a.body).length)).map (fun i => base + 4 * i) ++ [base + 508] := by
  have hlen : (headerWords a (s.bodyWords a.body).length ++ s.bodyWords a.body).length =
      4 + (s.bodyWords a.body).length := List.length_append
  rw [State.resultWords, List.map_append, List.map_map, ← hlen, ← zipIdx_addresses]
  rfl

/-- Settles O23: each word by the fields it is made of, the bodies by the words of their parts. -/
theorem resultRecordLayout : Obligations.ResultRecordLayout := by
  unfold Obligations.ResultRecordLayout
  refine ⟨fun s base a => ⟨s.resultWords_addresses base a, List.getLast?_concat, s.resultWords_values base a⟩, ?_,
    summaryWords_spell, fun s => s.hopWords_spell, ?_, recordBody_spells, rfl, rfl⟩
  · intro a n negative hneg
    have hflag : negative = a.body.marginNegative :=
      Bool.eq_iff_iff.mpr (hneg.trans a.body.marginNegative_iff.symm)
    rw [hflag]
    exact ⟨headerWords_spell a n, closingWord_spells a⟩
  · intro s
    refine ⟨rfl, fun ws => rfl, rfl, s.routeWords_some, fun x r => ⟨rfl, ?_⟩, fun x1 r1 x2 r2 => ⟨?_, rfl⟩⟩ <;>
    simp only [State.bodyWords, List.length_append, summaryWords_length, State.routeWords_length]

end Sys2Proof.Machine
end

