-- ==== Sys2Proof/Proofs/SearchTurns.lean ====
section
/-! SUPPORT. The turns of a search step (R81 to R87): the label it closes, the candidate of each turn, and the labels
that the turns place after those stored before. -/

namespace Sys2Proof.Machine

/-! ### The label that a step closes (R81) -/

/-- A step closes no label exactly when none is OPEN. -/
theorem firstOpen_eq_none (ls : List Label) : firstOpen ls = none ↔ ∀ l ∈ ls, l.closed = true := by
  obtain ⟨hnone, hsome⟩ := firstOpen_spec ls
  refine ⟨hnone, fun h => ?_⟩
  cases hf : firstOpen ls with
  | none => rfl
  | some e =>
    obtain ⟨hget, hopen, _⟩ := hsome e.1 e.2 hf
    rw [h _ (List.mem_of_getElem? hget)] at hopen
    cases hopen

/-- The label that a step closes is the one that comes first in the order of R81. -/
theorem firstOpen_eq_some (ls : List Label) (i : Nat) (x : Label) : firstOpen ls = some (i, x) ↔ closesNext ls i x := by
  obtain ⟨hnone, hsome⟩ := firstOpen_spec ls
  simp only [← Bool.not_eq_true, Label.before_iff] at hsome
  refine ⟨fun h => ?_, fun h => ?_⟩
  · obtain ⟨hget, hopen, hfirst⟩ := hsome i x h
    refine ⟨hget, by simpa using hopen, fun j y hj hy => ?_⟩
    have := hfirst j y hj (by simp [hy])
    omega
  · cases hf : firstOpen ls with
    | none => exact absurd (hnone hf x (List.mem_of_getElem? h.stored)) (by simp [h.isOpen])
    | some e =>
      obtain ⟨k, y⟩ := e
      obtain ⟨hget, hopen, hfirst⟩ := hsome k y hf
      have hy := h.first k y hget (by simpa using hopen)
      have hx := hfirst i x h.stored (by simp [h.isOpen])
      obtain rfl : k = i := by omega
      rw [h.stored] at hget
      cases hget
      rfl

/-- SEARCH_STEP with no label OPEN ends the phase (R81). -/
theorem exec_searchStep_ends (s : State) (e : EngineId) (ctx : Context) (ls : List Label) (hr : s.running = true)
    (he : s.engine e = .searching ctx ls) (h : ∀ l ∈ ls, l.closed = true) :
    exec (.searchStep e) s = .next (s.endPhase e ctx .noPath ls.length) := by
  simp only [exec, execSearchStep, hr, he, (firstOpen_eq_none ls).mpr h, if_true]

/-- SEARCH_STEP closes the label that comes first (R81). -/
theorem exec_searchStep_closes (s : State) (e : EngineId) (ctx : Context) (ls : List Label) (i : Nat) (x : Label)
    (hr : s.running = true) (he : s.engine e = .searching ctx ls) (h : closesNext ls i x) :
    exec (.searchStep e) s = .next (s.closeLabel e ctx ls i x) := by
  simp only [exec, execSearchStep, hr, he, (firstOpen_eq_some ls i x).mpr h, if_true]

/-! ### The candidate of each turn (R83, R84, R86) -/

theorem opposite_opposite (d : Dir) : opposite (opposite d) = d := by cases d <;> rfl

/-- A turn of a search step: its candidate, if it has one, is placed (R85, R87). -/
def Growth.turn (g : Growth) (c : Option Label) : Growth :=
  match c with
  | none => g
  | some y => g.place y

/-- The candidate over an entry of the port table (R83, R84). -/
def State.crossed (s : State) (ctx : Context) (n : Node) (path : List NodeId) (x : Label) (i : Nat)
    (e : Nat × PortRef) : Option Label :=
  match e.2 with
  | .claim => none
  | .linkEnd k side =>
    match s.linkAt k with
    | none => none
    | some l =>
      if s.mayExtend ctx path x k (opposite side) l (s.idAt (l.endAt (opposite side)).node) then
        s.extension ctx n x i e.1 k (opposite side) (s.idAt (l.endAt (opposite side)).node)
      else none

/-- The regeneration label, if R86 considers one. -/
def regenerated (ctx : Context) (n : Node) (x : Label) (i : Nat) : Option Label :=
  if mayRegenerate ctx n x then some (regenerationLabel ctx n x i) else none

/-- The candidates of the turns of a search step that closed label x, of index i at node n: the port table in its order,
then the regeneration label (R83, R86). -/
def State.turns (s : State) (ctx : Context) (closed : List Label) (i : Nat) (x : Label) (n : Node) :
    List (Option Label) :=
  n.ports.map (s.crossed ctx n ((chainOf closed i).map (·.node)) x i) ++ [regenerated ctx n x i]

theorem State.extendPort_eq (s : State) (ctx : Context) (n : Node) (path : List NodeId) (x : Label) (i : Nat)
    (g : Growth) (e : Nat × PortRef) :
    s.extendPort ctx n path x i g e = g.turn (s.crossed ctx n path x i e) := by
  obtain ⟨port, ref⟩ := e
  cases ref with
  | claim => rfl
  | linkEnd k side =>
    simp only [State.extendPort, State.crossed]
    cases s.linkAt k with
    | none => rfl
    | some l =>
      simp only
      split
      · rfl
      · rfl

/-- What a closed label gives rise to is what its turns place (R83 to R87). -/
theorem State.extendLabel_eq (s : State) (ctx : Context) (closed : List Label) (i : Nat) (x : Label) (n : Node)
    (hn : s.nodeOf x.node = some n) :
    s.extendLabel ctx closed i x =
      (s.turns ctx closed i x n).foldl Growth.turn { labels := closed, exhausted := false } := by
  simp only [State.extendLabel, hn, State.turns, List.foldl_append, List.foldl_map, State.extendPort_eq,
    List.foldl_cons, List.foldl_nil, Growth.regenerate, regenerated]
  split
  · rfl
  · rfl

/-- The tests of R83. -/
theorem State.mayExtend_iff (s : State) (ctx : Context) (path : List NodeId) (x : Label) (k : Nat) (d : Dir) (l : Link)
    (far : NodeId) :
    s.mayExtend ctx path x k d l far = true ↔
      s.inService k d = true ∧ far ∉ path ∧ excludedBy ctx.excludedNodes far = false ∧
      (∀ id ∈ l.risks, excludedBy ctx.excludedRisks id = false) ∧ s.primaryLink ctx k = false ∧
      x.hops + 1 ≤ ctx.req.hopLimit := by
  simp [State.mayExtend, and_assoc]

/-- The candidate over a direction that leaves node n (R84). -/
theorem State.extension_eq_some (s : State) (ctx : Context) (n : Node) (x : Label) (i port k : Nat) (d : Dir)
    (far : NodeId) (y : Label) :
    s.extension ctx n x i port k d far = some y ↔
      y.node = far ∧ y.mask = x.mask &&& (s.usable k d &&& ~~~ s.primaryHolds ctx k d) ∧ y.mask ≠ 0#80 ∧
      y.noise = satAdd (satAdd x.noise (if n.id = ctx.req.source ∨ x.regenHere then 0 else n.expressNoise))
        (s.noiseOf k d) ∧ y.noise ≤ ctx.budget ∧ y.cost = satAdd x.cost (s.costOf k d) ∧ y.hops = x.hops + 1 ∧
      y.regens = x.regens ∧ y.parent = some i ∧
      y.arrival = some { link := k, dir := d, sender := n.id, port := port } ∧ y.regenHere = false ∧
      y.closed = false := by
  unfold State.extension
  generalize (if n.id = ctx.req.source ∨ x.regenHere then 0 else n.expressNoise) = express
  simp only
  split
  · rename_i hno
    simp only [reduceCtorEq, false_iff]
    rintro ⟨_, hmask, hne, hnoise, hle, _⟩
    rcases hno with h | h
    · exact hne (hmask.trans h)
    · omega
  · rename_i hno
    obtain ⟨hmask, hnoise⟩ := not_or.mp hno
    rw [Option.some_inj]
    constructor
    · rintro rfl
      exact ⟨rfl, rfl, hmask, rfl, Nat.not_lt.mp hnoise, rfl, rfl, rfl, rfl, rfl, rfl, rfl⟩
    · obtain ⟨node, mask, cost, noise, hops, regens, parent, arrival, regenHere, closed⟩ := y
      rintro ⟨rfl, rfl, -, rfl, -, rfl, rfl, rfl, rfl, rfl, rfl, rfl⟩
      rfl

/-- The candidate over entry m of the port table is the crossing of R83 and R84. -/
theorem State.crossing_iff (s : State) (ctx : Context) (path : List NodeId) (i : Nat) (x : Label) (n : Node) (m : Nat)
    (y : Label) :
    (∃ port k d l, s.crossing ctx path i x n m port k d l y) ↔
      ∃ e, n.ports[m]? = some e ∧ s.crossed ctx n path x i e = some y := by
  constructor
  · rintro ⟨port, k, d, l, h⟩
    refine ⟨_, h.entry, ?_⟩
    have hmay : s.mayExtend ctx path x k d l (s.idAt (l.endAt d).node) = true := by
      rw [State.mayExtend_iff, ← h.far, ← h.hops]
      exact ⟨h.service, h.path, h.nodes, h.risks, h.primary, h.hopLimit⟩
    simp only [State.crossed, opposite_opposite, h.link, hmay, if_true, State.extension_eq_some]
    exact ⟨h.far, h.mask, h.nonempty, h.noise, h.budget, h.cost, h.hops, h.regens, h.parent, h.arrival, h.regenHere,
      h.isOpen⟩
  · rintro ⟨⟨port, ref⟩, hentry, hcrossed⟩
    unfold State.crossed at hcrossed
    split at hcrossed
    · cases hcrossed
    · rename_i k side hside
      simp only at hside
      subst hside
      split at hcrossed
      · cases hcrossed
      · rename_i l hl
        split at hcrossed
        · rename_i hmay
          obtain ⟨hnode, hmask, hne, hnoise, hbudget, hcost, hhops, hregens, hparent, harrival, hhere, hopen⟩ :=
            (s.extension_eq_some ctx n x i port k (opposite side) _ y).mp hcrossed
          rw [← hnode] at hmay
          obtain ⟨hservice, hpath, hnodes, hrisks, hprimary, hlimit⟩ := (s.mayExtend_iff ..).mp hmay
          exact ⟨port, k, opposite side, l,
            { entry := by rw [opposite_opposite]; exact hentry
              link := hl, service := hservice, far := hnode, path := hpath, nodes := hnodes
              risks := hrisks, primary := hprimary, hopLimit := by rw [hhops]; exact hlimit
              mask := hmask, nonempty := hne, noise := hnoise, budget := hbudget, cost := hcost, hops := hhops
              regens := hregens, parent := hparent, arrival := harrival, regenHere := hhere, isOpen := hopen }⟩
        · cases hcrossed

theorem regenerating_iff (ctx : Context) (i : Nat) (x : Label) (n : Node) (y : Label) :
    regenerating ctx i x n y ↔ regenerated ctx n x i = some y := by
  have hmay : mayRegenerate ctx n x = true ↔ n.id ≠ ctx.req.source ∧ n.id ≠ ctx.req.dest ∧ x.regenHere = false ∧
      x.regens < ctx.req.regenMax ∧ n.regenInUse + ctx.primaryRegens n.id < n.regenTotal ∧
      satAdd x.noise n.dropNoise ≤ ctx.budget := by
    simp [mayRegenerate, and_assoc]
  unfold regenerated
  constructor
  · intro h
    rw [if_pos (hmay.mpr ⟨h.source, h.destination, h.once, h.allowed, h.free, h.budget⟩), Option.some_inj]
    obtain ⟨node, mask, cost, noise, hops, regens, parent, arrival, regenHere, closed⟩ := y
    obtain ⟨-, -, -, -, -, -, rfl, rfl, rfl, rfl, rfl, rfl, rfl, rfl, rfl, rfl⟩ := h
    rfl
  · intro h
    split at h
    · rename_i hm
      obtain ⟨hsource, hdest, honce, hallowed, hfree, hbudget⟩ := hmay.mp hm
      cases h
      exact ⟨hsource, hdest, honce, hallowed, hfree, hbudget, rfl, rfl, rfl, rfl, rfl, rfl, rfl, rfl, rfl, rfl⟩
    · cases h

/-- The candidate of turn m, as the statements say it. -/
theorem State.candidate_iff (s : State) (ctx : Context) (closed : List Label) (i : Nat) (x : Label) (n : Node) (m : Nat)
    (y : Label) : s.candidate ctx closed i x n m y ↔ (s.turns ctx closed i x n)[m]? = some (some y) := by
  unfold State.candidate State.turns
  rw [State.crossing_iff, regenerating_iff]
  rcases Nat.lt_trichotomy m n.ports.length with hm | hm | hm
  · rw [List.getElem?_append_left (by simpa using hm), List.getElem?_map, Option.map_eq_some_iff]
    simp [Nat.ne_of_lt hm]
  · subst hm
    simp
  · rw [List.getElem?_eq_none (Nat.le_of_lt hm), List.getElem?_eq_none (by
      rw [List.length_append, List.length_map, List.length_singleton]; omega)]
    simp only [reduceCtorEq, false_and, exists_false, false_or, iff_false]
    omega

/-! ### What the turns place (R85, R87) -/

theorem Label.dominates_iff (z y : Label) : z.dominates y = true ↔ z.noWorse y := by
  simp only [Label.dominates, slotSubset, Bool.and_eq_true, beq_iff_eq, decide_eq_true_eq]
  constructor
  · rintro ⟨⟨⟨⟨⟨hnode, hcost⟩, hnoise⟩, hhops⟩, hregens⟩, hmask⟩
    exact ⟨hnode, hcost, hnoise, hhops, hregens, hmask⟩
  · exact fun h => ⟨⟨⟨⟨⟨h.node, h.cost⟩, h.noise⟩, h.hops⟩, h.regens⟩, h.mask⟩

/-- A store has no label that makes a candidate superfluous. -/
theorem any_dominates_iff (ls : List Label) (y : Label) :
    ls.any (fun z => z.dominates y) = false ↔ ∀ z ∈ ls, ¬ z.noWorse y := by
  simp only [List.any_eq_false, Label.dominates_iff]

/-- A label was stored before turn m: before the step, or in an earlier turn. -/
def storedBefore (base : List Label) (more : List (Nat × Label)) (m : Nat) (z : Label) : Prop :=
  z ∈ base ∨ ∃ j, j < m ∧ (j, z) ∈ more

/-- g is what the turns below stop make of the store base, more being the labels that they place with their turns: all
the turns, or those before a candidate that finds the store full. -/
structure grownBy (cands : List (Option Label)) (base : List Label) (g : Growth) (stop : Nat)
    (more : List (Nat × Label)) : Prop where
  labels : g.labels = base ++ more.map (·.2)
  made : ∀ e ∈ more, e.1 < stop ∧ cands[e.1]? = some (some e.2)
  order : more.Pairwise fun a b => a.1 < b.1
  fresh : ∀ e ∈ more, ∀ z, storedBefore base more e.1 z → ¬ z.noWorse e.2
  complete : ∀ m y, m < stop → cands[m]? = some (some y) →
    (m, y) ∈ more ∨ ∃ z, storedBefore base more m z ∧ z.noWorse y
  room : more = [] ∨ g.labels.length ≤ labelCapacity
  ended : stop = cands.length ∧ g.exhausted = false ∨ stop < cands.length ∧ g.exhausted = true ∧
    labelCapacity ≤ g.labels.length ∧ ∃ y, cands[stop]? = some (some y) ∧ ∀ z ∈ g.labels, ¬ z.noWorse y

namespace grownBy

variable {cands : List (Option Label)} {base : List Label} {g : Growth} {stop : Nat} {more : List (Nat × Label)}

theorem start (base : List Label) : grownBy [] base { labels := base, exhausted := false } 0 [] where
  labels := by simp
  made := by simp
  order := .nil
  fresh := by simp
  complete := by simp
  room := .inl rfl
  ended := .inl ⟨rfl, rfl⟩

theorem stop_le (h : grownBy cands base g stop more) : stop ≤ cands.length := by
  rcases h.ended with ⟨h, _⟩ | ⟨h, _⟩ <;> omega

/-- The labels stored before a turn that comes after all those made are the store's. -/
theorem storedBefore_iff (h : grownBy cands base g stop more) {m : Nat} (hm : stop ≤ m) (z : Label) :
    storedBefore base more m z ↔ z ∈ g.labels := by
  rw [h.labels, List.mem_append, List.mem_map]
  constructor
  · rintro (hz | ⟨j, _, hj⟩)
    · exact .inl hz
    · exact .inr ⟨_, hj, rfl⟩
  · rintro (hz | ⟨e, he, rfl⟩)
    · exact .inl hz
    · exact .inr ⟨e.1, Nat.lt_of_lt_of_le (h.made e he).1 hm, he⟩

theorem getElem?_snoc (h : grownBy cands base g stop more) (c : Option Label) {m : Nat} (hm : m < stop) :
    (cands ++ [c])[m]? = cands[m]? :=
  List.getElem?_append_left (Nat.lt_of_lt_of_le hm h.stop_le)

/-- After exhaustion the rest of the turns is not carried out (R87). -/
theorem skip (h : grownBy cands base g stop more) (he : g.exhausted = true) (c : Option Label) :
    grownBy (cands ++ [c]) base (g.turn c) stop more := by
  have hturn : g.turn c = g := by
    cases c with
    | none => rfl
    | some y => simp [Growth.turn, Growth.place, he]
  rw [hturn]
  refine ⟨h.labels, fun e hmem => ?_, h.order, h.fresh, fun m y hm hc => ?_, h.room, ?_⟩
  · obtain ⟨hlt, hc⟩ := h.made e hmem
    exact ⟨hlt, by rw [h.getElem?_snoc c hlt]; exact hc⟩
  · rw [h.getElem?_snoc c hm] at hc
    exact h.complete m y hm hc
  · rcases h.ended with ⟨_, hno⟩ | ⟨hlt, _, hfull, y, hy, hz⟩
    · rw [he] at hno
      cases hno
    · exact .inr ⟨by simp; omega, he, hfull, y, by rw [List.getElem?_append_left hlt]; exact hy, hz⟩

/-- A turn without a candidate, or with one that a stored label makes superfluous, places nothing (R85). -/
theorem pass (h : grownBy cands base g cands.length more) (he : g.exhausted = false) (c : Option Label)
    (hc : ∀ y, c = some y → ∃ z ∈ g.labels, z.noWorse y) :
    grownBy (cands ++ [c]) base (g.turn c) (cands.length + 1) more := by
  have hturn : g.turn c = g := by
    cases c with
    | none => rfl
    | some y =>
      obtain ⟨z, hz, hzy⟩ := hc y rfl
      have hany : g.labels.any (fun a => a.dominates y) = true :=
        List.any_eq_true.mpr ⟨z, hz, (z.dominates_iff y).mpr hzy⟩
      simp [Growth.turn, Growth.place, hany]
  rw [hturn]
  refine ⟨h.labels, fun e hmem => ?_, h.order, h.fresh, fun m y hm hy => ?_, h.room, .inl ⟨by simp, he⟩⟩
  · obtain ⟨hlt, hc⟩ := h.made e hmem
    exact ⟨by omega, by rw [h.getElem?_snoc c hlt]; exact hc⟩
  · rcases Nat.lt_or_ge m cands.length with hlt | hge
    · rw [h.getElem?_snoc c hlt] at hy
      exact h.complete m y hlt hy
    · obtain rfl : m = cands.length := by omega
      rw [List.getElem?_concat_length, Option.some_inj] at hy
      obtain ⟨z, hz, hzy⟩ := hc y hy
      exact .inr ⟨z, (h.storedBefore_iff (Nat.le_refl _) z).mpr hz, hzy⟩

/-- A candidate that must be placed and finds the store full ends the step (R87). -/
theorem exhaust (h : grownBy cands base g cands.length more) (he : g.exhausted = false) (y : Label)
    (hy : ∀ z ∈ g.labels, ¬ z.noWorse y) (hfull : labelCapacity ≤ g.labels.length) :
    grownBy (cands ++ [some y]) base (g.turn (some y)) cands.length more := by
  have hturn : g.turn (some y) = { g with exhausted := true } := by
    simp [Growth.turn, Growth.place, he, (any_dominates_iff _ _).mpr hy, hfull]
  rw [hturn]
  refine ⟨h.labels, fun e hmem => ?_, h.order, h.fresh, fun m y hm hc => ?_, h.room,
    .inr ⟨by simp, rfl, hfull, y, by simp, hy⟩⟩
  · obtain ⟨hlt, hc⟩ := h.made e hmem
    exact ⟨hlt, by rw [h.getElem?_snoc _ hlt]; exact hc⟩
  · rw [h.getElem?_snoc _ hm] at hc
    exact h.complete m y hm hc

/-- A candidate that survives the test of R85 is placed at the end of the store (R87). -/
theorem place (h : grownBy cands base g cands.length more) (he : g.exhausted = false) (y : Label)
    (hy : ∀ z ∈ g.labels, ¬ z.noWorse y) (hroom : g.labels.length < labelCapacity) :
    grownBy (cands ++ [some y]) base (g.turn (some y)) (cands.length + 1) (more ++ [(cands.length, y)]) := by
  have hturn : g.turn (some y) = { g with labels := g.labels ++ [y] } := by
    simp [Growth.turn, Growth.place, he, (any_dominates_iff _ _).mpr hy, Nat.not_le.mpr hroom]
  have hbefore : ∀ m z, m ≤ cands.length →
      (storedBefore base (more ++ [(cands.length, y)]) m z ↔ storedBefore base more m z) := by
    intro m z hm
    unfold storedBefore
    refine or_congr Iff.rfl (exists_congr fun j => and_congr_right fun hj => ?_)
    have : j ≠ cands.length := by omega
    simp [this]
  rw [hturn]
  refine ⟨by simp [h.labels], fun e hmem => ?_, ?_, fun e hmem z hz => ?_, fun m v hm hv => ?_, .inr (by simp; omega),
    .inl ⟨by simp, he⟩⟩
  · rcases List.mem_append.mp hmem with hold | hnew
    · obtain ⟨hlt, hc⟩ := h.made e hold
      exact ⟨by omega, by rw [h.getElem?_snoc _ hlt]; exact hc⟩
    · obtain rfl := List.mem_singleton.mp hnew
      exact ⟨Nat.lt_succ_self _, by simp⟩
  · rw [List.pairwise_append]
    refine ⟨h.order, List.pairwise_singleton _ _, fun a ha b hb => ?_⟩
    obtain rfl := List.mem_singleton.mp hb
    exact (h.made a ha).1
  · rcases List.mem_append.mp hmem with hold | hnew
    · exact h.fresh e hold z ((hbefore e.1 z (Nat.le_of_lt (h.made e hold).1)).mp hz)
    · obtain rfl := List.mem_singleton.mp hnew
      exact hy z ((h.storedBefore_iff (Nat.le_refl _) z).mp ((hbefore _ z (Nat.le_refl _)).mp hz))
  · rcases Nat.lt_or_ge m cands.length with hlt | hge
    · rw [h.getElem?_snoc _ hlt] at hv
      refine (h.complete m v hlt hv).imp (List.mem_append_left _) fun ⟨z, hz, hzv⟩ => ⟨z, ?_, hzv⟩
      exact (hbefore m z (Nat.le_of_lt hlt)).mpr hz
    · obtain rfl : m = cands.length := by omega
      rw [List.getElem?_concat_length, Option.some_inj, Option.some_inj] at hv
      exact .inl (by simp [hv])

/-- One more turn. -/
theorem turn (h : grownBy cands base g stop more) (c : Option Label) :
    ∃ stop' more', grownBy (cands ++ [c]) base (g.turn c) stop' more' := by
  rcases h.ended with ⟨rfl, he⟩ | ⟨_, he, _⟩
  · by_cases hc : ∀ y, c = some y → ∃ z ∈ g.labels, z.noWorse y
    · exact ⟨_, _, h.pass he c hc⟩
    · push Not at hc
      obtain ⟨y, rfl, hy⟩ := hc
      rcases Nat.lt_or_ge g.labels.length labelCapacity with hroom | hfull
      · exact ⟨_, _, h.place he y hy hroom⟩
      · exact ⟨_, _, h.exhaust he y hy hfull⟩
  · exact ⟨_, _, h.skip he c⟩

end grownBy

/-- What the turns of a step make of the store. -/
theorem exists_grownBy (base : List Label) (cands : List (Option Label)) :
    ∃ stop more, grownBy cands base (cands.foldl Growth.turn { labels := base, exhausted := false }) stop more := by
  induction cands using List.reverseRecOn with
  | nil => exact ⟨0, [], grownBy.start base⟩
  | append_singleton cands c ih =>
    obtain ⟨stop, more, h⟩ := ih
    rw [List.foldl_append]
    exact h.turn c

end Sys2Proof.Machine
end

