-- ==== Sys2Proof/Proofs/LabelStores.lean ====
section
/-! SUPPORT. Label stores in the order of R88: what a search step makes of one, the closing of a label and the labels
that it gives rise to keep the order, the bounds and the paths (R79, R87, R88). -/

namespace Sys2Proof.Machine

/-! ### Ordered stores (R79, R87, R88) -/

/-- A label store is in the order of R88 and within its bounds, and every label has its path (R79, R87). -/
structure storeOrdered (ls : List Label) : Prop where
  order : closedBeforeOpen ls
  costs : ∀ l ∈ ls, l.cost ≤ sumLimit
  bound : ls.length ≤ labelCapacity
  traced : ∀ i x, ls[i]? = some x → ∃ path, pathTo ls i path

/-- The invariant is that of each label store on its own. -/
theorem State.searchOrdered_iff (s : State) : s.searchOrdered ↔ ∀ e, storeOrdered (s.engine e).labels :=
  ⟨fun h e => ⟨h.order e, h.costs e, h.bound e, h.traced e⟩,
    fun h => ⟨fun e => (h e).order, fun e => (h e).costs, fun e => (h e).bound, fun e => (h e).traced⟩⟩

theorem storeOrdered_nil : storeOrdered [] where
  order := by simp [closedBeforeOpen]
  costs := by simp
  bound := Nat.zero_le _
  traced := by simp

/-- The store in which an attempt begins (R80). -/
theorem storeOrdered_start (s : State) (req : FindReq) : storeOrdered [s.startLabel req] where
  order := by simp [closedBeforeOpen]
  costs := by simp [State.startLabel]
  bound := by simp [labelCapacity]
  traced := by
    intro i x hx
    have hstart : x = s.startLabel req := List.mem_singleton.mp (List.mem_of_getElem? hx)
    exact ⟨[x], .start i x hx (by rw [hstart]; rfl) (by rw [hstart]; rfl) (by rw [hstart]; rfl) (by rw [hstart]; rfl)
      (by rw [hstart]; rfl)⟩

/-! ### Paths in a store that changes (R79) -/

/-- A path stays where labels are added to the store. -/
theorem pathTo.append {ls : List Label} {i : Nat} {path : List Label} (h : pathTo ls i path) (more : List Label) :
    pathTo (ls ++ more) i path := by
  have hget : ∀ {j : Nat} {y : Label}, ls[j]? = some y → (ls ++ more)[j]? = some y := fun hj => by
    rw [List.getElem?_append_left (List.getElem?_eq_some_iff.mp hj).1, hj]
  induction h with
  | start i x hx hparent harrival hhere hhops hregens =>
    exact .start i x (hget hx) hparent harrival hhere hhops hregens
  | hop i j x y a c hx hparent hlt hy _ harrival hsender hhere hhops hregens ih =>
    exact .hop i j x y a c (hget hx) hparent hlt (hget hy) ih harrival hsender hhere hhops hregens
  | regeneration i j x y c hx hparent hlt hy _ harrival hnode hhere hhops hregens ih =>
    exact .regeneration i j x y c (hget hx) hparent hlt (hget hy) ih harrival hnode hhere hhops hregens

/-- A label once the label at index i is CLOSED: at that index CLOSED, elsewhere as it was. -/
theorem getElem?_set_closed {ls : List Label} {i j : Nat} {x y : Label} (hx : ls[i]? = some x) (hy : ls[j]? = some y) :
    (ls.set i { x with closed := true })[j]? = some { y with closed := y.closed || decide (i = j) } := by
  by_cases hij : i = j
  · subst hij
    rw [hx] at hy
    cases hy
    simp [(List.getElem?_eq_some_iff.mp hx).1]
  · rw [List.getElem?_set_ne hij, hy]
    simp [hij]

/-- Each label keeps a path where a label is closed. -/
theorem pathTo.close {ls : List Label} {i j : Nat} {x : Label} {path : List Label} (hx : ls[i]? = some x)
    (h : pathTo ls j path) : ∃ path', pathTo (ls.set i { x with closed := true }) j path' := by
  induction h with
  | start j y hy hparent harrival hhere hhops hregens =>
    exact ⟨_, .start j _ (getElem?_set_closed hx hy) hparent harrival hhere hhops hregens⟩
  | hop j k y z a c hy hparent hlt hz _ harrival hsender hhere hhops hregens ih =>
    obtain ⟨c', hc⟩ := ih
    exact ⟨_, .hop j k _ _ a c' (getElem?_set_closed hx hy) hparent hlt (getElem?_set_closed hx hz) hc harrival hsender
      hhere hhops hregens⟩
  | regeneration j k y z c hy hparent hlt hz _ harrival hnode hhere hhops hregens ih =>
    obtain ⟨c', hc⟩ := ih
    exact ⟨_, .regeneration j k _ _ c' (getElem?_set_closed hx hy) hparent hlt (getElem?_set_closed hx hz) hc harrival
      hnode hhere hhops hregens⟩

/-! ### Closing a label (R81, R88) -/

/-- The store with the label at an index CLOSED is ordered about that label: the CLOSED ones cost no more, the OPEN ones
no less. -/
structure closedAt (closed : List Label) (i : Nat) (x : Label) : Prop where
  stored : closed[i]? = some { x with closed := true }
  before : ∀ a ∈ closed, a.closed = true → a.cost ≤ x.cost
  after : ∀ b ∈ closed, b.closed = false → x.cost ≤ b.cost

theorem storeOrdered.closes {ls : List Label} {i : Nat} {x : Label} (h : storeOrdered ls) (hx : closesNext ls i x) :
    closedAt (ls.set i { x with closed := true }) i x := by
  have hmem : x ∈ ls := List.mem_of_getElem? hx.stored
  refine ⟨?_, fun a ha hclosed => ?_, fun b hb hopen => ?_⟩
  · rw [getElem?_set_closed hx.stored hx.stored]
    simp
  · rcases List.mem_or_eq_of_mem_set ha with ha | rfl
    · exact h.order a ha x hmem hclosed hx.isOpen
    · exact Nat.le_refl _
  · rcases List.mem_or_eq_of_mem_set hb with hb | rfl
    · obtain ⟨j, hj⟩ := List.getElem?_of_mem hb
      have := hx.first j b hj hopen
      omega
    · cases hopen

theorem storeOrdered.close {ls : List Label} {i : Nat} {x : Label} (h : storeOrdered ls) (hx : closesNext ls i x) :
    storeOrdered (ls.set i { x with closed := true }) := by
  have hat := h.closes hx
  refine ⟨fun a ha b hb hclosed hopen => Nat.le_trans (hat.before a ha hclosed) (hat.after b hb hopen),
    fun l hl => ?_, by rw [List.length_set]; exact h.bound, fun j y hj => ?_⟩
  · rcases List.mem_or_eq_of_mem_set hl with hl | rfl
    · exact h.costs l hl
    · exact h.costs x (List.mem_of_getElem? hx.stored)
  · have hlt : j < ls.length := by
      have := (List.getElem?_eq_some_iff.mp hj).1
      rwa [List.length_set] at this
    obtain ⟨path, hpath⟩ := h.traced j _ (List.getElem?_eq_getElem hlt)
    exact hpath.close hx.stored

/-! ### The labels that a closed label gives rise to (R83 to R88) -/

/-- c is an OPEN label made from label x, of index i: over a hop from the node of x, or by regeneration at it; it costs
no less (R84, R86, R88). -/
structure madeFrom (i : Nat) (x c : Label) : Prop where
  isOpen : c.closed = false
  parent : c.parent = some i
  atLeast : x.cost ≤ c.cost
  atMost : c.cost ≤ sumLimit
  step : (∃ a, c.arrival = some a ∧ a.sender = x.node ∧ c.regenHere = false ∧ c.hops = x.hops + 1 ∧
      c.regens = x.regens) ∨
    c.arrival = none ∧ c.node = x.node ∧ c.regenHere = true ∧ c.hops = x.hops ∧ c.regens = x.regens + 1

theorem le_satAdd {a : Nat} (ha : a ≤ sumLimit) (b : Nat) : a ≤ satAdd a b := by
  unfold satAdd
  omega

/-- Each candidate of a step is made from the label that it closes. -/
theorem State.candidate_madeFrom {s : State} {ctx : Context} {closed : List Label} {i m : Nat} {x y : Label} {n : Node}
    (hn : n.id = x.node) (hx : x.cost ≤ sumLimit) (h : s.candidate ctx closed i x n m y) : madeFrom i x y := by
  rcases h with ⟨port, k, d, l, h⟩ | ⟨_, h⟩
  · have hcost : y.cost = satAdd x.cost (s.costOf k d) := h.cost
    exact ⟨h.isOpen, h.parent, by rw [hcost]; exact le_satAdd hx _, by rw [hcost]; exact satAdd_le _ _,
      .inl ⟨_, h.arrival, hn, h.regenHere, h.hops, h.regens⟩⟩
  · have hcost : y.cost = satAdd x.cost n.regenCost := h.cost
    exact ⟨h.isOpen, h.parent, by rw [hcost]; exact le_satAdd hx _, by rw [hcost]; exact satAdd_le _ _,
      .inr ⟨h.arrival, h.node.trans hn, h.regenHere, h.hops, h.regens⟩⟩

/-- A label made from a stored one has its path. -/
theorem madeFrom.path {ls : List Label} {i j : Nat} {x c : Label} {path : List Label} (h : madeFrom i x c)
    (hx : ls[i]? = some { x with closed := true }) (hpath : pathTo ls i path) (hc : ls[j]? = some c) (hij : i < j) :
    pathTo ls j (path ++ [c]) := by
  rcases h.step with ⟨a, harrival, hsender, hhere, hhops, hregens⟩ | ⟨harrival, hnode, hhere, hhops, hregens⟩
  · exact .hop j i c _ a path hc h.parent hij hx hpath harrival hsender hhere hhops hregens
  · exact .regeneration j i c _ path hc h.parent hij hx hpath harrival hnode hhere hhops hregens

/-- The labels made from the label just closed keep the order of R88. -/
theorem storeOrdered.grow {closed more : List Label} {i : Nat} {x : Label} (h : storeOrdered closed)
    (hat : closedAt closed i x) (hmore : ∀ c ∈ more, madeFrom i x c)
    (hbound : (closed ++ more).length ≤ labelCapacity) : storeOrdered (closed ++ more) := by
  refine ⟨fun a ha b hb hclosed hopen => ?_, fun l hl => ?_, hbound, fun j y hj => ?_⟩
  · have hcost : a.cost ≤ x.cost := by
      rcases List.mem_append.mp ha with ha | ha
      · exact hat.before a ha hclosed
      · rw [(hmore a ha).isOpen] at hclosed
        cases hclosed
    rcases List.mem_append.mp hb with hb | hb
    · exact Nat.le_trans hcost (hat.after b hb hopen)
    · exact Nat.le_trans hcost (hmore b hb).atLeast
  · rcases List.mem_append.mp hl with hl | hl
    · exact h.costs l hl
    · exact (hmore l hl).atMost
  · have hi : i < closed.length := (List.getElem?_eq_some_iff.mp hat.stored).1
    rcases Nat.lt_or_ge j closed.length with hlt | hge
    · obtain ⟨path, hpath⟩ := h.traced j _ (List.getElem?_eq_getElem hlt)
      exact ⟨path, hpath.append more⟩
    · obtain ⟨path, hpath⟩ := h.traced i _ hat.stored
      have hmem : y ∈ more := by
        rw [List.getElem?_append_right hge] at hj
        exact List.mem_of_getElem? hj
      exact ⟨_, (hmore y hmem).path (by rw [List.getElem?_append_left hi]; exact hat.stored) (hpath.append more) hj
        (Nat.lt_of_lt_of_le hi hge)⟩

/-- The node record that a node id gives has the id. -/
theorem State.nodeOf_id {s : State} {id : NodeId} {n : Node} (h : s.nodeOf id = some n) : n.id = id := by
  unfold State.nodeOf State.nodeEntry at h
  obtain ⟨e, he, rfl⟩ := Option.map_eq_some_iff.mp h
  simpa using List.find?_some he

/-- What a search step that closes a label makes of the store (R81 to R88). -/
theorem State.extendLabel_ordered (s : State) (ctx : Context) {ls : List Label} {i : Nat} {x : Label}
    (h : storeOrdered ls) (hx : closesNext ls i x) :
    storeOrdered (s.extendLabel ctx (ls.set i { x with closed := true }) i x).labels := by
  have hclosed := h.close hx
  cases hn : s.nodeOf x.node with
  | none =>
    simp only [State.extendLabel, hn]
    exact hclosed
  | some n =>
    rw [s.extendLabel_eq ctx _ i x n hn]
    obtain ⟨stop, more, hg⟩ := exists_grownBy (ls.set i { x with closed := true })
      (s.turns ctx (ls.set i { x with closed := true }) i x n)
    have hroom := hg.room
    rw [hg.labels] at hroom ⊢
    refine hclosed.grow (h.closes hx) (fun c hc => ?_) ?_
    · obtain ⟨e, he, rfl⟩ := List.mem_map.mp hc
      exact State.candidate_madeFrom (State.nodeOf_id hn) (h.costs x (List.mem_of_getElem? hx.stored))
        ((s.candidate_iff ..).mpr (hg.made e he).2)
    · rcases hroom with rfl | hroom
      · simpa using hclosed.bound
      · exact hroom

end Sys2Proof.Machine
end

