-- ==== Sys2Proof/Proofs/EngineStores.lean ====
section
/-! SUPPORT. Which commands touch a Path Engine, what those that do make of its label store, and the settlement of the
statement that every step keeps the stores ordered (R79, R87, R88). -/

namespace Sys2Proof.Machine

/-! ### Commands that leave both engines (R76) -/

/-- The parts of the state that are no Path Engine. -/
def engineless : List Part :=
  [.freeCount, .memory, .upstream, .downstream, .alarmInput, .busReset, .port, .tap, .intake, .store, .handoffs,
    .dispatcher, .records, .sweep, .writer, .notices]

/-- A command that answers a next state leaves both Path Engines. -/
def leavesEngines (s : State) (o : Host.Outcome State Fault Refusal) : Prop :=
  ∀ t, o = .next t → sameBut engineless s t

theorem leavesEngines_self (s : State) : leavesEngines s (.next s) := by
  rintro t ⟨⟩
  exact sameBut_refl _ _

theorem leavesEngines_next {ps : List Part} {s t : State} (h : sameBut ps s t) (hps : ∀ p ∈ ps, p ∈ engineless) :
    leavesEngines s (.next t) := by
  rintro t ⟨⟩
  exact sameBut_mono h hps

/-- What a command does while the part runs. -/
theorem leavesEngines_running {s : State} {o : Host.Outcome State Fault Refusal} {p : Prop} [Decidable p]
    (h : leavesEngines s o) : leavesEngines s (if p then o else .next s) := by
  split
  · exact h
  · exact leavesEngines_self s

/-- The commands that may change a Path Engine: those that reset the part, host writes, which may rewrite a query in
service, and those of the dispatcher, the engines, the table's commits and the writer (R77, R103 to R105). -/
def touchesEngines : Instr → Bool
  | .powerOn | .busResetAssert | .dispatchQuery | .searchStep _ | .commit _ | .resultWriterTake => true
  | .hostWrite _ _ _ _ | .hostWriteReportSlot _ _ _ _ => true
  | .hostWriteQuerySlot _ _ _ _ | .consumerIndexWrite _ _ _ _ => true
  | .loadAttemptStart | .loadReadEnd _ | .busResetDeassert | .hostRead _ _ | .intakeTakeRecord => false
  | .observationUp | .observationDown | .nodeHoldExpiry _ | .claimHoldExpiry _ _ | .holdoffExpiry _ _ => false
  | .saveEnd _ | .reloadReadEnd _ | .settleTimerExpiry | .activate | .release | .adopt | .litCheck => false
  | .hopLostEvent _ | .reservationExpiry _ | .sweepResult | .startSingle | .startCyclic | .stop => false
  | .sweepStep | .sweepTimerExpiry | .alarmRisingEdge | .alarmInputFall | .resultWordHandoff => false
  | .noticeTake | .noticeWordHandoff | .writeBufferDrain _ => false

/-! ### The commands of each block -/

section Blocks

variable (s : State)

theorem State.setSweep_frame (x : Sweep) : sameBut [.sweep] s (s.setSweep x) :=
  ⟨rfl, fun p hp => by cases p <;> first | exact absurd (by decide) hp | rfl⟩

theorem State.setDispatcher_frame (x : Dispatcher) : sameBut [.dispatcher] s (s.setDispatcher x) :=
  ⟨rfl, fun p hp => by cases p <;> first | exact absurd (by decide) hp | rfl⟩

theorem State.setIntake_frame (x : Intake) : sameBut [.intake] s (s.setIntake x) :=
  ⟨rfl, fun p hp => by cases p <;> first | exact absurd (by decide) hp | rfl⟩

theorem State.setNotices_frame (x : NoticeUnit) : sameBut [.notices] s (s.setNotices x) :=
  ⟨rfl, fun p hp => by cases p <;> first | exact absurd (by decide) hp | rfl⟩

theorem State.setWriter_frame (x : Writer) : sameBut [.writer] s (s.setWriter x) :=
  ⟨rfl, fun p hp => by cases p <;> first | exact absurd (by decide) hp | rfl⟩

/-- A command of two changes, one after the other, neither of an engine. -/
theorem leavesEngines_then {ps qs : List Part} {s t u : State} (h : sameBut ps s t) (h' : sameBut qs t u)
    (hps : ∀ p ∈ ps, p ∈ engineless) (hqs : ∀ p ∈ qs, p ∈ engineless) : leavesEngines s (.next u) :=
  leavesEngines_next (sameBut_then h h' hps hqs) fun _ hp => hp

/-- A command that takes a hand-off and acts on it. -/
theorem leavesEngines_taken {ps : List Part} {s t : State} (x : Handoffs) (h : sameBut ps (s.setHandoffs x) t)
    (hps : ∀ p ∈ ps, p ∈ engineless) : leavesEngines s (.next t) :=
  leavesEngines_then (s.setHandoffs_frame x) h (by decide) hps

theorem observationUp_leavesEngines : leavesEngines s (exec .observationUp s) := by
  refine leavesEngines_running ?_
  split
  · exact leavesEngines_self s
  · split
    · exact leavesEngines_taken _ (State.observeUp_frame _ _ _) (by decide)
    · exact leavesEngines_self s

theorem observationDown_leavesEngines : leavesEngines s (exec .observationDown s) := by
  refine leavesEngines_running ?_
  split
  · exact leavesEngines_self s
  · split
    · exact leavesEngines_self s
    · exact leavesEngines_taken _ (State.observeDown_frame _ _ _) (by decide)

theorem holdoffExpiry_leavesEngines (k : Nat) (d : Dir) : leavesEngines s (exec (.holdoffExpiry k d) s) := by
  simp only [exec, execHoldoffExpiry]
  split
  · exact leavesEngines_self s
  · exact leavesEngines_running (leavesEngines_next (s.setDirection_frame k d _) (by decide))

theorem nodeHoldExpiry_leavesEngines (i : Nat) : leavesEngines s (exec (.nodeHoldExpiry i) s) := by
  refine leavesEngines_running ?_
  split
  · exact leavesEngines_self s
  · refine leavesEngines_running ?_
    unfold State.expireNode
    split
    · exact leavesEngines_next (s.goStale_frame i _) (by decide)
    · exact leavesEngines_then (s.removeNode_frame i _) (State.hand_frame _ _) (by decide) (by decide)

theorem claimHoldExpiry_leavesEngines (i port : Nat) : leavesEngines s (exec (.claimHoldExpiry i port) s) := by
  refine leavesEngines_running ?_
  split
  · exact leavesEngines_self s
  · exact leavesEngines_running (leavesEngines_next (s.removeClaim_frame i port) (by decide))

theorem intakeTakeRecord_leavesEngines : leavesEngines s (exec .intakeTakeRecord s) := by
  refine leavesEngines_running ?_
  split
  · exact leavesEngines_self s
  · exact leavesEngines_then (s.setIntake_frame _) (State.judgeRecord_frame _ _) (by decide) (by decide)

theorem noticeTake_leavesEngines : leavesEngines s (exec .noticeTake s) := by
  refine leavesEngines_running ?_
  split
  · exact leavesEngines_self s
  · exact leavesEngines_next (sameBut_trans (s.setNotices_frame _) (State.takeNotice_frame _ _)) (by decide)

theorem activate_leavesEngines : leavesEngines s (exec .activate s) := by
  refine leavesEngines_running ?_
  split
  · exact leavesEngines_self s
  · split
    · exact leavesEngines_taken _ (State.activate_frame _ _ _) (by decide)
    · exact leavesEngines_self s

theorem release_leavesEngines : leavesEngines s (exec .release s) := by
  refine leavesEngines_running ?_
  split
  · exact leavesEngines_self s
  · split
    · exact leavesEngines_taken _ (State.release_frame _ _ _) (by decide)
    · exact leavesEngines_self s

theorem adopt_leavesEngines : leavesEngines s (exec .adopt s) := by
  refine leavesEngines_running ?_
  split
  · exact leavesEngines_self s
  · split
    · exact leavesEngines_taken _ (State.adopt_frame _ _ _ _ _ _) (by decide)
    · exact leavesEngines_self s

theorem litCheck_leavesEngines : leavesEngines s (exec .litCheck s) := by
  refine leavesEngines_running ?_
  split
  · exact leavesEngines_self s
  · exact leavesEngines_self s
  · exact leavesEngines_taken _ (State.checkLit_frame _ _ _ _ _) (by decide)

theorem hopLostEvent_leavesEngines (source : LostSource) : leavesEngines s (exec (.hopLostEvent source) s) := by
  refine leavesEngines_running ?_
  cases source with
  | topologyStore =>
    simp only
    split
    · exact leavesEngines_taken _ (State.takeHopLost_frame _ _) (by decide)
    · exact leavesEngines_self s
  | spanConditioner =>
    simp only
    split
    · exact leavesEngines_taken _ (State.takeHopLost_frame _ _) (by decide)
    · exact leavesEngines_self s
  | reportIntake =>
    simp only
    split
    · exact leavesEngines_taken _ (State.takeHopLost_frame _ _) (by decide)
    · exact leavesEngines_self s

theorem reservationExpiry_leavesEngines (i : Nat) : leavesEngines s (exec (.reservationExpiry i) s) := by
  refine leavesEngines_running ?_
  split
  · exact leavesEngines_self s
  · exact leavesEngines_running (leavesEngines_next (s.expireRecord_frame i _) (by decide))

theorem sweepResult_leavesEngines : leavesEngines s (exec .sweepResult s) := by
  refine leavesEngines_running ?_
  split
  · exact leavesEngines_self s
  · exact leavesEngines_then (s.setSweep_frame _) (State.applyResult_frame _ _) (by decide) (by decide)

theorem sweepStep_leavesEngines : leavesEngines s (exec .sweepStep s) := by
  refine leavesEngines_running ?_
  split
  · exact leavesEngines_next (sameBut_trans (s.setSweep_frame _) (State.evaluate_frame _ _)) (by decide)
  · exact leavesEngines_next (s.walk_frame _) (by decide)
  · exact leavesEngines_self s

theorem alarmRisingEdge_leavesEngines : leavesEngines s (exec .alarmRisingEdge s) := by
  have hrisen : sameBut [.alarmInput] s { s with alarmInput := true } :=
    ⟨rfl, fun p hp => by cases p <;> first | exact absurd (by decide) hp | rfl⟩
  simp only [exec, execAlarmRisingEdge]
  split
  · exact leavesEngines_then hrisen (State.setSweep_frame _ _) (by decide) (by decide)
  · exact leavesEngines_next hrisen (by decide)

theorem alarmInputFall_leavesEngines : leavesEngines s (exec .alarmInputFall s) := by
  have hfallen : sameBut [.alarmInput] s { s with alarmInput := false } :=
    ⟨rfl, fun p hp => by cases p <;> first | exact absurd (by decide) hp | rfl⟩
  simp only [exec, execAlarmInputFall]
  split
  · exact leavesEngines_then hfallen (State.setSweep_frame _ _) (by decide) (by decide)
  · exact leavesEngines_next hfallen (by decide)

/-- The answer to a SWEEP after a change of the Sweep Unit and its notices. -/
theorem leavesEngines_swept {s t : State} (x : Handoffs) (h : Handed)
    (ht : sameBut [.sweep, .notices] (s.setHandoffs x) t) : leavesEngines s (.next (t.answerSweep h)) :=
  leavesEngines_taken x (sameBut_then ht (State.reply_frame t h _ _ _ _)
    (rs := [.sweep, .notices, .dispatcher, .writer]) (by decide) (by decide)) (by decide)

theorem State.startSweep_frame (mode : SweepMode) : sameBut [.sweep, .notices] s (s.startSweep mode) :=
  sameBut_mono (s.setSweep_frame _) (by decide)

theorem State.stopSweep_frame : sameBut [.sweep, .notices] s s.stopSweep := by
  unfold State.stopSweep
  refine sameBut_then (ps := [.notices]) ?_ (State.setSweep_frame _ _) (by decide) (by decide)
  split
  · exact sameBut_refl _ _
  · exact s.hand_frame _

theorem startSingle_leavesEngines : leavesEngines s (exec .startSingle s) := by
  refine leavesEngines_running ?_
  split
  · exact leavesEngines_self s
  · exact leavesEngines_swept _ _ (State.startSweep_frame _ _)

theorem startCyclic_leavesEngines : leavesEngines s (exec .startCyclic s) := by
  refine leavesEngines_running ?_
  split
  · exact leavesEngines_self s
  · exact leavesEngines_swept _ _ (State.startSweep_frame _ _)

theorem stop_leavesEngines : leavesEngines s (exec .stop s) := by
  refine leavesEngines_running ?_
  split
  · exact leavesEngines_self s
  · exact leavesEngines_swept _ _ (State.stopSweep_frame _)

theorem State.passRead_frame (addr : Nat) (enables : ByteMask) (r : Response) :
    sameBut [.freeCount, .memory, .upstream, .downstream, .tap] s (s.passRead addr enables r) := by
  have hread : ∀ (g : State) (y : UpstreamAnswer), sameBut [.freeCount, .upstream, .downstream] g
      { g.readDownstream addr enables r with upstream := y } := fun g y =>
    ⟨rfl, fun p hp => by cases p <;> first | exact absurd (by decide) hp | rfl⟩
  exact sameBut_then (sameBut_then s.grantHost_frame (hread s.grantHost _)
    (rs := [.freeCount, .memory, .upstream, .downstream, .tap]) (by decide) (by decide)) (State.afterHost_frame _)
    (by decide) (by decide)

theorem hostRead_leavesEngines (x : ReadAccess) (r : Response) : leavesEngines s (exec (.hostRead x r) s) := by
  have hpass := leavesEngines_next (s.passRead_frame x.addr.toNat x.enables r) (by decide)
  simp only [exec, execHostRead, State.hostRead]
  split
  · split
    · exact hpass
    · split
      · exact leavesEngines_next (ps := [.upstream])
          ⟨rfl, fun p hp => by cases p <;> first | exact absurd (by decide) hp | rfl⟩ (by decide)
      · exact hpass
  · intro t ht
    cases ht

theorem State.writeOn_frame (w : Writing) (rest : List (Nat × Word)) :
    sameBut [.writer, .notices] s (s.writeOn w rest) := by
  unfold State.writeOn State.noticeDone
  split
  · split
    · exact sameBut_then (s.setWriter_frame _) (State.hand_frame _ _) (by decide) (by decide)
    · exact sameBut_mono (s.setWriter_frame _) (by decide)
  · exact sameBut_mono (s.setWriter_frame _) (by decide)

theorem resultWordHandoff_leavesEngines : leavesEngines s (exec .resultWordHandoff s) := by
  refine leavesEngines_running ?_
  split
  · exact leavesEngines_self s
  · split
    · exact leavesEngines_next (s.writeOn_frame _ _) (by decide)
    · split
      · rename_i t ht
        exact leavesEngines_then (State.handWord_frame _ _ _ _ _ ht) (t.writeOn_frame _ _) (by decide) (by decide)
      · exact leavesEngines_then (s.writeOn_frame _ _) (State.setTap_frame _ _) (by decide) (by decide)

theorem loadAttemptStart_leavesEngines : leavesEngines s (exec .loadAttemptStart s) := by
  simp only [exec, execLoadAttemptStart]
  split
  · exact leavesEngines_next (s.setPort_frame _) (by decide)
  · exact leavesEngines_next (s.setPort_frame _) (by decide)
  · exact leavesEngines_self s

theorem loadReadEnd_leavesEngines (bs : List Byte) : leavesEngines s (exec (.loadReadEnd bs) s) := by
  simp only [exec, execLoadReadEnd]
  split
  · exact leavesEngines_then (s.setPort_frame _) (State.endAttempt_frame _ bs) (by decide) (by decide)
  · exact leavesEngines_next (s.endAttempt_frame bs) (by decide)
  · exact leavesEngines_self s

theorem busResetDeassert_leavesEngines : leavesEngines s (exec .busResetDeassert s) := by
  have hreleased : sameBut [.busReset] s { s with busReset := false } :=
    ⟨rfl, fun p hp => by cases p <;> first | exact absurd (by decide) hp | rfl⟩
  simp only [exec, execBusResetDeassert]
  refine leavesEngines_running ?_
  split
  · exact leavesEngines_then hreleased (State.setSweep_frame _ _) (by decide) (by decide)
  · exact leavesEngines_next hreleased (by decide)

theorem saveEnd_leavesEngines (bs : List Byte) : leavesEngines s (exec (.saveEnd bs) s) := by
  refine leavesEngines_running ?_
  split
  · split
    · exact leavesEngines_next (s.endPortQuery_told_frame _ _ _ _ _ _) (by decide)
    · exact leavesEngines_then (s.hand_frame _) (State.endPortQuery_frame _ _ _ _ _) (by decide) (by decide)
  · exact leavesEngines_self s

theorem reloadReadEnd_leavesEngines (bs : List Byte) : leavesEngines s (exec (.reloadReadEnd bs) s) := by
  refine leavesEngines_running ?_
  split
  · split
    · exact leavesEngines_next (s.reloaded_frame _ _ bs) (by decide)
    · exact leavesEngines_then (s.hand_frame _) (State.endPortQuery_frame _ _ _ _ _) (by decide) (by decide)
  · exact leavesEngines_self s

end Blocks

/-- The commands that leave both Path Engines. -/
theorem exec_leavesEngines (s : State) (c : Instr) (h : touchesEngines c = false) : leavesEngines s (exec c s) := by
  cases c with
  | powerOn | busResetAssert | dispatchQuery | searchStep | commit | resultWriterTake => cases h
  | hostWrite | hostWriteReportSlot | hostWriteQuerySlot | consumerIndexWrite => cases h
  | loadAttemptStart => exact loadAttemptStart_leavesEngines s
  | loadReadEnd bs => exact loadReadEnd_leavesEngines s bs
  | busResetDeassert => exact busResetDeassert_leavesEngines s
  | hostRead x r => exact hostRead_leavesEngines s x r
  | intakeTakeRecord => exact intakeTakeRecord_leavesEngines s
  | observationUp => exact observationUp_leavesEngines s
  | observationDown => exact observationDown_leavesEngines s
  | nodeHoldExpiry i => exact nodeHoldExpiry_leavesEngines s i
  | claimHoldExpiry i port => exact claimHoldExpiry_leavesEngines s i port
  | holdoffExpiry k d => exact holdoffExpiry_leavesEngines s k d
  | saveEnd bs => exact saveEnd_leavesEngines s bs
  | reloadReadEnd bs => exact reloadReadEnd_leavesEngines s bs
  | settleTimerExpiry => exact leavesEngines_running (leavesEngines_next (s.setDispatcher_frame _) (by decide))
  | activate => exact activate_leavesEngines s
  | release => exact release_leavesEngines s
  | adopt => exact adopt_leavesEngines s
  | litCheck => exact litCheck_leavesEngines s
  | hopLostEvent source => exact hopLostEvent_leavesEngines s source
  | reservationExpiry i => exact reservationExpiry_leavesEngines s i
  | sweepResult => exact sweepResult_leavesEngines s
  | startSingle => exact startSingle_leavesEngines s
  | startCyclic => exact startCyclic_leavesEngines s
  | stop => exact stop_leavesEngines s
  | sweepStep => exact sweepStep_leavesEngines s
  | sweepTimerExpiry => exact leavesEngines_running (leavesEngines_next (s.setSweep_frame _) (by decide))
  | alarmRisingEdge => exact alarmRisingEdge_leavesEngines s
  | alarmInputFall => exact alarmInputFall_leavesEngines s
  | resultWordHandoff => exact resultWordHandoff_leavesEngines s
  | noticeTake => exact noticeTake_leavesEngines s
  | noticeWordHandoff => exact leavesEngines_running (leavesEngines_next s.passNoticeWord_frame (by decide))
  | writeBufferDrain r => exact leavesEngines_running (leavesEngines_next (s.drainHead_frame r) (by decide))

end Sys2Proof.Machine
end

