-- ==== Sys2Proof/Proofs/SearchOrder.lean ====
section
/-! SUPPORT. What the commands that touch a Path Engine make of its label store (R76 to R105), and the settlement of the
statement that every step keeps the stores ordered (R79, R87, R88). -/

namespace Sys2Proof.Machine

/-! ### Engines and frames (R76) -/

theorem State.engine_setEngine (s : State) (e g : EngineId) (x : Engine) :
    (s.setEngine e x).engine g = if g = e then x else s.engine g := by
  cases e <;> cases g <;> rfl

/-- A change that leaves the parts of both engines leaves the engines. -/
theorem sameBut.engine {ps : List Part} {s t : State} (h : sameBut ps s t) (h0 : .engine0 ∉ ps) (h1 : .engine1 ∉ ps)
    (e : EngineId) : t.engine e = s.engine e := by
  cases e
  · exact h.2 .engine0 h0
  · exact h.2 .engine1 h1

theorem State.clearSlot_frame (s : State) (slot : Nat) : sameBut [.dispatcher] s (s.clearSlot slot) :=
  s.setDispatcher_frame _

namespace State.searchOrdered

variable {s : State}

theorem frame {t : State} {ps : List Part} (h : s.searchOrdered) (hf : sameBut ps s t) (h0 : .engine0 ∉ ps)
    (h1 : .engine1 ∉ ps) : t.searchOrdered := by
  rw [State.searchOrdered_iff] at *
  intro e
  rw [hf.engine h0 h1]
  exact h e

theorem setEngine (h : s.searchOrdered) (e : EngineId) {x : Engine} (hx : storeOrdered x.labels) :
    (s.setEngine e x).searchOrdered := by
  rw [State.searchOrdered_iff] at *
  intro g
  rw [State.engine_setEngine]
  split
  · exact hx
  · exact h g

/-- Both engines have an empty label store. -/
theorem of_empty (h0 : s.engine0.labels = []) (h1 : s.engine1.labels = []) : s.searchOrdered := by
  rw [State.searchOrdered_iff]
  intro e
  cases e
  · exact h0 ▸ storeOrdered_nil
  · exact h1 ▸ storeOrdered_nil

/-! ### The ends of a phase (R92 to R102) -/

theorem setIdle (h : s.searchOrdered) (e : EngineId) : (s.setEngine e .idle).searchOrdered :=
  h.setEngine e storeOrdered_nil

theorem attempt (h : s.searchOrdered) (e : EngineId) (t : State) (ctx : Context) (phase : Phase) :
    (s.setEngine e (t.attempt ctx phase)).searchOrdered :=
  h.setEngine e (storeOrdered_start t ctx.req)

theorem engineAnswer (h : s.searchOrdered) (e : EngineId) (ctx : Context) (st : Status) (n named : Nat)
    (body : AnswerBody) : (s.engineAnswer e ctx st n named body).searchOrdered :=
  (h.setEngine e (x := .answering { ctx with labelsUsed := n }) storeOrdered_nil).frame (State.offer_frame _ _)
    (by decide) (by decide)

theorem failAttempt (h : s.searchOrdered) (e : EngineId) (ctx : Context) (st : Status) (n : Nat) :
    (s.failAttempt e ctx st n).searchOrdered := by
  unfold State.failAttempt
  split
  · exact h.attempt e s _ _
  · exact h.engineAnswer e _ _ _ _ _

theorem conclude (h : s.searchOrdered) (e : EngineId) (ctx : Context) {ls : List Label} (hls : storeOrdered ls)
    (first : Route) (second : Option Route) : (s.conclude e ctx ls first second).searchOrdered := by
  unfold State.conclude
  split
  · exact h.setEngine e hls
  · split
    · exact h.engineAnswer e _ _ _ _ _
    · exact h.failAttempt e _ _ _

theorem accept (h : s.searchOrdered) (e : EngineId) (ctx : Context) {ls : List Label} (hls : storeOrdered ls) (i : Nat) :
    (s.accept e ctx ls i).searchOrdered := by
  simp only [State.accept]
  split
  · split
    · exact h.attempt e s _ _
    · exact h.conclude e ctx hls _ _
  · exact h.conclude e ctx hls _ _

theorem endPhase (h : s.searchOrdered) (e : EngineId) (ctx : Context) (st : Status) (n : Nat) :
    (s.endPhase e ctx st n).searchOrdered := by
  unfold State.endPhase
  split
  · exact h.engineAnswer e _ _ _ _ _
  · split
    · exact h.engineAnswer e _ _ _ _ _
    · exact h.failAttempt e _ _ _

/-! ### Search steps and commits (R81, R95) -/

theorem closeLabel (h : s.searchOrdered) (e : EngineId) (ctx : Context) {ls : List Label} {i : Nat} {x : Label}
    (hls : storeOrdered ls) (hx : closesNext ls i x) : (s.closeLabel e ctx ls i x).searchOrdered := by
  simp only [State.closeLabel, State.arriveAtDestination, setAt_eq_set]
  split
  · split
    · exact h.accept e ctx (hls.close hx) i
    · exact h.setEngine e (hls.close hx)
  · split
    · exact h.endPhase e ctx _ _
    · exact h.setEngine e (s.extendLabel_ordered ctx hls hx)

theorem searchStep (h : s.searchOrdered) (e : EngineId) {t : State} (ht : exec (.searchStep e) s = .next t) :
    t.searchOrdered := by
  simp only [exec, execSearchStep] at ht
  split at ht
  · split at ht
    · rename_i ctx ls hengine
      have hls : storeOrdered ls := by
        have hstore := s.searchOrdered_iff.mp h e
        rwa [hengine] at hstore
      split at ht
      · cases ht
        exact h.endPhase e ctx _ _
      · rename_i i x hfirst
        cases ht
        exact h.closeLabel e ctx hls ((firstOpen_eq_some ls i x).mp hfirst)
    · cases ht
      exact h
  · cases ht
    exact h

theorem takeCommit (h : s.searchOrdered) (e : EngineId) (ctx : Context) (ls : List Label) (q : CommitRequest) :
    (s.takeCommit e ctx ls q).searchOrdered := by
  unfold State.takeCommit
  split
  · exact h.failAttempt e _ _ _
  · exact h.failAttempt e _ _ _
  · exact h.engineAnswer e _ _ _ _ _
  · exact (h.frame (s.reserve_frame q _ _) (by decide) (by decide)).engineAnswer e _ _ _ _ _

theorem commit (h : s.searchOrdered) (e : EngineId) {t : State} (ht : exec (.commit e) s = .next t) :
    t.searchOrdered := by
  simp only [exec, execCommit] at ht
  split at ht
  · split at ht
    · cases ht
      exact h.takeCommit e _ _ _
    · cases ht
      exact h
  · cases ht
    exact h

/-! ### The dispatcher and the writer (R77, R103 to R105) -/

theorem assign (h : s.searchOrdered) (slot : Nat) (q : Query) (req : FindReq) (pair : Bool) :
    (s.assign slot q req pair).searchOrdered :=
  (h.frame (s.setSlot_frame slot _) (by decide) (by decide)).attempt _ s _ _

theorem respond (h : s.searchOrdered) (slot : Nat) (q : Query) (st : Status) (n : Nat) (body : AnswerBody) :
    (s.respond slot q st n body).searchOrdered :=
  h.frame (s.respond_frame slot q st n body) (by decide) (by decide)

theorem serveSearch (h : s.searchOrdered) (slot : Nat) (q : Query) (req : FindReq) (pair : Bool) :
    (s.serveSearch slot q req pair).searchOrdered := by
  unfold State.serveSearch
  split
  · exact h.respond slot q _ _ _
  · split
    · exact h.respond slot q _ _ _
    · split
      · exact h.respond slot q _ _ _
      · exact h.assign slot q req pair

theorem flushEngine (h : s.searchOrdered) (e : EngineId) : (s.flushEngine e).searchOrdered := by
  unfold State.flushEngine
  split
  · exact h
  · exact h.engineAnswer e _ _ _ _ _
  · exact h.engineAnswer e _ _ _ _ _
  · exact h.frame (s.setWriter_frame _) (by decide) (by decide)

theorem serveFlush (h : s.searchOrdered) (slot : Nat) (q : Query) : (s.serveFlush slot q).searchOrdered := by
  have hengines := (h.flushEngine .e0).flushEngine .e1
  simp only [State.serveFlush]
  generalize (s.flushEngine .e0).flushEngine .e1 = u at hengines ⊢
  have hcleared : sameBut [.store, .records] u
      { u.setStore Store.empty with records := clearRecords (u.setStore Store.empty).records } :=
    ⟨rfl, fun p hp => by cases p <;> first | exact absurd (by decide) hp | rfl⟩
  refine State.searchOrdered.respond ?_ slot q _ _ _
  exact ((hengines.frame hcleared (by decide) (by decide)).frame (State.setSweep_frame _ _) (by decide) (by decide)).frame
    (State.setDispatcher_frame _ _) (by decide) (by decide)

theorem serve (h : s.searchOrdered) (slot : Nat) (q : Query) : (s.serve slot q).searchOrdered := by
  unfold State.serve
  cases q.body with
  | find req => exact h.serveSearch slot q req false
  | findPair req => exact h.serveSearch slot q req true
  | activate _ | release _ | adopt _ _ _ _ | sweep _ =>
    exact (h.frame (s.setSlot_frame slot _) (by decide) (by decide)).frame (State.setHandoffs_frame _ _) (by decide)
      (by decide)
  | lookupNode id =>
    simp only [State.serveLookupNode]
    split
    · exact h.respond slot q _ _ _
    · exact h.respond slot q _ _ _
  | lookupLink id port =>
    simp only [State.serveLookupLink]
    split
    · exact h.respond slot q _ _ _
    · split
      · exact h.respond slot q _ _ _
      · exact h.respond slot q _ _ _
      · exact h.respond slot q _ _ _
  | status clear =>
    have hslot := h.frame (s.setSlot_frame slot (.inService .answered none)) (by decide) (by decide)
    simp only [State.serveStatus]
    refine State.searchOrdered.respond ?_ slot q _ _ _
    split
    · exact hslot.frame (ps := [.intake, .tap, .notices])
        ⟨rfl, fun p hp => by cases p <;> first | exact absurd (by decide) hp | rfl⟩ (by decide) (by decide)
    · exact hslot
  | configSet target values => exact h.frame (s.serveConfigSet_frame slot q target values) (by decide) (by decide)
  | save =>
    simp only [State.serveSave]
    split
    · exact h.respond slot q _ _ _
    · exact (h.frame (s.setSlot_frame slot _) (by decide) (by decide)).frame (State.setPort_frame _ _) (by decide)
        (by decide)
  | reload =>
    simp only [State.serveReload]
    split
    · exact h.respond slot q _ _ _
    · exact (h.frame (s.setSlot_frame slot _) (by decide) (by decide)).frame (State.setPort_frame _ _) (by decide)
        (by decide)
  | flush => exact h.serveFlush slot q
  | nodeClear id => exact h.frame (s.serveNodeClear_frame slot q id) (by decide) (by decide)

theorem dispatchQuery (h : s.searchOrdered) {t : State} (ht : exec .dispatchQuery s = .next t) : t.searchOrdered := by
  simp only [exec, execDispatchQuery] at ht
  split at ht
  · split at ht
    · cases ht
      exact h
    · split at ht
      · cases ht
        exact h
      · cases ht
        exact (h.frame (s.dequeue_frame _) (by decide) (by decide)).serve _ _
  · cases ht
    exact h

theorem freeSource (h : s.searchOrdered) (x : AnswerSource) : (s.freeSource x).searchOrdered := by
  cases x with
  | engine e => exact h.setIdle e
  | dispatcher => exact h
  | port => exact h

theorem judgeInto (h : s.searchOrdered) (slot : Nat) (raw : RawQuery) : (s.judgeInto slot raw).searchOrdered :=
  h.frame (s.judgeInto_frame slot raw) (by decide) (by decide)

theorem takeAnswer (h : s.searchOrdered) (a : Answer) (rest : List Answer) : (s.takeAnswer a rest).searchOrdered := by
  have htaken := h.frame (s.setWriter_frame
    { answers := rest, writing := some { base := s.resultBase a.slot, answer := a, todo := none } })
    (by decide) (by decide)
  have hcleared := (htaken.freeSource a.source).frame (State.clearSlot_frame _ a.slot) (by decide) (by decide)
  simp only [State.takeAnswer, State.judgeSuccessor]
  split
  · exact hcleared
  · exact hcleared.judgeInto _ _

theorem resultWriterTake (h : s.searchOrdered) {t : State} (ht : exec .resultWriterTake s = .next t) :
    t.searchOrdered := by
  simp only [exec, execResultWriterTake] at ht
  split at ht
  · split at ht
    · cases ht
      exact h
    · cases ht
      exact h.takeAnswer _ _
  · cases ht
    exact h

/-! ### Host writes (R103, R131, R132) -/

theorem rewriteInService (h : s.searchOrdered) (slot : Nat) (v : Serving) (raw : RawQuery) :
    (s.rewriteInService slot v raw).searchOrdered := by
  have horphan := h.frame (s.setHandoffs_frame { s.handoffs with
    toTable := orphan slot s.handoffs.toTable, toSweep := orphan slot s.handoffs.toSweep }) (by decide) (by decide)
  cases v with
  | engine e =>
    exact ((h.setIdle e).frame (State.withdrawAnswer_frame _ slot) (by decide) (by decide)).judgeInto slot raw
  | answered => exact (h.frame (s.withdrawAnswer_frame slot) (by decide) (by decide)).judgeInto slot raw
  | table => exact horphan.judgeInto slot raw
  | sweep => exact horphan.judgeInto slot raw
  | port => exact h.frame (s.setSlot_frame slot _) (by decide) (by decide)

theorem arriveQuery (h : s.searchOrdered) (slot : Nat) (r : Record) : (s.arriveQuery slot r).searchOrdered := by
  simp only [State.arriveQuery]
  split
  · exact h.judgeInto slot _
  · exact h.frame (s.replaceQueued_frame slot _ _) (by decide) (by decide)
  · exact h.rewriteInService slot _ _

theorem look (h : s.searchOrdered) (a : Nat) (w : Word) (en : ByteMask) : (s.look a w en).searchOrdered := by
  simp only [State.look, State.matchWrite]
  split
  · split
    · exact h
    · split
      · exact h.frame (s.writeReport_frame _ _ _ _) (by decide) (by decide)
      · simp only [State.writeQuery]
        split
        · exact (h.frame (s.setTap_frame _) (by decide) (by decide)).arriveQuery _ _
        · exact h.frame (s.setTap_frame _) (by decide) (by decide)
      · exact h
      · split
        · unfold State.takeConsumer
          split
          · exact h.frame (s.setNotices_frame _) (by decide) (by decide)
          · exact h
        · exact h
  · exact h

theorem hostWriteAt (h : s.searchOrdered) {a d : Word} {en : ByteMask} {r : Response} {t : State}
    (ht : s.hostWriteAt a d en r = .next t) : t.searchOrdered := by
  unfold State.hostWriteAt at ht
  split at ht
  · cases ht
    rw [State.hostWrite_eq]
    exact ((h.frame (s.passedWrite_frame a.toNat d en r) (by decide) (by decide)).look a.toNat d en).frame
      (State.afterHost_frame _) (by decide) (by decide)
  · cases ht

/-! ### Resets, and every command (R76, R182) -/

theorem busResetAssert (h : s.searchOrdered) {t : State} (ht : exec .busResetAssert s = .next t) :
    t.searchOrdered := by
  simp only [exec, execBusResetAssert] at ht
  split at ht
  · cases ht
    exact h
  · split at ht
    · cases ht
      exact .of_empty rfl rfl
    · cases ht
      exact h.frame (ps := [.busReset]) ⟨rfl, fun p hp => by cases p <;> first | exact absurd (by decide) hp | rfl⟩
        (by decide) (by decide)

theorem exec_next (h : s.searchOrdered) (c : Instr) {t : State} (ht : exec c s = .next t) : t.searchOrdered := by
  by_cases hc : touchesEngines c = false
  · exact h.frame (exec_leavesEngines s c hc t ht) (by decide) (by decide)
  · cases c with
    | powerOn =>
      cases ht
      exact .of_empty rfl rfl
    | busResetAssert => exact h.busResetAssert ht
    | hostWrite | hostWriteReportSlot | hostWriteQuerySlot | consumerIndexWrite => exact h.hostWriteAt ht
    | dispatchQuery => exact h.dispatchQuery ht
    | searchStep e => exact h.searchStep e ht
    | commit e => exact h.commit e ht
    | resultWriterTake => exact h.resultWriterTake ht
    | _ => exact absurd rfl hc

end State.searchOrdered

/-- The one-second event leaves both engines (R187). -/
theorem State.oneSecond_engine (s : State) (e : EngineId) : s.oneSecond.engine e = s.engine e := by
  unfold State.oneSecond State.tickUnits
  cases e <;> (split <;> rfl)

/-- Settles O59: a search step closes the cheapest OPEN label, and what it places costs no less; every other command
leaves a label store, empties it or begins an attempt. -/
theorem closingCostsNeverDecrease : Obligations.ClosingCostsNeverDecrease := by
  unfold Obligations.ClosingCostsNeverDecrease
  intro s t h ht
  unfold step at ht
  split at ht
  · cases ht
    rw [State.searchOrdered_iff] at *
    intro e
    rw [State.oneSecond_engine]
    exact h e
  · rename_i c rest _
    have hrest : State.searchOrdered { s with pending := rest } := by
      rw [State.searchOrdered_iff] at *
      intro e
      cases e
      · exact h .e0
      · exact h .e1
    exact hrest.exec_next c ht

end Sys2Proof.Machine
end

