-- ==== Sys2Proof/Proofs/SearchEnds.lean ====
section
/-! SUPPORT. How a Path Engine ends a phase, an attempt or its query (R93, R97, R101, R105), and the settlement of the
statement about search steps away from the destination (R81 to R87). -/

namespace Sys2Proof.Machine

/-! ### Answers of the engines (R93, R105) -/

/-- An engine that answers is ANSWERING, and its answer is offered (R105). -/
theorem State.engineAnswer_answered (s : State) (e : EngineId) (ctx : Context) (st : Status) (used named : Nat)
    (body : AnswerBody) :
    engineAnswered s (s.engineAnswer e ctx st used named body) e ctx used (ctx.answer e st named body) where
  frame := s.engineAnswer_frame e ctx st used named body
  engine := by cases e <;> rfl
  offered := by cases e <;> rfl

/-- The body of an answer without a route is the one of the statements (R93). -/
theorem noRouteBody_eq (ctx : Context) (used : Nat) : noRouteBody ctx used = ctx.routeless used := rfl

/-- The body of an answer with its routes is the one of the statements (R93, R96). -/
theorem State.routedBody_eq (s : State) (ctx : Context) (used : Nat) (first : Route) (second : Option Route)
    (tag1 tag2 : Nat) : s.routedBody ctx used first second tag1 tag2 = s.routesBody ctx used first second tag1 tag2 := by
  cases second <;> rfl

/-- A failed attempt restarts, or after two restarts ends the query (R97, R102). -/
theorem State.failAttempt_failed (s : State) (e : EngineId) (ctx : Context) (st : Status) (used : Nat) :
    attemptFailed s (s.failAttempt e ctx st used) e ctx st used := by
  refine ⟨fun h => if_pos h, fun h => ?_⟩
  rw [State.failAttempt, if_neg (Nat.not_lt.mpr h), noRouteBody_eq]
  exact s.engineAnswer_answered e ctx st used noTag _

/-- A phase that ends without a route, by the phase and by the validation of the primary (R81, R87, R101). -/
theorem State.endPhase_ended (s : State) (e : EngineId) (ctx : Context) (st : Status) (used : Nat) :
    phaseEnded s (s.endPhase e ctx st used) e ctx st used := by
  refine ⟨fun hp => ?_, fun p hp hv => ?_, fun p hp hv => ?_⟩
  · simp only [State.endPhase, hp, noRouteBody_eq]
    exact s.engineAnswer_answered e ctx st used noTag _
  · simp only [State.endPhase, hp, hv, if_true]
    exact s.engineAnswer_answered e ctx .pairPrimaryOnly used noTag _
  · simp only [State.endPhase, hp, hv]
    exact s.failAttempt_failed e ctx .unstable used

/-! ### Search steps away from the destination (R83 to R87) -/

/-- The labels that the turns of a step place, in the words of the statements. -/
theorem State.placed_of_grownBy {s : State} {ctx : Context} {closed : List Label} {i : Nat} {x : Label} {n : Node}
    {g : Growth} {stop : Nat} {more : List (Nat × Label)} (h : grownBy (s.turns ctx closed i x n) closed g stop more) :
    s.placed ctx closed i x n stop more where
  candidates e he := ⟨(h.made e he).1, (s.candidate_iff ..).mpr (h.made e he).2⟩
  order := h.order
  fresh := h.fresh
  complete m y hm hy := h.complete m y hm ((s.candidate_iff ..).mp hy)

/-- A step away from the destination goes on with what its turns make of the store, or ends the phase (R87). -/
theorem State.closeLabel_extends (s : State) (e : EngineId) (ctx : Context) (ls : List Label) (i : Nat) (x : Label)
    (hx : x.node ≠ ctx.req.dest) (g : Growth) (hg : g = s.extendLabel ctx (ls.set i { x with closed := true }) i x) :
    s.closeLabel e ctx ls i x =
      if g.exhausted then s.endPhase e ctx .labelsExhausted g.labels.length
      else s.setEngine e (.searching ctx g.labels) := by
  simp only [State.closeLabel, if_neg hx, setAt_eq_set, hg]

/-- Settles O43: the turns of a step place the candidates one by one, and a full store stops them. -/
theorem searchExtends : Obligations.SearchExtends := by
  unfold Obligations.SearchExtends
  rintro s e ctx ls closed i x hr he hx rfl hdest
  have hexec := exec_searchStep_closes s e ctx ls i x hr he hx
  rw [s.closeLabel_extends e ctx ls i x hdest _ rfl] at hexec
  refine ⟨fun hn => ?_, fun n hn => ?_⟩
  · simp only [State.extendLabel, hn] at hexec
    exact hexec
  · rw [s.extendLabel_eq ctx _ i x n hn] at hexec
    obtain ⟨stop, more, hg⟩ := exists_grownBy (ls.set i { x with closed := true })
      (s.turns ctx (ls.set i { x with closed := true }) i x n)
    have hroom := hg.room
    have hended := hg.ended
    rw [hg.labels] at hexec hroom hended
    refine ⟨stop, more, _, State.placed_of_grownBy hg, rfl, hroom, ?_⟩
    rcases hended with ⟨hstop, hgoes⟩ | ⟨_, hstops, hfull, y, hy, hfresh⟩
    · rw [hgoes] at hexec
      exact .inl ⟨by simpa [State.turns] using hstop, hexec⟩
    · rw [hstops] at hexec
      exact .inr ⟨hfull, ⟨y, (s.candidate_iff ..).mpr hy, hfresh⟩, _, hexec, s.endPhase_ended e ctx _ _⟩

end Sys2Proof.Machine
end

