-- ==== Sys2Proof/Proofs/RoutesFound.lean ====
section
/-! SUPPORT. The route of an accepted label (R90, R91), the completion validation (R92), the exclusions that a primary
leaves (R99), and the settlement of the statement about search steps that end a phase (R81, R82). -/

namespace Sys2Proof.Machine

/-! ### The slot of a segment (R91) -/

/-- What a search along an ordered list finds comes before every other element that passes. -/
theorem find?_first {α : Type} {R : α → α → Prop} {l : List α} (hl : l.Pairwise R) {test : α → Bool} {a b : α}
    (ha : l.find? test = some a) (hb : b ∈ l) (hbt : test b = true) : a = b ∨ R a b := by
  obtain ⟨_, before, after, rfl, hbefore⟩ := List.find?_eq_some_iff_append.mp ha
  rcases List.mem_append.mp hb with hb | hb
  · have := hbefore b hb
    rw [hbt] at this
    cases this
  · rcases List.mem_cons.mp hb with rfl | hb
    · exact .inl rfl
    · exact .inr ((List.pairwise_cons.mp (List.pairwise_append.mp hl).2.1).1 b hb)

theorem hasSlot_lt {x : SlotSet} {g : Nat} (h : hasSlot x g = true) : g < 80 := BitVec.lt_of_getLsbD h

theorem mem_allSlots {x : SlotSet} {g : Nat} (h : hasSlot x g = true) : g ∈ allSlots :=
  List.mem_range.mpr (hasSlot_lt h)

theorem exists_hasSlot {x : SlotSet} (h : x ≠ 0#80) : ∃ g, hasSlot x g = true := by
  by_contra hno
  push Not at hno
  refine h (BitVec.eq_of_getLsbD_eq fun i _ => ?_)
  simpa [hasSlot] using hno i

/-- A slot that comes first in some order of the slots. -/
theorem find?_slot {R : Nat → Nat → Prop} {slots : List Nat} (hslots : slots.Pairwise R)
    (hmem : ∀ g, g ∈ allSlots → g ∈ slots) {x : SlotSet} (hx : x ≠ 0#80) :
    ∃ g, slots.find? (fun g => hasSlot x g) = some g ∧ hasSlot x g = true ∧ ∀ h, hasSlot x h = true → g = h ∨ R g h := by
  obtain ⟨a, ha⟩ := exists_hasSlot hx
  cases hf : slots.find? fun g => hasSlot x g with
  | none => exact absurd ha (List.find?_eq_none.mp hf a (hmem a (mem_allSlots ha)))
  | some g => exact ⟨g, rfl, List.find?_some hf, fun h hh => find?_first hslots hf (hmem h (mem_allSlots hh)) hh⟩

theorem lowestSlot_spec {x : SlotSet} (hx : x ≠ 0#80) :
    hasSlot x (lowestSlot x) = true ∧ ∀ h, hasSlot x h = true → lowestSlot x ≤ h := by
  obtain ⟨g, hf, hg, hfirst⟩ := find?_slot (slots := allSlots) (R := (· < ·)) List.pairwise_lt_range (fun _ h => h) hx
  rw [lowestSlot, hf]
  refine ⟨hg, fun h hh => ?_⟩
  have := hfirst h hh
  simp only [Option.getD_some]
  omega

theorem highestSlot_spec {x : SlotSet} (hx : x ≠ 0#80) :
    hasSlot x (highestSlot x) = true ∧ ∀ h, hasSlot x h = true → h ≤ highestSlot x := by
  obtain ⟨g, hf, hg, hfirst⟩ := find?_slot (slots := allSlots.reverse) (R := (· > ·))
    (List.pairwise_reverse.mpr List.pairwise_lt_range) (fun _ h => List.mem_reverse.mpr h) hx
  rw [highestSlot, hf]
  refine ⟨hg, fun h hh => ?_⟩
  have := hfirst h hh
  simp only [Option.getD_some]
  omega

/-- The slot that a segment takes is the one that the policy says (R91). -/
theorem takesSlot_slotFor (req : FindReq) {mask : SlotSet} (h : mask ≠ 0#80) :
    takesSlot req mask (slotFor req mask) := by
  obtain ⟨hlow, hlowest⟩ := lowestSlot_spec h
  obtain ⟨hhigh, hhighest⟩ := highestSlot_spec h
  cases hp : req.policy with
  | first => exact ⟨by simp [slotFor, hp, hlow], by simpa [slotFor, hp] using hlowest, by simp [hp], by simp [hp],
      by simp [hp]⟩
  | last => exact ⟨by simp [slotFor, hp, hhigh], by simp [hp], by simpa [slotFor, hp] using hhighest, by simp [hp],
      by simp [hp]⟩
  | preferred =>
    cases hm : hasSlot mask req.preferred with
    | true => exact ⟨by simp [slotFor, hp, hm], by simp [hp], by simp [hp], by simp [slotFor, hp, hm], by simp [hm]⟩
    | false => exact ⟨by simp [slotFor, hp, hm, hlow], by simp [hp], by simp [hp], by simp [hm],
        by simpa [slotFor, hp, hm] using hlowest⟩

/-! ### The route of an accepted label (R90, R91) -/

theorem hopsAlong_length (take : SlotSet → Nat) (path : List Label) :
    (hopsAlong take path).length = path.countP fun x => x.arrival.isSome := by
  induction path with
  | nil => rfl
  | cons x path ih => cases hx : x.arrival <;> simp [hopsAlong, hx, ih]

/-- The arrivals and the regeneration labels of a path are as many as its label counts (R79). -/
theorem pathTo.counts {ls : List Label} {i : Nat} {path : List Label} (h : pathTo ls i path) :
    ∀ x, ls[i]? = some x → path.countP (fun y => y.arrival.isSome) = x.hops ∧ path.countP (·.regenHere) = x.regens := by
  induction h with
  | start i x hx _ harrival hhere hhops hregens =>
    intro x' hx'
    rw [hx] at hx'
    cases hx'
    simp [harrival, hhere, hhops, hregens]
  | hop i j x y a c hx _ _ hy _ harrival _ hhere hhops hregens ih =>
    intro x' hx'
    rw [hx] at hx'
    cases hx'
    obtain ⟨hh, hg⟩ := ih y hy
    simp [List.countP_append, harrival, hhere, hhops, hregens, hh, hg]
  | regeneration i j x y c hx _ _ hy _ harrival _ hhere hhops hregens ih =>
    intro x' hx'
    rw [hx] at hx'
    cases hx'
    obtain ⟨hh, hg⟩ := ih y hy
    simp [List.countP_append, harrival, hhere, hhops, hregens, hh, hg]

/-- Whether a label is CLOSED plays no part in the hops read from its chain. -/
theorem traceHops_closed (req : FindReq) (x : Label) (chain : List Label) (slot : Nat) (acc : List Hop) :
    traceHops req ({ x with closed := true } :: chain) slot acc = traceHops req (x :: chain) slot acc := rfl

/-- The route found at a label that a step has closed is the one along its path (R90, R91). -/
theorem routeAlong_routeFound (req : FindReq) {ls : List Label} {i : Nat} {x : Label} {path : List Label}
    (hx : ls[i]? = some x) (h : pathTo ls i path) :
    routeAlong req x path (routeFound req (ls.set i { x with closed := true }) i) := by
  obtain ⟨c, x', hlast, hx'⟩ := pathTo_last ls i path h
  rw [hx] at hx'
  cases hx'
  have hreverse : path.reverse = x :: path.reverse.tail := by rw [hlast]; simp
  have hchain := chainOf_set_closed ls i x path h hx
  have hhops : (routeFound req (ls.set i { x with closed := true }) i).hops = hopsAlong (slotFor req) path := by
    simp only [routeFound, hchain, List.head?_cons, Option.map_some, Option.getD_some, traceHops_closed]
    rw [← hreverse]
    exact (traceHops_path req ls i path h [] _ x hx [] rfl rfl).trans (by rw [List.append_nil])
  have hregens : (routeFound req (ls.set i { x with closed := true }) i).regens =
      (path.filter (·.regenHere)).map (·.node) := by
    have hfilter : ((({ x with closed := true } : Label) :: path.reverse.tail).filter (·.regenHere)).map (·.node) =
        ((x :: path.reverse.tail).filter (·.regenHere)).map (·.node) := by
      cases hhere : x.regenHere <;> simp [hhere]
    simp only [routeFound, hchain]
    rw [hfilter, ← hreverse, List.filter_reverse, List.map_reverse, List.reverse_reverse]
  obtain ⟨harrivals, hpoints⟩ := h.counts x hx
  refine ⟨⟨rfl, rfl⟩, ⟨slotFor req, fun mask => takesSlot_slotFor req, hhops⟩, hregens, ?_, ?_⟩
  · rw [hhops, hopsAlong_length, harrivals]
  · rw [hregens, List.length_map, ← List.countP_eq_length_filter, hpoints]

/-! ### The completion validation (R92) -/

theorem State.regensSuffice_iff (s : State) (points : List NodeId) :
    s.regensSuffice points = true ↔
      ∀ id ∈ points, ∃ n, s.nodeOf id = some n ∧ n.regenInUse + points.count id ≤ n.regenTotal := by
  rw [State.regensSuffice, List.all_eq_true]
  refine forall_congr' fun id => imp_congr_right fun _ => ?_
  cases s.nodeOf id <;> simp

theorem State.routeFeasible_iff (s : State) (budget : Nat) (r : Route) :
    s.routeFeasible budget r = true ↔ ∀ x ∈ s.routeNoises r, x ≤ budget := by
  simp [State.routeFeasible]

/-- The validation of the routes of an answer makes the four tests of R92. -/
theorem State.validated_iff (s : State) (budget : Nat) (rs : List Route) :
    s.validated budget rs = true ↔ s.validates budget rs := by
  have htests : s.validated budget rs = true ↔
      (∀ r ∈ rs, (s.routeWhole r = true ∧ ∀ h ∈ r.hops, hasSlot (s.usable h.link h.dir) h.slot = true) ∧
        s.routeFeasible budget r = true) ∧ s.regensSuffice (rs.flatMap (·.regens)) = true := by
    simp [State.validated, State.routeUsable]
  rw [htests, State.regensSuffice_iff]
  simp only [State.routeWhole_iff, State.routeFeasible_iff]
  constructor
  · rintro ⟨hroutes, hregens⟩
    exact ⟨fun r hr => (hroutes r hr).1.1, fun r hr => (hroutes r hr).1.2,
      fun r hr id hid => hregens id (List.mem_flatMap.mpr ⟨r, hr, hid⟩), fun r hr => (hroutes r hr).2⟩
  · rintro ⟨hnamed, hslots, hregens, hnoises⟩
    refine ⟨fun r hr => ⟨⟨hnamed r hr, hslots r hr⟩, hnoises r hr⟩, fun id hid => ?_⟩
    obtain ⟨r, hr, hid⟩ := List.mem_flatMap.mp hid
    exact hregens r hr id hid

/-! ### What a primary excludes (R99) -/

theorem withReceivers_hops (hs : List Hop) (dest : NodeId) : (withReceivers hs dest).map (·.1) = hs := by
  induction hs with
  | nil => rfl
  | cons h hs ih => cases hs <;> simp_all [withReceivers]

/-- Each hop of a route has its receiving node. -/
theorem Route.mem_hops_iff (r : Route) (h : Hop) : h ∈ r.hops ↔ ∃ n, (h, n) ∈ r.received := by
  rw [← withReceivers_hops r.hops r.dest]
  simp [Route.received]

/-- A link is one of a route's links while it has the ends of a hop at its index (R99, assumption log 26). -/
theorem State.routeHasLink_iff (s : State) (r : Route) (k : Nat) :
    s.routeHasLink r k = true ↔
      ∃ l h n, s.linkAt k = some l ∧ (h, n) ∈ r.received ∧ h.link = k ∧ s.hasEndsOf l h n := by
  unfold State.routeHasLink State.hasEndsOf
  cases s.linkAt k with
  | none => simp
  | some l => simp [State.hopLink, and_assoc]

/-- What a FIND_PAIR keeps of its primary (R98, R99). -/
theorem State.primaryOf_keeps (s : State) (ctx : Context) (r : Route) (used : Nat) :
    s.keepsPrimary ctx r used (s.primaryOf ctx r used) where
  route := rfl
  labels := rfl
  links t x k hx := by
    rw [State.primaryLink, hx]
    exact t.routeHasLink_iff r k
  risks id := by
    simp only [State.primaryOf, List.mem_flatMap]
    constructor
    · rintro ⟨g, _, hid⟩
      split at hid
      · rename_i hlink
        obtain ⟨l, h, n, hl, hmem, hindex, hends⟩ := (s.routeHasLink_iff r g.link).mp hlink
        rw [hl] at hid
        exact ⟨l, h, n, hmem, by rw [hindex]; exact hl, hends, hid⟩
      · cases hid
    · rintro ⟨l, h, n, hmem, hl, hends, hid⟩
      have hlink := (s.routeHasLink_iff r h.link).mpr ⟨l, h, n, hl, hmem, rfl, hends⟩
      exact ⟨h, (r.mem_hops_iff h).mpr ⟨n, hmem⟩, by simpa [hlink, hl] using hid⟩
  nodes id := by
    simp only [State.primaryOf]
    cases ctx.req.nodeDisjoint with
    | true => simp only [if_true, List.mem_map, true_and]
    | false => simp

/-! ### The step at the destination (R82, R94, R98, R101) -/

theorem State.conclude_reserves (s : State) (e : EngineId) (ctx : Context) (ls : List Label) (first : Route)
    (second : Option Route) (h : ctx.req.reserve = true) :
    s.conclude e ctx ls first second = s.setEngine e (.committing ctx ls
      { first := first, second := second, budget := ctx.budget, hold := ctx.req.hold, tag := ctx.query.tag
        slot := ctx.slot }) := if_pos h

/-- A request that does not reserve and passes the validation is answered with its routes (R92, R101). -/
theorem State.conclude_answers (s : State) (e : EngineId) (ctx : Context) (ls : List Label) (first : Route)
    (second : Option Route) (h : ctx.req.reserve = false)
    (hv : s.validated ctx.budget (first :: second.toList) = true) :
    engineAnswered s (s.conclude e ctx ls first second) e ctx ls.length
      (ctx.answer e .done 0xFFFF (s.routesBody ctx ls.length first second 0xFFFF 0xFFFF)) := by
  simp only [State.conclude, h, hv, Bool.false_eq_true, if_false, if_true, State.routedBody_eq]
  exact s.engineAnswer_answered e ctx .done ls.length noTag _

theorem State.conclude_fails (s : State) (e : EngineId) (ctx : Context) (ls : List Label) (first : Route)
    (second : Option Route) (h : ctx.req.reserve = false)
    (hv : s.validated ctx.budget (first :: second.toList) = false) :
    attemptFailed s (s.conclude e ctx ls first second) e ctx .unstable ls.length := by
  simp only [State.conclude, h, hv, Bool.false_eq_true, if_false]
  exact s.failAttempt_failed e ctx .unstable ls.length

/-- The primary of a pair is found: the SECONDARY phase begins (R98 to R100). -/
theorem State.accept_primary (s : State) (e : EngineId) (ctx : Context) (ls : List Label) (i : Nat)
    (hpair : ctx.pair = true) (hphase : ctx.phase = .primary) :
    s.accept e ctx ls i = s.setEngine e (.searching
      { ctx with phase := .secondary (s.primaryOf ctx (routeFound ctx.req ls i) ls.length) }
      [s.startLabel ctx.req]) := by
  simp only [State.accept, hphase]
  exact if_pos hpair

/-- The last route of a query is found. -/
theorem State.accept_concludes (s : State) (e : EngineId) (ctx : Context) (ls : List Label) (i : Nat) (first : Route)
    (second : Option Route)
    (h : ctx.pair = false ∧ first = routeFound ctx.req ls i ∧ second = none ∨
      ctx.pair = true ∧ (∃ p, ctx.phase = .secondary p ∧ first = p.route) ∧ second = some (routeFound ctx.req ls i)) :
    s.accept e ctx ls i = s.conclude e ctx ls first second := by
  rcases h with ⟨hpair, rfl, rfl⟩ | ⟨hpair, ⟨p, hphase, rfl⟩, rfl⟩
  · simp only [State.accept, hpair, Bool.false_eq_true, if_false]
  · simp only [State.accept, hpair, hphase, if_true]

/-- A step that closes a label at the destination accepts or discards it (R82). -/
theorem State.closeLabel_arrives (s : State) (e : EngineId) (ctx : Context) (ls : List Label) (i : Nat) (x : Label)
    (hx : x.node = ctx.req.dest) :
    s.closeLabel e ctx ls i x =
      if min (x.noise + s.dropNoise ctx.req.dest) 16777215 ≤ ctx.budget then
        s.accept e ctx (ls.set i { x with closed := true }) i
      else s.setEngine e (.searching ctx (ls.set i { x with closed := true })) := by
  simp only [State.closeLabel, if_pos hx, setAt_eq_set, State.arriveAtDestination, satAdd, sumLimit]

/-- Settles O42: the step ends the phase where no label is OPEN; at the destination the route along the path of the label
closed concludes the query, or the SECONDARY phase of a pair begins. -/
theorem searchStep : Obligations.SearchStep := by
  unfold Obligations.SearchStep
  refine ⟨State.validated_iff, fun s e ctx ls hr he => ⟨fun hclosed => ?_, ?_⟩⟩
  · exact ⟨_, exec_searchStep_ends s e ctx ls hr he hclosed, s.endPhase_ended e ctx .noPath ls.length⟩
  · rintro i x _ _ hx rfl hdest rfl
    have hexec := exec_searchStep_closes s e ctx ls i x hr he hx
    rw [s.closeLabel_arrives e ctx ls i x hdest] at hexec
    refine ⟨fun path hpath => routeAlong_routeFound ctx.req hx.stored hpath, fun hbeyond => ?_, fun hwithin => ?_⟩
    · rwa [if_neg (Nat.not_le.mpr hbeyond)] at hexec
    · rw [if_pos hwithin] at hexec
      have hlength : (ls.set i { x with closed := true }).length = ls.length := List.length_set
      generalize ls.set i { x with closed := true } = closed at hexec hlength ⊢
      rw [← hlength]
      refine ⟨fun hpair hphase => ?_, fun first second hroutes => ?_⟩
      · rw [s.accept_primary e ctx closed i hpair hphase] at hexec
        exact ⟨_, s.primaryOf_keeps ctx _ closed.length, hexec⟩
      · rw [s.accept_concludes e ctx closed i first second hroutes] at hexec
        refine ⟨fun hreserve => ?_, fun hkeep hv => ?_, fun hkeep hv => ?_⟩
        · rwa [s.conclude_reserves e ctx closed first second hreserve] at hexec
        · exact ⟨_, hexec, s.conclude_answers e ctx closed first second hkeep hv⟩
        · exact ⟨_, hexec, s.conclude_fails e ctx closed first second hkeep hv⟩

end Sys2Proof.Machine
end

