-- ==== Sys2Proof/Proofs/Commits.lean ====
section
/-! SUPPORT. What a commit makes of the node table and the lightpath records (R106, R110, R113), how the table judges it
(R95), and the settlement of the statement about it. -/

namespace Sys2Proof.Machine

/-! ### Regenerators taken (R110) -/

/-- A node record with its in-use count raised by 1 for each naming (R110). -/
def Node.taken (n : Node) (ids : List NodeId) : Node := { n with regenInUse := n.regenInUse + ids.count n.id }

/-- A node record apart from its in-use count. -/
def Node.uncounted (n : Node) : Node := { n with regenInUse := 0 }

@[simp] theorem Node.taken_id (n : Node) (ids : List NodeId) : (n.taken ids).id = n.id := rfl

theorem Node.taken_taken (n : Node) (ids more : List NodeId) : (n.taken ids).taken more = n.taken (ids ++ more) := by
  simp [Node.taken, List.count_append, Nat.add_assoc]

/-- Between s and t regenerators have been taken at the nodes named: the in-use counts alone change, and where the node
table has one entry for each index and for each id each count rises by the namings of its node (R1, R110). -/
structure regensTaken (s t : State) (ids : List NodeId) : Prop where
  claims : t.store.claims = s.store.claims
  links : t.store.links = s.store.links
  keys : t.store.nodes.map (fun e => (e.1, e.2.uncounted)) = s.store.nodes.map fun e => (e.1, e.2.uncounted)
  counts : risingTable s.store.nodes = true → s.idsUnique → ∀ j, t.nodeAt j = (s.nodeAt j).map fun n => n.taken ids

theorem tableGet_uncounted (t : List (Nat × Node)) (j : Nat) :
    (tableGet t j).map Node.uncounted = tableGet (t.map fun e => (e.1, e.2.uncounted)) j :=
  (tableGet_map t Node.uncounted j).symm

theorem map_ids (t : List (Nat × Node)) :
    (t.map fun e => (e.1, e.2.uncounted)).map (fun e => e.2.id) = t.map fun e => e.2.id := by
  simp [Node.uncounted]

theorem map_keys (t : List (Nat × Node)) : tableKeys (t.map fun e => (e.1, e.2.uncounted)) = tableKeys t := by
  simp [tableKeys]

namespace regensTaken

variable {s t u : State} {ids more : List NodeId}

theorem rising (h : regensTaken s t ids) (hr : risingTable s.store.nodes = true) : risingTable t.store.nodes = true := by
  rw [risingTable_iff, ← map_keys] at *
  rwa [h.keys]

theorem idsUnique (h : regensTaken s t ids) (hu : s.idsUnique) : t.idsUnique := by
  unfold State.idsUnique at *
  rw [← map_ids] at *
  rwa [h.keys]

theorem trans (h : regensTaken s t ids) (h' : regensTaken t u more) : regensTaken s u (ids ++ more) where
  claims := h'.claims.trans h.claims
  links := h'.links.trans h.links
  keys := h'.keys.trans h.keys
  counts hr hu j := by
    rw [h'.counts (h.rising hr) (h.idsUnique hu) j, h.counts hr hu j, Option.map_map]
    exact congrArg (Option.map · (s.nodeAt j)) (funext fun n => n.taken_taken ids more)

/-- Which regenerators are taken goes by the store alone. -/
theorem of_store {s' t' : State} (h : regensTaken s t ids) (hs : s'.store = s.store) (ht : t'.store = t.store) :
    regensTaken s' t' ids := by
  refine ⟨?_, ?_, ?_, ?_⟩
  · rw [hs, ht, h.claims]
  · rw [hs, ht, h.links]
  · rw [hs, ht, h.keys]
  · unfold State.idsUnique State.nodeAt
    rw [hs, ht]
    exact h.counts

theorem changed (h : regensTaken s t ids) : regensChanged s t fun n => n.regenInUse + ids.count n.id where
  claims := h.claims
  links := h.links
  nodes j := by
    have hkeys := congrArg (tableGet · j) h.keys
    simp only [← tableGet_uncounted] at hkeys
    exact hkeys
  counts hc j n hn := by
    rw [h.counts hc.rising hc.ids j, hn]
    rfl

end regensTaken

/-- A node of the table is the one that its id gives (R1). -/
theorem State.nodeEntry_of_nodeAt {s : State} (hu : s.idsUnique) {j : Nat} {n : Node} (hn : s.nodeAt j = some n) :
    s.nodeEntry n.id = some (j, n) := by
  have hmem : (j, n) ∈ s.store.nodes := tableGet_mem _ _ _ hn
  cases he : s.nodeEntry n.id with
  | none => exact absurd (beq_self_eq_true n.id) (List.find?_eq_none.mp he _ hmem)
  | some e =>
    have hid : e.2.id = n.id := by simpa using List.find?_some he
    rw [List.inj_on_of_nodup_map hu (List.mem_of_find?_eq_some he) hmem hid]

/-- One regenerator taken at the node of an id (R110). -/
theorem State.updateNodeOf_taken (s : State) (id : NodeId) :
    regensTaken s (s.updateNodeOf id fun n => { n with regenInUse := n.regenInUse + 1 }) [id] := by
  unfold State.updateNodeOf State.indexOf
  cases he : s.nodeEntry id with
  | none =>
    refine ⟨rfl, rfl, rfl, fun _ hu j => ?_⟩
    cases hn : s.nodeAt j with
    | none => exact hn
    | some n =>
      have hne : id ≠ n.id := by
        rintro rfl
        rw [State.nodeEntry_of_nodeAt hu hn] at he
        cases he
      simp [hn, Node.taken, hne]
  | some e =>
    obtain ⟨i, m⟩ := e
    have hid : m.id = id := by simpa using List.find?_some he
    refine ⟨rfl, rfl, ?_, fun hr hu j => ?_⟩
    · simp only [Option.map_some, State.updateNode_store, tableUpdate, List.map_map]
      refine List.map_congr_left fun e _ => ?_
      simp only [Function.comp_apply]
      split <;> rfl
    · simp only [Option.map_some, State.nodeAt_updateNode]
      have hi := s.nodeAt_of_nodeEntry hr he
      by_cases hj : j = i
      · subst hj
        simp [hi, Node.taken, hid]
      · rw [if_neg hj]
        cases hn : s.nodeAt j with
        | none => rfl
        | some n =>
          have hne : id ≠ n.id := by
            rintro rfl
            rw [State.nodeEntry_of_nodeAt hu hn] at he
            cases he
            exact hj rfl
          simp [Node.taken, hne]

theorem State.takeRegens_taken (s : State) (ids : List NodeId) : regensTaken s (s.takeRegens ids) ids := by
  induction ids generalizing s with
  | nil => exact ⟨rfl, rfl, rfl, fun _ _ j => by simp [State.takeRegens, Node.taken]⟩
  | cons id ids ih => exact (s.updateNodeOf_taken id).trans (ih _)

theorem State.fillRecord_taken (s : State) (i : Nat) (p : Lightpath) :
    regensTaken s (s.fillRecord i p) p.route.regens :=
  ((s.setLightpath i p).takeRegens_taken p.route.regens).of_store rfl rfl

/-! ### FREE records (R113) -/

theorem State.freeIndexes_nodup (s : State) : s.freeIndexes.Nodup := by
  have hall : (s.records.zipIdx.map (·.2)).Nodup := by
    rw [List.zipIdx_map_snd]
    exact List.nodup_range'
  exact hall.sublist (List.filter_sublist.map _)

theorem State.freeIndexes_lt {s : State} {i : Nat} (h : i ∈ s.freeIndexes) : i < s.records.length := by
  obtain ⟨e, he, rfl⟩ := List.mem_map.mp h
  have hget := List.mem_zipIdx_iff_getElem?.mp (List.mem_of_mem_filter he)
  exact (List.getElem?_eq_some_iff.mp hget).1

/-! ### The judgement of a request (R95) -/

theorem State.judgeCommit_invalid {s : State} {q : CommitRequest} (h : s.validRoutes q.budget q.routes = false) :
    s.judgeCommit q = .invalid := if_pos h

theorem State.judgeCommit_rejected {s : State} {q : CommitRequest} (hv : s.validRoutes q.budget q.routes = true)
    (hh : s.holdableRoutes q.routes = false) : s.judgeCommit q = .rejected := by
  simp [State.judgeCommit, hv, hh]

theorem State.judgeCommit_tableFull {s : State} {q : CommitRequest} (hv : s.validRoutes q.budget q.routes = true)
    (hh : s.holdableRoutes q.routes = true) (hfree : s.freeIndexes.length < q.routes.length) :
    s.judgeCommit q = .tableFull := by
  simp only [State.judgeCommit, hv, hh]
  cases hs : q.second with
  | none =>
    have : s.freeIndexes = [] := by
      rw [← List.length_eq_zero_iff]
      simpa [CommitRequest.routes, hs] using hfree
    simp [this]
  | some r =>
    simp only [CommitRequest.routes, hs, Option.toList_some, List.length_cons, List.length_nil] at hfree
    match hf : s.freeIndexes with
    | [] => simp
    | [i] => simp
    | i :: j :: free =>
      rw [hf] at hfree
      simp at hfree

theorem State.judgeCommit_one {s : State} {q : CommitRequest} {i : Nat} {free : List Nat}
    (hv : s.validRoutes q.budget q.routes = true) (hh : s.holdableRoutes q.routes = true) (hq : q.second = none)
    (hfree : s.freeIndexes = i :: free) : s.judgeCommit q = .accepted i none := by
  simp [State.judgeCommit, hv, hh, hq, hfree]

theorem State.judgeCommit_two {s : State} {q : CommitRequest} {r : Route} {i j : Nat} {free : List Nat}
    (hv : s.validRoutes q.budget q.routes = true) (hh : s.holdableRoutes q.routes = true) (hq : q.second = some r)
    (hfree : s.freeIndexes = i :: j :: free) : s.judgeCommit q = .accepted i (some j) := by
  simp [State.judgeCommit, hv, hh, hq, hfree]

/-! ### The command -/

theorem exec_commit (s : State) (e : EngineId) (ctx : Context) (ls : List Label) (q : CommitRequest)
    (hr : s.running = true) (he : s.engine e = .committing ctx ls q) :
    exec (.commit e) s = .next (s.takeCommit e ctx ls q) := by
  simp only [exec, execCommit, hr, he, if_true]

/-- Between s and t the records have been filled for a request that the table accepts, and engine e has answered DONE
with the tag of the first (R95, R96, R113). -/
structure committedTo (s t : State) (e : EngineId) (ctx : Context) (used tag : Nat) (body : AnswerBody) : Prop where
  frame : sameBut [.store, .records, enginePart e, .writer] s t
  engine : t.engine e = .answering { ctx with labelsUsed := used }
  offered : offeredAnswer s t (ctx.answer e .done tag body)

/-- The engine answers once the records have been filled. -/
theorem State.engineAnswer_committed {s u : State} (hu : sameBut [.store, .records] s u) (e : EngineId) (ctx : Context)
    (used tag : Nat) (body : AnswerBody) :
    committedTo s (u.engineAnswer e ctx .done used tag body) e ctx used tag body := by
  have hanswered := u.engineAnswer_answered e ctx .done used tag body
  refine ⟨sameBut_then hu hanswered.frame (by cases e <;> decide) (by cases e <;> decide), hanswered.engine, ?_⟩
  have hwriter : u.writer = s.writer := hu.2 .writer (by decide)
  have hoffered := hanswered.offered
  unfold offeredAnswer at hoffered ⊢
  rwa [hwriter] at hoffered

theorem State.engineAnswer_recordAt (s : State) (e : EngineId) (ctx : Context) (st : Status) (used tag : Nat)
    (body : AnswerBody) (j : Nat) : (s.engineAnswer e ctx st used tag body).recordAt j = s.recordAt j := by
  cases e <;> rfl

theorem State.engineAnswer_store (s : State) (e : EngineId) (ctx : Context) (st : Status) (used tag : Nat)
    (body : AnswerBody) : (s.engineAnswer e ctx st used tag body).store = s.store := by
  cases e <;> rfl

/-- A request of one route that passes fills the FREE record of lowest index (R96, R113). -/
theorem State.takeCommit_one {s : State} {q : CommitRequest} {i : Nat} (e : EngineId) (ctx : Context) (ls : List Label)
    (hq : q.second = none) (h : s.judgeCommit q = .accepted i none) :
    s.takeCommit e ctx ls q = (s.fillRecord i (s.reservation q q.first none)).engineAnswer e ctx .done ls.length
      (s.recordTag i) (s.routesBody ctx ls.length q.first none (s.recordTag i) 0xFFFF) := by
  simp only [State.takeCommit, h, State.reserve, hq, State.routedBody_eq]
  rfl

/-- A request of two routes that passes fills the two FREE records of lowest index, each naming the other (R102, R113). -/
theorem State.takeCommit_two {s : State} {q : CommitRequest} {r : Route} {i j : Nat} (e : EngineId) (ctx : Context)
    (ls : List Label) (hq : q.second = some r) (h : s.judgeCommit q = .accepted i (some j)) :
    s.takeCommit e ctx ls q =
      ((s.fillRecord i (s.reservation q q.first (some (s.recordTag j)))).fillRecord j
        (s.reservation q r (some (s.recordTag i)))).engineAnswer e ctx .done ls.length (s.recordTag i)
        (s.routesBody ctx ls.length q.first (some r) (s.recordTag i) (s.recordTag j)) := by
  simp only [State.takeCommit, h, State.reserve, hq, State.routedBody_eq]
  rfl

/-- COMMIT of one route that passes (R96, R110, R113). -/
theorem oneRoute_committed {s : State} {q : CommitRequest} {i : Nat} {free : List Nat} (e : EngineId) (ctx : Context)
    (ls : List Label) (hq : q.second = none) (hv : s.validRoutes q.budget q.routes = true)
    (hh : s.holdableRoutes q.routes = true) (hfree : s.freeIndexes = i :: free) (t : State)
    (ht : t = s.takeCommit e ctx ls q) :
    committedTo s t e ctx ls.length (s.recordTag i)
        (s.routesBody ctx ls.length q.first none (s.recordTag i) 0xFFFF) ∧
      t.recordAt i = { gen := (s.recordAt i).gen, path := some (s.reservation q q.first none) } ∧
      (∀ j, j ≠ i → t.recordAt j = s.recordAt j) ∧
      regensChanged s t fun n => n.regenInUse + q.first.regens.count n.id := by
  have hi : i < s.records.length := State.freeIndexes_lt (by rw [hfree]; exact List.mem_cons_self)
  rw [State.takeCommit_one e ctx ls hq (State.judgeCommit_one hv hh hq hfree)] at ht
  subst ht
  refine ⟨State.engineAnswer_committed (s.fillRecord_frame i _) e ctx _ _ _, ?_, fun j hj => ?_, ?_⟩
  · rw [State.engineAnswer_recordAt, State.fillRecord_recordAt, if_pos ⟨rfl, hi⟩]
  · rw [State.engineAnswer_recordAt, State.fillRecord_recordAt, if_neg fun h => hj h.1.symm]
  · exact ((s.fillRecord_taken i (s.reservation q q.first none)).of_store rfl (State.engineAnswer_store ..)).changed

/-- COMMIT of two routes that pass (R96, R102, R110, R113). -/
theorem twoRoutes_committed {s : State} {q : CommitRequest} {r : Route} {i j : Nat} {free : List Nat} (e : EngineId)
    (ctx : Context) (ls : List Label) (hq : q.second = some r) (hv : s.validRoutes q.budget q.routes = true)
    (hh : s.holdableRoutes q.routes = true) (hfree : s.freeIndexes = i :: j :: free) (t : State)
    (ht : t = s.takeCommit e ctx ls q) :
    committedTo s t e ctx ls.length (s.recordTag i)
        (s.routesBody ctx ls.length q.first (some r) (s.recordTag i) (s.recordTag j)) ∧
      t.recordAt i =
        { gen := (s.recordAt i).gen, path := some (s.reservation q q.first (some (s.recordTag j))) } ∧
      t.recordAt j = { gen := (s.recordAt j).gen, path := some (s.reservation q r (some (s.recordTag i))) } ∧
      (∀ k, k ≠ i → k ≠ j → t.recordAt k = s.recordAt k) ∧
      regensChanged s t fun n => n.regenInUse + (q.first.regens ++ r.regens).count n.id := by
  have hi : i < s.records.length := State.freeIndexes_lt (by simp [hfree])
  have hj : j < s.records.length := State.freeIndexes_lt (by simp [hfree])
  have hij : i ≠ j := by
    have hnodup := s.freeIndexes_nodup
    rw [hfree] at hnodup
    simp only [List.nodup_cons, List.mem_cons, not_or] at hnodup
    exact hnodup.1.1
  rw [State.takeCommit_two e ctx ls hq (State.judgeCommit_two hv hh hq hfree)] at ht
  have hframe := s.fillRecord_frame i (s.reservation q q.first (some (s.recordTag j)))
  have htaken := s.fillRecord_taken i (s.reservation q q.first (some (s.recordTag j)))
  have hrecord := fun k => s.fillRecord_recordAt i k (s.reservation q q.first (some (s.recordTag j)))
  have hlength : (s.fillRecord i (s.reservation q q.first (some (s.recordTag j)))).records.length = s.records.length := by
    rw [State.fillRecord, State.takeRegens_records, State.setLightpath_records, setAt_length]
  generalize s.fillRecord i (s.reservation q q.first (some (s.recordTag j))) = u at *
  have hrecord' := fun k => u.fillRecord_recordAt j k (s.reservation q r (some (s.recordTag i)))
  rw [hlength] at hrecord'
  subst ht
  refine ⟨State.engineAnswer_committed (sameBut_trans hframe (u.fillRecord_frame j _)) e ctx _ _ _, ?_, ?_,
    fun k hki hkj => ?_, ?_⟩
  · rw [State.engineAnswer_recordAt, hrecord', if_neg fun h => hij h.1.symm, hrecord, if_pos ⟨rfl, hi⟩]
  · rw [State.engineAnswer_recordAt, hrecord', if_pos ⟨rfl, hj⟩, hrecord, if_neg fun h => hij h.1]
  · rw [State.engineAnswer_recordAt, hrecord', if_neg fun h => hkj h.1.symm, hrecord, if_neg fun h => hki h.1.symm]
  · exact ((htaken.trans (u.fillRecord_taken j (s.reservation q r (some (s.recordTag i))))).of_store rfl
      (State.engineAnswer_store ..)).changed

/-- Settles O44: by the table's judgement of the request; an accepted one by its number of routes. -/
theorem commitOutcomes : Obligations.CommitOutcomes := by
  unfold Obligations.CommitOutcomes
  rintro s e ctx ls q _ _ hr he rfl rfl
  have hexec := exec_commit s e ctx ls q hr he
  refine ⟨?_, ?_, fun hv hh hfree => ?_, fun hv => ?_, fun hv hh => ?_⟩
  · rintro i free _ hq hwhole hunlit hfeasible hunheld hregens hfree rfl
    have hv : s.validRoutes q.budget q.routes = true := by
      simp [State.validRoutes, CommitRequest.routes, hq, State.routeValid, hwhole, hunlit, hfeasible]
    have hh : s.holdableRoutes q.routes = true := by
      simp [State.holdableRoutes, CommitRequest.routes, hq, hunheld, hregens]
    obtain ⟨hcommitted, hrecord, hothers, hchanged⟩ := oneRoute_committed e ctx ls hq hv hh hfree _ rfl
    exact ⟨_, hexec, hcommitted.frame, hrecord, hothers, hchanged, hcommitted.engine, hcommitted.offered⟩
  · rintro i j free r _ _ hq hfirst hsecond hunheld hunheld' hregens hfree rfl rfl
    have hv : s.validRoutes q.budget q.routes = true := by
      simp [State.validRoutes, CommitRequest.routes, hq, hfirst, hsecond]
    have hh : s.holdableRoutes q.routes = true := by
      simp [State.holdableRoutes, CommitRequest.routes, hq, hunheld, hunheld', hregens]
    obtain ⟨hcommitted, hi, hj, hothers, hchanged⟩ := twoRoutes_committed e ctx ls hq hv hh hfree _ rfl
    exact ⟨_, hexec, hcommitted.frame, hi, hj, hothers, hchanged, hcommitted.engine, hcommitted.offered⟩
  · rw [State.takeCommit, State.judgeCommit_tableFull hv hh hfree, State.routedBody_eq] at hexec
    exact ⟨_, hexec, s.engineAnswer_answered e ctx .tableFull ls.length noTag _⟩
  · rw [State.takeCommit, State.judgeCommit_invalid hv] at hexec
    exact ⟨_, hexec, s.failAttempt_failed e ctx .unstable ls.length⟩
  · rw [State.takeCommit, State.judgeCommit_rejected hv hh] at hexec
    exact ⟨_, hexec, s.failAttempt_failed e ctx .contended ls.length⟩

end Sys2Proof.Machine
end

