-- ==== Sys2Proof/Proofs/SlotQueries.lean ====
section
/-! SUPPORT. Query slots whose query changes: the judgement of a record (R129), rewrites of QUEUED and IN_SERVICE slots
(R131, R132), the taking of an answer (R145), the assignment of a search (R77, R134), and the settlement of the
statements about them. -/

namespace Sys2Proof.Machine

/-! ### A record judged (R129) -/

/-- Between s and t the dispatcher's other slots and settle timer and the answer being written are as they were. -/
structure slotKept (s t : State) (slot : Nat) : Prop where
  others : ∀ j, j ≠ slot → tableGet t.dispatcher.slots j = tableGet s.dispatcher.slots j
  settle : t.dispatcher.settle = s.dispatcher.settle
  writing : t.writer.writing = s.writer.writing

namespace slotKept

variable {s t u : State} {slot : Nat}

theorem of_same (hd : t.dispatcher = s.dispatcher) (hw : t.writer.writing = s.writer.writing) : slotKept s t slot :=
  ⟨fun j _ => by rw [hd], by rw [hd], hw⟩

theorem trans (h : slotKept s t slot) (h' : slotKept t u slot) : slotKept s u slot :=
  ⟨fun j hj => (h'.others j hj).trans (h.others j hj), h'.settle.trans h.settle, h'.writing.trans h.writing⟩

theorem setSlot (s : State) (slot : Nat) (x : SlotQuery) : slotKept s (s.setSlot slot x) slot :=
  ⟨fun _ hj => tableGet_set_other _ _ _ _ hj, rfl, rfl⟩

theorem enqueue (s : State) (slot : Nat) (high : Bool) : slotKept s (s.enqueue slot high) slot := by
  cases high <;> exact ⟨fun _ _ => rfl, rfl, rfl⟩

theorem dequeue (s : State) (slot : Nat) : slotKept s (s.dequeue slot) slot := ⟨fun _ _ => rfl, rfl, rfl⟩

theorem clearSlot (s : State) (slot : Nat) : slotKept s (s.clearSlot slot) slot :=
  ⟨fun _ hj => tableGet_erase_other _ _ _ hj, rfl, rfl⟩

theorem answerBad (s : State) (slot : Nat) (raw : RawQuery) (reason : QueryReason) (clamped : Bool) :
    slotKept s (s.answerBad slot raw reason clamped) slot :=
  (setSlot s slot _).trans (of_same rfl rfl)

theorem judgeInto (s : State) (slot : Nat) (raw : RawQuery) : slotKept s (s.judgeInto slot raw) slot := by
  unfold State.judgeInto
  split
  · exact answerBad s slot raw _ _
  · exact (setSlot s slot _).trans (enqueue _ slot _)

end slotKept

/-- The judgement of a record of a slot that no query holds (R129). -/
theorem State.judgeInto_judged (s : State) (slot : Nat) (raw : RawQuery) :
    judgedTo (s.judgeInto slot raw) slot raw s.dispatcher.high s.dispatcher.low s.writer.answers := by
  unfold State.judgeInto
  constructor
  · intro q hq
    rw [hq]
    simp only [State.enqueue, State.setSlot]
    cases q.high <;> exact ⟨tableGet_set_self _ _ _, rfl, rfl, rfl⟩
  · intro reason clamped hbad
    rw [hbad]
    exact ⟨tableGet_set_self _ _ _, rfl, rfl, rfl⟩

/-- A judgement goes by the dispatcher and the answers alone. -/
theorem judgedTo.congr {t t' : State} {slot : Nat} {raw : RawQuery} {high low : List Nat} {answers : List Answer}
    (h : judgedTo t slot raw high low answers) (hd : t'.dispatcher = t.dispatcher) (hw : t'.writer = t.writer) :
    judgedTo t' slot raw high low answers := by
  unfold judgedTo at *
  rwa [hd, hw]

/-! ### A QUEUED slot rewritten (R131) -/

theorem slotKept.replaceQueued (s : State) (slot : Nat) (q : Query) (raw : RawQuery) :
    slotKept s (s.replaceQueued slot q raw) slot := by
  unfold State.replaceQueued
  split
  · exact (dequeue s slot).trans (answerBad _ slot raw _ _)
  · split
    · exact setSlot s slot _
    · exact ((dequeue s slot).trans (setSlot _ slot _)).trans (enqueue _ slot _)

/-- A good query of the same priority takes the place of the earlier one. -/
theorem State.replaceQueued_place (s : State) (slot : Nat) {q x : Query} {raw : RawQuery}
    (hx : judgeQuery raw.record = .good x) (hp : x.high = q.high) :
    s.replaceQueued slot q raw = s.setSlot slot (.queued x) := by
  simp only [State.replaceQueued, hx]
  exact if_pos hp

/-- Any other record is judged once the earlier query has left its queue. -/
theorem State.replaceQueued_leave (s : State) (slot : Nat) {q : Query} {raw : RawQuery}
    (h : ∀ x, judgeQuery raw.record = .good x → x.high ≠ q.high) :
    s.replaceQueued slot q raw = (s.dequeue slot).judgeInto slot raw := by
  unfold State.replaceQueued State.judgeInto
  cases hj : judgeQuery raw.record with
  | bad reason clamped => rfl
  | good x => exact if_neg (h x hj)

/-! ### An IN_SERVICE slot rewritten (R132, R103) -/

/-- Between s and t the query of a slot that was served at a place has been withdrawn there. -/
structure servingEnded (s t : State) (slot : Nat) (v : Serving) : Prop where
  dispatcher : t.dispatcher = s.dispatcher
  writing : t.writer.writing = s.writer.writing
  engines : ∀ g, t.engine g = if v = .engine g then .idle else s.engine g
  handoffs : t.handoffs = if v = .table ∨ v = .sweep then
    { s.handoffs with toTable := orphan slot s.handoffs.toTable, toSweep := orphan slot s.handoffs.toSweep }
    else s.handoffs
  answers : t.writer.answers = if v = .table ∨ v = .sweep then s.writer.answers
    else s.writer.answers.filter fun y => y.slot != slot

/-- Outside the port the earlier query is withdrawn where it is served, and the record judged (R132). -/
theorem State.rewriteInService_ended (s : State) (slot : Nat) (v : Serving) (raw : RawQuery) (hv : v ≠ .port) :
    ∃ u, s.rewriteInService slot v raw = u.judgeInto slot raw ∧ servingEnded s u slot v := by
  cases v with
  | engine e =>
    refine ⟨_, rfl, ⟨by cases e <;> rfl, by cases e <;> rfl, fun g => ?_, by cases e <;> rfl, by cases e <;> rfl⟩⟩
    refine (State.engine_setEngine s e g .idle).trans ?_
    simp only [Serving.engine.injEq, eq_comm]
  | answered => exact ⟨_, rfl, ⟨rfl, rfl, fun g => by cases g <;> rfl, rfl, rfl⟩⟩
  | table => exact ⟨_, rfl, ⟨rfl, rfl, fun g => by cases g <;> rfl, rfl, rfl⟩⟩
  | sweep => exact ⟨_, rfl, ⟨rfl, rfl, fun g => by cases g <;> rfl, rfl, rfl⟩⟩
  | port => exact absurd rfl hv

/-- What the completion of a record makes of an IN_SERVICE slot. -/
structure slotRewritten (s t : State) (slot : Nat) (v : Serving) (raw : RawQuery) : Prop where
  kept : slotKept s t slot
  engines : ∀ g, t.engine g = if v = .engine g then .idle else s.engine g
  handoffs : t.handoffs = if v = .table ∨ v = .sweep then
    { s.handoffs with toTable := orphan slot s.handoffs.toTable, toSweep := orphan slot s.handoffs.toSweep }
    else s.handoffs
  port : v = .port → tableGet t.dispatcher.slots slot = some (.inService .port (some raw)) ∧
    t.dispatcher.high = s.dispatcher.high ∧ t.dispatcher.low = s.dispatcher.low ∧ t.writer.answers = s.writer.answers
  judged : v ≠ .port → judgedTo t slot raw s.dispatcher.high s.dispatcher.low
    (if v = .table ∨ v = .sweep then s.writer.answers else s.writer.answers.filter fun y => y.slot != slot)

theorem State.rewriteInService_rewritten (s : State) (slot : Nat) (v : Serving) (raw : RawQuery) :
    slotRewritten s (s.rewriteInService slot v raw) slot v raw := by
  by_cases hv : v = .port
  · subst hv
    exact ⟨slotKept.setSlot s slot _, fun g => by cases g <;> rfl, rfl,
      fun _ => ⟨tableGet_set_self _ _ _, rfl, rfl, rfl⟩, fun h => absurd rfl h⟩
  · obtain ⟨u, hu, hended⟩ := s.rewriteInService_ended slot v raw hv
    have hframe := u.judgeInto_frame slot raw
    have hjudged := u.judgeInto_judged slot raw
    rw [hended.dispatcher, hended.answers] at hjudged
    rw [hu]
    exact ⟨(slotKept.of_same hended.dispatcher hended.writing).trans (slotKept.judgeInto u slot raw),
      fun g => (hframe.engine (by decide) (by decide) g).trans (hended.engines g),
      (hframe.2 .handoffs (by decide)).trans hended.handoffs, fun h => absurd h hv, fun _ => hjudged⟩

/-! ### HOST_WRITE_QUERY_SLOT that completes a record (R169) -/

/-- The tap looks at a write in a query window (R167). -/
theorem State.look_query (s : State) (addr : Nat) (data : Word) (enables : ByteMask) (w : Window)
    (hr : s.running = true) (hw : windowAt s.image addr = some w) (hk : w.kind = .query) :
    s.look addr data enables =
      s.writeQuery ((addr - w.base) / 256) ((addr - w.base) % 256 / 4) data enables := by
  simp [State.look, State.matchWrite, hr, hw, hk]

/-- A write that completes a query record: the staging closes, the record arrives, and the arbiter sets its next
turn. -/
theorem exec_hostWriteQuerySlot_completes {s : State} {a d : Word} {e : ByteMask} {r : Response} {w : Window}
    {slot : Nat} {ws : List StagedWord} {raw : RawQuery} (hr : s.running = true) (ha : a.toNat % 4 = 0)
    (hw : windowAt s.image a.toNat = some w) (hk : w.kind = .query) (hslot : slot = (a.toNat - w.base) / 256)
    (hlast : (a.toNat - w.base) % 256 / 4 = 63)
    (hmerged : mergedInto ((tableGet s.tap.queryStagings slot).getD (List.replicate 64 { image := 0#32, valid := 0#4 }))
      ws 63 d e)
    (hcloses : closesRecord ws 63 63) (hrec : recordOf ws 63 7 raw.record) :
    ∃ v, exec (.hostWriteQuerySlot a d e r) s = .next ((v.arriveQuery slot raw.record).afterHost) ∧
      sameBut [.freeCount, .memory, .upstream, .downstream, .tap] s v ∧ tableGet v.tap.queryStagings slot = none := by
  have hpass := s.passedWrite_frame a.toNat d e r
  have hsame := s.passedWrite_stagings a.toNat d e r
  have hexec : exec (.hostWriteQuerySlot a d e r) s = .next (s.hostWrite a.toNat d e r) :=
    s.hostWriteAt_aligned a d e r ha
  rw [State.hostWrite_eq] at hexec
  generalize s.passedWrite a.toNat d e r = u at hpass hsame hexec
  have hport : u.port = s.port := hpass.2 .port (by decide)
  have hrun : u.running = true := (State.running_congr hport (hpass.2 .busReset (by decide))).trans hr
  have hwin : windowAt u.image a.toNat = some w := by rw [State.image_congr hport, hw]
  have hwords : mergeStaged (u.queryWords slot) 63 d e = ws := by
    rw [State.queryWords, hsame.queries]
    exact ((mergedInto_iff _ _ _ _ _).mp hmerged).symm
  rw [u.look_query a.toNat d e w hrun hwin hk, ← hslot, hlast, State.writeQuery, hwords] at hexec
  simp only [(closesRecord_iff _ _ _).mp hcloses, if_true, ← (recordOf_iff _ _ _ _).mp hrec] at hexec
  exact ⟨_, hexec, sameBut_then hpass (u.setTap_frame _) (by decide) (by decide), tableGet_erase_self _ _⟩

/-- Settles O20: the staging closes, and the record replaces the slot's query where it is queued or served. -/
theorem queryRewrite : Obligations.QueryRewrite := by
  unfold Obligations.QueryRewrite
  rintro s a d e r w slot ws ⟨rec, settling⟩ hr ha hw hk hslot hlast hmerged hcloses hrec rfl
  obtain ⟨v, hexec, hframe, hstaging⟩ := exec_hostWriteQuerySlot_completes (r := r) (raw := ⟨rec, _⟩) hr ha hw hk hslot
    hlast hmerged hcloses hrec
  have hdispatcher : v.dispatcher = s.dispatcher := hframe.2 .dispatcher (by decide)
  have hwriter : v.writer = s.writer := hframe.2 .writer (by decide)
  have hsettling : v.settling = s.dispatcher.settle.isSome := by rw [State.settling, hdispatcher]
  generalize hraw : (⟨rec, s.dispatcher.settle.isSome⟩ : RawQuery) = raw at hexec ⊢
  have hsame : slotKept s v slot := .of_same hdispatcher (by rw [hwriter])
  refine ⟨fun q hq => ?_, fun serving x hx => ?_⟩
  · have harrive : v.arriveQuery slot raw.record = v.replaceQueued slot q raw := by
      simp only [State.arriveQuery, hdispatcher, hq, hsettling, ← hraw]
    rw [harrive] at hexec
    have hkept := hsame.trans (slotKept.replaceQueued v slot q raw)
    have hreplace := sameBut_then hframe (v.replaceQueued_frame slot q raw)
      (rs := [.freeCount, .memory, .upstream, .downstream, .tap, .dispatcher, .writer]) (by decide) (by decide)
    have htap : (v.replaceQueued slot q raw).tap = v.tap := (v.replaceQueued_frame slot q raw).2 .tap (by decide)
    refine ⟨_, hexec, sameBut_then hreplace (State.afterHost_frame _) (by decide) (by decide), ?_, hkept.settle,
      hkept.writing, hkept.others, fun y hy hhigh => ?_, fun hleave => ?_⟩
    · show tableGet (v.replaceQueued slot q raw).tap.queryStagings slot = none
      rw [htap, hstaging]
    · rw [v.replaceQueued_place slot hy hhigh]
      refine ⟨tableGet_set_self _ _ _, ?_, ?_, ?_⟩
      · exact congrArg Dispatcher.high (a₁ := v.dispatcher) hdispatcher
      · exact congrArg Dispatcher.low (a₁ := v.dispatcher) hdispatcher
      · exact congrArg Writer.answers hwriter
    · have hjudged := (v.dequeue slot).judgeInto_judged slot raw
      rw [← v.replaceQueued_leave slot hleave] at hjudged
      simp only [State.dequeue, State.setDispatcher_dispatcher, State.setDispatcher_writer, hdispatcher, hwriter] at hjudged
      exact hjudged.congr rfl rfl
  · have harrive : v.arriveQuery slot raw.record = v.rewriteInService slot serving raw := by
      simp only [State.arriveQuery, hdispatcher, hx, hsettling, ← hraw]
    rw [harrive] at hexec
    have hrewritten := v.rewriteInService_rewritten slot serving raw
    have hrewrite := sameBut_then hframe (v.rewriteInService_frame slot serving raw)
      (rs := [.freeCount, .memory, .upstream, .downstream, .tap, .dispatcher, .writer, .engine0, .engine1, .handoffs])
      (by decide) (by decide)
    have htap : (v.rewriteInService slot serving raw).tap = v.tap :=
      (v.rewriteInService_frame slot serving raw).2 .tap (by decide)
    have hkept := hsame.trans hrewritten.kept
    have hhandoffs : v.handoffs = s.handoffs := hframe.2 .handoffs (by decide)
    obtain ⟨_, hengines, hhanded, hwaits, hjudged⟩ := hrewritten
    rw [hhandoffs] at hhanded
    rw [hdispatcher, hwriter] at hwaits hjudged
    refine ⟨_, hexec, sameBut_then hrewrite (State.afterHost_frame _) (by decide) (by decide), ?_, hkept.settle,
      hkept.writing, hkept.others, fun g => ?_, hhanded, hwaits, fun hv => (hjudged hv).congr rfl rfl⟩
    · show tableGet (v.rewriteInService slot serving raw).tap.queryStagings slot = none
      rw [htap, hstaging]
    · have hafter : ((v.rewriteInService slot serving raw).afterHost).engine g =
          (v.rewriteInService slot serving raw).engine g := (State.afterHost_frame _).engine (by decide) (by decide) g
      rw [hafter, hengines, hframe.engine (by decide) (by decide)]

end Sys2Proof.Machine
end

