-- ==== Sys2Proof/Proofs/AnswersTaken.lean ====
section
/-! SUPPORT. A search taken by the dispatcher (R77, R133, R134) and an answer taken by the Result Writer (R105, R145),
and the settlement of the statements about them. -/

namespace Sys2Proof.Machine

/-! ### RESULT_WRITER_TAKE (R145) -/

theorem exec_resultWriterTake {s : State} {a : Answer} {rest : List Answer} (hr : s.running = true)
    (hw : s.writer.writing = none) (ha : s.writer.answers = a :: rest) :
    exec .resultWriterTake s = .next (s.takeAnswer a rest) := by
  simp [exec, execResultWriterTake, hr, hw, ha]

/-- The engine that gave an answer is freed, and no other. -/
theorem State.engine_freeSource (s : State) (x : AnswerSource) (g : EngineId) :
    (s.freeSource x).engine g = if x = .engine g then .idle else s.engine g := by
  cases x with
  | engine e =>
    refine (State.engine_setEngine s e g .idle).trans ?_
    simp only [AnswerSource.engine.injEq, eq_comm]
  | dispatcher => rfl
  | port => rfl

theorem State.freeSource_dispatcher (s : State) (x : AnswerSource) : (s.freeSource x).dispatcher = s.dispatcher := by
  cases x with
  | engine e => cases e <;> rfl
  | dispatcher => rfl
  | port => rfl

theorem State.freeSource_writer (s : State) (x : AnswerSource) : (s.freeSource x).writer = s.writer := by
  cases x with
  | engine e => cases e <;> rfl
  | dispatcher => rfl
  | port => rfl

theorem State.judgeSuccessor_frame (s : State) (slot : Nat) (x : Option RawQuery) :
    sameBut [.dispatcher, .writer] s (s.judgeSuccessor slot x) := by
  cases x with
  | none => exact sameBut_refl _ _
  | some raw => exact s.judgeInto_frame slot raw

/-- Once an answer is taken, its slot is IDLE, the engine that gave it is free, and its slot's successor is judged. -/
theorem State.takeAnswer_freed (s : State) (a : Answer) (rest : List Answer) :
    ∃ u : State, s.takeAnswer a rest = u.judgeSuccessor a.slot (s.successorOf a.slot) ∧
      u.writer = { answers := rest, writing := some { base := s.resultBase a.slot, answer := a, todo := none } } ∧
      u.dispatcher = { s.dispatcher with slots := tableErase s.dispatcher.slots a.slot } ∧
      ∀ g, u.engine g = if a.source = .engine g then .idle else s.engine g := by
  refine ⟨_, rfl, State.freeSource_writer _ _, ?_, fun g => ?_⟩
  · simp only [State.clearSlot, State.setDispatcher_dispatcher, State.freeSource_dispatcher,
      State.setWriter_dispatcher]
  · refine ((State.clearSlot_frame _ _).engine (by decide) (by decide) g).trans ?_
    refine (State.engine_freeSource _ a.source g).trans ?_
    cases g <;> rfl

/-- Settles O41: the answer's engine and slot are freed, and then the successor, if there is one, is judged. -/
theorem writerTakesAnswer : Obligations.WriterTakesAnswer := by
  unfold Obligations.WriterTakesAnswer
  intro s a rest hr hw ha
  obtain ⟨u, htake, hwriter, hdispatcher, hengines⟩ := s.takeAnswer_freed a rest
  have hframe := u.judgeSuccessor_frame a.slot (s.successorOf a.slot)
  have hfree : ∀ g, (s.takeAnswer a rest).engine g = if a.source = .engine g then .idle else s.engine g := fun g => by
    rw [htake, hframe.engine (by decide) (by decide), hengines]
  refine ⟨_, exec_resultWriterTake hr hw ha, s.takeAnswer_frame a rest, ?_, fun e he => (hfree e).trans (if_pos he),
    fun e he => (hfree e).trans (if_neg he), fun hnone => ?_, fun raw hraw => ?_⟩
  · have hwriting : (s.takeAnswer a rest).writer.writing = u.writer.writing := by
      rw [htake]
      cases s.successorOf a.slot with
      | none => rfl
      | some raw => exact (slotKept.judgeInto u a.slot raw).writing
    rw [hwriting, hwriter]
    rfl
  · rw [htake, hnone]
    refine ⟨congrArg Writer.answers hwriter, hdispatcher, ?_⟩
    rw [State.judgeSuccessor, hdispatcher]
    exact tableGet_erase_self _ _
  · have hkept := slotKept.judgeInto u a.slot raw
    have hjudged := u.judgeInto_judged a.slot raw
    rw [hdispatcher, hwriter] at hjudged
    rw [htake, hraw]
    refine ⟨hkept.settle.trans (by rw [hdispatcher]), fun j hj => (hkept.others j hj).trans ?_, hjudged⟩
    rw [hdispatcher]
    exact tableGet_erase_other _ _ _ hj

/-! ### DISPATCH_QUERY of a search (R77, R134) -/

/-- DISPATCH_QUERY of a FIND or FIND_PAIR: the query, PROVISIONAL while SETTLING, is served as a search. -/
theorem exec_dispatchQuery_search {s : State} {slot : Nat} {q : Query} {r : FindReq} {pair : Bool}
    (hr : s.running = true) (hn : s.nextSlot = some slot) (hq : s.queuedQuery slot = some q)
    (hbody : q.body = if pair then .findPair r else .find r) :
    exec .dispatchQuery s = .next
      ((s.dequeue slot).serveSearch slot { q with provisional := s.dispatcher.settle.isSome } r pair) := by
  have hsearch : q.body.isSearch = true := by
    rw [hbody]
    cases pair <;> rfl
  have htaken : s.takenQuery q = { q with provisional := s.dispatcher.settle.isSome } := by
    simp [State.takenQuery, hsearch, State.settling]
  have hserve : ∀ u : State, u.serve slot { q with provisional := s.dispatcher.settle.isSome } =
      u.serveSearch slot { q with provisional := s.dispatcher.settle.isSome } r pair := fun u => by
    cases pair <;> simp [State.serve, hbody]
  simp [exec, execDispatchQuery, hr, hn, hq, htaken, hserve]

theorem Engine.isIdle_iff (x : Engine) : x.isIdle = true ↔ x = .idle := by
  cases x <;> simp [Engine.isIdle]

theorem State.freeEngine_eq (s : State) : s.freeEngine = if s.engine0 = .idle then .e0 else .e1 := by
  simp only [State.freeEngine, Engine.isIdle_iff]

/-- Setting an engine changes that engine's part alone. -/
theorem State.setEngine_only (s : State) (e : EngineId) (x : Engine) : sameBut [enginePart e] s (s.setEngine e x) := by
  have hwriter : (s.setEngine e x).writer = s.writer := by cases e <;> rfl
  refine ⟨(s.setEngine_frame e x).1, fun p hp => ?_⟩
  by_cases hw : p = .writer
  · subst hw
    exact hwriter
  · refine (s.setEngine_frame e x).2 p fun hmem => ?_
    rcases List.mem_cons.mp hmem with rfl | hmem
    · exact hp List.mem_cons_self
    · exact hw (List.mem_singleton.mp hmem)

/-- A search between two fit nodes goes to the free engine, whose store holds the start label. -/
theorem State.serveSearch_assigned (s : State) (slot : Nat) (x : Query) (r : FindReq) (pair : Bool)
    (hsource : s.fitNode r.source = true) (hdest : s.fitNode r.dest = true) (hne : r.source ≠ r.dest) :
    (s.dequeue slot).serveSearch slot x r pair = (s.dequeue slot).assign slot x r pair := by
  have hsource : (s.dequeue slot).fitNode r.source = true := hsource
  have hdest : (s.dequeue slot).fitNode r.dest = true := hdest
  simp [State.serveSearch, hsource, hdest, hne]

/-- A search that an endpoint forbids is answered. -/
theorem State.serveSearch_answered (s : State) (slot : Nat) (x : Query) (r : FindReq) (pair : Bool) {st : Status}
    {n : Nat} (h : s.fitNode r.source = false ∧ st = .unknownNode ∧ n = 1 ∨
      s.fitNode r.source = true ∧ s.fitNode r.dest = false ∧ st = .unknownNode ∧ n = 2 ∨
      s.fitNode r.source = true ∧ s.fitNode r.dest = true ∧ r.source = r.dest ∧ st = .sameEndpoints ∧ n = 0) :
    (s.dequeue slot).serveSearch slot x r pair = (s.dequeue slot).respond slot x st n (emptyBody x.kind) := by
  have hfit : ∀ id, (s.dequeue slot).fitNode id = s.fitNode id := fun _ => rfl
  rw [State.serveSearch, hfit, hfit]
  rcases h with ⟨hsource, rfl, rfl⟩ | ⟨hsource, hdest, rfl, rfl⟩ | ⟨-, hdest, heq, rfl, rfl⟩
  · simp [hsource]
  · simp [hsource, hdest]
  · simp [heq, hdest]

/-- Settles O37: the endpoints decide between the assignment to the free engine and an answer. -/
theorem searchAssigned : Obligations.SearchAssigned := by
  unfold Obligations.SearchAssigned
  rintro s slot q x r pair hr hn hq hbody rfl
  rw [exec_dispatchQuery_search hr hn hq hbody]
  refine ⟨fun hsource hdest hne e he => ⟨_, rfl, ?_⟩, fun st n h => ⟨_, rfl, ?_⟩⟩
  · have hfree : (s.dequeue slot).freeEngine = e := ((s.dequeue slot).freeEngine_eq).trans he.symm
    rw [s.serveSearch_assigned slot _ r pair hsource hdest hne]
    simp only [State.assign, hfree]
    refine ⟨?_, ?_, (State.engine_setEngine _ e e _).trans (if_pos rfl)⟩
    · have hset := sameBut_then (s.dequeue_frame slot) (State.setSlot_frame _ slot (.inService (.engine e) none))
        (rs := [.dispatcher]) (by decide) (by decide)
      exact sameBut_then hset (State.setEngine_only _ e _) (by simp) (by simp)
    · cases e <;> rfl
  · rw [s.serveSearch_answered slot _ r pair h]
    exact ⟨s.respond_only slot _ st n _, State.respond_dispatcher rfl _ st n _, State.respond_answer rfl slot _ st n _⟩

end Sys2Proof.Machine
end

