-- ==== Sys2Proof/Proofs/CommandFrames.lean ====
section
/-! SUPPORT. The frame of every command: which parts of the state it can change besides the queue (Safety.lean:
sameBut). -/

namespace Sys2Proof.Machine

/-! ### What a command answers -/

/-- The next state that a command answers, if it answers one, has a property. -/
def nextMeets (P : State → Prop) (o : Host.Outcome State Fault Refusal) : Prop := ∀ t, o = .next t → P t

theorem nextMeets_next {P : State → Prop} {t : State} (h : P t) : nextMeets P (.next t) := by
  rintro u ⟨⟩
  exact h

/-- A command that acts under a condition, as while the part runs. -/
theorem nextMeets_ite {P : State → Prop} {s : State} {o : Host.Outcome State Fault Refusal} {c : Prop} [Decidable c]
    (hs : P s) (h : nextMeets P o) : nextMeets P (if c then o else .next s) := by
  split
  · exact h
  · exact nextMeets_next hs

/-- A command that answers a next state changes no part but those listed. -/
def answersWithin (ps : List Part) (s : State) (o : Host.Outcome State Fault Refusal) : Prop :=
  nextMeets (sameBut ps s) o

theorem answersWithin_self (ps : List Part) (s : State) : answersWithin ps s (.next s) :=
  nextMeets_next (sameBut_refl ps s)

theorem answersWithin_next {ps qs : List Part} {s t : State} (h : sameBut ps s t) (hps : ∀ p ∈ ps, p ∈ qs) :
    answersWithin qs s (.next t) := nextMeets_next (sameBut_mono h hps)

/-- A command of two changes, one after the other. -/
theorem answersWithin_then {ps qs rs : List Part} {s t u : State} (h : sameBut ps s t) (h' : sameBut qs t u)
    (hps : ∀ p ∈ ps, p ∈ rs) (hqs : ∀ p ∈ qs, p ∈ rs) : answersWithin rs s (.next u) :=
  answersWithin_next (sameBut_then h h' hps hqs) fun _ hp => hp

/-- A command that takes a hand-off and acts on it. -/
theorem answersWithin_taken {ps qs : List Part} {s t : State} (x : Handoffs) (h : sameBut ps (s.setHandoffs x) t)
    (hx : .handoffs ∈ qs) (hps : ∀ p ∈ ps, p ∈ qs) : answersWithin qs s (.next t) :=
  answersWithin_then (s.setHandoffs_frame x) h (fun _ hp => List.mem_singleton.mp hp ▸ hx) hps

theorem answersWithin_ite {ps : List Part} {s : State} {o : Host.Outcome State Fault Refusal} {c : Prop} [Decidable c]
    (h : answersWithin ps s o) : answersWithin ps s (if c then o else .next s) :=
  nextMeets_ite (sameBut_refl ps s) h

/-! ### The parts that each command can change -/

/-- The parts of the state that a host write can change. -/
def hostWriteParts : List Part :=
  [.freeCount, .memory, .upstream, .downstream, .tap, .intake, .notices, .engine0, .engine1, .handoffs, .dispatcher,
    .writer]

/-- The parts of the state that a command can change. -/
def changedParts : Instr → List Part
  | .powerOn => blockParts
  | .loadAttemptStart => [.port]
  | .loadReadEnd _ => [.port, .tap, .notices, .sweep, .dispatcher]
  | .busResetAssert => .busReset :: blockParts
  | .busResetDeassert => [.busReset, .sweep]
  | .hostRead _ _ => [.freeCount, .memory, .upstream, .downstream, .tap]
  | .hostWrite _ _ _ _ | .hostWriteReportSlot _ _ _ _ => hostWriteParts
  | .hostWriteQuerySlot _ _ _ _ | .consumerIndexWrite _ _ _ _ => hostWriteParts
  | .intakeTakeRecord => [.intake, .store, .handoffs, .notices, .sweep]
  | .observationUp => [.handoffs, .store, .notices, .sweep]
  | .observationDown | .nodeHoldExpiry _ => [.handoffs, .store, .notices]
  | .claimHoldExpiry _ _ | .holdoffExpiry _ _ => [.store]
  | .dispatchQuery => blockParts
  | .saveEnd _ => [.port, .notices, .writer]
  | .reloadReadEnd _ => [.port, .tap, .store, .handoffs, .sweep, .notices, .writer]
  | .settleTimerExpiry => [.dispatcher]
  | .searchStep _ => [.engine0, .engine1, .writer]
  | .commit _ => [.store, .records, .engine0, .engine1, .writer]
  | .activate => [.handoffs, .records, .notices, .sweep, .dispatcher, .writer]
  | .release => [.handoffs, .store, .records, .dispatcher, .writer]
  | .adopt => [.handoffs, .store, .records, .notices, .sweep, .dispatcher, .writer]
  | .litCheck => [.handoffs, .records, .notices, .sweep]
  | .hopLostEvent _ => [.handoffs, .records, .notices]
  | .reservationExpiry _ => [.store, .records, .notices]
  | .sweepResult => [.sweep, .records, .notices]
  | .startSingle | .startCyclic | .stop => [.handoffs, .sweep, .notices, .dispatcher, .writer]
  | .sweepStep => [.sweep, .notices]
  | .sweepTimerExpiry => [.sweep]
  | .alarmRisingEdge | .alarmInputFall => [.alarmInput, .sweep]
  | .resultWriterTake => [.engine0, .engine1, .dispatcher, .writer]
  | .resultWordHandoff => [.tap, .writer, .notices]
  | .noticeTake => [.notices]
  | .noticeWordHandoff => [.tap, .notices]
  | .writeBufferDrain _ => [.freeCount, .memory, .downstream, .tap]

section Commands

variable (s : State)

/-! ### Start-up and the Configuration Port (11) -/

theorem powerOn_frame : answersWithin (changedParts .powerOn) s (exec .powerOn s) :=
  answersWithin_next (ps := blockParts)
    ⟨rfl, fun p hp => by cases p <;> simp [agree, blockParts] at hp ⊢⟩ fun _ hp => hp

theorem loadAttemptStart_frame : answersWithin (changedParts .loadAttemptStart) s (exec .loadAttemptStart s) := by
  simp only [exec, execLoadAttemptStart]
  split
  · exact answersWithin_next (s.setPort_frame _) (by decide)
  · exact answersWithin_next (s.setPort_frame _) (by decide)
  · exact answersWithin_self _ s

theorem loadReadEnd_frame (bs : List Byte) :
    answersWithin (changedParts (.loadReadEnd bs)) s (exec (.loadReadEnd bs) s) := by
  simp only [exec, execLoadReadEnd, changedParts]
  split
  · exact answersWithin_then (s.setPort_frame _) (State.endAttempt_frame _ bs) (by decide) (by decide)
  · exact answersWithin_next (s.endAttempt_frame bs) (by decide)
  · exact answersWithin_self _ s

theorem busResetAssert_frame : answersWithin (changedParts .busResetAssert) s (exec .busResetAssert s) := by
  have hlevel : sameBut [.busReset] s { s with busReset := true } :=
    ⟨rfl, fun p hp => by cases p <;> simp [agree] at hp ⊢⟩
  have hvalues : ∀ u : State, sameBut blockParts u u.busResetValues := fun u =>
    ⟨rfl, fun p hp => by
      cases p <;> simp [agree, blockParts, State.busResetValues, State.startNotices, State.startTimers,
        State.startSweepUnit, State.startSettle] at hp ⊢⟩
  simp only [exec, execBusResetAssert]
  split
  · exact answersWithin_self _ s
  · split
    · exact answersWithin_then hlevel (hvalues _) (by decide) (by decide)
    · exact answersWithin_next hlevel (by decide)

theorem busResetDeassert_frame : answersWithin (changedParts .busResetDeassert) s (exec .busResetDeassert s) := by
  have hlevel : sameBut [.busReset] s { s with busReset := false } :=
    ⟨rfl, fun p hp => by cases p <;> simp [agree] at hp ⊢⟩
  refine answersWithin_ite ?_
  simp only
  split
  · exact answersWithin_then hlevel (State.setSweep_frame _ _) (by decide) (by decide)
  · exact answersWithin_next hlevel (by decide)

theorem saveEnd_frame (bs : List Byte) : answersWithin (changedParts (.saveEnd bs)) s (exec (.saveEnd bs) s) := by
  refine answersWithin_ite ?_
  simp only [changedParts]
  split
  · split
    · exact answersWithin_next (s.endPortQuery_told_frame _ _ _ _ _ _) (by decide)
    · exact answersWithin_then (s.hand_frame _) (State.endPortQuery_frame _ _ _ _ _) (by decide) (by decide)
  · exact answersWithin_self _ s

theorem reloadReadEnd_frame (bs : List Byte) :
    answersWithin (changedParts (.reloadReadEnd bs)) s (exec (.reloadReadEnd bs) s) := by
  refine answersWithin_ite ?_
  simp only [changedParts]
  split
  · split
    · exact answersWithin_next (s.reloaded_frame _ _ bs) (by decide)
    · exact answersWithin_then (s.hand_frame _) (State.endPortQuery_frame _ _ _ _ _) (by decide) (by decide)
  · exact answersWithin_self _ s

/-! ### The Bus Tap (10) -/

theorem hostRead_frame (x : ReadAccess) (r : Response) :
    answersWithin (changedParts (.hostRead x r)) s (exec (.hostRead x r) s) := by
  have hpass : answersWithin (changedParts (.hostRead x r)) s (.next (s.passRead x.addr.toNat x.enables r)) :=
    answersWithin_next (s.passRead_frame _ _ r) fun _ hp => hp
  simp only [exec, execHostRead, State.hostRead]
  split
  · split
    · exact hpass
    · split
      · exact answersWithin_next (ps := [.upstream])
          ⟨rfl, fun p hp => by cases p <;> simp [agree] at hp ⊢⟩ (by simp [changedParts])
      · exact hpass
  · rintro t ⟨⟩

theorem hostWriteAt_frame (a d : Word) (e : ByteMask) (r : Response) :
    answersWithin hostWriteParts s (s.hostWriteAt a d e r) := by
  unfold State.hostWriteAt
  split
  · rw [State.hostWrite_eq]
    have hlook := sameBut_then (s.passedWrite_frame a.toNat d e r) (State.look_frame _ a.toNat d e)
      (rs := hostWriteParts) (by decide) (by decide)
    exact answersWithin_then hlook (State.afterHost_frame _) (fun _ hp => hp) (by decide)
  · rintro t ⟨⟩

theorem resultWordHandoff_frame : answersWithin (changedParts .resultWordHandoff) s (exec .resultWordHandoff s) := by
  refine answersWithin_ite ?_
  split
  · exact answersWithin_self _ s
  · split
    · exact answersWithin_next (s.writeOn_frame _ _) (by decide)
    · split
      · rename_i t ht
        exact answersWithin_then (State.handWord_frame _ _ _ _ _ ht) (t.writeOn_frame _ _) (by decide) (by decide)
      · exact answersWithin_then (s.writeOn_frame _ _) (State.setTap_frame _ _) (by decide) (by decide)

theorem noticeTake_frame : answersWithin (changedParts .noticeTake) s (exec .noticeTake s) := by
  refine answersWithin_ite ?_
  split
  · exact answersWithin_self _ s
  · exact answersWithin_then (s.setNotices_frame _) (State.takeNotice_frame _ _) (by decide) (by decide)

/-! ### Report Intake, the Topology Store and the Span Conditioner (01 to 03) -/

theorem intakeTakeRecord_frame : answersWithin (changedParts .intakeTakeRecord) s (exec .intakeTakeRecord s) := by
  refine answersWithin_ite ?_
  split
  · exact answersWithin_self _ s
  · exact answersWithin_then (s.setIntake_frame _) (State.judgeRecord_frame _ _) (by decide) (by decide)

theorem observationUp_frame : answersWithin (changedParts .observationUp) s (exec .observationUp s) := by
  refine answersWithin_ite ?_
  split
  · exact answersWithin_self _ s
  · exact answersWithin_ite (answersWithin_taken _ (State.observeUp_frame _ _ _) (by decide) (by decide))

theorem observationDown_frame : answersWithin (changedParts .observationDown) s (exec .observationDown s) := by
  refine answersWithin_ite ?_
  split
  · exact answersWithin_self _ s
  · split
    · exact answersWithin_self _ s
    · exact answersWithin_taken _ (State.observeDown_frame _ _ _) (by decide) (by decide)

theorem nodeHoldExpiry_frame (i : Nat) :
    answersWithin (changedParts (.nodeHoldExpiry i)) s (exec (.nodeHoldExpiry i) s) := by
  refine answersWithin_ite ?_
  simp only [changedParts]
  split
  · exact answersWithin_self _ s
  · refine answersWithin_ite ?_
    unfold State.expireNode
    split
    · exact answersWithin_next (s.goStale_frame i _) (by decide)
    · exact answersWithin_then (s.removeNode_frame i _) (State.hand_frame _ _) (by decide) (by decide)

theorem claimHoldExpiry_frame (i port : Nat) :
    answersWithin (changedParts (.claimHoldExpiry i port)) s (exec (.claimHoldExpiry i port) s) := by
  refine answersWithin_ite ?_
  split
  · exact answersWithin_self _ s
  · exact answersWithin_ite (answersWithin_next (s.removeClaim_frame i port) fun _ hp => hp)

theorem holdoffExpiry_frame (k : Nat) (d : Dir) :
    answersWithin (changedParts (.holdoffExpiry k d)) s (exec (.holdoffExpiry k d) s) := by
  simp only [exec, execHoldoffExpiry]
  split
  · exact answersWithin_self _ s
  · exact answersWithin_ite (answersWithin_next (s.setDirection_frame k d _) fun _ hp => hp)

/-! ### The Query Dispatcher, the Result Writer and the Path Engines (05, 07) -/

theorem dispatchQuery_frame : answersWithin (changedParts .dispatchQuery) s (exec .dispatchQuery s) := by
  refine answersWithin_ite ?_
  split
  · exact answersWithin_self _ s
  · split
    · exact answersWithin_self _ s
    · exact answersWithin_then (s.dequeue_frame _) (State.serve_frame _ _ _) (by decide) (by decide)

theorem resultWriterTake_frame : answersWithin (changedParts .resultWriterTake) s (exec .resultWriterTake s) := by
  refine answersWithin_ite ?_
  split
  · exact answersWithin_self _ s
  · exact answersWithin_next (s.takeAnswer_frame _ _) fun _ hp => hp

theorem searchStep_frame (e : EngineId) :
    answersWithin (changedParts (.searchStep e)) s (exec (.searchStep e) s) := by
  have hparts : ∀ p ∈ [enginePart e, .writer], p ∈ [Part.engine0, .engine1, .writer] := by cases e <;> decide
  refine answersWithin_ite ?_
  split
  · split
    · exact answersWithin_next (s.endPhase_frame e _ _ _) hparts
    · exact answersWithin_next (s.closeLabel_frame e _ _ _ _) hparts
  · exact answersWithin_self _ s

/-! ### The Lightpath Table (06) -/

theorem commit_frame (e : EngineId) : answersWithin (changedParts (.commit e)) s (exec (.commit e) s) := by
  refine answersWithin_ite ?_
  split
  · exact answersWithin_next (s.takeCommit_frame e _ _ _) (by cases e <;> decide)
  · exact answersWithin_self _ s

theorem activate_frame : answersWithin (changedParts .activate) s (exec .activate s) := by
  refine answersWithin_ite ?_
  split
  · exact answersWithin_self _ s
  · split
    · exact answersWithin_taken _ (State.activate_frame _ _ _) (by decide) (by decide)
    · exact answersWithin_self _ s

theorem release_frame : answersWithin (changedParts .release) s (exec .release s) := by
  refine answersWithin_ite ?_
  split
  · exact answersWithin_self _ s
  · split
    · exact answersWithin_taken _ (State.release_frame _ _ _) (by decide) (by decide)
    · exact answersWithin_self _ s

theorem adopt_frame : answersWithin (changedParts .adopt) s (exec .adopt s) := by
  refine answersWithin_ite ?_
  split
  · exact answersWithin_self _ s
  · split
    · exact answersWithin_taken _ (State.adopt_frame _ _ _ _ _ _) (by decide) (by decide)
    · exact answersWithin_self _ s

theorem litCheck_frame : answersWithin (changedParts .litCheck) s (exec .litCheck s) := by
  refine answersWithin_ite ?_
  split
  · exact answersWithin_self _ s
  · exact answersWithin_self _ s
  · exact answersWithin_taken _ (State.checkLit_frame _ _ _ _ _) (by decide) (by decide)

theorem hopLostEvent_frame (source : LostSource) :
    answersWithin (changedParts (.hopLostEvent source)) s (exec (.hopLostEvent source) s) := by
  have htaken : ∀ (x : Handoffs) (l : HopLost),
      answersWithin [.handoffs, .records, .notices] s (.next ((s.setHandoffs x).takeHopLost l)) := fun x l =>
    answersWithin_taken x (State.takeHopLost_frame _ l) (by decide) (by decide)
  refine answersWithin_ite ?_
  cases source <;>
    · simp only
      split
      · exact htaken _ _
      · exact answersWithin_self _ s

theorem reservationExpiry_frame (i : Nat) :
    answersWithin (changedParts (.reservationExpiry i)) s (exec (.reservationExpiry i) s) := by
  refine answersWithin_ite ?_
  split
  · exact answersWithin_self _ s
  · exact answersWithin_ite (answersWithin_next (s.expireRecord_frame i _) fun _ hp => hp)

theorem sweepResult_frame : answersWithin (changedParts .sweepResult) s (exec .sweepResult s) := by
  refine answersWithin_ite ?_
  split
  · exact answersWithin_self _ s
  · exact answersWithin_then (s.setSweep_frame _) (State.applyResult_frame _ _) (by decide) (by decide)

/-! ### The Sweep Unit (08) -/

/-- A SWEEP taken from its hand-off, acted on and answered. -/
theorem sweepQuery_frame {t : State} (x : Handoffs) (h : Handed) (ht : sameBut [.sweep, .notices] (s.setHandoffs x) t) :
    answersWithin [.handoffs, .sweep, .notices, .dispatcher, .writer] s (.next (t.answerSweep h)) :=
  answersWithin_taken x (sameBut_then ht (State.reply_frame t h _ _ _ _)
    (rs := [.sweep, .notices, .dispatcher, .writer]) (by decide) (by decide)) (by decide) (by decide)

theorem startSingle_frame : answersWithin (changedParts .startSingle) s (exec .startSingle s) := by
  refine answersWithin_ite ?_
  split
  · exact answersWithin_self _ s
  · exact sweepQuery_frame s _ _ (State.startSweep_frame _ _)

theorem startCyclic_frame : answersWithin (changedParts .startCyclic) s (exec .startCyclic s) := by
  refine answersWithin_ite ?_
  split
  · exact answersWithin_self _ s
  · exact sweepQuery_frame s _ _ (State.startSweep_frame _ _)

theorem stop_frame : answersWithin (changedParts .stop) s (exec .stop s) := by
  refine answersWithin_ite ?_
  split
  · exact answersWithin_self _ s
  · exact sweepQuery_frame s _ _ (State.stopSweep_frame _)

theorem sweepStep_frame : answersWithin (changedParts .sweepStep) s (exec .sweepStep s) := by
  refine answersWithin_ite ?_
  split
  · exact answersWithin_then (s.setSweep_frame _) (State.evaluate_frame _ _) (by decide) (by decide)
  · exact answersWithin_next (s.walk_frame _) fun _ hp => hp
  · exact answersWithin_self _ s

theorem alarmRisingEdge_frame : answersWithin (changedParts .alarmRisingEdge) s (exec .alarmRisingEdge s) := by
  have hlevel : sameBut [.alarmInput] s { s with alarmInput := true } :=
    ⟨rfl, fun p hp => by cases p <;> simp [agree] at hp ⊢⟩
  simp only [exec, execAlarmRisingEdge]
  split
  · exact answersWithin_then hlevel (State.setSweep_frame _ _) (by decide) (by decide)
  · exact answersWithin_next hlevel (by decide)

theorem alarmInputFall_frame : answersWithin (changedParts .alarmInputFall) s (exec .alarmInputFall s) := by
  have hlevel : sameBut [.alarmInput] s { s with alarmInput := false } :=
    ⟨rfl, fun p hp => by cases p <;> simp [agree] at hp ⊢⟩
  simp only [exec, execAlarmInputFall]
  split
  · exact answersWithin_then hlevel (State.setSweep_frame _ _) (by decide) (by decide)
  · exact answersWithin_next hlevel (by decide)

end Commands

/-! ### Every command -/

/-- Each command changes no part of the state but those listed for it. -/
theorem exec_frame (s : State) (c : Instr) : answersWithin (changedParts c) s (exec c s) := by
  cases c with
  | powerOn => exact powerOn_frame s
  | loadAttemptStart => exact loadAttemptStart_frame s
  | loadReadEnd bs => exact loadReadEnd_frame s bs
  | busResetAssert => exact busResetAssert_frame s
  | busResetDeassert => exact busResetDeassert_frame s
  | hostRead x r => exact hostRead_frame s x r
  | hostWrite a d e r | hostWriteReportSlot a d e r | hostWriteQuerySlot a d e r | consumerIndexWrite a d e r =>
    exact hostWriteAt_frame s a d e r
  | intakeTakeRecord => exact intakeTakeRecord_frame s
  | observationUp => exact observationUp_frame s
  | observationDown => exact observationDown_frame s
  | nodeHoldExpiry i => exact nodeHoldExpiry_frame s i
  | claimHoldExpiry i port => exact claimHoldExpiry_frame s i port
  | holdoffExpiry k d => exact holdoffExpiry_frame s k d
  | dispatchQuery => exact dispatchQuery_frame s
  | saveEnd bs => exact saveEnd_frame s bs
  | reloadReadEnd bs => exact reloadReadEnd_frame s bs
  | settleTimerExpiry => exact answersWithin_ite (answersWithin_next (s.setDispatcher_frame _) fun _ hp => hp)
  | searchStep e => exact searchStep_frame s e
  | commit e => exact commit_frame s e
  | activate => exact activate_frame s
  | release => exact release_frame s
  | adopt => exact adopt_frame s
  | litCheck => exact litCheck_frame s
  | hopLostEvent source => exact hopLostEvent_frame s source
  | reservationExpiry i => exact reservationExpiry_frame s i
  | sweepResult => exact sweepResult_frame s
  | startSingle => exact startSingle_frame s
  | startCyclic => exact startCyclic_frame s
  | stop => exact stop_frame s
  | sweepStep => exact sweepStep_frame s
  | sweepTimerExpiry => exact answersWithin_ite (answersWithin_next (s.setSweep_frame _) fun _ hp => hp)
  | alarmRisingEdge => exact alarmRisingEdge_frame s
  | alarmInputFall => exact alarmInputFall_frame s
  | resultWriterTake => exact resultWriterTake_frame s
  | resultWordHandoff => exact resultWordHandoff_frame s
  | noticeTake => exact noticeTake_frame s
  | noticeWordHandoff => exact answersWithin_ite (answersWithin_next s.passNoticeWord_frame fun _ hp => hp)
  | writeBufferDrain r => exact answersWithin_ite (answersWithin_next (s.drainHead_frame r) fun _ hp => hp)

end Sys2Proof.Machine
end

