-- ==== Sys2Proof/Proofs/Generations.lean ====
section
/-! SUPPORT. What the commands make of the downstream memory (R166, R173) and of the generations of the lightpath records
(R107), and the settlement of the statement about them. -/

namespace Sys2Proof.Machine

/-! ### The canonical form of the memory (R166, assumption log 4) -/

theorem State.drainHead_memoryWf {s : State} (h : memoryWf s.memory = true) (r : Response) :
    memoryWf (s.drainHead r).memory = true := by
  unfold State.drainHead
  split
  · exact h
  · exact memoryWf_writeMemory _ _ _ _ r h

theorem State.grantHost_memoryWf {s : State} (h : memoryWf s.memory = true) : memoryWf s.grantHost.memory = true := by
  unfold State.grantHost
  split
  · exact s.drainHead_memoryWf h .ok
  · exact h

theorem State.hostRead_memoryWf {s : State} (h : memoryWf s.memory = true) (a : Nat) (e : ByteMask) (r : Response) :
    memoryWf (s.hostRead a e r).memory = true := by
  unfold State.hostRead
  split
  · exact s.grantHost_memoryWf h
  · split
    · exact h
    · exact s.grantHost_memoryWf h

theorem State.hostWrite_memory (s : State) (a : Nat) (d : Word) (e : ByteMask) (r : Response) :
    (s.hostWrite a d e r).memory = (s.grantHost.writeMemory a d e r).memory := by
  have hlook : ((s.passedWrite a d e r).look a d e).memory = (s.passedWrite a d e r).memory :=
    (State.look_frame _ a d e).2 .memory (by decide)
  exact hlook

theorem hostWriteAt_memoryWf {s : State} (h : memoryWf s.memory = true) (a d : Word) (e : ByteMask) (r : Response) :
    nextMeets (fun t => memoryWf t.memory = true) (s.hostWriteAt a d e r) := by
  unfold State.hostWriteAt
  split
  · refine nextMeets_next ?_
    rw [State.hostWrite_memory]
    exact memoryWf_writeMemory _ _ _ _ r (s.grantHost_memoryWf h)
  · rintro t ⟨⟩

theorem exec_memoryWf {s : State} (h : memoryWf s.memory = true) (c : Instr) :
    nextMeets (fun t => memoryWf t.memory = true) (exec c s) := by
  by_cases hc : .memory ∈ changedParts c
  · cases c with
    | hostRead x r =>
      simp only [exec, execHostRead]
      split
      · exact nextMeets_next (s.hostRead_memoryWf h _ _ r)
      · rintro t ⟨⟩
    | hostWrite | hostWriteReportSlot | hostWriteQuerySlot | consumerIndexWrite => exact hostWriteAt_memoryWf h _ _ _ _
    | writeBufferDrain r => exact nextMeets_ite h (nextMeets_next (s.drainHead_memoryWf h r))
    | _ => simp [changedParts, blockParts] at hc
  · intro t ht
    rwa [(exec_frame s c t ht).2 .memory hc]

theorem step_memoryWf {s t : State} (h : memoryWf s.memory = true) (ht : step s = .next t) :
    memoryWf t.memory = true := by
  unfold step at ht
  split at ht
  · cases ht
    have hunits : (s.setStore s.store.tick).tickUnits.memory = s.memory := by
      unfold State.tickUnits
      split <;> rfl
    exact hunits ▸ h
  · rename_i c rest _
    exact exec_memoryWf (s := { s with pending := rest }) h c t ht

/-! ### Commands that leave every generation (R107) -/

/-- The table has as many records in t as in s, each with its generation. -/
structure gensKept (s t : State) : Prop where
  length : t.records.length = s.records.length
  gens : ∀ i, (t.recordAt i).gen = (s.recordAt i).gen

namespace gensKept

variable {s t u : State}

theorem trans (h : gensKept s t) (h' : gensKept t u) : gensKept s u :=
  ⟨h'.length.trans h.length, fun i => (h'.gens i).trans (h.gens i)⟩

theorem of_records (h : t.records = s.records) : gensKept s t :=
  ⟨congrArg List.length h, fun i => by simp only [State.recordAt, h]⟩

theorem of_frame {ps : List Part} (h : sameBut ps s t) (hps : .records ∉ ps) : gensKept s t :=
  of_records (h.2 .records hps)

theorem refl (s : State) : gensKept s s := of_records rfl

/-- A change that leaves the records, after one that keeps the generations. -/
theorem then_frame {ps : List Part} (h : gensKept s t) (h' : sameBut ps t u) (hps : .records ∉ ps) : gensKept s u :=
  h.trans (of_frame h' hps)

theorem foldl {α : Type} {f : State → α → State} (h : ∀ x a, gensKept x (f x a)) (l : List α) (s : State) :
    gensKept s (l.foldl f s) := by
  induction l generalizing s with
  | nil => exact refl s
  | cons a l ih => exact (h s a).trans (ih _)

theorem setLightpath (s : State) (i : Nat) (p : Lightpath) : gensKept s (s.setLightpath i p) := by
  refine ⟨by simp [setAt_length], fun j => ?_⟩
  rw [State.recordAt_setLightpath]
  split
  · rename_i hij
    rw [← hij.1]
  · rfl

theorem fillRecord (s : State) (i : Nat) (p : Lightpath) : gensKept s (s.fillRecord i p) :=
  (setLightpath s i p).then_frame (State.takeRegens_frame _ _) (by decide)

theorem reserve (s : State) (q : CommitRequest) (i : Nat) (j : Option Nat) : gensKept s (s.reserve q i j) := by
  unfold State.reserve
  split
  · exact (fillRecord s _ _).trans (fillRecord _ _ _)
  · exact fillRecord s _ _

theorem engineAnswer (s : State) (e : EngineId) (ctx : Context) (st : Status) (n named : Nat) (body : AnswerBody) :
    gensKept s (s.engineAnswer e ctx st n named body) :=
  of_frame (s.engineAnswer_frame e ctx st n named body) (by cases e <;> decide)

theorem failAttempt (s : State) (e : EngineId) (ctx : Context) (st : Status) (n : Nat) :
    gensKept s (s.failAttempt e ctx st n) :=
  of_frame (s.failAttempt_frame e ctx st n) (by cases e <;> decide)

theorem takeCommit (s : State) (e : EngineId) (ctx : Context) (ls : List Label) (q : CommitRequest) :
    gensKept s (s.takeCommit e ctx ls q) := by
  unfold State.takeCommit
  split
  · exact failAttempt s e ctx _ _
  · exact failAttempt s e ctx _ _
  · exact engineAnswer s e ctx _ _ _ _
  · exact (reserve s q _ _).trans (engineAnswer _ e ctx _ _ _ _)

theorem activateRecord (s : State) (i : Nat) (p : Lightpath) (n : Nat) : gensKept s (s.activateRecord i p n) :=
  (setLightpath s i _).then_frame (sameBut_then (State.hand_frame _ _) (State.addEvaluation_frame _ i)
    (rs := [.notices, .sweep]) (by decide) (by decide)) (by decide)

theorem reply (s : State) (h : Handed) (st : Status) (n named : Nat) (body : AnswerBody) :
    gensKept s (s.reply h st n named body) :=
  of_frame (s.reply_frame h st n named body) (by decide)

theorem activate (s : State) (h : Handed) (tag : Nat) : gensKept s (s.activate h tag) := by
  unfold State.activate
  split
  · exact reply s h _ _ _ _
  · split
    · exact (activateRecord s _ _ _).trans (reply _ h _ _ _ _)
    · exact reply s h _ _ _ _

theorem adopt (s : State) (h : Handed) (q m n : Nat) (es : List AdoptEntry) : gensKept s (s.adopt h q m n es) := by
  unfold State.adopt
  split
  · exact reply s h _ _ _ _
  · split
    · exact reply s h _ _ _ _
    · simp only
      split
      · exact reply s h _ _ _ _
      · split
        · exact reply s h _ _ _ _
        · have htold : ∀ (u : State) (x : Notice) (i : Nat), gensKept u ((u.hand x).addEvaluation i) := fun u x i =>
            (of_frame (u.hand_frame x) (by decide)).then_frame (State.addEvaluation_frame _ i) (by decide)
          exact ((fillRecord s _ _).trans (htold _ _ _)).trans (reply _ h _ _ _ _)

theorem checkLit (s : State) (k : Nat) (d : Dir) (a b : EndName) : gensKept s (s.checkLit k d a b) := by
  have hone : ∀ (x : State) (e : Nat × Lightpath), gensKept x (x.litCheckRecord k d e.1 e.2) := fun x e => by
    unfold State.litCheckRecord
    split
    · exact activateRecord x _ _ _
    · exact refl x
  unfold State.checkLit
  split
  · exact foldl hone _ s
  · exact refl s

theorem breakRecord (s : State) (i : Nat) (p : Lightpath) (c : Cause) : gensKept s (s.breakRecord i p c) :=
  (setLightpath s i _).then_frame (State.hand_frame _ _) (by decide)

theorem takeHopLost (s : State) (x : HopLost) : gensKept s (s.takeHopLost x) := by
  have hone : ∀ (y : State) (e : Nat × Lightpath), gensKept y (y.loseRecord x e.1 e.2) := fun y e => by
    unfold State.loseRecord
    split
    · exact breakRecord y _ _ _
    · exact refl y
  exact foldl hone _ s

theorem applyLost (s : State) (i : Nat) (p : Lightpath) : gensKept s (s.applyLost i p) := by
  unfold State.applyLost
  split
  · exact refl s
  · exact breakRecord s i p _

theorem applyWhole (s : State) (i : Nat) (p : Lightpath) (margin : Int) : gensKept s (s.applyWhole i p margin) := by
  have hset := fun (p' : Lightpath) (x : Notice) =>
    (setLightpath s i p').then_frame (State.hand_frame _ x) (by decide)
  simp only [State.applyWhole]
  split
  · exact hset _ _
  · split
    · exact hset _ _
    · exact setLightpath s i _

theorem applyResult (s : State) (x : SweepResult) : gensKept s (s.applyResult x) := by
  unfold State.applyResult
  split
  · exact refl s
  · split
    · exact refl s
    · split
      · exact applyLost s _ _
      · split
        · exact applyLost s _ _
        · exact applyWhole s _ _ _

/-- The one-second event leaves the generations (R187). -/
theorem oneSecond (s : State) : gensKept s s.oneSecond := by
  have hrecords : s.oneSecond.records = s.records.map LpRecord.tick := rfl
  refine ⟨by simp [hrecords], fun i => ?_⟩
  simp only [State.recordAt, hrecords, List.getD_eq_getElem?_getD, List.getElem?_map]
  cases s.records[i]? <;> rfl

end gensKept

/-! ### Generations that stay legal (R107) -/

/-- A generation that R107 gives the record at an index. -/
def legalGeneration (i gen : Nat) : Prop := gen < 512 ∧ (i = 127 → gen ≠ 511)

theorem legalGeneration_zero (i : Nat) : legalGeneration i 0 := ⟨by decide, fun _ => by decide⟩

/-- The next generation is legal: record 127 passes over 511. -/
theorem legalGeneration_next {i gen : Nat} (h : legalGeneration i gen) : legalGeneration i (nextGeneration i gen) := by
  obtain ⟨hlt, hne⟩ := h
  unfold nextGeneration
  split
  · exact legalGeneration_zero i
  · exact ⟨by omega, fun hi => by omega⟩

namespace State.generationsLegal

variable {s t : State}

theorem of_gensKept (h : s.generationsLegal) (hk : gensKept s t) : t.generationsLegal := by
  intro i hi
  rw [hk.length] at hi
  rw [hk.gens]
  exact h i hi

theorem of_records (h : s.generationsLegal) (hr : t.records = s.records) : t.generationsLegal :=
  h.of_gensKept (.of_records hr)

/-- Freeing a record gives it its next generation (R111). -/
theorem freeRecord (h : s.generationsLegal) {i : Nat} {p : Lightpath} (hp : s.lightpathAt i = some p) :
    (s.freeRecord i p).generationsLegal := by
  have hi := s.lightpathAt_lt i p hp
  have hlength : (s.freeRecord i p).records.length = s.records.length := by
    have hkept : gensKept s ((s.returnRegens p.route.regens).dropPartner p.partner) := by
      refine (gensKept.of_frame (s.returnRegens_frame p.route.regens) (by decide)).trans ?_
      unfold State.dropPartner
      split
      · exact .refl _
      · exact .setLightpath _ _ _
    exact (setAt_length ..).trans hkept.length
  intro j hj
  rw [hlength] at hj
  by_cases hij : j = i
  · subst hij
    rw [s.freeRecord_self j p hi]
    exact legalGeneration_next (h j hi)
  · rw [(s.freeRecord_other i j p hij).1]
    exact h j hj

/-- Freeing every record (R127). -/
theorem clearRecords (h : s.generationsLegal) (hr : t.records = Machine.clearRecords s.records) :
    t.generationsLegal := by
  intro i hi
  have hlt : i < s.records.length := by simpa [hr, Machine.clearRecords] using hi
  have hrecord : t.recordAt i = { gen := nextGeneration i (s.recordAt i).gen, path := none } := by
    simp [State.recordAt, hr, Machine.clearRecords, hlt]
  rw [hrecord]
  exact legalGeneration_next (h i hlt)

theorem release (h : s.generationsLegal) (x : Handed) (tag : Nat) : (s.release x tag).generationsLegal := by
  unfold State.release
  split
  · exact h.of_gensKept (.reply s x _ _ _ _)
  · rename_i i p hn
    exact (h.freeRecord ((s.named_eq_some tag i p).mp hn).2.2).of_gensKept (.reply _ x _ _ _ _)

theorem expireRecord (h : s.generationsLegal) {i : Nat} {p : Lightpath} (hp : s.lightpathAt i = some p) :
    (s.expireRecord i p).generationsLegal :=
  (h.freeRecord hp).of_gensKept (.of_frame (State.hand_frame _ _) (by decide))

end State.generationsLegal

/-! ### The dispatcher and the records (R140) -/

/-- The parts of the state that are no lightpath record and that the service of a query can change. -/
def servedParts : List Part :=
  [.port, .tap, .intake, .store, .handoffs, .dispatcher, .engine0, .engine1, .sweep, .writer, .notices]

/-- FLUSH alone changes the records (R140). -/
theorem State.serve_leavesRecords (s : State) (slot : Nat) (q : Query) (h : q.body ≠ .flush) :
    sameBut servedParts s (s.serve slot q) := by
  have hrespond : ∀ (st : Status) (n : Nat) (body : AnswerBody),
      sameBut servedParts s (s.respond slot q st n body) := fun st n body =>
    sameBut_mono (s.respond_frame slot q st n body) (by decide)
  have hset : ∀ {ps : List Part} {t : State} (x : SlotQuery), sameBut ps (s.setSlot slot x) t →
      (∀ p ∈ ps, p ∈ servedParts) → sameBut servedParts s t := fun x ht hps =>
    sameBut_then (s.setSlot_frame slot x) ht (by decide) hps
  unfold State.serve
  cases hb : q.body with
  | find req | findPair req => exact sameBut_mono (s.serveSearch_frame slot q req _) (by decide)
  | activate _ | release _ | adopt _ _ _ _ | sweep _ => exact hset _ (State.setHandoffs_frame _ _) (by decide)
  | lookupNode id =>
    simp only [State.serveLookupNode]
    split <;> exact hrespond _ _ _
  | lookupLink id port =>
    simp only [State.serveLookupLink]
    split
    · exact hrespond _ _ _
    · split <;> exact hrespond _ _ _
  | status clear =>
    simp only [State.serveStatus]
    refine sameBut_trans ?_ (sameBut_mono (State.respond_frame _ slot q _ _ _) (by decide))
    split
    · refine hset (ps := [.intake, .tap, .notices]) (.inService .answered none) ⟨rfl, fun p hp => ?_⟩ (by decide)
      cases p <;> simp [agree, State.clearCounters] at hp ⊢
    · exact hset _ (sameBut_refl [] _) (by decide)
  | configSet target values => exact sameBut_mono (s.serveConfigSet_frame slot q target values) (by decide)
  | save =>
    simp only [State.serveSave]
    split
    · exact hrespond _ _ _
    · exact hset _ (State.setPort_frame _ _) (by decide)
  | reload =>
    simp only [State.serveReload]
    split
    · exact hrespond _ _ _
    · exact hset _ (State.setPort_frame _ _) (by decide)
  | flush => exact absurd hb h
  | nodeClear id => exact sameBut_mono (s.serveNodeClear_frame slot q id) (by decide)

theorem State.serveFlush_records (s : State) (slot : Nat) (q : Query) :
    (s.serveFlush slot q).records = clearRecords s.records := by
  have hengines : ((s.flushEngine .e0).flushEngine .e1).records = s.records :=
    (sameBut_trans (s.flushEngine_frame .e0) (State.flushEngine_frame _ .e1)).2 .records (by decide)
  exact congrArg clearRecords hengines

theorem State.generationsLegal.serve {s : State} (h : s.generationsLegal) (slot : Nat) (q : Query) :
    (s.serve slot q).generationsLegal := by
  by_cases hq : q.body = .flush
  · have hserve : s.serve slot q = s.serveFlush slot q := by simp only [State.serve, hq]
    rw [hserve]
    exact h.clearRecords (s.serveFlush_records slot q)
  · exact h.of_gensKept (.of_frame (s.serve_leavesRecords slot q hq) (by decide))

/-! ### Every command (R107, R111, R127) -/

namespace State.generationsLegal

variable {s : State}

theorem busResetAssert (h : s.generationsLegal) : nextMeets State.generationsLegal (exec .busResetAssert s) := by
  simp only [exec, execBusResetAssert]
  split
  · exact nextMeets_next h
  · split
    · exact nextMeets_next (h.clearRecords rfl)
    · exact nextMeets_next h

theorem dispatchQuery (h : s.generationsLegal) : nextMeets State.generationsLegal (exec .dispatchQuery s) := by
  refine nextMeets_ite h ?_
  split
  · exact nextMeets_next h
  · rename_i slot _
    split
    · exact nextMeets_next h
    · exact nextMeets_next (State.generationsLegal.serve (s := s.dequeue slot) h _ _)

theorem commit (h : s.generationsLegal) (e : EngineId) : nextMeets State.generationsLegal (exec (.commit e) s) := by
  refine nextMeets_ite h ?_
  split
  · exact nextMeets_next (h.of_gensKept (.takeCommit s e _ _ _))
  · exact nextMeets_next h

/-- A query that the table takes from its hand-off and acts on. -/
theorem taken (h : s.generationsLegal) {x : Handoffs} {t : State} (ht : gensKept (s.setHandoffs x) t) :
    nextMeets State.generationsLegal (.next t) :=
  nextMeets_next (State.generationsLegal.of_gensKept (s := s.setHandoffs x) h ht)

theorem activate (h : s.generationsLegal) : nextMeets State.generationsLegal (exec .activate s) := by
  refine nextMeets_ite h ?_
  split
  · exact nextMeets_next h
  · split
    · exact h.taken (.activate _ _ _)
    · exact nextMeets_next h

theorem releaseTaken (h : s.generationsLegal) : nextMeets State.generationsLegal (exec .release s) := by
  refine nextMeets_ite h ?_
  split
  · exact nextMeets_next h
  · split
    · exact nextMeets_next (State.generationsLegal.release (s := s.popToTable) h _ _)
    · exact nextMeets_next h

theorem adopt (h : s.generationsLegal) : nextMeets State.generationsLegal (exec .adopt s) := by
  refine nextMeets_ite h ?_
  split
  · exact nextMeets_next h
  · split
    · exact h.taken (.adopt _ _ _ _ _ _)
    · exact nextMeets_next h

theorem litCheck (h : s.generationsLegal) : nextMeets State.generationsLegal (exec .litCheck s) := by
  refine nextMeets_ite h ?_
  split
  · exact nextMeets_next h
  · exact nextMeets_next h
  · exact h.taken (.checkLit _ _ _ _ _)

theorem hopLostEvent (h : s.generationsLegal) (source : LostSource) :
    nextMeets State.generationsLegal (exec (.hopLostEvent source) s) := by
  refine nextMeets_ite h ?_
  cases source <;>
    · simp only
      split
      · exact h.taken (.takeHopLost _ _)
      · exact nextMeets_next h

theorem reservationExpiry (h : s.generationsLegal) (i : Nat) :
    nextMeets State.generationsLegal (exec (.reservationExpiry i) s) := by
  refine nextMeets_ite h ?_
  split
  · exact nextMeets_next h
  · rename_i p hp
    exact nextMeets_ite h (nextMeets_next (h.expireRecord hp))

theorem sweepResult (h : s.generationsLegal) : nextMeets State.generationsLegal (exec .sweepResult s) := by
  refine nextMeets_ite h ?_
  split
  · exact nextMeets_next h
  · exact nextMeets_next (h.of_gensKept ((gensKept.of_frame (s.setSweep_frame _) (by decide)).trans (.applyResult _ _)))

theorem powerOn : nextMeets State.generationsLegal (exec .powerOn s) := by
  refine nextMeets_next fun i _ => ?_
  have hfresh : freshRecords.getD i LpRecord.fresh = LpRecord.fresh := by
    rw [freshRecords, List.getD_eq_getElem?_getD, List.getElem?_getD_replicate_default_eq]
  exact (congrArg LpRecord.gen hfresh) ▸ legalGeneration_zero i

theorem exec_next (h : s.generationsLegal) (c : Instr) : nextMeets State.generationsLegal (exec c s) := by
  by_cases hc : .records ∈ changedParts c
  · cases c with
    | powerOn => exact powerOn
    | busResetAssert => exact h.busResetAssert
    | dispatchQuery => exact h.dispatchQuery
    | commit e => exact h.commit e
    | activate => exact h.activate
    | release => exact h.releaseTaken
    | adopt => exact h.adopt
    | litCheck => exact h.litCheck
    | hopLostEvent source => exact h.hopLostEvent source
    | reservationExpiry i => exact h.reservationExpiry i
    | sweepResult => exact h.sweepResult
    | _ => simp [changedParts, hostWriteParts] at hc
  · exact fun t ht => h.of_records ((exec_frame s c t ht).2 .records hc)

theorem step_next (h : s.generationsLegal) : nextMeets State.generationsLegal (step s) := by
  unfold step
  split
  · exact nextMeets_next (h.of_gensKept (.oneSecond s))
  · rename_i c rest _
    exact exec_next (s := { s with pending := rest }) h c

/-- The tag 0xFFFF would name generation 511 of record 127, which is not legal (R107). -/
theorem noTag_unnamed (h : s.generationsLegal) (hlength : s.records.length = 128) : s.named 0xFFFF = none := by
  unfold State.named
  rw [if_neg]
  exact (h 127 (by omega)).2 rfl

end State.generationsLegal

/-- Settles O52: by what each command can change, and by the few that write the memory or change the records. -/
theorem memoryAndGenerations : Obligations.MemoryAndGenerations := by
  unfold Obligations.MemoryAndGenerations
  exact ⟨fun _ _ h ht => step_memoryWf h ht, fun _ t h ht => h.step_next t ht, fun _ h hlength => h.noTag_unnamed hlength⟩

end Sys2Proof.Machine
end

