-- ==== Sys2Proof/Proofs/RecordAnswers.lean ====
section
/-! SUPPORT. What the Lightpath Table makes of a record and how it answers (R107, R111, R115, R119, R136), and the
settlement of the statement about ACTIVATE and RELEASE. -/

namespace Sys2Proof.Machine

/-! ### In-use counts that change (R110, R111) -/

/-- A node record whose in-use count is what g makes of it and of its id. -/
def Node.recounted (g : NodeId → Nat → Nat) (n : Node) : Node := { n with regenInUse := g n.id n.regenInUse }

/-- Between s and t the in-use counts alone have changed, and where the node table has one entry for each index and for
each id the count of each node is what g makes of it (R1). -/
structure regensRecounted (s t : State) (g : NodeId → Nat → Nat) : Prop where
  claims : t.store.claims = s.store.claims
  links : t.store.links = s.store.links
  keys : t.store.nodes.map (fun e => (e.1, e.2.uncounted)) = s.store.nodes.map fun e => (e.1, e.2.uncounted)
  counts : risingTable s.store.nodes = true → s.idsUnique → ∀ j, t.nodeAt j = (s.nodeAt j).map (Node.recounted g)

namespace regensRecounted

variable {s t u : State} {g g' : NodeId → Nat → Nat}

theorem rising (h : regensRecounted s t g) (hr : risingTable s.store.nodes = true) :
    risingTable t.store.nodes = true := by
  rw [risingTable_iff, ← map_keys] at *
  rwa [h.keys]

theorem idsUnique (h : regensRecounted s t g) (hu : s.idsUnique) : t.idsUnique := by
  unfold State.idsUnique at *
  rw [← map_ids] at *
  rwa [h.keys]

theorem trans (h : regensRecounted s t g) (h' : regensRecounted t u g') :
    regensRecounted s u fun id c => g' id (g id c) where
  claims := h'.claims.trans h.claims
  links := h'.links.trans h.links
  keys := h'.keys.trans h.keys
  counts hr hu j := by
    rw [h'.counts (h.rising hr) (h.idsUnique hu) j, h.counts hr hu j, Option.map_map]
    rfl

theorem changed (h : regensRecounted s t g) : regensChanged s t fun n => g n.id n.regenInUse where
  claims := h.claims
  links := h.links
  nodes j := by
    have hkeys := congrArg (tableGet · j) h.keys
    simp only [← tableGet_uncounted] at hkeys
    exact hkeys
  counts hc j n hn := by
    rw [h.counts hc.rising hc.ids j, hn]
    rfl

end regensRecounted

/-- The in-use count changed at the node of an id, if there is one (R110, R111). -/
theorem State.updateNodeOf_recounted (s : State) (id : NodeId) (f : Nat → Nat) :
    regensRecounted s (s.updateNodeOf id fun n => { n with regenInUse := f n.regenInUse })
      fun x c => if x = id then f c else c := by
  have hother : ∀ n : Node, n.id ≠ id → n.recounted (fun x c => if x = id then f c else c) = n := fun n hne => by
    simp [Node.recounted, hne]
  unfold State.updateNodeOf State.indexOf
  cases he : s.nodeEntry id with
  | none =>
    refine ⟨rfl, rfl, rfl, fun _ hu j => ?_⟩
    cases hn : s.nodeAt j with
    | none => exact hn
    | some n =>
      refine hn.trans (congrArg some (hother n ?_).symm)
      rintro rfl
      rw [State.nodeEntry_of_nodeAt hu hn] at he
      cases he
  | some e =>
    obtain ⟨i, m⟩ := e
    have hid : m.id = id := by simpa using List.find?_some he
    refine ⟨rfl, rfl, ?_, fun hr hu j => ?_⟩
    · simp only [Option.map_some, State.updateNode_store, tableUpdate, List.map_map]
      refine List.map_congr_left fun e _ => ?_
      simp only [Function.comp_apply]
      split <;> rfl
    · simp only [Option.map_some, State.nodeAt_updateNode]
      have hi := s.nodeAt_of_nodeEntry hr he
      by_cases hj : j = i
      · subst hj
        simp [hi, Node.recounted, hid]
      · rw [if_neg hj]
        cases hn : s.nodeAt j with
        | none => rfl
        | some n =>
          refine congrArg some (hother n ?_).symm
          rintro rfl
          rw [State.nodeEntry_of_nodeAt hu hn] at he
          cases he
          exact hj rfl

/-- Each naming of a node takes 1 from its in-use count, which stops at 0 (R110, assumption log 31). -/
theorem State.returnRegens_recounted (s : State) (ids : List NodeId) :
    regensRecounted s (s.returnRegens ids) fun id c => c - ids.count id := by
  induction ids generalizing s with
  | nil => exact ⟨rfl, rfl, rfl, fun _ _ j => (congrFun Option.map_id _).symm⟩
  | cons a ids ih =>
    have hcounts : (fun id c => c - (a :: ids).count id) =
        fun id c => (fun id c => c - ids.count id) id (if id = a then c - 1 else c) := by
      funext id c
      by_cases hid : id = a
      · subst hid
        simp
        omega
      · simp [hid, List.count_cons_of_ne (Ne.symm hid)]
    rw [hcounts]
    exact (s.updateNodeOf_recounted a (· - 1)).trans (ih _)

theorem State.regensCounted.of_parts {s t : State} (h : s.regensCounted) (hs : t.store = s.store)
    (hr : t.records = s.records) : t.regensCounted := by
  obtain ⟨hrising, hids, hcounted⟩ := h
  refine ⟨by rwa [hs], by rwa [State.idsUnique, hs], fun e he => ?_⟩
  rw [hs] at he
  rw [hcounted e he, State.regenPoints, State.regenPoints, State.lightpaths, State.lightpaths, hr]

/-- What has changed of the in-use counts goes by the store and the records alone. -/
theorem regensChanged.of_parts {s t s' t' : State} {f : Node → Nat} (h : regensChanged s t f)
    (hs : s'.store = s.store) (hr : s'.records = s.records) (ht : t'.store = t.store) : regensChanged s' t' f := by
  have hnode : ∀ j, s'.nodeAt j = s.nodeAt j := fun j => by simp only [State.nodeAt, hs]
  have hnode' : ∀ j, t'.nodeAt j = t.nodeAt j := fun j => by simp only [State.nodeAt, ht]
  refine ⟨by rw [hs, ht, h.claims], by rw [hs, ht, h.links], fun j => ?_, fun hc j n hn => ?_⟩
  · rw [hnode, hnode']
    exact h.nodes j
  · rw [hnode']
    exact h.counts (hc.of_parts hs.symm hr.symm) j n ((hnode j).symm.trans hn)

/-! ### Records that change (R107, R111) -/

theorem State.recordAt_congr {s t : State} (h : t.records = s.records) (i : Nat) : t.recordAt i = s.recordAt i := by
  simp only [State.recordAt, h]

/-- A record that is not FREE after it is given other fields (R112). -/
theorem State.setLightpath_self {s : State} {i : Nat} {p : Lightpath} (hp : s.lightpathAt i = some p) (p' : Lightpath) :
    (s.setLightpath i p').recordAt i = { gen := (s.recordAt i).gen, path := some p' } := by
  rw [State.recordAt_setLightpath, if_pos ⟨rfl, s.lightpathAt_lt i p hp⟩]

theorem State.setLightpath_other (s : State) {i j : Nat} (hj : j ≠ i) (p : Lightpath) :
    (s.setLightpath i p).recordAt j = s.recordAt j := by
  rw [State.recordAt_setLightpath, if_neg fun h => hj h.1.symm]

/-- The record that a partner tag names loses its own partner tag, and no other record changes (R111). -/
theorem State.recordAt_dropPartner (s : State) (partner : Option Nat) (j : Nat) :
    (s.dropPartner partner).recordAt j =
      if (partner.bind s.named).map (·.1) = some j then
        { s.recordAt j with path := (s.lightpathAt j).map fun x => { x with partner := none } }
      else s.recordAt j := by
  unfold State.dropPartner
  cases hn : partner.bind s.named with
  | none => rfl
  | some e =>
    obtain ⟨i, q⟩ := e
    obtain ⟨tag, _, htag⟩ := Option.bind_eq_some_iff.mp hn
    obtain ⟨-, -, hq⟩ := (s.named_eq_some tag i q).mp htag
    by_cases hij : j = i
    · subst hij
      simp [State.setLightpath_self hq, hq]
    · simp [State.setLightpath_other s hij, Ne.symm hij]

theorem State.freeRecord_store (s : State) (i : Nat) (p : Lightpath) :
    (s.freeRecord i p).store = (s.returnRegens p.route.regens).store :=
  (State.dropPartner_frame (s.returnRegens p.route.regens) p.partner).2 .store (by decide)

/-- A record is freed (R111). -/
theorem State.freeRecord_freed (s : State) {i : Nat} {p : Lightpath} (hp : s.lightpathAt i = some p) :
    recordFreed s (s.freeRecord i p) i p where
  freed := s.freeRecord_self i p (s.lightpathAt_lt i p hp)
  others j hj := by
    have hkept : (s.freeRecord i p).recordAt j =
        ((s.returnRegens p.route.regens).dropPartner p.partner).recordAt j := by
      rw [State.freeRecord, State.recordAt_setRecord, if_neg fun h => hj h.1.symm]
    have hrecords := s.returnRegens_records p.route.regens
    have hnamed : (s.returnRegens p.route.regens).named = s.named := by
      funext tag
      simp only [State.named, State.lightpathAt, State.recordAt_congr hrecords]
    rw [hkept, State.recordAt_dropPartner, hnamed, State.lightpathAt, State.recordAt_congr hrecords]
    rfl
  regens := (s.returnRegens_recounted p.route.regens).changed.of_parts rfl rfl (s.freeRecord_store i p)

/-- What has been freed goes by the store and the records alone. -/
theorem recordFreed.of_parts {s t s' t' : State} {i : Nat} {p : Lightpath} (h : recordFreed s t i p)
    (hs : s'.store = s.store) (hr : s'.records = s.records) (ht : t'.store = t.store) (htr : t'.records = t.records) :
    recordFreed s' t' i p where
  freed := by
    rw [State.recordAt_congr htr, State.recordAt_congr hr]
    exact h.freed
  others j hj := by
    have hnamed : s'.named = s.named := by
      funext tag
      simp only [State.named, State.lightpathAt, State.recordAt_congr hr]
    rw [State.recordAt_congr htr, hnamed, State.lightpathAt, State.recordAt_congr hr]
    exact h.others j hj
  regens := h.regens.of_parts hs hr ht

/-! ### The table's answers (R136) -/

/-- The table has taken the query at the head of the dispatcher's hand-offs and answered it, after changes of no more
than the parts listed. -/
structure tableAnswered (ps : List Part) (s t : State) (h : Handed) (rest : List Handed) (st : Status) (detail : Word)
    (named : Nat) (body : AnswerBody) : Prop where
  frame : sameBut (.handoffs :: (ps ++ [.dispatcher, .writer])) s t
  handoffs : t.handoffs = { s.handoffs with toTable := rest }
  replied : replied s t h st detail named body

theorem State.popToTable_handoffs {s : State} {h : Handed} {rest : List Handed}
    (hh : s.handoffs.toTable = h :: rest) : s.popToTable.handoffs = { s.handoffs with toTable := rest } := by
  simp only [State.popToTable, State.setHandoffs_handoffs, hh, List.tail_cons]

/-- An answer to a query handed on by the dispatcher (R132, R136). -/
theorem State.reply_replied {s u : State} (hd : u.dispatcher = s.dispatcher) (hw : u.writer = s.writer) (h : Handed)
    (st : Status) (n named : Nat) (body : AnswerBody) :
    replied s (u.reply h st n named body) h st (word n) named body := by
  refine ⟨fun hslot => ?_, fun slot hslot => ?_⟩
  · simp only [State.reply, hslot]
    exact ⟨hd, hw⟩
  · simp only [State.reply, hslot, offeredAnswer]
    exact ⟨by simp [hd], by simp [hw]⟩

/-- The table answers a query after changes that leave the hand-offs, the dispatcher and the writer. -/
theorem tableAnswered_reply {ps : List Part} {s u : State} {h : Handed} {rest : List Handed}
    (hh : s.handoffs.toTable = h :: rest) (hu : sameBut ps s.popToTable u)
    (hps : .handoffs ∉ ps ∧ .dispatcher ∉ ps ∧ .writer ∉ ps) (st : Status) (n named : Nat) (body : AnswerBody) :
    tableAnswered ps s (u.reply h st n named body) h rest st (word n) named body := by
  obtain ⟨hhandoffs, hdispatcher, hwriter⟩ := hps
  have hreply := u.reply_frame h st n named body
  refine ⟨?_, ?_, State.reply_replied (s := s) (hu.2 .dispatcher hdispatcher) (hu.2 .writer hwriter) h st n named body⟩
  · exact sameBut_then (s.setHandoffs_frame _) (sameBut_then hu hreply (rs := ps ++ [.dispatcher, .writer])
      (fun _ hp => List.mem_append_left _ hp) (fun _ hp => List.mem_append_right _ hp)) (by simp)
      (fun _ hp => List.mem_cons_of_mem _ hp)
  · exact (hreply.2 .handoffs (by decide)).trans ((hu.2 .handoffs hhandoffs).trans (State.popToTable_handoffs hh))

/-- The table answers a query and changes nothing else. -/
theorem tableAnswered_at_once {s : State} {h : Handed} {rest : List Handed} (hh : s.handoffs.toTable = h :: rest)
    (st : Status) (n named : Nat) (body : AnswerBody) :
    tableAnswered [] s (s.popToTable.reply h st n named body) h rest st (word n) named body :=
  tableAnswered_reply hh (sameBut_refl [] _) (by decide) st n named body

/-! ### ACTIVATE and RELEASE (R115, R119) -/

theorem exec_activate {s : State} {h : Handed} {rest : List Handed} {tag : Nat} (hr : s.running = true)
    (hh : s.handoffs.toTable = h :: rest) (hb : h.query.body = .activate tag) :
    exec .activate s = .next (s.popToTable.activate h tag) := by
  simp only [exec, execActivate, hr, hh, hb, if_true]

theorem exec_release {s : State} {h : Handed} {rest : List Handed} {tag : Nat} (hr : s.running = true)
    (hh : s.handoffs.toTable = h :: rest) (hb : h.query.body = .release tag) :
    exec .release s = .next (s.popToTable.release h tag) := by
  simp only [exec, execRelease, hr, hh, hb, if_true]

section Meanings

variable {s : State} {h : Handed} {tag i : Nat} {p : Lightpath}

theorem State.activate_unknown (hn : s.named tag = none) : s.activate h tag = s.reply h .notFound 0 tag .none := by
  rw [State.activate, hn]

theorem State.activate_reserved (hn : s.named tag = some (i, p)) (hst : p.state = .reserved) :
    s.activate h tag =
      (s.activateRecord i p 1).reply h .done 0 tag (recordBody .active p.origin p.partner p.lastMargin) := by
  simp only [State.activate, hn, hst, if_true]

theorem State.activate_other (hn : s.named tag = some (i, p)) (hst : p.state ≠ .reserved) :
    s.activate h tag = s.reply h .done 0 tag (recordBody p.state p.origin p.partner p.lastMargin) := by
  simp only [State.activate, hn, hst, if_false]

theorem State.release_unknown (hn : s.named tag = none) : s.release h tag = s.reply h .notFound 0 tag .none := by
  rw [State.release, hn]

theorem State.release_known (hn : s.named tag = some (i, p)) :
    s.release h tag = (s.freeRecord i p).reply h .done 0 tag (recordBody p.state p.origin p.partner p.lastMargin) := by
  rw [State.release, hn]

end Meanings

/-- A RESERVED record is activated and the query that asked for it answered (R115). -/
theorem activated_answered {s : State} {h : Handed} {rest : List Handed} {tag i : Nat} {p : Lightpath} {t : State}
    (hh : s.handoffs.toTable = h :: rest) (hn : s.named tag = some (i, p)) (body : AnswerBody)
    (ht : t = (s.popToTable.activateRecord i p 1).reply h .done 0 tag body) :
    tableAnswered [.records, .notices, .sweep] s t h rest .done 0#32 tag body ∧
      t.recordAt i = { gen := (s.recordAt i).gen, path := some { p with state := .active, timer := none } } ∧
      (∀ j, j ≠ i → t.recordAt j = s.recordAt j) ∧
      handedNotices s t [notice .activated (word tag) 1#32] ∧
      t.sweep = { s.sweep with pendingSet := insertAscending s.sweep.pendingSet i } := by
  subst ht
  obtain ⟨-, -, hp⟩ := (s.named_eq_some tag i p).mp hn
  have hreply := (s.popToTable.activateRecord i p 1).reply_frame h .done 0 tag body
  have hrecord := State.recordAt_congr (hreply.2 .records (by decide))
  have htold : (s.popToTable.activateRecord i p 1).notices =
      { s.notices with inbox := s.notices.inbox ++ [notice .activated (word (s.recordTag i)) 1#32] } := rfl
  rw [s.recordTag_of_named tag i p hn] at htold
  exact ⟨tableAnswered_reply hh (s.popToTable.activateRecord_frame i p 1) (by decide) .done 0 tag body,
    (hrecord i).trans (State.setLightpath_self (s := s.popToTable) hp _),
    fun j hj => (hrecord j).trans (s.popToTable.setLightpath_other hj _),
    (hreply.2 .notices (by decide)).trans htold, hreply.2 .sweep (by decide)⟩

/-- Settles O46: by the record that the tag names, and for ACTIVATE by its state. -/
theorem activateAndRelease : Obligations.ActivateAndRelease := by
  unfold Obligations.ActivateAndRelease
  intro s h rest tag hr hh
  refine ⟨fun hb hn => ?_, fun hb hn => ?_, fun i p hn => ⟨fun hb hst => ?_, fun hb hst => ?_, fun hb => ?_⟩⟩
  · obtain ⟨hframe, hhandoffs, hreplied⟩ := tableAnswered_at_once hh .notFound 0 tag .none
    rw [exec_activate hr hh hb, State.activate_unknown (s := s.popToTable) hn]
    exact ⟨_, rfl, hframe, hhandoffs, hreplied⟩
  · obtain ⟨hframe, hhandoffs, hreplied⟩ := tableAnswered_at_once hh .notFound 0 tag .none
    rw [exec_release hr hh hb, State.release_unknown (s := s.popToTable) hn]
    exact ⟨_, rfl, hframe, hhandoffs, hreplied⟩
  · obtain ⟨⟨hframe, hhandoffs, hreplied⟩, hrecord, hothers, htold, hsweep⟩ := activated_answered hh hn
      (recordBody .active p.origin p.partner p.lastMargin) rfl
    rw [exec_activate hr hh hb, State.activate_reserved (s := s.popToTable) hn hst]
    exact ⟨_, rfl, hframe, hhandoffs, hrecord, hothers, htold, hsweep, hreplied⟩
  · obtain ⟨hframe, hhandoffs, hreplied⟩ := tableAnswered_at_once hh .done 0 tag
      (recordBody p.state p.origin p.partner p.lastMargin)
    rw [exec_activate hr hh hb, State.activate_other (s := s.popToTable) hn hst]
    exact ⟨_, rfl, hframe, hhandoffs, hreplied⟩
  · obtain ⟨-, -, hp⟩ := (s.named_eq_some tag i p).mp hn
    obtain ⟨hframe, hhandoffs, hreplied⟩ := tableAnswered_reply hh (s.popToTable.freeRecord_frame i p) (by decide)
      .done 0 tag (recordBody p.state p.origin p.partner p.lastMargin)
    have hreply := (s.popToTable.freeRecord i p).reply_frame h .done 0 tag
      (recordBody p.state p.origin p.partner p.lastMargin)
    rw [exec_release hr hh hb, State.release_known (s := s.popToTable) hn]
    exact ⟨_, rfl, hframe, hhandoffs, (s.popToTable.freeRecord_freed hp).of_parts rfl rfl
      (hreply.2 .store (by decide)) (hreply.2 .records (by decide)), hreplied⟩

end Sys2Proof.Machine
end

