-- ==== Sys2Proof/Proofs/SweepResults.lean ====
section
/-! SUPPORT. What the Lightpath Table makes of a sweep result (R123 to R125), and the settlement of the statement about
it. -/

namespace Sys2Proof.Machine

/-! ### A record given other fields -/

/-- Between s and t the record at index i has been given other fields and some notices have been handed on; nothing else
has changed. -/
structure lightpathChanged (s t : State) (i : Nat) (p : Lightpath) (ns : List Notice) : Prop where
  frame : sameBut [.records, .notices] s t
  record : t.recordAt i = { gen := (s.recordAt i).gen, path := some p }
  others : ∀ j, j ≠ i → t.recordAt j = s.recordAt j
  told : handedNotices s t ns

theorem lightpathChanged.lightpathAt {s t : State} {i : Nat} {p : Lightpath} {ns : List Notice}
    (h : lightpathChanged s t i p ns) : t.lightpathAt i = some p := congrArg LpRecord.path h.record

section

variable {s : State} {i : Nat} {p : Lightpath}

theorem State.setLightpath_changed (hp : s.lightpathAt i = some p) (p' : Lightpath) :
    lightpathChanged s (s.setLightpath i p') i p' [] where
  frame := sameBut_mono (s.setLightpath_frame i p') (by decide)
  record := State.setLightpath_self hp p'
  others _ hj := s.setLightpath_other hj p'
  told := by simp [handedNotices]

theorem State.setLightpath_hand_changed (hp : s.lightpathAt i = some p) (p' : Lightpath) (n : Notice) :
    lightpathChanged s ((s.setLightpath i p').hand n) i p' [n] where
  frame := sameBut_then (s.setLightpath_frame i p') (State.hand_frame _ n) (by decide) (by decide)
  record := State.setLightpath_self hp p'
  others _ hj := s.setLightpath_other hj p'
  told := rfl

/-! ### The state that a WHOLE finding gives (R124) -/

theorem wholeOutcome_degrades (hst : p.state = .active) {margin : Int} (hm : margin < 0) (recover : Nat) :
    wholeOutcome p margin recover = (.degraded, some .degraded) := by
  simp [wholeOutcome, hst, hm]

theorem wholeOutcome_restores (hst : p.state = .degraded) {margin : Int} {recover : Nat} (hm : (recover : Int) ≤ margin) :
    wholeOutcome p margin recover = (.active, some .restored) := by
  simp [wholeOutcome, hst, hm]

theorem wholeOutcome_stays {margin : Int} {recover : Nat} (h : p.state = .active ∧ 0 ≤ margin ∨
    p.state = .degraded ∧ margin < (recover : Int) ∨ p.state = .broken ∧ margin < 0) :
    wholeOutcome p margin recover = (p.state, none) := by
  rcases h with ⟨hst, hm⟩ | ⟨hst, hm⟩ | ⟨hst, hm⟩
  · simp [wholeOutcome, hst, Int.not_lt.mpr hm]
  · simp [wholeOutcome, hst, Int.not_le.mpr hm]
  · simp [wholeOutcome, hst, hm]

/-- A record leaves BROKEN with a margin of 0 or more: for RESERVED while its timer runs, else by the recover level. -/
theorem wholeOutcome_revives (hst : p.state = .broken) {margin : Int} (hm : 0 ≤ margin) (recover : Nat) :
    ∃ st e, wholeOutcome p margin recover = (st, some e) ∧
      (p.timer.isSome = true → st = .reserved ∧ e = .restored) ∧
      (p.timer = none → (recover : Int) ≤ margin → st = .active ∧ e = .restored) ∧
      (p.timer = none → margin < (recover : Int) → st = .degraded ∧ e = .degraded) := by
  have hout : wholeOutcome p margin recover = if p.timer.isSome = true then (.reserved, some .restored)
      else if (recover : Int) ≤ margin then (.active, some .restored) else (.degraded, some .degraded) := by
    simp [wholeOutcome, hst, Int.not_lt.mpr hm]
  cases ht : p.timer with
  | some n => exact ⟨.reserved, .restored, by simp [hout, ht], by simp, by simp, by simp⟩
  | none =>
    by_cases hlevel : (recover : Int) ≤ margin
    · exact ⟨.active, .restored, by simp [hout, ht, hlevel], by simp, by simp, fun _ h => absurd hlevel (Int.not_le.mpr h)⟩
    · exact ⟨.degraded, .degraded, by simp [hout, ht, hlevel], by simp, fun _ h => absurd h hlevel, by simp⟩

/-! ### Findings applied (R124, R125) -/

theorem State.applyLost_broken (hst : p.state = .broken) : s.applyLost i p = s := if_pos hst

/-- A LOST finding breaks a record that is not BROKEN (R124). -/
theorem State.applyLost_changed (hp : s.lightpathAt i = some p) (hst : p.state ≠ .broken) :
    lightpathChanged s (s.applyLost i p) i { p with state := .broken }
      [notice .broken (word (s.recordTag i)) 7#32] := by
  rw [State.applyLost, if_neg hst]
  exact State.setLightpath_hand_changed hp _ _

/-- A WHOLE finding changes the fields of its record. -/
theorem State.applyWhole_changed (hp : s.lightpathAt i = some p) (margin : Int) :
    ∃ p' ns, lightpathChanged s (s.applyWhole i p margin) i p' ns := by
  simp only [State.applyWhole]
  split
  · exact ⟨_, _, State.setLightpath_hand_changed hp _ _⟩
  · split
    · exact ⟨_, _, State.setLightpath_hand_changed hp _ _⟩
    · exact ⟨_, _, State.setLightpath_changed hp _⟩

/-- A WHOLE finding that moves a record between states gives its notice and notices its margin (R124). -/
theorem State.applyWhole_moved (hp : s.lightpathAt i = some p) {margin : Int} {st : LpState} {e : NoticeEvent}
    (hout : wholeOutcome p margin s.globals.recover = (st, some e)) :
    lightpathChanged s (s.applyWhole i p margin) i
      { p with state := st, lastMargin := margin, noticeMargin := margin }
      [notice e (word (s.recordTag i)) (signedWord margin)] := by
  simp only [State.applyWhole, hout]
  exact State.setLightpath_hand_changed hp _ _

/-- A WHOLE finding that leaves a record in its state has its margin noticed where it has drifted (R125). -/
theorem State.applyWhole_stayed (hp : s.lightpathAt i = some p) {margin : Int}
    (hout : wholeOutcome p margin s.globals.recover = (p.state, none)) :
    if p.noticeMargin ≠ margin ∧ s.globals.marginDrift ≤ (margin - p.noticeMargin).natAbs then
      lightpathChanged s (s.applyWhole i p margin) i { p with lastMargin := margin, noticeMargin := margin }
        [notice .marginDrift (word (s.recordTag i)) (signedWord margin)]
    else lightpathChanged s (s.applyWhole i p margin) i { p with lastMargin := margin } [] := by
  have hdrift : drifted p.noticeMargin margin s.globals.marginDrift = true ↔
      p.noticeMargin ≠ margin ∧ s.globals.marginDrift ≤ (margin - p.noticeMargin).natAbs := by
    simp [drifted]
  simp only [State.applyWhole, hout, hdrift]
  split
  · exact State.setLightpath_hand_changed hp _ _
  · exact State.setLightpath_changed hp _

/-! ### Results taken (R123) -/

/-- A result on a tag that names no record or on a RESERVED record is discarded (R123). -/
theorem State.applyResult_discarded {x : SweepResult}
    (h : s.named x.tag = none ∨ ∃ i p, s.named x.tag = some (i, p) ∧ p.state = .reserved) : s.applyResult x = s := by
  rcases h with hn | ⟨i, p, hn, hst⟩
  · rw [State.applyResult, hn]
  · simp only [State.applyResult, hn, hst, if_true]

variable {x : SweepResult}

theorem State.applyResult_lost (hn : s.named x.tag = some (i, p)) (hst : p.state ≠ .reserved)
    (hx : x.finding = .lost) : s.applyResult x = s.applyLost i p := by
  simp only [State.applyResult, hn, hst, if_false, hx]

/-- A WHOLE finding does not take a record out of BROKEN whose route does not stand (R124). -/
theorem State.applyResult_falls (hn : s.named x.tag = some (i, p)) (hst : p.state = .broken) {margin : Int}
    (hx : x.finding = .whole margin) (hm : 0 ≤ margin) (hr : s.routeStands p.route = false) :
    s.applyResult x = s := by
  simp [State.applyResult, hn, hst, hx, hm, hr, State.applyLost_broken]

theorem State.applyResult_whole (hn : s.named x.tag = some (i, p)) (hst : p.state ≠ .reserved) {margin : Int}
    (hx : x.finding = .whole margin)
    (h : ¬ (p.state = .broken ∧ 0 ≤ margin ∧ ¬ s.routeStands p.route = true)) :
    s.applyResult x = s.applyWhole i p margin := by
  simp only [State.applyResult, hn, hst, if_false, hx, if_neg h]

end

/-! ### The command -/

/-- The state in which the table applies the outstanding result: the Sweep Unit's flag is clear (R123). -/
def State.resultTaken (s : State) : State := s.setSweep { s.sweep with outstanding := none }

theorem exec_sweepResult {s : State} {x : SweepResult} (hr : s.running = true) (hx : s.sweep.outstanding = some x) :
    exec .sweepResult s = .next (s.resultTaken.applyResult x) := by
  simp only [exec, execSweepResult, hr, hx, if_true]
  rfl

/-- A result that changes the fields of a record, after it is taken. -/
theorem lightpathChanged.taken {s t : State} {i : Nat} {p : Lightpath} {ns : List Notice}
    (h : lightpathChanged s.resultTaken t i p ns) :
    sameBut [.sweep, .records, .notices] s t ∧ t.sweep = { s.sweep with outstanding := none } :=
  ⟨sameBut_then (s.setSweep_frame _) h.frame (by decide) (by decide), h.frame.2 .sweep (by decide)⟩

/-- Settles O49: by the record that the tag names, its state and the finding. -/
theorem sweepResultApplied : Obligations.SweepResultApplied := by
  unfold Obligations.SweepResultApplied
  intro s x hr hx
  have hexec := exec_sweepResult hr hx
  refine ⟨fun h => hexec.trans (congrArg _ (State.applyResult_discarded (s := s.resultTaken) h)), fun i p hn => ?_⟩
  obtain ⟨-, -, hp⟩ := (s.named_eq_some x.tag i p).mp hn
  have htag : s.resultTaken.recordTag i = x.tag := s.recordTag_of_named x.tag i p hn
  have hn : s.resultTaken.named x.tag = some (i, p) := hn
  have hp : s.resultTaken.lightpathAt i = some p := hp
  refine ⟨fun hf hst => ?_, fun hst hf => ?_, fun margin hf hst hm hstands => ?_, fun margin hf hst => ?_⟩
  · have hlive : p.state ≠ .reserved ∧ p.state ≠ .broken := by
      rcases hst with hst | hst <;> simp [hst]
    have hset := State.applyLost_changed hp hlive.2
    rw [State.applyResult_lost hn hlive.1 hf] at hexec
    rw [htag] at hset
    obtain ⟨hframe, hsweep⟩ := hset.taken
    exact ⟨_, hexec, hframe, hsweep, hset.record, hset.others, hset.told⟩
  · have hkept : s.resultTaken.applyResult x = s.resultTaken := by
      rcases hf with hf | ⟨margin, hf, hm, hstands⟩
      · rw [State.applyResult_lost hn (by simp [hst]) hf, State.applyLost_broken hst]
      · exact State.applyResult_falls hn hst hf hm hstands
    exact hexec.trans (congrArg _ hkept)
  · rw [State.applyResult_whole hn (by simp [hst]) hf (fun h => h.2.2 hstands)] at hexec
    obtain ⟨st, e, hout, hreserved, hactive, hdegraded⟩ := wholeOutcome_revives hst hm s.globals.recover
    have hmoved := State.applyWhole_moved hp hout
    rw [htag] at hmoved
    obtain ⟨hframe, hsweep⟩ := hmoved.taken
    have hgen : ((s.resultTaken.applyWhole i p margin).recordAt i).gen = (s.recordAt i).gen := by
      rw [hmoved.record]
      rfl
    have htold : ∀ {e' : NoticeEvent}, e = e' → handedNotices s (s.resultTaken.applyWhole i p margin)
        [notice e' (word x.tag) (signedWord margin)] := fun he => he ▸ hmoved.told
    exact ⟨_, st, hexec, hframe, hsweep, hgen, hmoved.lightpathAt, hmoved.others,
      fun h => (hreserved h).imp_right htold, fun h h' => (hactive h h').imp_right htold,
      fun h h' => (hdegraded h h').imp_right htold⟩
  · have hlive : p.state ≠ .reserved := by
      rcases hst with hst | hst | ⟨hst, -⟩ <;> simp [hst]
    have hstay : ¬ (p.state = .broken ∧ 0 ≤ margin ∧ ¬ s.resultTaken.routeStands p.route = true) := by
      rintro ⟨hbroken, hm, -⟩
      rcases hst with hst | hst | ⟨-, hlow⟩
      · simp [hst] at hbroken
      · simp [hst] at hbroken
      · omega
    rw [State.applyResult_whole hn hlive hf hstay] at hexec
    obtain ⟨p', ns, hset⟩ := State.applyWhole_changed hp margin
    obtain ⟨hframe, hsweep⟩ := hset.taken
    refine ⟨_, hexec, hframe, hsweep, hset.others, fun h => ?_, fun h => ?_, fun h => ?_⟩
    · have hmoved := State.applyWhole_moved hp (wholeOutcome_degrades h.1 h.2 s.globals.recover)
      rw [htag] at hmoved
      exact ⟨hmoved.lightpathAt, hmoved.told⟩
    · have hmoved := State.applyWhole_moved hp (wholeOutcome_restores h.1 h.2)
      rw [htag] at hmoved
      exact ⟨hmoved.lightpathAt, hmoved.told⟩
    · have hstayed := State.applyWhole_stayed hp (wholeOutcome_stays (recover := s.globals.recover) (h.imp_right
        (Or.imp_right fun hbroken => ⟨hbroken, by simpa [hbroken] using hst⟩)))
      rw [htag] at hstayed
      have hcond : s.resultTaken.globals = s.globals := rfl
      rw [hcond] at hstayed
      split
      · rename_i hdrift
        rw [if_pos hdrift] at hstayed
        exact ⟨hstayed.lightpathAt, hstayed.told⟩
      · rename_i hdrift
        rw [if_neg hdrift] at hstayed
        exact ⟨hstayed.lightpathAt, hstayed.told⟩

end Sys2Proof.Machine
end

