-- ==== Sys2Proof/Proofs/Adoptions.lean ====
section
/-! SUPPORT. What the Lightpath Table makes of an ADOPT (R120, R121): the route that a hop list gives, the FREE record of
lowest index, the answers, and the settlement of the statement about it. -/

namespace Sys2Proof.Machine

/-! ### The route of a hop list (R121) -/

/-- Where every element of a list has an image, the images stand at the places of the elements. -/
theorem getElem?_filterMap_of_isSome {α β : Type} {f : α → Option β} {l : List α} (h : ∀ x ∈ l, (f x).isSome = true)
    (i : Nat) : (l.filterMap f)[i]? = l[i]?.bind f := by
  induction l generalizing i with
  | nil => simp
  | cons x l ih =>
    obtain ⟨y, hy⟩ := Option.isSome_iff_exists.mp (h x List.mem_cons_self)
    rw [List.filterMap_cons_some hy]
    cases i with
    | zero => simp [hy]
    | succ i => simpa using ih (fun z hz => h z (List.mem_cons_of_mem x hz)) i

section

variable {s : State} {es : List AdoptEntry} {r : Route}

/-- An entry that names a hop has it as the hop that ADOPT finds. -/
theorem State.namesHop.found {i : Nat} {g : Hop} {far : NodeId} (h : s.namesHop es i g far) :
    ∃ e, es[i]? = some e ∧ s.adoptHop e = some (g, far) := by
  obtain ⟨e, a, k, d, l, he, ha, hport, hlink, hfar, hg⟩ := h.link
  exact ⟨e, he, (s.adoptHop_iff e g far).mpr ⟨a, k, d, l, ha, hport, hlink, hfar, hg⟩⟩

/-- Each entry of a hop list that gives a route names the hop of the route at its place. -/
theorem State.adopts.entry (h : s.adopts es r) {i : Nat} {e : AdoptEntry} (he : es[i]? = some e) :
    ∃ g far, r.hops[i]? = some g ∧ s.namesHop es i g far ∧ s.adoptHop e = some (g, far) ∧
      (es.length = i + 1 → r.dest = far) := by
  have hi : i < r.hops.length := h.length ▸ (List.getElem?_eq_some_iff.mp he).1
  obtain ⟨far, hnames, hdest⟩ := h.hops i _ (List.getElem?_eq_getElem hi)
  obtain ⟨e', he', hfound⟩ := hnames.found
  rw [he] at he'
  cases he'
  exact ⟨_, far, List.getElem?_eq_getElem hi, hnames, hfound, hdest⟩

/-- The hop that an entry names goes by the store alone. -/
theorem State.namesHop_popToTable {i : Nat} {g : Hop} {far : NodeId} :
    s.popToTable.namesHop es i g far ↔ s.namesHop es i g far :=
  ⟨fun h => ⟨h.link, h.next, h.dest⟩, fun h => ⟨h.link, h.next, h.dest⟩⟩

theorem State.adopts.popToTable (h : s.adopts es r) : s.popToTable.adopts es r where
  source := h.source
  length := h.length
  hops := by simpa only [State.namesHop_popToTable] using h.hops
  regens := h.regens

theorem State.adopts.noLinkFault (h : s.adopts es r) : s.adoptLinkFault (es.map (·.node)) es 0 = none :=
  (s.adoptLinkFault_iff es).2.mpr fun _ hk =>
    have ⟨g, far, _, hnames, _⟩ := h.entry (List.getElem?_eq_getElem hk)
    ⟨g, far, hnames⟩

/-- The hops that ADOPT finds are those of the route, at their places. -/
theorem State.adopts.getElem?_found (h : s.adopts es r) (i : Nat) :
    (es.filterMap s.adoptHop)[i]? = es[i]?.bind s.adoptHop := by
  refine getElem?_filterMap_of_isSome (fun e he => ?_) i
  obtain ⟨j, hj⟩ := List.getElem?_of_mem he
  obtain ⟨g, far, -, -, hfound, -⟩ := h.entry hj
  simp [hfound]

theorem State.adopts.found_hops (h : s.adopts es r) : (es.filterMap s.adoptHop).map (·.1) = r.hops := by
  refine List.ext_getElem? fun i => ?_
  rw [List.getElem?_map, h.getElem?_found]
  cases he : es[i]? with
  | none =>
    have hlen : r.hops.length ≤ i := h.length ▸ List.getElem?_eq_none_iff.mp he
    simp [List.getElem?_eq_none hlen]
  | some e =>
    obtain ⟨g, far, hg, -, hfound, -⟩ := h.entry he
    simp [hfound, hg]

theorem State.adopts.found_dest (h : s.adopts es r) :
    ((es.filterMap s.adoptHop).getLast?.map (·.2)).getD 0#32 = r.dest := by
  obtain ⟨e, he, -⟩ := h.source
  have hpos : 0 < es.length := (List.getElem?_eq_some_iff.mp he).1
  have hlen : (es.filterMap s.adoptHop).length = es.length := by
    rw [← h.length, ← h.found_hops, List.length_map]
  obtain ⟨g, far, -, -, hfound, hdest⟩ := h.entry (List.getElem?_eq_getElem (Nat.sub_lt hpos Nat.one_pos))
  rw [List.getLast?_eq_getElem?, hlen, h.getElem?_found, List.getElem?_eq_getElem (Nat.sub_lt hpos Nat.one_pos),
    Option.bind_some, hfound, hdest (by omega)]
  rfl

/-- ADOPT makes the route that the hop list gives. -/
theorem State.adopts.adoptRoute_eq (h : s.adopts es r) : s.adoptRoute es = r := by
  obtain ⟨e, he, hsource⟩ := h.source
  have hhead : (es.head?.map (·.node)).getD 0#32 = r.source := by
    rw [List.head?_eq_getElem?, he, hsource]
    rfl
  have hhops := h.found_hops
  have hdest := h.found_dest
  have hregens := h.regens
  cases r
  simp_all [State.adoptRoute]

/-- A hop list without a faulty entry asks for slots that there are (R120). -/
theorem State.adopts.slot_lt (h : s.adopts es r) (hes : ∀ i, ¬ entryFaulty es i) {g : Hop} (hg : g ∈ r.hops) :
    g.slot < 80 := by
  obtain ⟨i, hi⟩ := List.getElem?_of_mem hg
  obtain ⟨far, hnames, -⟩ := h.hops i g hi
  obtain ⟨e, _, _, _, _, he, _, _, _, _, rfl⟩ := hnames.link
  have hslot : ¬ 79 < e.slot := fun hlt => hes i ⟨e, he, .inr (.inr (.inl hlt))⟩
  show e.slot < 80
  omega

/-! ### Held slots (R109, R121) -/

theorem State.adoptHeldFault_eq_none {hops : List Hop} (hslots : ∀ g ∈ hops, g.slot < 80) :
    s.adoptHeldFault hops = none ↔ ∀ g ∈ hops, ¬ s.slotHeld g.link g.dir g.slot := by
  rw [State.adoptHeldFault, List.findIdx?_eq_none_iff]
  refine forall₂_congr fun g hg => ?_
  rw [← s.hasSlot_heldOn g.link g.dir g.slot (hslots g hg), Bool.not_eq_true]

/-- The first hop of a list whose slot is held. -/
theorem State.adoptHeldFault_eq_some {hops : List Hop} (hslots : ∀ g ∈ hops, g.slot < 80) {i : Nat} {g : Hop}
    (hg : hops[i]? = some g) (hheld : s.slotHeld g.link g.dir g.slot)
    (hfirst : ∀ j f, j < i → hops[j]? = some f → ¬ s.slotHeld f.link f.dir f.slot) :
    s.adoptHeldFault hops = some i := by
  obtain ⟨hi, rfl⟩ := List.getElem?_eq_some_iff.mp hg
  refine List.findIdx?_eq_some_iff_getElem.mpr ⟨hi, ?_, fun j hj => ?_⟩
  · exact (s.hasSlot_heldOn _ _ _ (hslots _ (List.getElem_mem hi))).mpr hheld
  · have hjlt : j < hops.length := Nat.lt_trans hj hi
    rw [s.hasSlot_heldOn _ _ _ (hslots _ (List.getElem_mem hjlt))]
    exact hfirst j _ hj (List.getElem?_eq_getElem hjlt)

end

/-! ### The FREE record of lowest index (R121) -/

theorem State.lightpathAt_eq_getElem (s : State) {i : Nat} (hi : i < s.records.length) :
    s.lightpathAt i = s.records[i].path := by
  simp [State.lightpathAt, State.recordAt, hi]

theorem State.lowestFreeRecord_eq_none {s : State} (h : ∀ i, i < s.records.length → s.lightpathAt i ≠ none) :
    s.lowestFreeRecord = none := by
  rw [State.lowestFreeRecord, Option.map_eq_none_iff, List.find?_eq_none]
  rintro ⟨x, i⟩ hx
  obtain ⟨hi, rfl⟩ : ∃ hi : i < s.records.length, s.records[i] = x :=
    List.getElem?_eq_some_iff.mp (List.mem_zipIdx_iff_getElem?.mp hx)
  simpa [s.lightpathAt_eq_getElem hi] using h i hi

theorem State.lowestFreeRecord_eq_some {s : State} {i : Nat} (hi : i < s.records.length) (hfree : s.lightpathAt i = none)
    (hbelow : ∀ j, j < i → s.lightpathAt j ≠ none) : s.lowestFreeRecord = some i := by
  have hfind : s.records.zipIdx.find? (fun (r, _) => r.path.isNone) = some (s.records[i], i) := by
    refine List.find?_eq_some_iff_getElem.mpr ⟨?_, i, by simpa using hi, by simp, fun j hj => ?_⟩
    · simpa [s.lightpathAt_eq_getElem hi] using hfree
    · have hjlt := Nat.lt_trans hj hi
      simpa [s.lightpathAt_eq_getElem hjlt, Option.isSome_iff_ne_none] using hbelow j hj
  rw [State.lowestFreeRecord, hfind]
  rfl

/-! ### What ADOPT does (R120, R121) -/

section

variable {s : State} {h : Handed} {q m n : Nat} {es : List AdoptEntry} {r : Route}

theorem adoptFormFault_count (hn : n = 0 ∨ 24 < n) : adoptFormFault n es = some 0 := if_pos hn

theorem adoptFormFault_entry {i : Nat} (h1 : 1 ≤ n) (h24 : n ≤ 24) (hi : entryFaulty es i)
    (hfirst : ∀ j, j < i → ¬ entryFaulty es j) : adoptFormFault n es = some i := by
  rw [adoptFormFault, if_neg (by omega)]
  exact ((entryFault_iff es).1 i).mpr ⟨hi, hfirst⟩

theorem adoptFormFault_none (h1 : 1 ≤ n) (h24 : n ≤ 24) (hes : ∀ i, ¬ entryFaulty es i) :
    adoptFormFault n es = none := by
  rw [adoptFormFault, if_neg (by omega)]
  exact (entryFault_iff es).2.mpr hes

theorem State.adopt_badForm {i : Nat} (hf : adoptFormFault n es = some i) :
    s.adopt h q m n es = s.reply h .badQuery i noTag .none := by
  rw [State.adopt, hf]

theorem State.adopt_noLink {i : Nat} (hf : adoptFormFault n es = none)
    (hl : s.adoptLinkFault (es.map (·.node)) es 0 = some i) :
    s.adopt h q m n es = s.reply h .conflict i noTag .none := by
  simp only [State.adopt, hf, hl]

/-- A hop list that gives a route asks for a slot that is held (R121 test 2). -/
theorem State.adopt_held {i : Nat} (hf : adoptFormFault n es = none) (hr : s.adopts es r)
    (hheld : s.adoptHeldFault r.hops = some i) : s.adopt h q m n es = s.reply h .conflict i noTag .none := by
  simp only [State.adopt, hf, hr.noLinkFault, hr.adoptRoute_eq, hheld]

theorem State.adopt_tableFull (hf : adoptFormFault n es = none) (hr : s.adopts es r)
    (hunheld : s.adoptHeldFault r.hops = none) (hfull : s.lowestFreeRecord = none) :
    s.adopt h q m n es =
      s.reply h .tableFull 0 noTag (.path (s.summarize r (budgetOf q m) noTag 0 0) (some r)) := by
  simp only [State.adopt, hf, hr.noLinkFault, hr.adoptRoute_eq, hunheld, hfull]

theorem State.adopt_into {i : Nat} (hf : adoptFormFault n es = none) (hr : s.adopts es r)
    (hunheld : s.adoptHeldFault r.hops = none) (hfree : s.lowestFreeRecord = some i) :
    s.adopt h q m n es = s.adoptInto h i r (budgetOf q m) := by
  simp only [State.adopt, hf, hr.noLinkFault, hr.adoptRoute_eq, hunheld, hfree]

theorem exec_adopt {rest : List Handed} (hrun : s.running = true) (hh : s.handoffs.toTable = h :: rest)
    (hb : h.query.body = .adopt q m n es) : exec .adopt s = .next (s.popToTable.adopt h q m n es) := by
  simp only [exec, execAdopt, hrun, hh, hb, if_true]

end

/-! ### Values that go by the store alone (R72, R93, R121) -/

theorem State.worstNoise_of_store {s t : State} (h : t.store = s.store) (r : Route) : t.worstNoise r = s.worstNoise r := by
  have hadd : t.addNoise r.source = s.addNoise r.source := by
    simp only [State.addNoise, State.nodeOf, State.nodeEntry, h]
  rw [State.worstNoise, State.routeNoises, hadd, segmentNoises_of_store h]
  rfl

theorem State.summarize_popToTable (s : State) (r : Route) (budget tag labels restarts : Nat) :
    s.popToTable.summarize r budget tag labels restarts = s.summaryOf r budget tag labels restarts := by
  have hworst : s.popToTable.worstNoise r = s.worstNoise r :=
    State.worstNoise_of_store (s := s) (t := s.popToTable) rfl r
  rw [State.summarize, hworst]
  rfl

/-- The regeneration points at whose nodes more regenerators are in use than there are (R121). -/
theorem State.overCommitted_eq {s t : State} (h : t.store = s.store) (points : List NodeId) :
    s.overCommitted points =
      (points.filter fun id => (t.nodeOf id).any fun x => decide (x.regenTotal < x.regenInUse)).length := by
  have hnode : ∀ id, t.nodeOf id = s.nodeOf id := fun id => by simp only [State.nodeOf, State.nodeEntry, h]
  simp only [State.overCommitted, hnode]
  congr 2
  funext id
  cases s.nodeOf id <;> rfl

/-! ### The answers to an ADOPT (R120, R121) -/

/-- The record that an ADOPT enters (R121). -/
def State.adopted (s : State) (r : Route) (budget : Nat) : Lightpath :=
  { state := .active, origin := .adopted, route := r, budget := budget
    lastMargin := (budget : Int) - s.worstNoise r, noticeMargin := (budget : Int) - s.worstNoise r
    timer := none, partner := none }

/-- An ADOPT that enters its record, tells of it, has it evaluated and answers. -/
theorem State.adoptInto_popToTable (s : State) (h : Handed) (i : Nat) (r : Route) (budget : Nat) :
    s.popToTable.adoptInto h i r budget =
      ((((s.popToTable.fillRecord i (s.adopted r budget)).hand
        (notice .activated (word (s.recordTag i)) 3#32)).addEvaluation i).reply h .done
          ((s.popToTable.fillRecord i (s.adopted r budget)).overCommitted r.regens) (s.recordTag i)
          (.path (s.summaryOf r budget (s.recordTag i) 0 0) (some r))) := by
  have hworst : s.popToTable.worstNoise r = s.worstNoise r :=
    State.worstNoise_of_store (s := s) (t := s.popToTable) rfl r
  have htag : s.popToTable.recordTag i = s.recordTag i := rfl
  simp only [State.adoptInto, hworst, htag, State.summarize_popToTable]
  rfl

/-- A record is entered by an ADOPT and the query answered (R110, R121). -/
theorem adopted_answered {s : State} {h : Handed} {rest : List Handed} {i : Nat} {r : Route} {budget : Nat} {t : State}
    (hh : s.handoffs.toTable = h :: rest) (hi : i < s.records.length)
    (ht : t = s.popToTable.adoptInto h i r budget) :
    tableAnswered [.store, .records, .notices, .sweep] s t h rest .done
        (word (r.regens.filter fun id => (t.nodeOf id).any fun x => decide (x.regenTotal < x.regenInUse)).length)
        (s.recordTag i) (.path (s.summaryOf r budget (s.recordTag i) 0 0) (some r)) ∧
      t.recordAt i = { gen := (s.recordAt i).gen, path := some (s.adopted r budget) } ∧
      (∀ j, j ≠ i → t.recordAt j = s.recordAt j) ∧
      regensChanged s t (fun n => n.regenInUse + r.regens.count n.id) ∧
      handedNotices s t [notice .activated (word (s.recordTag i)) 3#32] ∧
      t.sweep = { s.sweep with pendingSet := insertAscending s.sweep.pendingSet i } := by
  rw [State.adoptInto_popToTable] at ht
  have hfill := s.popToTable.fillRecord_frame i (s.adopted r budget)
  have hrecord := fun j => s.popToTable.fillRecord_recordAt i j (s.adopted r budget)
  have htaken := s.popToTable.fillRecord_taken i (s.adopted r budget)
  generalize s.popToTable.fillRecord i (s.adopted r budget) = u at *
  have htold : sameBut [.notices, .sweep] u ((u.hand (notice .activated (word (s.recordTag i)) 3#32)).addEvaluation i) :=
    sameBut_then (u.hand_frame _) (State.addEvaluation_frame _ i) (by decide) (by decide)
  have hreply := State.reply_frame ((u.hand (notice .activated (word (s.recordTag i)) 3#32)).addEvaluation i) h .done
    (u.overCommitted r.regens) (s.recordTag i) (.path (s.summaryOf r budget (s.recordTag i) 0 0) (some r))
  rw [← ht] at hreply
  have hstore : t.store = u.store := hreply.2 .store (by decide)
  have hrecords := State.recordAt_congr (s := u) (hreply.2 .records (by decide))
  have hregens : regensTaken s t r.regens := htaken.of_store rfl hstore
  refine ⟨?_, ?_, fun j hj => ?_, hregens.changed, ?_, ?_⟩
  · rw [← State.overCommitted_eq hstore, ht]
    exact tableAnswered_reply hh (sameBut_then hfill htold (by decide) (by decide)) (by decide) _ _ _ _
  · rw [hrecords, hrecord, if_pos ⟨rfl, hi⟩]
    rfl
  · rw [hrecords, hrecord, if_neg fun hij => hj hij.1.symm]
    rfl
  · have hkept : u.notices = s.notices := hfill.2 .notices (by decide)
    exact (hreply.2 .notices (by decide)).trans (by simp [hkept])
  · have hkept : u.sweep = s.sweep := hfill.2 .sweep (by decide)
    exact (hreply.2 .sweep (by decide)).trans (by simp [hkept])

/-- Settles O47: by the first of the tests that the hop list fails, and then by the FREE record of lowest index. -/
theorem adoptEntersRecord : Obligations.AdoptEntersRecord := by
  unfold Obligations.AdoptEntersRecord
  rintro s h rest q m n es _ hrun hh hb rfl
  have hexec := exec_adopt hrun hh hb
  have refused : ∀ {st : Status} {detail : Nat} {body : AnswerBody},
      s.popToTable.adopt h q m n es = s.popToTable.reply h st detail noTag body →
      ∃ t, exec .adopt s = .next t ∧ sameBut [.handoffs, .dispatcher, .writer] s t ∧
        t.handoffs = { s.handoffs with toTable := rest } ∧ replied s t h st (word detail) 0xFFFF body := fun hdone => by
    obtain ⟨hframe, hhandoffs, hreplied⟩ := tableAnswered_at_once hh _ _ noTag _
    exact ⟨_, hexec.trans (congrArg _ hdone), hframe, hhandoffs, hreplied⟩
  refine ⟨fun hn => refused (State.adopt_badForm (adoptFormFault_count hn)),
    fun h1 h24 i hi hfirst => refused (State.adopt_badForm (adoptFormFault_entry h1 h24 hi hfirst)),
    fun h1 h24 hes i hi hnone hfirst => ?_, fun r h1 h24 hes hr => ?_⟩
  · have hfault : s.popToTable.adoptLinkFault (es.map (·.node)) es 0 = some i :=
      ((s.popToTable.adoptLinkFault_iff es).1 i).mpr (by
        simpa only [State.namesHop_popToTable] using ⟨hi, hnone, hfirst⟩)
    exact refused (State.adopt_noLink (adoptFormFault_none h1 h24 hes) hfault)
  have hslots : ∀ g ∈ r.hops, g.slot < 80 := fun g hg => hr.slot_lt hes hg
  have hform := adoptFormFault_none h1 h24 hes
  have hfree : (∀ g ∈ r.hops, ¬ s.slotHeld g.link g.dir g.slot) → s.popToTable.adoptHeldFault r.hops = none :=
    (State.adoptHeldFault_eq_none (s := s) hslots).mpr
  refine ⟨fun i g hg hheld hfirst => ?_, fun hunheld hfull => ?_, fun i tag hunheld hi hnopath hbelow htag => ?_⟩
  · have hfault : s.popToTable.adoptHeldFault r.hops = some i :=
      State.adoptHeldFault_eq_some (s := s) hslots hg hheld hfirst
    exact refused (State.adopt_held hform hr.popToTable hfault)
  · have hnone : s.popToTable.lowestFreeRecord = none := State.lowestFreeRecord_eq_none (s := s) hfull
    have hdone := State.adopt_tableFull (h := h) (q := q) (m := m) hform hr.popToTable (hfree hunheld) hnone
    rw [State.summarize_popToTable] at hdone
    exact refused hdone
  · have hlowest : s.popToTable.lowestFreeRecord = some i :=
      State.lowestFreeRecord_eq_some (s := s) hi hnopath hbelow
    have hdone := State.adopt_into (h := h) (q := q) (m := m) hform hr.popToTable (hfree hunheld) hlowest
    obtain ⟨⟨hframe, hhandoffs, hreplied⟩, hrecord, hothers, hregens, htold, hsweep⟩ :=
      adopted_answered (r := r) (budget := budgetOf q m) hh hi rfl
    have htag : s.recordTag i = tag := htag.symm
    rw [htag] at hreplied htold
    refine ⟨_, hexec.trans (congrArg _ hdone), hframe, hhandoffs, ?_, congrArg LpRecord.path hrecord, hothers, hregens,
      htold, hsweep, hreplied⟩
    rw [hrecord]

end Sys2Proof.Machine
end

