-- ==== Sys2Proof/Proofs/Holds.lean ====
section
/-! SUPPORT. The slots that the records hold on the directions of the links (R109), what a record that is filled does to
them, and the settlement of the statement about commits and ADOPT. -/

namespace Sys2Proof.Machine

/-! ### Holds in force (R109) -/

/-- In-use counts are no part of the node ids and of the ends of links. -/
theorem regensChanged.sameEnds {s t : State} {f : Node → Nat} (h : regensChanged s t f) : sameEnds s t where
  ids i := by
    have hid := congrArg (Option.map (·.id)) (h.nodes i)
    simpa only [Option.map_map, Function.comp_def] using hid
  ends k := by rw [State.linkAt, h.links, State.linkAt]

/-- What a route holds is a matter of ids and ends. -/
theorem sameEnds.routeHolds {s t : State} (h : sameEnds s t) (r : Route) (k : Nat) (d : Dir) :
    t.routeHolds r k d = s.routeHolds r k d := by
  simp only [State.routeHolds, h.namesLink]

/-- A route holds slots on the directions of its hops alone. -/
theorem State.routeHolds_hop {s : State} {r : Route} {k : Nat} {d : Dir} {g : Nat}
    (h : hasSlot (s.routeHolds r k d) g = true) : ∃ f ∈ r.hops, f.link = k ∧ f.dir = d ∧ f.slot = g := by
  obtain ⟨f, n, hmem, hlink, hdir, hslot, -⟩ := (s.hasSlot_routeHolds r k d g (hasSlot_lt h)).mp h
  exact ⟨f, (r.mem_hops_iff f).mpr ⟨n, hmem⟩, hlink, hdir, hslot⟩

/-- A slot of a direction is held when the route of a record holds it. -/
theorem State.hasSlot_heldOn_iff (s : State) (k : Nat) (d : Dir) (g : Nat) :
    hasSlot (s.heldOn k d) g = true ↔
      ∃ i p, s.lightpathAt i = some p ∧ hasSlot (s.routeHolds p.route k d) g = true := by
  by_cases hg : g < 80
  · simp only [s.hasSlot_heldOn k d g hg, State.slotHeld, s.hasSlot_routeHolds _ k d g hg, exists_and_left]
  · exact ⟨fun h => absurd (hasSlot_lt h) hg, fun ⟨_, _, _, h⟩ => absurd (hasSlot_lt h) hg⟩

/-- The slots that a route asks for are free when no record holds them (R95, R121). -/
theorem State.routeUnheld_iff (s : State) (r : Route) :
    s.routeUnheld r = true ↔ ∀ f ∈ r.hops, ∀ i p, s.lightpathAt i = some p →
      ¬ hasSlot (s.routeHolds p.route f.link f.dir) f.slot = true := by
  simp only [State.routeUnheld, List.all_eq_true, Bool.not_eq_true', ← Bool.not_eq_true, State.hasSlot_heldOn_iff,
    not_exists, not_and]

/-- The slots of a free route are in no record's hold. -/
theorem State.not_holds_of_routeUnheld {s : State} {r : Route} (h : s.routeUnheld r = true) {k : Nat} {d : Dir} {g i : Nat}
    {p : Lightpath} (hp : s.lightpathAt i = some p) (hr : hasSlot (s.routeHolds r k d) g = true) :
    ¬ hasSlot (s.routeHolds p.route k d) g = true := by
  obtain ⟨f, hf, rfl, rfl, rfl⟩ := State.routeHolds_hop hr
  exact (s.routeUnheld_iff r).mp h f hf i p hp

/-- A hop list without a held slot is free (R121). -/
theorem State.routeUnheld_of_adoptHeldFault {s : State} {r : Route} (h : s.adoptHeldFault r.hops = none) :
    s.routeUnheld r = true := by
  simpa [State.routeUnheld, State.adoptHeldFault] using h

/-! ### Holds that stay exclusive (R109) -/

/-- What is held goes by the store and the records. -/
theorem State.slotsHeldOnce.of_parts {s t : State} (h : s.slotsHeldOnce) (hstore : t.store = s.store)
    (hrecords : t.records = s.records) : t.slotsHeldOnce := by
  have hpath : ∀ i, t.lightpathAt i = s.lightpathAt i := fun i => by simp only [State.lightpathAt, State.recordAt, hrecords]
  have hends : sameEnds s t :=
    ⟨fun i => by simp only [State.nodeAt, hstore], fun k => by simp only [State.linkAt, hstore]⟩
  intro k d g i j p q hp hq
  rw [hpath] at hp hq
  rw [hends.routeHolds, hends.routeHolds]
  exact h k d g i j p q hp hq

/-- What happens outside the store and the records keeps the holds exclusive. -/
theorem State.slotsHeldOnce.frame {s t : State} {ps : List Part} (h : s.slotsHeldOnce) (hframe : sameBut ps s t)
    (hstore : Part.store ∉ ps) (hrecords : Part.records ∉ ps) : t.slotsHeldOnce :=
  h.of_parts (hframe.2 .store hstore) (hframe.2 .records hrecords)

section

variable {s : State} {i : Nat} {p : Lightpath}

/-- Once a record has been filled, a lightpath is the new one in it or an old one. -/
theorem State.fillRecord_lightpathAt {j : Nat} {x : Lightpath} (h : (s.fillRecord i p).lightpathAt j = some x) :
    j = i ∧ x = p ∨ s.lightpathAt j = some x := by
  rw [State.lightpathAt, State.fillRecord_recordAt] at h
  split at h
  next hij => exact .inl ⟨hij.1.symm, (Option.some.inj h).symm⟩
  next => exact .inr h

theorem State.fillRecord_routeHolds (s : State) (i : Nat) (p : Lightpath) (r : Route) (k : Nat) (d : Dir) :
    (s.fillRecord i p).routeHolds r k d = s.routeHolds r k d :=
  (s.fillRecord_taken i p).changed.sameEnds.routeHolds r k d

/-- A record filled with a route whose slots are free shares none with another. -/
theorem State.slotsHeldOnce.fillRecord (h : s.slotsHeldOnce) (hfree : s.routeUnheld p.route = true) :
    (s.fillRecord i p).slotsHeldOnce := by
  intro k d g a b x y hx hy hxg hyg
  rw [State.fillRecord_routeHolds] at hxg hyg
  rcases State.fillRecord_lightpathAt hx with ⟨rfl, rfl⟩ | hxold
  · rcases State.fillRecord_lightpathAt hy with ⟨rfl, -⟩ | hyold
    · rfl
    · exact absurd hyg (State.not_holds_of_routeUnheld hfree hyold hxg)
  · rcases State.fillRecord_lightpathAt hy with ⟨rfl, rfl⟩ | hyold
    · exact absurd hxg (State.not_holds_of_routeUnheld hfree hxold hyg)
    · exact h k d g a b x y hxold hyold hxg hyg

/-- The slots of a route stay free when a record is filled with a route that has no direction in common with it. -/
theorem State.routeUnheld_fillRecord {r : Route} (hr : s.routeUnheld r = true)
    (hdisjoint : ∀ f ∈ p.route.hops, ∀ g ∈ r.hops, (f.link, f.dir) ≠ (g.link, g.dir)) :
    (s.fillRecord i p).routeUnheld r = true := by
  rw [State.routeUnheld_iff]
  intro g hg j x hx hheld
  rw [State.fillRecord_routeHolds] at hheld
  rcases State.fillRecord_lightpathAt hx with ⟨-, rfl⟩ | hx
  · obtain ⟨f, hf, hlink, hdir, -⟩ := State.routeHolds_hop hheld
    exact hdisjoint f hf g hg (by rw [hlink, hdir])
  · exact (s.routeUnheld_iff r).mp hr g hg j x hx hheld

end

/-! ### Commits (R95, R113) -/

section

variable {s : State} {q : CommitRequest}

/-- The table accepts a request only when the slots of its routes are free (R95). -/
theorem State.routeUnheld_of_accepted {i : Nat} {j : Option Nat} (h : s.judgeCommit q = .accepted i j) :
    ∀ r ∈ q.routes, s.routeUnheld r = true := by
  have hholdable : s.holdableRoutes q.routes = true := by
    unfold State.judgeCommit at h
    split at h
    next => cases h
    next =>
      split at h
      next => cases h
      next hno => simpa using hno
  simp only [State.holdableRoutes, Bool.and_eq_true, List.all_eq_true] at hholdable
  exact hholdable.1

/-- The records of an accepted request: one for each route, or one for the first route alone. -/
theorem State.slotsHeldOnce.reserve (h : s.slotsHeldOnce) (i : Nat) (j : Option Nat)
    (hfree : ∀ r ∈ q.routes, s.routeUnheld r = true)
    (hdisjoint : ∀ r, q.second = some r → ∀ f ∈ q.first.hops, ∀ g ∈ r.hops, (f.link, f.dir) ≠ (g.link, g.dir)) :
    (s.reserve q i j).slotsHeldOnce := by
  have hfirst : s.routeUnheld q.first = true := hfree _ List.mem_cons_self
  unfold State.reserve
  split
  next r j hsecond =>
    have hr : s.routeUnheld r = true := hfree r (by simp [CommitRequest.routes, hsecond])
    exact State.slotsHeldOnce.fillRecord (h.fillRecord hfirst) (State.routeUnheld_fillRecord hr (hdisjoint r hsecond))
  next => exact h.fillRecord hfirst

theorem State.slotsHeldOnce.takeCommit (h : s.slotsHeldOnce) (e : EngineId) (ctx : Context) (ls : List Label)
    (hdisjoint : ∀ r, q.second = some r → ∀ f ∈ q.first.hops, ∀ g ∈ r.hops, (f.link, f.dir) ≠ (g.link, g.dir)) :
    (s.takeCommit e ctx ls q).slotsHeldOnce := by
  have hstore : Part.store ∉ [enginePart e, .writer] := by cases e <;> decide
  have hrecords : Part.records ∉ [enginePart e, .writer] := by cases e <;> decide
  unfold State.takeCommit
  split
  next => exact h.frame (s.failAttempt_frame e ctx _ _) hstore hrecords
  next => exact h.frame (s.failAttempt_frame e ctx _ _) hstore hrecords
  next => exact h.frame (s.engineAnswer_frame e ctx _ _ _ _) hstore hrecords
  next i j hjudged =>
    exact (h.reserve i j (State.routeUnheld_of_accepted hjudged) hdisjoint).frame
      (State.engineAnswer_frame _ e ctx _ _ _ _) hstore hrecords

end

/-! ### ADOPT (R121) -/

section

variable {s : State}

theorem State.slotsHeldOnce.adoptInto (hs : s.slotsHeldOnce) (h : Handed) (i : Nat) {r : Route} (budget : Nat)
    (hfree : s.routeUnheld r = true) : (s.adoptInto h i r budget).slotsHeldOnce := by
  have hfilled : (s.fillRecord i (s.adopted r budget)).slotsHeldOnce := hs.fillRecord hfree
  have htold := hfilled.frame (sameBut_then (State.hand_frame _ (notice .activated (word (s.recordTag i)) 3#32))
    (State.addEvaluation_frame _ i) (by decide) (by decide) : sameBut [.notices, .sweep] _ _) (by decide) (by decide)
  exact htold.frame (State.reply_frame _ h _ _ _ _) (by decide) (by decide)

theorem State.slotsHeldOnce.adopt (hs : s.slotsHeldOnce) (h : Handed) (q m n : Nat) (es : List AdoptEntry) :
    (s.adopt h q m n es).slotsHeldOnce := by
  have replied : ∀ st detail tag body, (s.reply h st detail tag body).slotsHeldOnce := fun st detail tag body =>
    hs.frame (s.reply_frame h st detail tag body) (by decide) (by decide)
  unfold State.adopt
  split
  next => exact replied _ _ _ _
  next =>
    split
    next => exact replied _ _ _ _
    next =>
      dsimp only
      split
      next => exact replied _ _ _ _
      next hunheld =>
        split
        next => exact replied _ _ _ _
        next i hi => exact hs.adoptInto h i _ (State.routeUnheld_of_adoptHeldFault hunheld)

end

/-- Settles O45: a record is filled only with a route whose slots no other record holds, and two routes of one commit
share no direction. -/
theorem holdsStayExclusive : Obligations.HoldsStayExclusive := by
  unfold Obligations.HoldsStayExclusive
  refine fun s t hs => ⟨fun e ctx ls q he ht hdisjoint => ?_, fun ht => ?_⟩
  · by_cases hrun : s.running = true
    · rw [exec_commit s e ctx ls q hrun he] at ht
      cases ht
      exact hs.takeCommit e ctx ls hdisjoint
    · rw [show exec (.commit e) s = .next s from if_neg hrun] at ht
      cases ht
      exact hs
  · simp only [exec, execAdopt] at ht
    split at ht
    next =>
      split at ht
      next => cases ht; exact hs
      next h _ _ =>
        split at ht
        next => cases ht; exact State.slotsHeldOnce.adopt (s := s.popToTable) hs _ _ _ _ _
        next => cases ht; exact hs
    next => cases ht; exact hs

end Sys2Proof.Machine
end
